-- ==== Sys2Proof/Word.lean ====
section
/-! DEFINITION. The fixed widths of the block (spec/00_scope.md R10): every value is an unsigned
integer of a stated width, and none is signed. -/

namespace Sys2Proof

/-- `u8`: a byte of data (R10). -/
abbrev Byte := BitVec 8

/-- `u16`: one word of the multiplexed AD bus; `AD_WIDTH` of R8 is this width. -/
abbrev Half := BitVec 16

/-- `u32`: a bus address, an operand or a result value; `ADDR_WIDTH` of R8 is this width. -/
abbrev Word := BitVec 32

/-- `u1`: the level of one pin (R26, R28). -/
abbrev Level := BitVec 1

end Sys2Proof
end

