-- ==== Sys2Proof/Machine/Bits.lean ====
section
/-! DEFINITION. Byte order and bit fields (spec/00_scope.md R10, R15; spec/20_memory.md R60, R61). -/

namespace Sys2Proof

/-- `hi16(w)` of R15: bits 31:16. -/
def hi16 (w : Word) : Half := w.extractLsb' 16 16

/-- `lo16(w)` of R15: bits 15:0. -/
def lo16 (w : Word) : Half := w.extractLsb' 0 16

/-- The byte at the even byte address of a bus word: bits 15:8 (R60). -/
def hiByte (w : Half) : Byte := w.extractLsb' 8 8

/-- The byte at the odd byte address of a bus word: bits 7:0 (R60). -/
def loByte (w : Half) : Byte := w.extractLsb' 0 8

/-- `be16(b0, b1) = {b0, b1}` of R15, with `b0` in bits 15:8. -/
def be16 (b0 b1 : Byte) : Half := b0 ++ b1

/-- The two bytes of a sampled word, in the order R60 appends them. -/
def halfBytes (w : Half) : List Byte := [hiByte w, loByte w]

/-- Four bytes of a command record as a big-endian `u32` (spec/30_encoding.md R101). -/
def be32 (b0 b1 b2 b3 : Byte) : Word := b0 ++ b1 ++ b2 ++ b3

/-- A `u32` as the four big-endian bytes of a command record (R101). -/
def wordBytes (w : Word) : List Byte :=
  [w.extractLsb' 24 8, w.extractLsb' 16 8, w.extractLsb' 8 8, w.extractLsb' 0 8]

/-- `bytes[i..j)` of R10: the sub-sequence from `i` to `j - 1`. -/
def slice (bs : List Byte) (i j : Nat) : List Byte := (bs.drop i).take (j - i)

end Sys2Proof
end

