-- ==== Sys2Proof/Machine/Event.lean ====
section
/-! DEFINITION. The event alphabet of the block's trace (spec/10_state.md R40, R41) and the names its
events carry (spec/00_scope.md R12). -/

namespace Sys2Proof.Machine

/-- The control lines of `Ctrl(line, level)` (R12). -/
inductive Line where
  | wr
  | rd
  | aleh
  | alel
  | rst
deriving DecidableEq, Repr

/-- The delay parameters an event may name (R12). The wait is at least the parameter's value; the event
carries the name (spec/70_reset_and_hazards.md R334). -/
inductive DelayKind where
  | tSetup
  | tHold
  | tAccess
  | tWpw
  | tRstAssert
  | tRstRelease
deriving DecidableEq, Repr

/-- One event of the trace (R41). -/
inductive Event where
  /-- `DIR(out)`, emitted by `SetDir`. -/
  | dir (out : Bool)
  /-- `OUT(v)`, emitted by `Drive`. -/
  | out (v : Half)
  /-- `CTRL(line, level)`; for the reset line the level is the pin level. -/
  | ctrl (line : Line) (level : Level)
  /-- `DELAY(kind)`. -/
  | delay (kind : DelayKind)
  /-- `SAMPLE(v)`, with the word the environment answered. -/
  | sample (v : Half)
  /-- `SLEEP(ms)`. -/
  | sleep (ms : Nat)
  /-- `YIELD`: the host may run its own service work and touches nothing of the block (R224, R330). -/
  | yield
  /-- `JOY(tx, rx)`: the bytes sent, and the bytes received or `NORESP` (`none`). -/
  | joy (tx : List Byte) (rx : Option (List Byte))
deriving DecidableEq, Repr

end Sys2Proof.Machine
end

