-- ==== Sys2Proof/Config.lean ====
section
/-! DEFINITION. The implementation's parameters as one plain structure (spec/00_scope.md R8) and the free
values the spec leaves open. The parameters' values, and the relations R9 puts on them, are in
Sys2Proof/Machine/Parameters.lean. -/

namespace Sys2Proof

/-- The parameters of R8, one field a row. Sizes are in bytes, serial and bus delays in nanoseconds
(a unit of the model's: no rule depends on a duration, R334). The last rows that R8 derives from others
are functions in Machine/Parameters.lean. -/
structure Params where
  /-- `ROM_BASE` -/
  romBase : Nat
  /-- `SRAM_BASE` -/
  sramBase : Nat
  /-- `FLASH_BASE` -/
  flashBase : Nat
  /-- `FLASH_CMD_ADDR` -/
  flashCmdAddr : Nat
  /-- `ROM_SPACE` -/
  romSpace : Nat
  /-- `ROM_PROBE_STEP` -/
  romProbeStep : Nat
  /-- `ROM_FP_LEN` -/
  romFpLen : Nat
  /-- `SRAM_SIZE` -/
  sramSize : Nat
  /-- `SRAM_PROBE_OFFSET` -/
  sramProbeOffset : Nat
  /-- `SRAM_SENTINEL` -/
  sramSentinel : Half
  /-- `SRAM_BURST` -/
  sramBurst : Nat
  /-- `EEPROM_BLOCK` -/
  eepromBlock : Nat
  /-- `EEPROM_4K_SIZE` -/
  eeprom4kSize : Nat
  /-- `EEPROM_16K_SIZE` -/
  eeprom16kSize : Nat
  /-- `EEPROM_MAX_RETRIES` -/
  eepromMaxRetries : Nat
  /-- `JOY_CMD_INFO` -/
  joyCmdInfo : Byte
  /-- `JOY_CMD_READ` -/
  joyCmdRead : Byte
  /-- `JOY_CMD_WRITE` -/
  joyCmdWrite : Byte
  /-- `JOY_TYPE_4K` -/
  joyType4k : Byte
  /-- `JOY_TYPE_16K` -/
  joyType16k : Byte
  /-- `JOY_RX_TIMEOUT`; no rule of the block depends on it (R193). -/
  joyRxTimeout : Nat
  /-- `JOY_T_BIT`; no rule depends on it (R192). -/
  joyTBit : Nat
  /-- `JOY_T_STOP_LO`; no rule depends on it (R192). -/
  joyTStopLo : Nat
  /-- `FLASH_CMD_RESET` -/
  flashCmdReset : Word
  /-- `FLASH_CMD_READ_ARRAY` -/
  flashCmdReadArray : Word
  /-- `FLASH_CMD_STATUS_MODE` -/
  flashCmdStatusMode : Word
  /-- `FLASH_CMD_ERASE_SELECT` -/
  flashCmdEraseSelect : Word
  /-- `FLASH_CMD_ERASE_MODE` -/
  flashCmdEraseMode : Word
  /-- `FLASH_CMD_PROGRAM` -/
  flashCmdProgram : Word
  /-- `FLASH_CMD_PAGE_SELECT` -/
  flashCmdPageSelect : Word
  /-- `FLASH_CMD_EXECUTE` -/
  flashCmdExecute : Word
  /-- `FLASH_IDLE_SIG[0]` -/
  flashIdleSig0 : Vector Byte 8
  /-- `FLASH_IDLE_SIG[1]` -/
  flashIdleSig1 : Vector Byte 8
  /-- `FLASH_IDLE_SIG[2]` -/
  flashIdleSig2 : Vector Byte 8
  /-- `FLASH_DEVICE_IDS` -/
  flashDeviceIds : List Byte
  /-- `FLASH_POLL_MAX` -/
  flashPollMax : Nat
  /-- `FLASH_POLL_SLEEP`, in milliseconds -/
  flashPollSleep : Nat
  /-- `FLASH_STATUS_LEN` -/
  flashStatusLen : Nat
  /-- `FLASH_BLOCK` -/
  flashBlock : Nat
  /-- `FLASH_PAGE` -/
  flashPage : Nat
  /-- `FLASH_CHUNK` -/
  flashChunk : Nat
  /-- `FLASH_SECTOR` -/
  flashSector : Nat
  /-- `FLASH_SIZE` -/
  flashSize : Nat
  /-- `T_SETUP` -/
  tSetup : Nat
  /-- `T_HOLD` -/
  tHold : Nat
  /-- `T_ACCESS` -/
  tAccess : Nat
  /-- `T_WPW` -/
  tWpw : Nat
  /-- `T_RST_ASSERT` -/
  tRstAssert : Nat
  /-- `T_RST_RELEASE` -/
  tRstRelease : Nat
  /-- `RESET_ACTIVE_LEVEL` -/
  resetActiveLevel : Level
  /-- `AUTOINC_WRAP`: `none`, or the span of the window the counter wraps in (R66). -/
  autoincWrap : Option Nat
deriving DecidableEq, Repr

/-- FREE VALUE (DESIGN CHOICE of form, log 9; safe). The oracle's answer to a `Sample()`
(spec/20_memory.md R63: "a draw `u16` under no law. It may depend on the whole trace so far and on the
environment state"). Arguments: which environment, and the trace so far, newest event first. -/
opaque Config.sampleAnswer : Nat → List Machine.Event → Half

/-- FREE VALUE (DESIGN CHOICE of form, log 9; safe). The oracle's answer to a `JoyXfer` (R63, R193): the
bytes the device sends, or no start of an answer. Arguments: which environment, the trace so far, and
the frame sent. -/
opaque Config.joyAnswer : Nat → List Machine.Event → List Byte → Option (List Byte)

/-- FREE VALUE (log 11; safe). The level of AD lines that nothing drives while no pull-up is enabled: R29
states no level for that case. -/
opaque Config.floatingLines : Nat → List Machine.Event → Half

/-- FREE VALUE (log 12; safe). The cartridge's address counter while its reset input is asserted
(spec/20_memory.md R95 "`CA` to an unspecified value"; spec/93 I3). -/
opaque Config.counterInReset : Nat → List Machine.Event → Word

/-- FREE VALUE (log 12; safe). The reference FlashRAM's byte pointer `FP` while the cartridge's reset input is
asserted: R95 does not name it, and a read with no latch since the reset samples any value
(spec/40_bus_primitives.md R134). -/
opaque Config.pointerInReset : Nat → List Machine.Event → Option Nat

/-- FREE VALUE (DESIGN CHOICE of form, log 39; safe). What a 32-bit field of the block holds for a size or a
count that no `u32` is: spec/00_scope.md R9 admits parameters that lead to one, and no rule says how it is
reported. -/
opaque Config.reportedPast32 : Nat → Word

/-- FREE VALUE (log 23; safe). The draw `b ≥ 0` that EXECUTE leaves in the reference chip's `BUSY`
(spec/20_memory.md R88). -/
opaque Config.busyDraw : Nat → List Machine.Event → Nat

/-- FREE VALUE (log 23; safe). The eight bytes of the reference chip's busy pattern before the limit of R89
("equals no entry of `FLASH_IDLE_SIG`") is put on them. -/
opaque Config.busyPatternDraw : Nat → List Machine.Event → BitVec 64

end Sys2Proof
end

