-- ==== Sys2Proof/Syntax.lean ====
section
/-! DEFINITION. The operations of the block, one constructor for each row of spec/opcode_table.json
(spec/30_encoding.md R104, R105, R111). Operands are fields of the command record (R101, R102); a
field the operation does not use is no operand of its constructor (R103). -/

namespace Sys2Proof

/-- The eight kinds of FlashRAM command words, in the order of R111. -/
inductive FlashKind where
  | reset
  | readArray
  | statusMode
  | eraseSelect
  | eraseMode
  | program
  | pageSelect
  | execute
deriving DecidableEq, Repr

/-- One operation of the block, with its operands. -/
inductive Instr where
  /-- `BUS_INIT` (R131). -/
  | busInit
  /-- `SET_DIRECTION f` (R132): the flag `F`, true for output. -/
  | setDirection (out : Bool)
  /-- `LATCH_ADDRESS a` (R133): a 32-bit bus address. -/
  | latchAddress (addr : Word)
  /-- `READ_WORD` (R134). -/
  | readWord
  /-- `WRITE_WORD w` (R135). -/
  | writeWord (data : Half)
  /-- `ASSERT_RESET f` (R136): the flag `F`, true to assert. -/
  | assertReset (active : Bool)
  /-- `READ_ROM_BYTES a, l` (R150). -/
  | readRomBytes (a l : Word)
  /-- `DETECT_ROM_SIZE` (R152). -/
  | detectRomSize
  /-- `HAS_SRAM` (R172). -/
  | hasSram
  /-- `READ_SRAM_BYTES a, l` (R174). -/
  | readSramBytes (a l : Word)
  /-- `WRITE_SRAM_BYTES a, l, data` (R175). -/
  | writeSramBytes (a l : Word) (d : List Byte)
  /-- `EEPROM_SIZE` (R194). -/
  | eepromSize
  /-- `READ_EEPROM_BLOCK i` (R195). -/
  | readEepromBlock (i : Word)
  /-- `WRITE_EEPROM_BLOCK i, data8` (R196). -/
  | writeEepromBlock (i : Word) (d : List Byte)
  /-- `READ_EEPROM_BYTES a, l` (R198). -/
  | readEepromBytes (a l : Word)
  /-- `WRITE_AND_VERIFY_EEPROM_BYTES a, l, data` (R199). -/
  | writeAndVerifyEepromBytes (a l : Word) (d : List Byte)
  /-- `FLASH_COMMAND kind, p` (R242) with the raw field `K`. The words whose `K` names one of the eight
  kinds are also the rows below, and they decode to those; the words left to this constructor are those
  whose `K` names no kind (R111). -/
  | flashCommand (k : BitVec 4) (p : Half)
  /-- `FLASH_READ_STATUS` (R243). -/
  | flashReadStatus
  /-- `FLASH_WAIT_READY` (R244). -/
  | flashWaitReady
  /-- `HAS_FLASHRAM` (R246). -/
  | hasFlashram
  /-- `READ_FLASHRAM_BYTES a, l` (R248). -/
  | readFlashramBytes (a l : Word)
  /-- `FLASH_ERASE_BLOCK b` (R252). -/
  | flashEraseBlock (b : Word)
  /-- `FLASH_PROGRAM_PAGE p, data128` (R254). -/
  | flashProgramPage (p : Word) (d : List Byte)
  /-- `WRITE_FLASHRAM_BYTES a, l, data` (R258). -/
  | writeFlashramBytes (a l : Word) (d : List Byte)
  /-- `WRITE_FLASHRAM_SECTOR s, data512` (R262). -/
  | writeFlashramSector (s : Word) (d : List Byte)
  /-- `FLASH_COMMAND RESET`: `K` = 0; `W` is ignored (R105). -/
  | flashCommandReset
  /-- `FLASH_COMMAND READ_ARRAY`: `K` = 1; `W` is ignored. -/
  | flashCommandReadArray
  /-- `FLASH_COMMAND STATUS_MODE`: `K` = 2; `W` is ignored. -/
  | flashCommandStatusMode
  /-- `FLASH_COMMAND ERASE_SELECT, p`: `K` = 3, `W` the page index. -/
  | flashCommandEraseSelect (p : Half)
  /-- `FLASH_COMMAND ERASE_MODE`: `K` = 4; `W` is ignored. -/
  | flashCommandEraseMode
  /-- `FLASH_COMMAND PROGRAM`: `K` = 5; `W` is ignored. -/
  | flashCommandProgram
  /-- `FLASH_COMMAND PAGE_SELECT, p`: `K` = 6, `W` the page index. -/
  | flashCommandPageSelect (p : Half)
  /-- `FLASH_COMMAND EXECUTE`: `K` = 7; `W` is ignored. -/
  | flashCommandExecute
deriving DecidableEq, Repr

end Sys2Proof
end

