-- ==== Sys2Proof/Machine/Parameters.lean ====
section
/-! DEFINITION. The parameters' values at reset, the counts R8 derives from them, the command word of each
FlashRAM kind (spec/44_flashram.md R240) and the relations a configuration must satisfy
(spec/00_scope.md R9). -/

namespace Sys2Proof

/-- The values of R8's "value" column. DESIGN CHOICE and PRESUMED (logs 2, 3, 4; unsafe): where R8 says
OPEN, the value is that of spec/95_test_vectors.md section 0, which calls it "for testing only"; the
delays and `JOY_RX_TIMEOUT`, which neither file gives, are the model's. Every statement holds for every
value of `State.cfg`. -/
def Params.spec : Params where
  romBase := 0x10000000
  sramBase := 0x08000000
  flashBase := 0x08000000
  flashCmdAddr := 0x08010000
  romSpace := 0x04000000
  romProbeStep := 0x00100000
  romFpLen := 16
  sramSize := 0x8000
  sramProbeOffset := 0x7FFE
  sramSentinel := 0xA55A#16
  sramBurst := 512
  eepromBlock := 8
  eeprom4kSize := 512
  eeprom16kSize := 2048
  eepromMaxRetries := 3
  joyCmdInfo := 0x00#8
  joyCmdRead := 0x04#8
  joyCmdWrite := 0x05#8
  joyType4k := 0x80#8
  joyType16k := 0xC0#8
  joyRxTimeout := 100000
  joyTBit := 4000
  joyTStopLo := 1000
  flashCmdReset := 0xF0000000#32
  flashCmdReadArray := 0xF0000000#32
  flashCmdStatusMode := 0xE1000000#32
  flashCmdEraseSelect := 0x4B000000#32
  flashCmdEraseMode := 0x78000000#32
  flashCmdProgram := 0xB4000000#32
  flashCmdPageSelect := 0xA5000000#32
  flashCmdExecute := 0xD2000000#32
  flashIdleSig0 := #v[0x11#8, 0x11#8, 0x80#8, 0x01#8, 0x00#8, 0xC2#8, 0x00#8, 0x1E#8]
  flashIdleSig1 := #v[0x11#8, 0x11#8, 0x80#8, 0x01#8, 0x00#8, 0xC2#8, 0x00#8, 0x99#8]
  flashIdleSig2 := #v[0x11#8, 0x11#8, 0x80#8, 0x01#8, 0x00#8, 0xC2#8, 0x00#8, 0x1D#8]
  flashDeviceIds := [0x1E#8, 0x1D#8, 0xF1#8]
  flashPollMax := 500
  flashPollSleep := 1
  flashStatusLen := 8
  flashBlock := 0x20000
  flashPage := 128
  flashChunk := 128
  flashSector := 512
  flashSize := 0x20000
  tSetup := 100
  tHold := 100
  tAccess := 1000
  tWpw := 300
  tRstAssert := 20000000
  tRstRelease := 50000000
  resetActiveLevel := 0#1
  autoincWrap := none

/-- `FLASH_SECTORS_PER_BLOCK` of R8. -/
def Params.sectorsPerBlock (c : Params) : Nat := c.flashBlock / c.flashSector

/-- `FLASH_PAGES_PER_BLOCK` of R8. -/
def Params.pagesPerBlock (c : Params) : Nat := c.flashBlock / c.flashPage

/-- The three idle signatures (R223). -/
def Params.idleSigs (c : Params) : List (List Byte) :=
  [c.flashIdleSig0.toList, c.flashIdleSig1.toList, c.flashIdleSig2.toList]

/-- `FLASH_CMD[k]` (R240). -/
def Params.flashCmd (c : Params) : FlashKind → Word
  | .reset => c.flashCmdReset
  | .readArray => c.flashCmdReadArray
  | .statusMode => c.flashCmdStatusMode
  | .eraseSelect => c.flashCmdEraseSelect
  | .eraseMode => c.flashCmdEraseMode
  | .program => c.flashCmdProgram
  | .pageSelect => c.flashCmdPageSelect
  | .execute => c.flashCmdExecute

/-- Whether a kind's command word carries the operand `p` (R240: `ERASE_SELECT` and `PAGE_SELECT`). -/
def FlashKind.takesOperand : FlashKind → Bool
  | .eraseSelect => true
  | .pageSelect => true
  | .reset => false
  | .readArray => false
  | .statusMode => false
  | .eraseMode => false
  | .program => false
  | .execute => false

/-- The kinds in the order of R111, which is also the order R87 matches a command word in. -/
def FlashKind.all : List FlashKind :=
  [.reset, .readArray, .statusMode, .eraseSelect, .eraseMode, .program, .pageSelect, .execute]

/-- The kind a field `K` selects; `K` of 8 to 15 selects none (R111). -/
def FlashKind.ofK (k : BitVec 4) : Option FlashKind := FlashKind.all[k.toNat]?

/-- `word(k, p)` of R240. -/
def Params.flashWord (c : Params) (k : FlashKind) (p : Half) : Word :=
  c.flashCmd k ||| (if k.takesOperand then p.zeroExtend 32 else 0#32)

/-- A power of two, 1 among them. -/
def isPowerOfTwo (n : Nat) : Bool := 0 < n && n &&& (n - 1) == 0

/-- One past the largest ROM offset a bus cycle uses: the end of the ROM space (R150), or of the fingerprint
at the last boundary probed (R152) where that reaches further. -/
def Params.romSpan (c : Params) : Nat := max c.romSpace (c.romSpace - c.romProbeStep + c.romFpLen)

/-- One past the largest offset from `FLASH_BASE` that a bus cycle uses: the end of the status response
(R243) or, on a chip that has one, of its last chunk or page, which stands at half its byte offset (R75,
R248, R254). The staging page (R250) ends no later. -/
def Params.flashSpan (c : Params) : Nat :=
  max c.flashStatusLen (if c.flashSize = 0 then 0 else c.flashSize / 2 + max c.flashChunk c.flashPage / 2)

/-- A base address with the offsets below `span` used from it stays below 2^32 (R9). -/
def staysOnBus (base span : Nat) : Bool := base < 2 ^ 32 && base + span ≤ 2 ^ 32

/-- The relations of R9, in its order. A relation "x mod y = 0" is taken to ask a positive `y`, and "the
largest offset used" to be that of the last byte a bus cycle of the block reaches. DEDUCED (log 5). -/
def Params.relations (c : Params) : Bool :=
  0 < c.flashPage && c.flashBlock % c.flashPage == 0
  && 0 < c.flashSector && c.flashBlock % c.flashSector == 0
  && 0 < c.flashChunk && c.flashBlock % c.flashChunk == 0
  && 0 < c.flashBlock && c.flashSize % c.flashBlock == 0
  && c.flashPage % 2 == 0 && c.flashChunk % 2 == 0 && c.sramSize % 2 == 0
  && c.sramProbeOffset % 2 == 0 && c.sramProbeOffset < c.sramSize
  && 0 < c.romProbeStep && c.romSpace % c.romProbeStep == 0 && c.romFpLen % 2 == 0
  && c.tRstAssert < c.tRstRelease && 1 ≤ c.flashPollMax
  && c.flashSize / c.flashPage ≤ 65536 && c.sramSentinel != 0xFFFF#16
  && staysOnBus c.romBase c.romSpan && staysOnBus c.sramBase c.sramSize
  && staysOnBus c.flashBase c.flashSpan && staysOnBus c.flashCmdAddr 4

/-- The domains that single rules give single parameters, which R9 does not ask again: positive delays and a
wrap that is none or a power of two (R8), even SRAM bursts (R13, R170), a status response of 8 bytes (R223),
command words with bits 15:0 zero (R240), and EEPROM capacities whose block indices fit the byte of a frame
(R108) and whose size fits S.EEP_SIZE (R43). No step checks them, since R300 refuses only what breaks R9;
a statement that needs one has it as a premise (log 5). -/
def Params.domains (c : Params) : Bool :=
  0 < c.sramBurst && c.sramBurst % 2 == 0 && 0 < c.eepromBlock && c.flashStatusLen == 8
  && FlashKind.all.all (fun k => (c.flashCmd k).extractLsb' 0 16 == 0#16)
  && c.eeprom4kSize ≤ 256 * c.eepromBlock && c.eeprom16kSize ≤ 256 * c.eepromBlock
  && c.eeprom4kSize < 2 ^ 32 && c.eeprom16kSize < 2 ^ 32
  && 0 < c.tSetup && 0 < c.tHold && 0 < c.tAccess && 0 < c.tWpw
  && 0 < c.tRstAssert && 0 < c.tRstRelease
  && (match c.autoincWrap with
      | none => true
      | some w => isPowerOfTwo w)

/-- A configuration the model has a meaning for: one that satisfies R9. One that breaks it is refused before
any step (R300; spec/93 I17). -/
def Params.ok (c : Params) : Bool := c.relations

end Sys2Proof
end

