-- ==== Sys2Proof/WellFormed.lean ====
section
/-! DEFINITION. Which terms of `Instr` stand for a command record of the block: the data field has the
length R106 (spec/30_encoding.md) fixes for the opcode, and the raw FLASH_COMMAND form stands for the
fields `K` that name no kind (R111; the others are the kinds' own rows). -/

namespace Sys2Proof

/-- The instruction is one a command record encodes, under the configuration `c` (R106, R111). -/
def Instr.wellFormed (c : Params) : Instr → Bool
  | .busInit => true
  | .setDirection _ => true
  | .latchAddress _ => true
  | .readWord => true
  | .writeWord _ => true
  | .assertReset _ => true
  | .readRomBytes _ _ => true
  | .detectRomSize => true
  | .hasSram => true
  | .readSramBytes _ _ => true
  | .writeSramBytes _ l d => d.length == l.toNat
  | .eepromSize => true
  | .readEepromBlock _ => true
  | .writeEepromBlock _ d => d.length == c.eepromBlock
  | .readEepromBytes _ _ => true
  | .writeAndVerifyEepromBytes _ l d => d.length == l.toNat
  | .flashCommand k _ => 8 ≤ k.toNat
  | .flashReadStatus => true
  | .flashWaitReady => true
  | .hasFlashram => true
  | .readFlashramBytes _ _ => true
  | .flashEraseBlock _ => true
  | .flashProgramPage _ d => d.length == c.flashPage
  | .writeFlashramBytes _ l d => d.length == l.toNat
  | .writeFlashramSector _ d => d.length == c.flashSector
  | .flashCommandReset => true
  | .flashCommandReadArray => true
  | .flashCommandStatusMode => true
  | .flashCommandEraseSelect _ => true
  | .flashCommandEraseMode => true
  | .flashCommandProgram => true
  | .flashCommandPageSelect _ => true
  | .flashCommandExecute => true

end Sys2Proof
end

