-- ==== Sys2Proof/Decode.lean ====
section
/-! DEFINITION. Reading a command record and writing one (spec/30_encoding.md R101-R106, R110-R112,
R114). The decoder runs checks 1 to 4 of spec/60_exceptions.md R287, in that order, and rejects by the
name of the check that failed. -/

namespace Sys2Proof

/-- The 25 opcodes of R104. -/
inductive Opcode where
  | busInit
  | setDirection
  | latchAddress
  | readWord
  | writeWord
  | assertReset
  | readRomBytes
  | detectRomSize
  | hasSram
  | readSramBytes
  | writeSramBytes
  | eepromSize
  | readEepromBlock
  | writeEepromBlock
  | readEepromBytes
  | writeAndVerifyEepromBytes
  | flashCommand
  | flashReadStatus
  | flashWaitReady
  | hasFlashram
  | readFlashramBytes
  | flashEraseBlock
  | flashProgramPage
  | writeFlashramBytes
  | writeFlashramSector
deriving DecidableEq, Repr

/-- The `OP` column of R104. -/
def Opcode.code : Opcode → Byte
  | .busInit => 0x01#8
  | .setDirection => 0x02#8
  | .latchAddress => 0x03#8
  | .readWord => 0x04#8
  | .writeWord => 0x05#8
  | .assertReset => 0x06#8
  | .readRomBytes => 0x10#8
  | .detectRomSize => 0x11#8
  | .hasSram => 0x20#8
  | .readSramBytes => 0x21#8
  | .writeSramBytes => 0x22#8
  | .eepromSize => 0x30#8
  | .readEepromBlock => 0x31#8
  | .writeEepromBlock => 0x32#8
  | .readEepromBytes => 0x33#8
  | .writeAndVerifyEepromBytes => 0x34#8
  | .flashCommand => 0x40#8
  | .flashReadStatus => 0x41#8
  | .flashWaitReady => 0x42#8
  | .hasFlashram => 0x43#8
  | .readFlashramBytes => 0x44#8
  | .flashEraseBlock => 0x45#8
  | .flashProgramPage => 0x46#8
  | .writeFlashramBytes => 0x47#8
  | .writeFlashramSector => 0x48#8

/-- The opcodes in the order of R104. -/
def Opcode.all : List Opcode :=
  [.busInit, .setDirection, .latchAddress, .readWord, .writeWord, .assertReset, .readRomBytes,
   .detectRomSize, .hasSram, .readSramBytes, .writeSramBytes, .eepromSize, .readEepromBlock,
   .writeEepromBlock, .readEepromBytes, .writeAndVerifyEepromBytes, .flashCommand, .flashReadStatus,
   .flashWaitReady, .hasFlashram, .readFlashramBytes, .flashEraseBlock, .flashProgramPage,
   .writeFlashramBytes, .writeFlashramSector]

/-- The opcode an `OP` byte is assigned to; every other value is unassigned (R110). -/
def Opcode.ofByte (b : Byte) : Option Opcode := Opcode.all.find? (fun o => o.code == b)

/-- A command record (R101): the three header words and the data field. -/
structure Record where
  /-- The command word `CW` (R102). -/
  cw : Word
  /-- The address, offset or index operand `A`. -/
  a : Word
  /-- The length operand `L`. -/
  l : Word
  /-- The data field `D`. -/
  d : List Byte
deriving DecidableEq, Repr

/-- The record in a run of bytes: a 12-byte big-endian header, then the data (R101). Fewer than 12 bytes
are no record. -/
def Record.ofBytes : List Byte → Option Record
  | c0 :: c1 :: c2 :: c3 :: a0 :: a1 :: a2 :: a3 :: l0 :: l1 :: l2 :: l3 :: d =>
      some { cw := be32 c0 c1 c2 c3, a := be32 a0 a1 a2 a3, l := be32 l0 l1 l2 l3, d := d }
  | _ => none

/-- The bytes of a record, in the order of R101. -/
def Record.toBytes (r : Record) : List Byte := wordBytes r.cw ++ wordBytes r.a ++ wordBytes r.l ++ r.d

/-- `OP`, bits 31:24 of `CW` (R102). -/
def Record.op (r : Record) : Byte := r.cw.extractLsb' 24 8

/-- `K`, bits 23:20 of `CW`. -/
def Record.k (r : Record) : BitVec 4 := r.cw.extractLsb' 20 4

/-- The reserved bits 19:17 of `CW`. -/
def Record.reserved (r : Record) : BitVec 3 := r.cw.extractLsb' 17 3

/-- `F`, bit 16 of `CW`. -/
def Record.f (r : Record) : Bool := r.cw.getLsbD 16

/-- `W`, bits 15:0 of `CW`. -/
def Record.w (r : Record) : Half := r.cw.extractLsb' 0 16

/-- The command word with the given fields and reserved bits 0 (R102). -/
def commandWord (op : Opcode) (k : BitVec 4) (f : Bool) (w : Half) : Word :=
  op.code ++ k ++ (0#3) ++ (BitVec.ofBool f) ++ w

/-- The length R106 requires of the data field. -/
def Opcode.dataLength (c : Params) (op : Opcode) (l : Word) : Nat :=
  match op with
  | .writeSramBytes => l.toNat
  | .writeAndVerifyEepromBytes => l.toNat
  | .writeFlashramBytes => l.toNat
  | .writeEepromBlock => c.eepromBlock
  | .flashProgramPage => c.flashPage
  | .writeFlashramSector => c.flashSector
  | .busInit => 0
  | .setDirection => 0
  | .latchAddress => 0
  | .readWord => 0
  | .writeWord => 0
  | .assertReset => 0
  | .readRomBytes => 0
  | .detectRomSize => 0
  | .hasSram => 0
  | .readSramBytes => 0
  | .eepromSize => 0
  | .readEepromBlock => 0
  | .readEepromBytes => 0
  | .flashCommand => 0
  | .flashReadStatus => 0
  | .flashWaitReady => 0
  | .hasFlashram => 0
  | .readFlashramBytes => 0
  | .flashEraseBlock => 0

/-- Why bytes decode to no instruction. The last four are checks 1 to 4 of R287. -/
inductive Reject where
  /-- Fewer than the 12 header bytes of R101: no command record at all. -/
  | shortRecord
  /-- `OP` is unassigned (R110). -/
  | illegalOp
  /-- `CW[19:17]` is not 0 (R103). -/
  | reservedBits
  /-- The data field has another length than R106 requires. -/
  | dataLength
deriving DecidableEq, Repr

/-- The FLASH_COMMAND instruction of fields `K` and `W`: the row of the kind `K` names (R111), and the raw
form, whose meaning refuses it as check 4 of R287, where `K` names none. -/
def flashCommandOf (k : BitVec 4) (w : Half) : Instr :=
  match FlashKind.ofK k with
  | none => .flashCommand k w
  | some .reset => .flashCommandReset
  | some .readArray => .flashCommandReadArray
  | some .statusMode => .flashCommandStatusMode
  | some .eraseSelect => .flashCommandEraseSelect w
  | some .eraseMode => .flashCommandEraseMode
  | some .program => .flashCommandProgram
  | some .pageSelect => .flashCommandPageSelect w
  | some .execute => .flashCommandExecute

/-- The instruction of an opcode with a record's operands (R104, R105). Fields the opcode does not use are
dropped (R103). -/
def Opcode.build (op : Opcode) (r : Record) : Instr :=
  match op with
  | .busInit => .busInit
  | .setDirection => .setDirection r.f
  | .latchAddress => .latchAddress r.a
  | .readWord => .readWord
  | .writeWord => .writeWord r.w
  | .assertReset => .assertReset r.f
  | .readRomBytes => .readRomBytes r.a r.l
  | .detectRomSize => .detectRomSize
  | .hasSram => .hasSram
  | .readSramBytes => .readSramBytes r.a r.l
  | .writeSramBytes => .writeSramBytes r.a r.l r.d
  | .eepromSize => .eepromSize
  | .readEepromBlock => .readEepromBlock r.a
  | .writeEepromBlock => .writeEepromBlock r.a r.d
  | .readEepromBytes => .readEepromBytes r.a r.l
  | .writeAndVerifyEepromBytes => .writeAndVerifyEepromBytes r.a r.l r.d
  | .flashCommand => flashCommandOf r.k r.w
  | .flashReadStatus => .flashReadStatus
  | .flashWaitReady => .flashWaitReady
  | .hasFlashram => .hasFlashram
  | .readFlashramBytes => .readFlashramBytes r.a r.l
  | .flashEraseBlock => .flashEraseBlock r.a
  | .flashProgramPage => .flashProgramPage r.a r.d
  | .writeFlashramBytes => .writeFlashramBytes r.a r.l r.d
  | .writeFlashramSector => .writeFlashramSector r.a r.d

/-- The instruction of a record, with checks 1 to 3 of R287 in their order. Check 4 (`K ≤ 7`) is the
meaning of the raw FLASH_COMMAND form that `flashCommandOf` leaves. -/
def decodeRecord (c : Params) (r : Record) : Except Reject Instr :=
  match Opcode.ofByte r.op with
  | none => .error .illegalOp
  | some op =>
    if r.reserved ≠ 0#3 then .error .reservedBits
    else if r.d.length ≠ op.dataLength c r.l then .error .dataLength
    else .ok (op.build r)

/-- The instruction that a run of bytes is a command record of, under the configuration `c`. Total: any
other bytes are rejected by name. -/
def decode (c : Params) (bytes : List Byte) : Except Reject Instr :=
  match Record.ofBytes bytes with
  | none => .error .shortRecord
  | some r => decodeRecord c r

/-- A record with no operand but those given; an omitted `A` or `L` encodes as 0 (R114). -/
def recordOf (op : Opcode) (k : BitVec 4 := 0#4) (f : Bool := false) (w : Half := 0#16)
    (a : Word := 0#32) (l : Word := 0#32) (d : List Byte := []) : Record :=
  { cw := commandWord op k f w, a := a, l := l, d := d }

/-- The command record of an instruction (the "encodes" column of R114). -/
def Instr.record : Instr → Record
  | .busInit => recordOf .busInit
  | .setDirection out => recordOf .setDirection (f := out)
  | .latchAddress addr => recordOf .latchAddress (a := addr)
  | .readWord => recordOf .readWord
  | .writeWord data => recordOf .writeWord (w := data)
  | .assertReset active => recordOf .assertReset (f := active)
  | .readRomBytes a l => recordOf .readRomBytes (a := a) (l := l)
  | .detectRomSize => recordOf .detectRomSize
  | .hasSram => recordOf .hasSram
  | .readSramBytes a l => recordOf .readSramBytes (a := a) (l := l)
  | .writeSramBytes a l d => recordOf .writeSramBytes (a := a) (l := l) (d := d)
  | .eepromSize => recordOf .eepromSize
  | .readEepromBlock i => recordOf .readEepromBlock (a := i)
  | .writeEepromBlock i d => recordOf .writeEepromBlock (a := i) (d := d)
  | .readEepromBytes a l => recordOf .readEepromBytes (a := a) (l := l)
  | .writeAndVerifyEepromBytes a l d => recordOf .writeAndVerifyEepromBytes (a := a) (l := l) (d := d)
  | .flashCommand k p => recordOf .flashCommand (k := k) (w := p)
  | .flashReadStatus => recordOf .flashReadStatus
  | .flashWaitReady => recordOf .flashWaitReady
  | .hasFlashram => recordOf .hasFlashram
  | .readFlashramBytes a l => recordOf .readFlashramBytes (a := a) (l := l)
  | .flashEraseBlock b => recordOf .flashEraseBlock (a := b)
  | .flashProgramPage p d => recordOf .flashProgramPage (a := p) (d := d)
  | .writeFlashramBytes a l d => recordOf .writeFlashramBytes (a := a) (l := l) (d := d)
  | .writeFlashramSector s d => recordOf .writeFlashramSector (a := s) (d := d)
  | .flashCommandReset => recordOf .flashCommand (k := 0#4)
  | .flashCommandReadArray => recordOf .flashCommand (k := 1#4)
  | .flashCommandStatusMode => recordOf .flashCommand (k := 2#4)
  | .flashCommandEraseSelect p => recordOf .flashCommand (k := 3#4) (w := p)
  | .flashCommandEraseMode => recordOf .flashCommand (k := 4#4)
  | .flashCommandProgram => recordOf .flashCommand (k := 5#4)
  | .flashCommandPageSelect p => recordOf .flashCommand (k := 6#4) (w := p)
  | .flashCommandExecute => recordOf .flashCommand (k := 7#4)

/-- The bytes of an instruction's command record (R101, R114). -/
def encode (i : Instr) : List Byte := i.record.toBytes

/-- The record an instruction of the opcode table stands for when its `nbits` table bits are `w` and every
bit above them is 0: `CW`, `A` and `L` are the first, second and third word of 32 bits, and `D` is zeros of
the length R106 requires of that `CW` and `L` (none for an unassigned opcode). -/
def recordOfTableWord (c : Params) (nbits w : Nat) : Record :=
  let v := w % 2 ^ nbits
  let header : Record :=
    { cw := BitVec.ofNat 32 v, a := BitVec.ofNat 32 (v / 2 ^ 32), l := BitVec.ofNat 32 (v / 2 ^ 64), d := [] }
  match Opcode.ofByte header.op with
  | none => header
  | some op => { header with d := List.replicate (op.dataLength c header.l) 0#8 }

/-- The instruction the decoder reads from that record's bytes, under the parameters at reset. -/
def decodeTableWord (nbits w : Nat) : Option Instr :=
  match decode Params.spec (recordOfTableWord Params.spec nbits w).toBytes with
  | .ok i => some i
  | .error _ => none

end Sys2Proof
end

