-- ==== Sys2Proof/Machine/Memory.lean ====
section
/-! DEFINITION. A sparse byte memory in one canonical form: the block buffer S.BLKBUF
(spec/10_state.md R35) and the reference cartridge's images (spec/20_memory.md R81, R86). -/

namespace Sys2Proof.Machine

/-- A list of (address, byte) pairs, addresses strictly rising, no entry equal to `Memory.blank`. -/
abbrev Memory := List Host.Cell

/-- What an unlisted address reads as. DESIGN CHOICE (log 7; unsafe): the spec leaves the buffer's
contents at reset unspecified (R35, R310); 0xFF is what an erased FlashRAM byte holds (R88) and what
lines that nothing drives read (R67). -/
def Memory.blank : Byte := 0xFF#8

/-- The byte at an address. -/
def Memory.read : Memory → Nat → Byte
  | [], _ => Memory.blank
  | (x, v) :: m, a => if a = x then v else Memory.read m a

/-- Store one byte. Storing `Memory.blank` removes the entry. -/
def Memory.write : Memory → Nat → Byte → Memory
  | [], a, b => if b = Memory.blank then [] else [(a, b)]
  | (x, v) :: m, a, b =>
    if a < x then (if b = Memory.blank then (x, v) :: m else (a, b) :: (x, v) :: m)
    else if a = x then (if b = Memory.blank then m else (a, b) :: m)
    else (x, v) :: Memory.write m a b

/-- The `n` bytes from address `a` on. -/
def Memory.readRange (m : Memory) (a : Nat) : Nat → List Byte
  | 0 => []
  | n + 1 => m.read a :: Memory.readRange m (a + 1) n

/-- Store a run of bytes from address `a` on. -/
def Memory.writeRange (m : Memory) (a : Nat) : List Byte → Memory
  | [] => m
  | b :: bs => Memory.writeRange (m.write a b) (a + 1) bs

/-- The memory whose only bytes are the given run from address `a` on. -/
def Memory.ofBytes (a : Nat) : List Byte → Memory
  | [] => []
  | b :: bs =>
    if b = Memory.blank then Memory.ofBytes (a + 1) bs else (a, b) :: Memory.ofBytes (a + 1) bs

/-- Make every byte of `[lo, hi)` blank: the erase of a FlashRAM block (spec/20_memory.md R88). -/
def Memory.clearRange (m : Memory) (lo hi : Nat) : Memory :=
  m.filter (fun cell => !(lo ≤ cell.1 && cell.1 < hi))

/-- The canonical form, with every address at least `lo`. -/
def Memory.wfFrom (lo : Nat) : Memory → Bool
  | [] => true
  | (x, v) :: m => lo ≤ x && v != Memory.blank && Memory.wfFrom (x + 1) m

/-- The canonical form: addresses strictly rising and no blank entry. -/
def Memory.wf (m : Memory) : Bool := Memory.wfFrom 0 m

end Sys2Proof.Machine
end

