-- ==== Sys2Proof/Machine/Environment.lean ====
section
/-! DEFINITION. The environment the block talks to: the oracle of draws (spec/20_memory.md R63), the
cartridge's address counter (R64-R66), and the reference cartridge with its ROM, SRAM, EEPROM and
FlashRAM devices (R81-R95). -/

namespace Sys2Proof.Machine

/-- `FMODE` of R86. -/
inductive FlashMode where
  | array
  | status
  | load
deriving DecidableEq, Repr

/-- The reference FlashRAM chip (R86), with the byte pointer `FP` of R90. -/
structure FlashChip where
  /-- `FMODE` -/
  mode : FlashMode
  /-- `ERASE_SEL` -/
  eraseSel : Option Nat
  /-- `ERASE_ARMED` -/
  eraseArmed : Bool
  /-- `PAGE_SEL` -/
  pageSel : Option Nat
  /-- `PAGEBUF` -/
  pageBuf : Memory
  /-- `FARRAY` -/
  array : Memory
  /-- `BUSY`: the number of status reads still to show busy. -/
  busy : Nat
  /-- `CMDHI` -/
  cmdHi : Option Half
  /-- `IDBLK[8]`, which the variant fixes (R93). -/
  idBlk : Vector Byte 8
  /-- `FP` of R90: `none`, or a byte offset in `FARRAY`. -/
  fp : Option Nat
  /-- The busy pattern the next status responses show while `BUSY` is positive (R89). -/
  busyPat : List Byte
  /-- The model's own (log 23): the next `BUSY` draws, for a test that fixes them. -/
  busyScript : List Nat
  /-- The model's own (log 23): the next busy patterns, for a test that fixes them. -/
  patScript : List (List Byte)
deriving DecidableEq, Repr

/-- `IDBLK` of the variant `FLASH_A` (R93). -/
def idBlkFlashA : Vector Byte 8 := #v[0x11#8, 0x11#8, 0x80#8, 0x01#8, 0x00#8, 0xC2#8, 0x00#8, 0x1E#8]

/-- `IDBLK` of the variant `FLASH_X`, an unknown ID (R93). -/
def idBlkFlashX : Vector Byte 8 := #v[0x11#8, 0x11#8, 0x80#8, 0x01#8, 0x00#8, 0xC2#8, 0x00#8, 0x99#8]

/-- The chip at power-on (R86): nothing selected or armed, no command half held, not busy. `FMODE` may be
any; `PAGEBUF` and `FP`, of which R86 says nothing, may be any too; `FARRAY` is the saved contents. -/
def FlashChip.powerOn (k : FlashChip) : FlashChip :=
  { k with eraseSel := none, eraseArmed := false, pageSel := none, busy := 0, cmdHi := none }

/-- `SAVE` of R81. -/
inductive Save where
  | none
  | sram (img : Memory)
  | eep4k (img : Memory)
  | eep16k (img : Memory)
  | flash (chip : FlashChip)
deriving DecidableEq, Repr

/-- `ROMIMG` and its size `RS` (R81). -/
structure RomImage where
  /-- `ROMIMG` -/
  img : Memory
  /-- `RS` -/
  size : Nat
deriving DecidableEq, Repr

/-- What R81 asks of `RS`: a power of two with `2 ≤ RS ≤ ROM_SPACE`. -/
def RomImage.sized (c : Params) (rom : RomImage) : Bool :=
  isPowerOfTwo rom.size && 2 ≤ rom.size && rom.size ≤ c.romSpace

/-- The reference cartridge (R81); `rom = none` is `NOCART`. -/
structure Cart where
  /-- `ROMIMG`, or `NOCART`. -/
  rom : Option RomImage
  /-- `SAVE`. -/
  save : Save
deriving DecidableEq, Repr

/-- What decides the answers to samples and serial transactions. -/
inductive EnvBody where
  /-- The oracle of R63. The lists are answers a test fixes in advance, used up in order; every further
  answer is a free value. An answer `none` is `NORESP`. -/
  | oracle (samples : List Half) (replies : List (Option (List Byte)))
  /-- The reference cartridge of R81-R95. -/
  | cartridge (cart : Cart)
deriving DecidableEq, Repr

/-- The environment (R42). -/
structure Env where
  /-- `CA`, the cartridge's internal address register (R64). -/
  ca : Word
  /-- Which environment the free values are drawn for (the model's own, log 9). -/
  seed : Nat
  /-- The cartridge. -/
  body : EnvBody
deriving DecidableEq, Repr

/-- Take the first of two byte patterns that is not among the signatures; with three signatures one of
four distinct candidates always is (R89). -/
def firstNotAmong (sigs : List (List Byte)) : List (List Byte) → List Byte
  | [] => []
  | p :: ps => if sigs.contains p then firstNotAmong sigs ps else p

/-- Eight bytes of a 64-bit draw, the most significant first. -/
def bytesOfDraw (v : BitVec 64) : List Byte :=
  [v.extractLsb' 56 8, v.extractLsb' 48 8, v.extractLsb' 40 8, v.extractLsb' 32 8,
   v.extractLsb' 24 8, v.extractLsb' 16 8, v.extractLsb' 8 8, v.extractLsb' 0 8]

/-- A busy pattern: the drawn eight bytes, or another pattern where the draw is an idle signature, which
R89 rules out. -/
def busyPatternOf (c : Params) (raw : List Byte) : List Byte :=
  firstNotAmong c.idleSigs
    [raw, List.replicate 7 0#8 ++ [0#8], List.replicate 7 0#8 ++ [1#8],
     List.replicate 7 0#8 ++ [2#8], List.replicate 7 0#8 ++ [3#8]]

/-- The chip with its next busy pattern drawn (R89). -/
def FlashChip.drawPattern (c : Params) (seed : Nat) (events : List Event) (k : FlashChip) : FlashChip :=
  match k.patScript with
  | p :: ps => { k with busyPat := busyPatternOf c p, patScript := ps }
  | [] => { k with busyPat := busyPatternOf c (bytesOfDraw (Config.busyPatternDraw seed events)) }

/-- The chip with `BUSY` drawn (R88, EXECUTE). -/
def FlashChip.drawBusy (seed : Nat) (events : List Event) (k : FlashChip) : FlashChip :=
  match k.busyScript with
  | b :: bs => { k with busy := b, busyScript := bs }
  | [] => { k with busy := Config.busyDraw seed events }

/-- The 8-byte status response (R89). -/
def FlashChip.response (k : FlashChip) : List Byte := if k.busy = 0 then k.idBlk.toList else k.busyPat

/-- The kind a command word has: the first in kind order whose word pattern matches (R87, R240). -/
def Params.kindOf (c : Params) (w : Word) : Option FlashKind :=
  FlashKind.all.find? (fun k => if k.takesOperand then hi16 w == hi16 (c.flashCmd k) else w == c.flashCmd k)

/-- The bytes a page program leaves: old AND new, below the chip's size (R88). -/
def FlashChip.programmed (c : Params) (p : Nat) (k : FlashChip) : Nat → Memory
  | 0 => k.array
  | n + 1 =>
    let m := FlashChip.programmed c p k n
    let a := p * c.flashPage + n
    if a < c.flashSize then m.write a (m.read a &&& k.pageBuf.read n) else m

/-- The effect of a command (R88). -/
def FlashChip.command (c : Params) (seed : Nat) (events : List Event) (kind : FlashKind) (p : Nat)
    (k : FlashChip) : FlashChip :=
  match kind with
  | .reset => { k with mode := .array, eraseSel := none, eraseArmed := false, pageSel := none }
  | .readArray => { k with mode := .array }
  | .statusMode => { k with mode := .status }
  | .eraseSelect => { k with eraseSel := some (p * c.flashPage / c.flashBlock) }
  | .eraseMode => { k with eraseArmed := k.eraseSel.isSome }
  | .program => { k with mode := .load }
  | .pageSelect => { k with pageSel := some p }
  | .execute =>
    let array' :=
      match k.eraseArmed, k.eraseSel, k.pageSel with
      | true, some b, _ => k.array.clearRange (b * c.flashBlock) ((b + 1) * c.flashBlock)
      | true, none, _ => k.array
      | false, _, some q => FlashChip.programmed c q k c.flashPage
      | false, _, none => k.array
    FlashChip.drawPattern c seed events
      (FlashChip.drawBusy seed events
        { k with array := array', eraseArmed := false, eraseSel := none, pageSel := none })

/-- A write pulse of word `w` at counter `ca`: a half of a command (R87), a page load (R91), or nothing
(R92). DESIGN CHOICE (log 32; unsafe): at an odd counter, where spec/93 I4 leaves the effect open, it acts
by the same rules, and of a word loaded at the page buffer's odd last offset the second byte, which R91
would put past the array, is dropped. DESIGN CHOICE (log 38; unsafe): where the parameters put the command
register inside the staging page, so that both R87 and R91 speak of a pulse, the command capture alone acts. -/
def FlashChip.onWrite (c : Params) (seed : Nat) (events : List Event) (ca : Nat) (w : Half)
    (k : FlashChip) : FlashChip :=
  if ca = c.flashCmdAddr then { k with cmdHi := some w }
  else if ca = c.flashCmdAddr + 2 then
    match k.cmdHi with
    | none => k
    | some h =>
      let k' := { k with cmdHi := none }
      match Params.kindOf c (h ++ w) with
      | none => k'
      | some kind => FlashChip.command c seed events kind w.toNat k'
  else if k.mode = .load ∧ c.flashBase ≤ ca ∧ ca < c.flashBase + c.flashPage then
    let m := k.pageBuf.write (ca - c.flashBase) (hiByte w)
    { k with pageBuf :=
        if ca - c.flashBase + 1 < c.flashPage then m.write (ca - c.flashBase + 1) (loByte w) else m }
  else k

/-- The word the chip drives at counter `ca` while `RD` is low, if it drives (R89, R90, R92). An odd counter
is answered by the same rules: DESIGN CHOICE (log 32; unsafe). -/
def FlashChip.word (c : Params) (ca : Nat) (k : FlashChip) : Option Half :=
  match k.mode with
  | .load => none
  | .status =>
    if c.flashBase ≤ ca ∧ ca < c.flashBase + 8 then
      let i := 2 * ((ca - c.flashBase) / 2)
      some (be16 (k.response.getD i 0xFF#8) (k.response.getD (i + 1) 0xFF#8))
    else none
  | .array =>
    match k.fp with
    | none => none
    | some p => if p + 1 < c.flashSize then some (be16 (k.array.read p) (k.array.read (p + 1))) else none

/-- The end of a read pulse: the array pointer advances (R90); the fourth word of a busy status response
counts `BUSY` down, and the next response shows a fresh pattern (R89). -/
def FlashChip.afterRead (c : Params) (seed : Nat) (events : List Event) (ca : Nat) (k : FlashChip) :
    FlashChip :=
  match k.mode with
  | .load => k
  | .status =>
    if c.flashBase + 6 ≤ ca ∧ ca < c.flashBase + 8 ∧ 0 < k.busy then
      FlashChip.drawPattern c seed events { k with busy := k.busy - 1 }
    else k
  | .array =>
    match k.fp with
    | none => k
    | some p => if p + 1 < c.flashSize then { k with fp := some (p + 2) } else k

/-- The pointer a latch of bus address `ca` sets (R90). DEDUCED (log 22): it is set in every mode. -/
def FlashChip.onLatch (c : Params) (ca : Nat) (k : FlashChip) : FlashChip :=
  { k with fp := if c.flashBase ≤ ca ∧ 2 * (ca - c.flashBase) < c.flashSize
                 then some (2 * (ca - c.flashBase)) else none }

/-- The word the reference cartridge drives at counter `ca` while `RD` is low (R82-R84, R89, R90). A byte of
the ROM at offset `o` is the byte at `o mod RS` (R68, R83; log 25). An odd counter is answered by the same
rules: DESIGN CHOICE (log 32; unsafe). Where the parameters put an address both in the ROM region and in a
save medium's window, the ROM answers: DESIGN CHOICE (log 35; unsafe). -/
def Cart.word (c : Params) (ca : Nat) (k : Cart) : Option Half :=
  match k.rom with
  | none => none
  | some rom =>
    if c.romBase ≤ ca ∧ ca < c.romBase + c.romSpace then
      let o := ca - c.romBase
      some (be16 (rom.img.read (o % rom.size)) (rom.img.read ((o + 1) % rom.size)))
    else
      match k.save with
      | .none => none
      | .eep4k _ => none
      | .eep16k _ => none
      | .sram img =>
        if c.sramBase ≤ ca ∧ ca < c.sramBase + c.sramSize then
          some (be16 (img.read (ca - c.sramBase)) (img.read (ca - c.sramBase + 1)))
        else none
      | .flash chip => chip.word c ca

/-- The cartridge after a write pulse of word `w` at counter `ca` (R83-R85, R87, R91). At an odd counter it
stores by the same rules, DESIGN CHOICE (log 32; unsafe), and no byte past the SRAM's end, DEDUCED (log 25;
unsafe). Where the parameters put an address both in the ROM region, where R83 has a write change nothing, and
in a save medium's window, the medium takes the write: DESIGN CHOICE (log 35; unsafe). -/
def Cart.onWrite (c : Params) (seed : Nat) (events : List Event) (ca : Nat) (w : Half) (k : Cart) : Cart :=
  match k.rom with
  | none => k
  | some _ =>
    match k.save with
    | .none => k
    | .eep4k _ => k
    | .eep16k _ => k
    | .sram img =>
      if c.sramBase ≤ ca ∧ ca < c.sramBase + c.sramSize then
        let o := ca - c.sramBase
        let m := img.write o (hiByte w)
        { k with save := .sram (if o + 1 < c.sramSize then m.write (o + 1) (loByte w) else m) }
      else k
    | .flash chip => { k with save := .flash (chip.onWrite c seed events ca w) }

/-- The cartridge after a read pulse at counter `ca`. -/
def Cart.afterRead (c : Params) (seed : Nat) (events : List Event) (ca : Nat) (k : Cart) : Cart :=
  match k.save with
  | .flash chip => { k with save := .flash (chip.afterRead c seed events ca) }
  | .none => k
  | .sram _ => k
  | .eep4k _ => k
  | .eep16k _ => k

/-- The cartridge after a latch of bus address `ca` (R90). -/
def Cart.onLatch (c : Params) (ca : Nat) (k : Cart) : Cart :=
  match k.save with
  | .flash chip => { k with save := .flash (chip.onLatch c ca) }
  | .none => k
  | .sram _ => k
  | .eep4k _ => k
  | .eep16k _ => k

/-- The cartridge with its reset input asserted: `FMODE <- ARRAY`, contents survive (R95), and `FP` is a value
drawn for it (log 12; safe). DESIGN CHOICE (log 34; unsafe): of the rest, which R95 does not name, nothing
changes: `ERASE_SEL`, `ERASE_ARMED`, `PAGE_SEL`, `PAGEBUF`, `BUSY` and `CMDHI` are kept. -/
def Cart.inReset (fp : Option Nat) (k : Cart) : Cart :=
  match k.save with
  | .flash chip => { k with save := .flash { chip with mode := .array, fp := fp } }
  | .none => k
  | .sram _ => k
  | .eep4k _ => k
  | .eep16k _ => k

/-- One EEPROM's answer to a frame, and its contents after it (R94). `n` is the number of blocks. -/
def eepromAnswer (c : Params) (type : Byte) (n : Nat) (img : Memory) (tx : List Byte) :
    Option (List Byte) × Memory :=
  match tx with
  | [] => (none, img)
  | [cmd] => if cmd = c.joyCmdInfo then (some [0x00#8, type, 0x00#8], img) else (none, img)
  | cmd :: i :: d =>
    if i.toNat < n then
      if cmd = c.joyCmdRead ∧ d = [] then
        (some (img.readRange (c.eepromBlock * i.toNat) c.eepromBlock), img)
      else if cmd = c.joyCmdWrite ∧ d.length = c.eepromBlock then
        (some [0x00#8], img.writeRange (c.eepromBlock * i.toNat) d)
      else (none, img)
    else (none, img)

/-- The cartridge with power just applied (R86), as one that is inserted: DEDUCED (log 33; unsafe). -/
def Cart.powerOn (k : Cart) : Cart :=
  match k.save with
  | .flash chip => { k with save := .flash chip.powerOn }
  | .none => k
  | .sram _ => k
  | .eep4k _ => k
  | .eep16k _ => k

/-- The reference cartridge's answer to a serial frame (R94), and the cartridge after it. Nothing answers
where there is no cartridge (log 26). DESIGN CHOICE (log 31; unsafe): it answers and stores alike while its
reset is asserted, where R95 speaks of samples, `CA` and `FMODE` only and R328 leaves answers open. -/
def Cart.joy (c : Params) (tx : List Byte) (k : Cart) : Option (List Byte) × Cart :=
  match k.rom, k.save with
  | none, _ => (none, k)
  | some _, .none => (none, k)
  | some _, .sram _ => (none, k)
  | some _, .flash _ => (none, k)
  | some _, .eep4k img =>
    let r := eepromAnswer c c.joyType4k (c.eeprom4kSize / c.eepromBlock) img tx
    (r.1, { k with save := .eep4k r.2 })
  | some _, .eep16k img =>
    let r := eepromAnswer c c.joyType16k (c.eeprom16kSize / c.eepromBlock) img tx
    (r.1, { k with save := .eep16k r.2 })

/-- The counter's advance after a pulse (R65, R66). -/
def advanceCounter (wrap : Option Nat) (ca : Word) : Word :=
  match wrap with
  | none => ca + 2#32
  | some w =>
    let mask := BitVec.ofNat 32 (w - 1)
    (ca &&& ~~~mask) ||| ((ca + 2#32) &&& mask)

/-- Whether the environment drives AD while `RD` is low. The reference cartridge drives where a device
claims `CA`, and not in reset (R82, R95). Of an oracle's cartridge nothing is known, so it is taken to
drive (log 13; safe). -/
def Env.drives (c : Params) (rst : Bool) (e : Env) : Bool :=
  match e.body with
  | .oracle _ _ => true
  | .cartridge k => !rst && (k.word c e.ca.toNat).isSome

/-- The environment's body replaced in the reference cartridge's case. -/
def Env.mapCart (f : Cart → Cart) (e : Env) : Env :=
  match e.body with
  | .oracle _ _ => e
  | .cartridge k => { e with body := .cartridge (f k) }

/-- The environment with the cartridge's reset input held: `FMODE <- ARRAY`, and the counter and the FlashRAM's
pointer free values (R95, R134; log 12). -/
def Env.heldInReset (events : List Event) (e : Env) : Env :=
  { e.mapCart (Cart.inReset (Config.pointerInReset e.seed events)) with
      ca := Config.counterInReset e.seed events }

/-- The environment as it is once inserted: its chip as at power-on (R86), and held in reset where the block
asserts the reset line (R95). DEDUCED (log 33; unsafe). -/
def Env.inserted (rst : Bool) (events : List Event) (e : Env) : Env :=
  if rst then (e.mapCart Cart.powerOn).heldInReset events else e.mapCart Cart.powerOn

/-- What a control event does to the environment: `ad` is the level of the AD lines, `out` the output
latch, `old` and `new` the levels the events before and at this one set the line to. While the cartridge's reset is asserted the
counter is a free value and nothing is captured (R95; log 12). Otherwise: a falling ALE strobe captures
its half of the address (R64); the rising edge of `WR` ends a write pulse, whose word is the output latch
(R85); the rising edge of `RD` ends a read pulse; each pulse advances the counter (R65). -/
def Env.onCtrl (c : Params) (rst : Bool) (events : List Event) (ad out : Half) (line : Line)
    (old new : Level) (e : Env) : Env :=
  if rst then e.heldInReset events
  else
    match line with
    | .aleh => if old = 1#1 ∧ new = 0#1 then { e with ca := ad ++ lo16 e.ca } else e
    | .alel =>
      if old = 1#1 ∧ new = 0#1 then
        let ca' : Word := hi16 e.ca ++ ad
        { e.mapCart (Cart.onLatch c ca'.toNat) with ca := ca' }
      else e
    | .wr =>
      if old = 0#1 ∧ new = 1#1 then
        { e.mapCart (Cart.onWrite c e.seed events e.ca.toNat out) with
            ca := advanceCounter c.autoincWrap e.ca }
      else e
    | .rd =>
      if old = 0#1 ∧ new = 1#1 then
        { e.mapCart (Cart.afterRead c e.seed events e.ca.toNat) with
            ca := advanceCounter c.autoincWrap e.ca }
      else e
    | .rst => e

/-- The word `Sample()` answers: the oracle's draw (R63), or the reference cartridge's word, all-ones while
its reset is asserted (R95), and `undriven` where it does not drive (R82). -/
def Env.sampleWord (c : Params) (rst : Bool) (events : List Event) (undriven : Half) (e : Env) : Half :=
  match e.body with
  | .oracle (w :: _) _ => w
  | .oracle [] _ => Config.sampleAnswer e.seed events
  | .cartridge k => if rst then 0xFFFF#16 else (k.word c e.ca.toNat).getD undriven

/-- The environment after a sample: a scripted answer is used up. -/
def Env.afterSample (e : Env) : Env :=
  match e.body with
  | .oracle (_ :: ws) rs => { e with body := .oracle ws rs }
  | .oracle [] _ => e
  | .cartridge _ => e

/-- A transaction receives exactly `n` bytes or results in `NORESP`; fewer than `n` bytes are `NORESP`
(spec/43_eeprom.md R190, R193). -/
def receive (n : Nat) (r : Option (List Byte)) : Option (List Byte) :=
  match r with
  | none => none
  | some bs => if bs.length < n then none else some (bs.take n)

/-- The answer to a serial frame before its length is looked at, and the environment after it. It does not
depend on whether the cartridge's reset is asserted, which R328 and spec/93 I5 leave open: an oracle's
answer is free in either case, and the reference EEPROM answers as out of reset, DESIGN CHOICE (log 31;
unsafe). -/
def Env.joy (c : Params) (events : List Event) (tx : List Byte) (e : Env) : Option (List Byte) × Env :=
  match e.body with
  | .oracle ws (r :: rs) => (r, { e with body := .oracle ws rs })
  | .oracle _ [] => (Config.joyAnswer e.seed events tx, e)
  | .cartridge k =>
    let r := k.joy c tx
    (r.1, { e with body := .cartridge r.2 })

/-- The ROM image, if the environment is a reference cartridge with one. -/
def Env.rom (e : Env) : Option RomImage :=
  match e.body with
  | .oracle _ _ => none
  | .cartridge k => k.rom

/-- The size of the environment's ROM, if it has one, is as R81 asks. -/
def Env.romSized (c : Params) (e : Env) : Bool :=
  match e.rom with
  | none => true
  | some rom => rom.sized c

/-- The memories of a reference cartridge are in canonical form. -/
def Save.wf : Save → Bool
  | .none => true
  | .sram img => img.wf
  | .eep4k img => img.wf
  | .eep16k img => img.wf
  | .flash chip => chip.pageBuf.wf && chip.array.wf

/-- The memories of the environment are in canonical form. -/
def Env.wf (e : Env) : Bool :=
  match e.body with
  | .oracle _ _ => true
  | .cartridge k => (match k.rom with
                     | none => true
                     | some rom => rom.img.wf) && k.save.wf

end Sys2Proof.Machine
end

