-- ==== Sys2Proof/Machine/State.lean ====
section
/-! DEFINITION. The state of the block (spec/10_state.md R20-R43), with the parameters, the environment and
the host's pending moves beside it as plain data; the reasons a step can stop; and the state after
power-on (spec/70_reset_and_hazards.md R310). -/

namespace Sys2Proof.Machine

/-- `S.OP_STATE` (R21). -/
inductive OpState where
  | idle
  | busy
deriving DecidableEq, Repr

/-- The completion codes of R281-R286, by name. Their numbers are `Status.code` (Machine/Flags.lean). -/
inductive Status where
  | ok
  | absent
  | verifyFail
  | timeout
  | misuse
  | illegalOp
deriving DecidableEq, Repr

/-- `S.RESULT` (R30). -/
structure Result where
  /-- The completion code. -/
  status : Status
  /-- The operation's scalar. -/
  value : Word
  /-- The bytes an operation read. -/
  data : List Byte
deriving DecidableEq, Repr

/-- What the host, or a hand at the cartridge slot, does between operations (spec/60_exceptions.md R297). -/
inductive HostMove where
  /-- Issue one command record, given as its bytes. -/
  | issue (record : List Byte)
  /-- Remove, insert or change the cartridge: from here on another environment answers. -/
  | changeCartridge (env : Env)
deriving DecidableEq, Repr

/-- The state of the block and what stands around it. -/
structure State where
  /-- The parameters (R8); no step changes them. -/
  cfg : Params
  /-- The host's moves still to come, the next one first (the model's own, log 1). -/
  inputs : List HostMove
  /-- Whether the run's first record, `BUS_INIT`, has been issued (R339; the model's own, log 14). -/
  launched : Bool
  /-- `S.OP_STATE` (R21). -/
  opState : OpState
  /-- `S.GPIO_DIR` (R22). -/
  gpioDir : Half
  /-- `S.GPIO_OUT` (R23). -/
  gpioOut : Half
  /-- `S.GPIO_PULL` (R24). -/
  gpioPull : Level
  /-- `S.WR` (R26). -/
  wr : Level
  /-- `S.RD` (R26). -/
  rd : Level
  /-- `S.ALEH` (R26, R38). -/
  aleh : Level
  /-- `S.ALEL` (R26, R38). -/
  alel : Level
  /-- `S.RST_ASSERTED` (R27). -/
  rstAsserted : Bool
  /-- `S.JOY` (R28). -/
  joy : Level
  /-- `S.RESULT` (R30). -/
  result : Result
  /-- `S.FS_ACTIVE` (R32). -/
  fsActive : Bool
  /-- `S.FS_BLOCK` (R33). -/
  fsBlock : Word
  /-- `S.FS_BITMAP` (R34). -/
  fsBitmap : List Bool
  /-- `S.BLKBUF` (R35). -/
  blkBuf : Memory
  /-- `S.EEP_SIZE` (R43). -/
  eepSize : Word
  /-- The event trace, newest event first (R40). -/
  events : List Event
  /-- The block and the cartridge have driven AD at once (R29, R300; the model's own, log 13). -/
  contention : Bool
  /-- The environment (R42). -/
  env : Env
deriving DecidableEq, Repr

/-- Why the machine stops with a fault. -/
inductive Fault where
  /-- Bus contention (R29, R300: "a model treats it as a fault"). Raised when an operation ends, or a step
  begins, in a state in which the block and the cartridge have driven AD at once. Safe. -/
  | busContention
deriving DecidableEq, Repr

/-- Why the model has no next state. -/
inductive Refusal where
  /-- Reserved for an instruction without a meaning; no instruction is refused so. Safe. -/
  | notModelled (mnemonic : String)
  /-- The parameters break R9 (R300: "the configuration is rejected before any step"). Raised by the step.
  Safe. -/
  | illFormedConfig
  /-- A record presented while `S.OP_STATE = BUSY` (R300 "no move"). Raised by the step. Safe. -/
  | commandWhileBusy
  /-- The run's first record is not `BUS_INIT` (R339: "has no move in the model"). Raised by the step.
  Safe. -/
  | firstNotBusInit
  /-- The bytes presented are fewer than the 12 header bytes of R101. Raised by the step. Safe. -/
  | shortRecord
deriving DecidableEq, Repr

/-- The outcome of a step or of a meaning. -/
abbrev Outcome := Host.Outcome State Fault Refusal

/-- The environment at reset: an oracle of which nothing is known. The block does not reset it (R310). -/
def Env.unknown : Env where
  ca := 0#32
  seed := 0
  body := .oracle [] []

/-- The state after power-on (R310). Where R310 says "unspecified" the value is the model's: the pins are at
the levels BUS_INIT gives them, the output latch 0 and the reset line released (log 6), the buffer blank
(log 7), the environment unknown (log 8), the parameters those of `Params.spec` (log 2); all UNSAFE. -/
def State.reset : State where
  cfg := Params.spec
  inputs := []
  launched := false
  opState := .idle
  gpioDir := 0x0000#16
  gpioOut := 0x0000#16
  gpioPull := 1#1
  wr := 1#1
  rd := 1#1
  aleh := 1#1
  alel := 1#1
  rstAsserted := false
  joy := 1#1
  result := { status := .ok, value := 0#32, data := [] }
  fsActive := false
  fsBlock := 0#32
  fsBitmap := List.replicate 256 false
  blkBuf := []
  eepSize := 0#32
  events := []
  contention := false
  env := Env.unknown

end Sys2Proof.Machine
end

