-- ==== Sys2Proof/Machine/Flags.lean ====
section
/-! DEFINITION. The codes the host reads in the result record. The block has no condition-code register
(spec/10_state.md R31): its only flag-like state is the status of `S.RESULT`, whose codes are
spec/60_exceptions.md R281-R286. -/

namespace Sys2Proof.Machine

/-- The `u8` code of a status (R281-R286). -/
def Status.code : Status → Byte
  | .ok => 0#8
  | .absent => 1#8
  | .verifyFail => 2#8
  | .timeout => 3#8
  | .misuse => 4#8
  | .illegalOp => 5#8

/-- The reasons of `MISUSE` (R283). -/
inductive Reason where
  | oddLen
  | oddAddr
  | range
  | bufLen
  | badOperand
  | busState
deriving DecidableEq, Repr

/-- The `value` a `MISUSE` finish carries (R283). -/
def Reason.code : Reason → Word
  | .oddLen => 1#32
  | .oddAddr => 2#32
  | .range => 3#32
  | .bufLen => 4#32
  | .badOperand => 5#32
  | .busState => 6#32

/-- What a `raise` reports (R282-R286). -/
inductive Cause where
  /-- `Misuse(reason)` -/
  | misuse (reason : Reason)
  /-- `Absent()` -/
  | absent
  /-- `VerifyFail(info)`: the failing EEPROM block or FlashRAM page (R284). -/
  | verifyFail (unit : Nat)
  /-- `Timeout(info)`: the polls made (R285). -/
  | timeout (polls : Nat)
  /-- `IllegalOp()` -/
  | illegalOp
deriving DecidableEq, Repr

/-- The status of a cause. -/
def Cause.status : Cause → Status
  | .misuse _ => .misuse
  | .absent => .absent
  | .verifyFail _ => .verifyFail
  | .timeout _ => .timeout
  | .illegalOp => .illegalOp

/-- A size or a count as a `u32` field reports it (spec/10_state.md R30, R43): itself, where a `u32` holds it, and
a free value otherwise. DESIGN CHOICE of form (log 39; safe). -/
def reported (n : Nat) : Word := if n < 2 ^ 32 then BitVec.ofNat 32 n else Config.reportedPast32 n

/-- The `value` of a cause. -/
def Cause.value : Cause → Word
  | .misuse r => r.code
  | .absent => 0#32
  | .verifyFail u => reported u
  | .timeout n => reported n
  | .illegalOp => 0#32

/-- The value of `HAS_FLASHRAM`: `{present, id[7:0]}` as `present*256 + id` (R246). -/
def presenceValue (present : Bool) (id : Byte) : Word :=
  (if present then 256#32 else 0#32) + id.zeroExtend 32

end Sys2Proof.Machine
end

