-- ==== Sys2Proof/Machine/Ops.lean ====
section
/-! DEFINITION. The named operations: the pin and event primitives (spec/00_scope.md R12), the called forms
of the bus cycles (spec/40_bus_primitives.md R130, R133-R135), the composite memory primitives (R13), the
serial transaction, and the one way an operation ends: `finish` and `raise` (R14; spec/60_exceptions.md
R280, R291). There is no return from an exception: R292. -/

namespace Sys2Proof.Machine

/-- The trace in the spec's order (R40). -/
def State.trace (s : State) : List Event := s.events.reverse

/-- What a line that nothing drives reads: 1 with the pull-up on (R29, R67); a free value without (log 11). -/
def State.undrivenLevel (s : State) : Half :=
  if s.gpioPull = 1#1 then 0xFFFF#16 else Config.floatingLines s.env.seed s.events

/-- The level of the AD lines while the cartridge does not drive them (R29): the output latch on driven
lines, the undriven level on the others. -/
def State.adLevel (s : State) : Half :=
  (s.gpioDir &&& s.gpioOut) ||| (~~~s.gpioDir &&& s.undrivenLevel)

/-- The environment drives AD while `RD` is low. -/
def State.envDrives (s : State) : Bool := s.env.drives s.cfg s.rstAsserted

/-- The pin level that a logical state of the reset line puts on the pin (R27, R136). -/
def resetPin (c : Params) (active : Bool) : Level :=
  if active then c.resetActiveLevel else 1#1 - c.resetActiveLevel

/-- The level of a control line (R26, R27). -/
def State.level (s : State) : Line → Level
  | .wr => s.wr
  | .rd => s.rd
  | .aleh => s.aleh
  | .alel => s.alel
  | .rst => resetPin s.cfg s.rstAsserted

/-- The level an event sets a line to, if it sets that line. -/
def Event.levelOf (line : Line) : Event → Option Level
  | .ctrl l v => if l = line then some v else none
  | .dir _ => none
  | .out _ => none
  | .delay _ => none
  | .sample _ => none
  | .sleep _ => none
  | .yield => none
  | .joy _ _ => none

/-- The level the last event on a line set it to, in a trace with the newest event first. -/
def lastLevel (line : Line) (events : List Event) : Option Level := events.findSome? (Event.levelOf line)

/-- The level of a line as the cartridge knows it before an event that sets it to `new`: its pin level, where
an event has set it. R64 and R65 tell a pulse by two events on its line, so a level that no event has set,
as the pins have at power-on (R310), makes no edge (log 20). -/
def State.seenLevel (s : State) (line : Line) (new : Level) : Level :=
  if lastLevel line s.events = some (s.level line) then s.level line else new

/-- Append one event to the trace. -/
def emit (e : Event) (s : State) : State := { s with events := e :: s.events }

/-- `SetDir(out)` (R12, R22-R24): all 16 direction bits in one write. Turning the lines to output while `RD`
is low and the cartridge drives is contention (R29). -/
def setDir (out : Bool) (s : State) : State :=
  { s with
    gpioDir := if out then 0xFFFF#16 else 0x0000#16
    gpioOut := if out then 0x0000#16 else s.gpioOut
    gpioPull := if out then s.gpioPull else 1#1
    contention := s.contention || (out && s.rd == 0#1 && s.envDrives)
    events := .dir out :: s.events }

/-- `Drive(v)` (R12, R23). -/
def drive (v : Half) (s : State) : State :=
  { s with gpioOut := v, events := .out v :: s.events }

/-- `Ctrl(line, level)` (R12, R26). The reset line's logical state is not a strobe level: `ASSERT_RESET`
writes it itself (R136). Lowering `RD` while the block drives AD, on a cartridge that answers, is
contention (R29). -/
def ctrl (line : Line) (level : Level) (s : State) : State :=
  { s with
    wr := if line = .wr then level else s.wr
    rd := if line = .rd then level else s.rd
    aleh := if line = .aleh then level else s.aleh
    alel := if line = .alel then level else s.alel
    contention := s.contention ||
      (line == .rd && level == 0#1 && s.gpioDir != 0#16 && s.envDrives)
    env := s.env.onCtrl s.cfg s.rstAsserted s.events s.adLevel s.gpioOut line (s.seenLevel line level) level
    events := .ctrl line level :: s.events }

/-- `Delay(kind)` (R12): an event with a lower bound, no duration (R334). -/
def delay (kind : DelayKind) (s : State) : State := emit (.delay kind) s

/-- `Sleep(ms)` (R12). -/
def sleep (ms : Nat) (s : State) : State := emit (.sleep ms) s

/-- `Yield()` (R12, R224): the host services USB and changes nothing of the block. -/
def yieldPoint (s : State) : State := emit .yield s

/-- The word `Sample()` reads, inside a read cycle (R25, R29, R63). -/
def State.sampleWord (s : State) : Half :=
  s.env.sampleWord s.cfg s.rstAsserted s.events s.adLevel

/-- `Sample()` (R12): the word, and the state with its event. -/
def sample (s : State) : Half × State :=
  (s.sampleWord, { s with env := s.env.afterSample, events := .sample s.sampleWord :: s.events })

/-- `JoyXfer(tx, rxlen)` (R12, R190, R193): the received bytes or `NORESP`, and the state with its event. At
its end the line is released. -/
def joyXfer (tx : List Byte) (rxlen : Nat) (s : State) : Option (List Byte) × State :=
  let r := s.env.joy s.cfg s.events tx
  let rx := receive rxlen r.1
  (rx, { s with joy := 1#1, env := r.2, events := .joy tx rx :: s.events })

/-- The outcome of an operation that ends in `s`: a fault where AD has been driven from both sides (R300), the
next state otherwise. -/
def conclude (s : State) : Outcome := if s.contention then .fault .busContention else .next s

/-- `finish(status, value, data)` (R14, R280): write the result record and become idle. -/
def finish (status : Status) (value : Word) (data : List Byte) (s : State) : Outcome :=
  conclude { s with result := { status := status, value := value, data := data }, opState := .idle }

/-- `raise` (R14, R280, R291): the block's whole exception mechanism. It is a `finish` with a non-OK status
that saves nothing else, undoes nothing and transfers control nowhere. -/
def raise (cause : Cause) (s : State) : Outcome := finish cause.status cause.value [] s

/-- The body of `latch_address(addr)` (R133). -/
def latchAddress (addr : Word) (s : State) : State :=
  setDir false
    (delay .tHold (ctrl .alel 0#1 (delay .tSetup (drive (lo16 addr)
      (delay .tHold (ctrl .aleh 0#1 (delay .tSetup (drive (hi16 addr)
        (setDir true
          (ctrl .alel 1#1 (ctrl .aleh 1#1 (ctrl .rd 1#1 (ctrl .wr 1#1 s)))))))))))))

/-- The body of `read_word()` (R134): the sampled word and the state after the cycle. -/
def readWord (s : State) : Half × State :=
  let r := sample (delay .tAccess (ctrl .rd 0#1 s))
  (r.1, delay .tHold (ctrl .rd 1#1 r.2))

/-- The body of `write_word(data)` (R135). -/
def writeWord (data : Half) (s : State) : State :=
  setDir false (ctrl .wr 1#1 (delay .tWpw (ctrl .wr 0#1 (drive data (setDir true s)))))

/-- `n` read cycles in a row: the words' bytes in big-endian order (R13, R60), and the state after. -/
def readWords : Nat → State → List Byte × State
  | 0, s => ([], s)
  | n + 1, s =>
    let r := readWord s
    let t := readWords n r.2
    (halfBytes r.1 ++ t.1, t.2)

/-- Write cycles in a row, each taking two bytes as one big-endian word (R13, R60). -/
def writeWords : List Byte → State → State
  | b0 :: b1 :: bs, s => writeWords bs (writeWord (be16 b0 b1) s)
  | [_], s => s
  | [], s => s

/-- `MemRead(addr, n)` (R13). -/
def memRead (addr n : Nat) (s : State) : List Byte × State :=
  readWords (n / 2) (latchAddress (BitVec.ofNat 32 addr) s)

/-- `MemWrite(addr, n, v)` with `n = len(v)` (R13). -/
def memWrite (addr : Nat) (v : List Byte) (s : State) : State :=
  writeWords v (latchAddress (BitVec.ofNat 32 addr) s)

end Sys2Proof.Machine
end

