-- ==== Sys2Proof/Machine/Operands.lean ====
section
/-! DEFINITION. Operand forms: how an address and a length name words, bursts, blocks, chunks, pages and
sectors of a medium (spec/30_encoding.md R105; spec/42_sram.md R170, R171; spec/43_eeprom.md R197;
spec/44_flashram.md R222, R248, R260). All arithmetic is in unbounded naturals (R10). -/

namespace Sys2Proof.Machine

/-- Whether `[a, a+l)` lies outside a medium of `size` bytes: it ends past the medium (R283), or past 2^32, where
the sum is a range error and no wrap (R10; spec/92 D37). DEDUCED (log 40; unsafe): a range that ends at 2^32
itself does not. -/
def outOfRange (size : Nat) (a l : Word) : Bool :=
  size < a.toNat + l.toNat || 2 ^ 32 < a.toNat + l.toNat

/-- The start of the word cover of `[a, a+l)` (R171). -/
def coverStart (a : Nat) : Nat := a - a % 2

/-- The end of the word cover of `[a, a+l)` (R171). -/
def coverEnd (a l : Nat) : Nat := a + l + (a + l) % 2

/-- The first multiple of `burst` above `p`, or `e` if that comes first (R170). A burst of 0 cuts nowhere. -/
def nextCut (burst p e : Nat) : Nat := if burst = 0 then e else min e ((p / burst + 1) * burst)

/-- The pieces `[p, q)` of `[o, e)` cut at every multiple of `burst`, ascending (R170). The fuel `e - o`
is enough: every piece has at least one byte. -/
def burstPiecesFuel (burst e : Nat) : Nat → Nat → List (Nat × Nat)
  | 0, _ => []
  | fuel + 1, p =>
    if p < e then (p, nextCut burst p e) :: burstPiecesFuel burst e fuel (nextCut burst p e) else []

/-- The pieces of `[o, o + n)` (R170). -/
def burstPieces (burst o n : Nat) : List (Nat × Nat) := burstPiecesFuel burst (o + n) n o

/-- The units of size `u` that `[a, a+l)`, with `l > 0`, straddles, ascending (R197, R248, R258). -/
def unitsOf (u a l : Nat) : List Nat := List.range' (a / u) ((a + l - 1) / u + 1 - a / u)

/-- Where `[a, a+l)` begins inside unit `b` of size `u` (R197's `lo(b)`, R248's `lo`). -/
def unitLo (u a b : Nat) : Nat := max a (u * b) - u * b

/-- Where `[a, a+l)` ends inside unit `b` of size `u` (R197's `hi(b)`, R248's `hi`). -/
def unitHi (u a l b : Nat) : Nat := min (a + l) (u * b + u) - u * b

/-- The caller's bytes for unit `b` (R197): `D[8b + lo(b) - a .. 8b + hi(b) - a)`. -/
def unitData (u a l : Nat) (d : List Byte) (b : Nat) : List Byte :=
  slice d (u * b + unitLo u a b - a) (u * b + unitHi u a l b - a)

/-- Old unit contents with the caller's bytes spliced in (R199). -/
def mergeUnit (u a l : Nat) (d : List Byte) (b : Nat) (old : List Byte) : List Byte :=
  slice old 0 (unitLo u a b) ++ unitData u a l d b ++ slice old (unitHi u a l b) u

/-- The block a chip-wide sector belongs to (R260). -/
def sectorBlock (c : Params) (s : Nat) : Nat := s / c.sectorsPerBlock

/-- A sector's slot in its block (R260). -/
def sectorSlot (c : Params) (s : Nat) : Nat := s % c.sectorsPerBlock

end Sys2Proof.Machine
end

