-- ==== Sys2Proof/Machine/Control.lean ====
section
/-! DEFINITION. Accepting a command record (spec/30_encoding.md R100; spec/60_exceptions.md R287, R297,
R300; spec/70_reset_and_hazards.md R339): what the next host move is, and what the sequencer makes of it. -/

namespace Sys2Proof.Machine

/-- The block having accepted a record, with the moves `rest` still to come: `S.OP_STATE` is BUSY (R21). -/
def acceptRecord (rest : List HostMove) (s : State) : State :=
  { s with inputs := rest, launched := true, opState := .busy }

/-- The cartridge changed: the block has no part in it (R297), and the new one is powered on, in reset where
the block asserts the reset line (R86, R95): DEDUCED (log 33; unsafe). -/
def cartridgeChanged (env : Env) (rest : List HostMove) (s : State) : State :=
  { s with inputs := rest, env := env.inserted s.rstAsserted s.events }

/-- What a failed decode check raises (checks 1 to 3 of R287); bytes that are no record raise nothing. -/
def rejectCause : Reject → Option Cause
  | .shortRecord => none
  | .illegalOp => some .illegalOp
  | .reservedBits => some (.misuse .badOperand)
  | .dataLength => some (.misuse .bufLen)

/-- What the sequencer does with the host's next move. -/
inductive Fetched where
  /-- Nothing has been issued: the block stays IDLE (R311). -/
  | wait
  /-- There is no move (R300). -/
  | stop (reason : Refusal)
  /-- The environment has changed; the block has done nothing. -/
  | changed (s : State)
  /-- A decode check failed: the record finishes with this cause, in this state. -/
  | rejected (cause : Cause) (s : State)
  /-- The record is this instruction, to run in this state. -/
  | run (i : Instr) (s : State)
deriving DecidableEq, Repr

/-- The fetch of one record: accepted only while IDLE (R100), and as a run's first record only `BUS_INIT`
(R339). -/
def fetchRecord (bytes : List Byte) (rest : List HostMove) (s : State) : Fetched :=
  if s.opState = .busy then .stop .commandWhileBusy
  else
    match decode s.cfg bytes with
    | .ok i =>
      if s.launched = true ∨ i = .busInit then .run i (acceptRecord rest s) else .stop .firstNotBusInit
    | .error e =>
      match rejectCause e with
      | none => .stop .shortRecord
      | some cause =>
        if s.launched = true then .rejected cause (acceptRecord rest s) else .stop .firstNotBusInit

/-- The fetch of the next host move. -/
def fetch (s : State) : Fetched :=
  match s.inputs with
  | [] => .wait
  | .changeCartridge env :: rest => .changed (cartridgeChanged env rest s)
  | .issue bytes :: rest => fetchRecord bytes rest s

/-- The state with the record of a table word as the host's next move, in a run already launched, with the
block idle: what `fetch` needs to run it next (log 1). -/
def issueTableWord (nbits w : Nat) (s : State) : State :=
  { s with
    inputs := .issue (recordOfTableWord s.cfg nbits w).toBytes :: s.inputs
    launched := true
    opState := .idle }

end Sys2Proof.Machine
end

