-- ==== Sys2Proof/Machine/BusFamily.lean ====
section
/-! DEFINITION. The bus primitive operations, issued form (spec/40_bus_primitives.md R130-R136). -/

namespace Sys2Proof.Machine

/-- `BUS_INIT` (R131). -/
def execBusInit (s : State) : Outcome :=
  finish .ok 0#32 []
    { setDir false (ctrl .alel 1#1 (ctrl .aleh 1#1 (ctrl .rd 1#1 (ctrl .wr 1#1 s)))) with joy := 1#1 }

/-- `SET_DIRECTION f` (R132). -/
def execSetDirection (out : Bool) (s : State) : Outcome := finish .ok 0#32 [] (setDir out s)

/-- `LATCH_ADDRESS a` (R133). Any 32-bit value is accepted. -/
def execLatchAddress (addr : Word) (s : State) : Outcome := finish .ok 0#32 [] (latchAddress addr s)

/-- `READ_WORD` (R134), with its entry check (check 8 of R287). -/
def execReadWord (s : State) : Outcome :=
  if s.gpioDir ≠ 0x0000#16 then raise (.misuse .busState) s
  else finish .ok ((readWord s).1.zeroExtend 32) [] (readWord s).2

/-- `WRITE_WORD w` (R135): legal in either direction state. -/
def execWriteWord (data : Half) (s : State) : Outcome := finish .ok 0#32 [] (writeWord data s)

/-- The state with the reset line's new logical state (R136, line 1). A cartridge that the line has held in
reset so far is in its reset state at that point (R95). -/
def setReset (active : Bool) (s : State) : State :=
  { s with
    rstAsserted := active
    env := if s.rstAsserted then s.env.heldInReset s.events else s.env }

/-- `ASSERT_RESET f` (R136). -/
def execAssertReset (active : Bool) (s : State) : Outcome :=
  finish .ok 0#32 []
    (delay (if active then .tRstAssert else .tRstRelease)
      (ctrl .rst (resetPin s.cfg active) (setReset active s)))

end Sys2Proof.Machine
end

