-- ==== Sys2Proof/Machine/EepromFamily.lean ====
section
/-! DEFINITION. The EEPROM serial transceiver and protocol sequencer (spec/43_eeprom.md R190-R201; the
frames are spec/30_encoding.md R108). -/

namespace Sys2Proof.Machine

/-- The one-byte block index of a frame, `i[7:0]` (R108, R195). -/
def frameIndex (b : Nat) : Byte := BitVec.ofNat 8 b

/-- The body `eep_read_block(b)` (R195): `none` is `NORESP`. -/
def eepReadBlock (b : Nat) (s : State) : Option (List Byte) × State :=
  joyXfer [s.cfg.joyCmdRead, frameIndex b] s.cfg.eepromBlock s

/-- The body `eep_write_block(b, d)` (R196): false is `NORESP`; the status byte is not checked. -/
def eepWriteBlock (b : Nat) (d : List Byte) (s : State) : Bool × State :=
  let r := joyXfer (s.cfg.joyCmdWrite :: frameIndex b :: d) 1 s
  (r.1.isSome, r.2)

/-- The capacity an info answer means (R194). -/
def sizeOfInfo (c : Params) (r : Option (List Byte)) : Nat :=
  match r with
  | none => 0
  | some bs =>
    if bs[1]? = some c.joyType16k then c.eeprom16kSize
    else if bs[1]? = some c.joyType4k then c.eeprom4kSize
    else 0

/-- `EEPROM_SIZE` (R194): the one operation that writes `S.EEP_SIZE` (R43). -/
def execEepromSize (s : State) : Outcome :=
  let r := joyXfer [s.cfg.joyCmdInfo] 3 s
  let size := reported (sizeOfInfo s.cfg r.1)
  finish .ok size [] { r.2 with eepSize := size }

/-- `READ_EEPROM_BLOCK i` (R195). -/
def execReadEepromBlock (i : Word) (s : State) : Outcome :=
  if i.toNat ≥ s.eepSize.toNat / s.cfg.eepromBlock then raise (.misuse .range) s
  else
    match eepReadBlock i.toNat s with
    | (none, s') => raise .absent s'
    | (some bs, s') => finish .ok 0#32 bs s'

/-- `WRITE_EEPROM_BLOCK i, D` (R196). -/
def execWriteEepromBlock (i : Word) (d : List Byte) (s : State) : Outcome :=
  if d.length ≠ s.cfg.eepromBlock then raise (.misuse .bufLen) s
  else if i.toNat ≥ s.eepSize.toNat / s.cfg.eepromBlock then raise (.misuse .range) s
  else
    match eepWriteBlock i.toNat d s with
    | (false, s') => raise .absent s'
    | (true, s') => finish .ok 0#32 [] s'

/-- The block loop of R198: the slices read, or `none` at the first block that does not answer. -/
def eepReadBlocks (a l : Nat) : List Nat → State → Option (List Byte) × State
  | [], s => (some [], s)
  | b :: bs, s =>
    match eepReadBlock b s with
    | (none, s') => (none, s')
    | (some blk, s') =>
      let t := eepReadBlocks a l bs s'
      (t.1.map (fun rest =>
        slice blk (unitLo s.cfg.eepromBlock a b) (unitHi s.cfg.eepromBlock a l b) ++ rest), t.2)

/-- `READ_EEPROM_BYTES a, l` (R198). -/
def execReadEepromBytes (a l : Word) (s : State) : Outcome :=
  if outOfRange s.eepSize.toNat a l then raise (.misuse .range) s
  else if l.toNat = 0 then finish .ok 0#32 [] s
  else
    match eepReadBlocks a.toNat l.toNat (unitsOf s.cfg.eepromBlock a.toNat l.toNat) s with
    | (none, s') => raise .absent s'
    | (some out, s') => finish .ok 0#32 out s'

/-- At most `n` attempts to write and verify block `b` (R199). A `NORESP` on the write or on the verify read
is a failed attempt. -/
def eepAttempts (b : Nat) (merged : List Byte) : Nat → State → Bool × State
  | 0, s => (false, s)
  | n + 1, s =>
    let w := eepWriteBlock b merged s
    let rb := eepReadBlock b w.2
    if w.1 && rb.1 == some merged then (true, rb.2) else eepAttempts b merged n rb.2

/-- The block loop of R199: `none` when every block verified, else the cause that ends it. -/
def eepWriteBlocks (a l : Nat) (d : List Byte) : List Nat → State → Option Cause × State
  | [], s => (none, s)
  | b :: bs, s =>
    match eepReadBlock b s with
    | (none, s') => (some .absent, s')
    | (some old, s') =>
      match eepAttempts b (mergeUnit s.cfg.eepromBlock a l d b old) (1 + s.cfg.eepromMaxRetries) s' with
      | (false, s'') => (some (.verifyFail b), s'')
      | (true, s'') => eepWriteBlocks a l d bs s''

/-- `WRITE_AND_VERIFY_EEPROM_BYTES a, l, D` (R199). -/
def execWriteAndVerifyEepromBytes (a l : Word) (d : List Byte) (s : State) : Outcome :=
  if d.length ≠ l.toNat then raise (.misuse .bufLen) s
  else if outOfRange s.eepSize.toNat a l then raise (.misuse .range) s
  else if l.toNat = 0 then finish .ok 0#32 [] s
  else
    match eepWriteBlocks a.toNat l.toNat d (unitsOf s.cfg.eepromBlock a.toNat l.toNat) s with
    | (none, s') => finish .ok 0#32 [] s'
    | (some cause, s') => raise cause s'

end Sys2Proof.Machine
end

