-- ==== Sys2Proof/Machine/FlashFamily.lean ====
section
/-! DEFINITION. The FlashRAM command-register engine (spec/44_flashram.md R220-R262). -/

namespace Sys2Proof.Machine

/-- `send_command(k, p)` (R241): one latch of the command register, the high half, then the low half. -/
def sendCommand (k : FlashKind) (p : Half) (s : State) : State :=
  let w := s.cfg.flashWord k p
  writeWord (lo16 w) (writeWord (hi16 w) (latchAddress (BitVec.ofNat 32 s.cfg.flashCmdAddr) s))

/-- The body `read_status()` (R243). -/
def readStatus (s : State) : List Byte × State :=
  memRead s.cfg.flashBase s.cfg.flashStatusLen (sendCommand .statusMode 0#16 s)

/-- The poll loop of R244 with `left` polls still allowed, the next being poll `n`: the polls used, or
`none` for `TIMEOUT`. A sleep and a yield stand between polls. -/
def pollReady : Nat → Nat → State → Option Nat × State
  | 0, _, s => (none, s)
  | left + 1, n, s =>
    let r := readStatus s
    if s.cfg.idleSigs.contains r.1 then (some n, r.2)
    else if left = 0 then (none, r.2)
    else pollReady left (n + 1) (yieldPoint (sleep s.cfg.flashPollSleep r.2))

/-- The body `wait_ready()` (R244). -/
def waitReady (s : State) : Option Nat × State := pollReady s.cfg.flashPollMax 1 s

/-- `FLASH_COMMAND k, p` for a kind that `k` names, and `MISUSE(BAD_OPERAND)` for the others (R242, check 4
of R287). -/
def execFlashCommand (k : BitVec 4) (p : Half) (s : State) : Outcome :=
  match FlashKind.ofK k with
  | none => raise (.misuse .badOperand) s
  | some kind => finish .ok 0#32 [] (sendCommand kind p s)

/-- `FLASH_COMMAND RESET` (R242). -/
def execFlashCommandReset (s : State) : Outcome := finish .ok 0#32 [] (sendCommand .reset 0#16 s)

/-- `FLASH_COMMAND READ_ARRAY` (R242). -/
def execFlashCommandReadArray (s : State) : Outcome := finish .ok 0#32 [] (sendCommand .readArray 0#16 s)

/-- `FLASH_COMMAND STATUS_MODE` (R242). -/
def execFlashCommandStatusMode (s : State) : Outcome := finish .ok 0#32 [] (sendCommand .statusMode 0#16 s)

/-- `FLASH_COMMAND ERASE_SELECT, p` (R242). -/
def execFlashCommandEraseSelect (p : Half) (s : State) : Outcome :=
  finish .ok 0#32 [] (sendCommand .eraseSelect p s)

/-- `FLASH_COMMAND ERASE_MODE` (R242). -/
def execFlashCommandEraseMode (s : State) : Outcome := finish .ok 0#32 [] (sendCommand .eraseMode 0#16 s)

/-- `FLASH_COMMAND PROGRAM` (R242). -/
def execFlashCommandProgram (s : State) : Outcome := finish .ok 0#32 [] (sendCommand .program 0#16 s)

/-- `FLASH_COMMAND PAGE_SELECT, p` (R242). -/
def execFlashCommandPageSelect (p : Half) (s : State) : Outcome :=
  finish .ok 0#32 [] (sendCommand .pageSelect p s)

/-- `FLASH_COMMAND EXECUTE` (R242). The block does not check the order of raw commands. -/
def execFlashCommandExecute (s : State) : Outcome := finish .ok 0#32 [] (sendCommand .execute 0#16 s)

/-- `FLASH_READ_STATUS` (R243). -/
def execFlashReadStatus (s : State) : Outcome := finish .ok 0#32 (readStatus s).1 (readStatus s).2

/-- `FLASH_WAIT_READY` (R244). -/
def execFlashWaitReady (s : State) : Outcome :=
  match waitReady s with
  | (some n, s') => finish .ok (reported n) [] s'
  | (none, s') => raise (.timeout s.cfg.flashPollMax) s'

/-- `HAS_FLASHRAM` (R246). -/
def execHasFlashram (s : State) : Outcome :=
  let r := readStatus (sendCommand .reset 0#16 s)
  let id := r.1.getD 7 0x00#8
  finish .ok (presenceValue (s.cfg.flashDeviceIds.contains id) id) r.1 (sendCommand .reset 0#16 r.2)

/-- The chunk loop of R248. -/
def flashReadChunks (a l : Nat) : List Nat → State → List Byte × State
  | [], s => ([], s)
  | c :: cs, s =>
    let r := memRead (s.cfg.flashBase + c * s.cfg.flashChunk / 2) s.cfg.flashChunk s
    let t := flashReadChunks a l cs r.2
    (slice r.1 (unitLo s.cfg.flashChunk a c) (unitHi s.cfg.flashChunk a l c) ++ t.1, t.2)

/-- The body `flash_read(a, l)` (R248): `READ_ARRAY` once, then the chunks. -/
def flashRead (a l : Nat) (s : State) : List Byte × State :=
  if l = 0 then ([], s)
  else flashReadChunks a l (unitsOf s.cfg.flashChunk a l) (sendCommand .readArray 0#16 s)

/-- `READ_FLASHRAM_BYTES a, l` (R248). -/
def execReadFlashramBytes (a l : Word) (s : State) : Outcome :=
  if outOfRange s.cfg.flashSize a l then raise (.misuse .range) s
  else finish .ok 0#32 (flashRead a.toNat l.toNat s).1 (flashRead a.toNat l.toNat s).2

/-- The body `erase_block(b)` (R252): `none` for `OK`, else `TIMEOUT`. -/
def eraseBlock (b : Nat) (s : State) : Option Cause × State :=
  let s1 := sendCommand .eraseSelect (BitVec.ofNat 16 (b * s.cfg.flashBlock / s.cfg.flashPage)) s
  let w := waitReady (sendCommand .execute 0#16 (sendCommand .eraseMode 0#16 s1))
  (if w.1.isSome then none else some (.timeout s.cfg.flashPollMax), w.2)

/-- `FLASH_ERASE_BLOCK b` (R252). -/
def execFlashEraseBlock (b : Word) (s : State) : Outcome :=
  if b.toNat ≥ s.cfg.flashSize / s.cfg.flashBlock then raise (.misuse .range) s
  else
    match eraseBlock b.toNat s with
    | (none, s') => finish .ok 0#32 [] s'
    | (some cause, s') => raise cause s'

/-- The body `program_page(p, D)` (R254): `none` for `OK`, else `TIMEOUT` or `VERIFY_FAIL`. -/
def programPage (p : Nat) (d : List Byte) (s : State) : Option Cause × State :=
  let s1 := memWrite s.cfg.flashBase d (sendCommand .program 0#16 s)
  let w := waitReady (sendCommand .execute 0#16 (sendCommand .pageSelect (BitVec.ofNat 16 p) s1))
  if w.1.isSome then
    let r := memRead (s.cfg.flashBase + p * s.cfg.flashPage / 2) s.cfg.flashPage
      (sendCommand .readArray 0#16 w.2)
    (if r.1 = d then none else some (.verifyFail p), r.2)
  else (some (.timeout s.cfg.flashPollMax), w.2)

/-- `FLASH_PROGRAM_PAGE p, D` (R254). -/
def execFlashProgramPage (p : Word) (d : List Byte) (s : State) : Outcome :=
  if d.length ≠ s.cfg.flashPage then raise (.misuse .bufLen) s
  else if p.toNat ≥ s.cfg.flashSize / s.cfg.flashPage then raise (.misuse .range) s
  else
    match programPage p.toNat d s with
    | (none, s') => finish .ok 0#32 [] s'
    | (some cause, s') => raise cause s'

/-- The page loop of R256 over the pages `qs` of block `b`, with the image `buf`: the first failing page
ends it. -/
def programPages (b : Nat) (buf : Memory) : List Nat → State → Option Cause × State
  | [], s => (none, s)
  | q :: qs, s =>
    match programPage (b * s.cfg.pagesPerBlock + q) (buf.readRange (q * s.cfg.flashPage) s.cfg.flashPage) s with
    | (none, s') => programPages b buf qs s'
    | (some cause, s') => (some cause, s')

/-- `program_block(b, buf)` (R256). -/
def programBlock (b : Nat) (buf : Memory) (s : State) : Option Cause × State :=
  programPages b buf (List.range s.cfg.pagesPerBlock) s

/-- Erase block `b` and program the image in `S.BLKBUF` into it: steps 3 and 4 of R258 and the commit of
R262. -/
def eraseAndProgram (b : Nat) (s : State) : Option Cause × State :=
  match eraseBlock b s with
  | (some cause, s') => (some cause, s')
  | (none, s') => programBlock b s'.blkBuf s'

/-- Steps 1 and 2 of R258 for block `b`: read the old block into `S.BLKBUF`, then splice in the caller's
bytes. -/
def assembleBlock (a l : Nat) (d : List Byte) (b : Nat) (s : State) : State :=
  let r := flashRead (b * s.cfg.flashBlock) s.cfg.flashBlock s
  { r.2 with
    blkBuf := (Memory.ofBytes 0 r.1).writeRange (unitLo s.cfg.flashBlock a b)
      (unitData s.cfg.flashBlock a l d b) }

/-- The block loop of R258. -/
def flashWriteBlocks (a l : Nat) (d : List Byte) : List Nat → State → Option Cause × State
  | [], s => (none, s)
  | b :: bs, s =>
    match eraseAndProgram b (assembleBlock a l d b s) with
    | (some cause, s') => (some cause, s')
    | (none, s') => flashWriteBlocks a l d bs s'

/-- No streamed write in flight, and its bitmap all 0 (R258, R262). -/
def dropStream (s : State) : State :=
  { s with fsActive := false, fsBitmap := List.replicate s.cfg.sectorsPerBlock false }

/-- `WRITE_FLASHRAM_BYTES a, l, D` (R258). -/
def execWriteFlashramBytes (a l : Word) (d : List Byte) (s : State) : Outcome :=
  if d.length ≠ l.toNat then raise (.misuse .bufLen) s
  else if outOfRange s.cfg.flashSize a l then raise (.misuse .range) s
  else if l.toNat = 0 then finish .ok 0#32 [] s
  else
    match flashWriteBlocks a.toNat l.toNat d (unitsOf s.cfg.flashBlock a.toNat l.toNat) (dropStream s) with
    | (none, s') => finish .ok 0#32 [] s'
    | (some cause, s') => raise cause s'

/-- The stream of block `blk`: the one in flight, or a new one, which abandons another block's (R262). -/
def openStream (blk : Nat) (s : State) : State :=
  if s.fsActive && s.fsBlock.toNat == blk then s
  else { s with
    fsActive := true
    fsBlock := BitVec.ofNat 32 blk
    fsBitmap := List.replicate s.cfg.sectorsPerBlock false }

/-- One sector received into the block buffer and marked in the bitmap (R262). -/
def receiveSector (n : Nat) (d : List Byte) (s : State) : State :=
  let s1 := openStream (sectorBlock s.cfg n) s
  { s1 with
    blkBuf := s1.blkBuf.writeRange (s.cfg.flashSector * sectorSlot s.cfg n) d
    fsBitmap := s1.fsBitmap.set (sectorSlot s.cfg n) true }

/-- `WRITE_FLASHRAM_SECTOR s, D` (R262). -/
def execWriteFlashramSector (n : Word) (d : List Byte) (s : State) : Outcome :=
  if d.length ≠ s.cfg.flashSector then raise (.misuse .bufLen) s
  else if n.toNat ≥ s.cfg.flashSize / s.cfg.flashSector then raise (.misuse .range) s
  else if (receiveSector n.toNat d s).fsBitmap.all id then
    match eraseAndProgram (sectorBlock s.cfg n.toNat) (dropStream (receiveSector n.toNat d s)) with
    | (none, s') => finish .ok 1#32 [] s'
    | (some cause, s') => raise cause s'
  else finish .ok 0#32 [] (receiveSector n.toNat d s)

end Sys2Proof.Machine
end

