-- ==== Sys2Proof/Machine/RomFamily.lean ====
section
/-! DEFINITION. The ROM sequential burst reader (spec/41_rom_reader.md R150-R152). -/

namespace Sys2Proof.Machine

/-- The body `rom_read(a, l)` of R150: one latch, however long `l` is; no bus activity for `l = 0`. -/
def romRead (a l : Nat) (s : State) : List Byte × State :=
  if l = 0 then ([], s) else memRead (s.cfg.romBase + a) l s

/-- `READ_ROM_BYTES a, l` (R150), with checks 5 to 7 of R287. -/
def execReadRomBytes (a l : Word) (s : State) : Outcome :=
  if l.toNat % 2 ≠ 0 then raise (.misuse .oddLen) s
  else if a.toNat % 2 ≠ 0 then raise (.misuse .oddAddr) s
  else if outOfRange s.cfg.romSpace a l then raise (.misuse .range) s
  else finish .ok 0#32 (romRead a.toNat l.toNat s).1 (romRead a.toNat l.toNat s).2

/-- The probe loop of R152 over the boundaries `ks` (in units of `ROM_PROBE_STEP`): the size found. -/
def probeMirrors (fp : List Byte) : List Nat → State → Nat × State
  | [], s => (s.cfg.romSpace, s)
  | k :: ks, s =>
    let r := romRead (k * s.cfg.romProbeStep) s.cfg.romFpLen s
    if r.1 = fp then (k * s.cfg.romProbeStep, r.2) else probeMirrors fp ks r.2

/-- The boundaries probed: 1 to `ROM_SPACE div ROM_PROBE_STEP` less 1 (R152). -/
def probeSteps (c : Params) : List Nat := List.range' 1 (c.romSpace / c.romProbeStep - 1)

/-- The size detection of R152. -/
def detectRom (s : State) : Nat × State :=
  let r := romRead 0 s.cfg.romFpLen s
  probeMirrors r.1 (probeSteps s.cfg) r.2

/-- `DETECT_ROM_SIZE` (R152). -/
def execDetectRomSize (s : State) : Outcome :=
  finish .ok (reported (detectRom s).1) [] (detectRom s).2

end Sys2Proof.Machine
end

