-- ==== Sys2Proof/Machine/SramFamily.lean ====
section
/-! DEFINITION. The SRAM word read/write controller (spec/42_sram.md R170-R175). -/

namespace Sys2Proof.Machine

/-- Read the given pieces of SRAM, one `MemRead` each, and concatenate them (R170). -/
def sramReadPieces : List (Nat × Nat) → State → List Byte × State
  | [], s => ([], s)
  | (p, q) :: ps, s =>
    let r := memRead (s.cfg.sramBase + p) (q - p) s
    let t := sramReadPieces ps r.2
    (r.1 ++ t.1, t.2)

/-- `sram_read_words(o, n)` (R170). -/
def sramReadWords (o n : Nat) (s : State) : List Byte × State :=
  sramReadPieces (burstPieces s.cfg.sramBurst o n) s

/-- Write the given pieces of SRAM from the bytes `v`, which stand from offset `o` on (R170). -/
def sramWritePieces (o : Nat) (v : List Byte) : List (Nat × Nat) → State → State
  | [], s => s
  | (p, q) :: ps, s =>
    sramWritePieces o v ps (memWrite (s.cfg.sramBase + p) (slice v (p - o) (q - o)) s)

/-- `sram_write_words(o, v)` (R170). -/
def sramWriteWords (o : Nat) (v : List Byte) (s : State) : State :=
  sramWritePieces o v (burstPieces s.cfg.sramBurst o v.length) s

/-- One latch and one read cycle (the probe accesses of R172). -/
def peek (addr : Nat) (s : State) : Half × State := readWord (latchAddress (BitVec.ofNat 32 addr) s)

/-- One latch and one write cycle (the probe accesses of R172). -/
def poke (addr : Nat) (w : Half) (s : State) : State := writeWord w (latchAddress (BitVec.ofNat 32 addr) s)

/-- The presence test of R172: whether the sentinel read back, and the state after the restore. -/
def sramProbe (s : State) : Bool × State :=
  let w0 := peek s.cfg.sramBase s
  if w0.1 = 0xFFFF#16 then (false, w0.2)
  else
    let p := s.cfg.sramBase + s.cfg.sramProbeOffset
    let orig := peek p w0.2
    let rb := peek p (poke p s.cfg.sramSentinel orig.2)
    (rb.1 == s.cfg.sramSentinel, poke p orig.1 rb.2)

/-- `HAS_SRAM` (R172). -/
def execHasSram (s : State) : Outcome :=
  finish .ok (if (sramProbe s).1 then 1#32 else 0#32) [] (sramProbe s).2

/-- The bytes `[a, a+l)` of SRAM, through their word cover (R174). -/
def sramRead (a l : Nat) (s : State) : List Byte × State :=
  if l = 0 then ([], s)
  else
    let r := sramReadWords (coverStart a) (coverEnd a l - coverStart a) s
    (slice r.1 (a - coverStart a) (a - coverStart a + l), r.2)

/-- `READ_SRAM_BYTES a, l` (R174). -/
def execReadSramBytes (a l : Word) (s : State) : Outcome :=
  if outOfRange s.cfg.sramSize a l then raise (.misuse .range) s
  else finish .ok 0#32 (sramRead a.toNat l.toNat s).1 (sramRead a.toNat l.toNat s).2

/-- The kept byte of the first word of the cover, read where `a` is odd (R175). -/
def sramHead (a : Nat) (s : State) : List Byte × State :=
  if a % 2 = 1 then
    let h := sramReadWords (coverStart a) 2 s
    (slice h.1 0 1, h.2)
  else ([], s)

/-- The kept byte of the last word of the cover, read where `a + l` is odd (R175). -/
def sramTail (a l : Nat) (s : State) : List Byte × State :=
  if (a + l) % 2 = 1 then
    let t := sramReadWords (coverEnd a l - 2) 2 s
    (slice t.1 1 2, t.2)
  else ([], s)

/-- The merge reads and the write of R175. -/
def sramWrite (a l : Nat) (d : List Byte) (s : State) : State :=
  if l = 0 then s
  else
    let h := sramHead a s
    let t := sramTail a l h.2
    sramWriteWords (coverStart a) (h.1 ++ d ++ t.1) t.2

/-- `WRITE_SRAM_BYTES a, l, D` (R175). -/
def execWriteSramBytes (a l : Word) (d : List Byte) (s : State) : Outcome :=
  if d.length ≠ l.toNat then raise (.misuse .bufLen) s
  else if outOfRange s.cfg.sramSize a l then raise (.misuse .range) s
  else finish .ok 0#32 [] (sramWrite a.toNat l.toNat d s)

end Sys2Proof.Machine
end

