-- ==== Sys2Proof/Machine/Dispatch.lean ====
section
/-! DEFINITION. The meaning of every operation, one arm for each constructor of `Instr`. -/

namespace Sys2Proof.Machine

def exec (i : Instr) (s : State) : Host.Outcome State Fault Refusal :=
  match i with
  | .busInit => Sys2Proof.Machine.execBusInit s
  | .setDirection out => Sys2Proof.Machine.execSetDirection out s
  | .latchAddress addr => Sys2Proof.Machine.execLatchAddress addr s
  | .readWord => Sys2Proof.Machine.execReadWord s
  | .writeWord data => Sys2Proof.Machine.execWriteWord data s
  | .assertReset active => Sys2Proof.Machine.execAssertReset active s
  | .readRomBytes a l => Sys2Proof.Machine.execReadRomBytes a l s
  | .detectRomSize => Sys2Proof.Machine.execDetectRomSize s
  | .hasSram => Sys2Proof.Machine.execHasSram s
  | .readSramBytes a l => Sys2Proof.Machine.execReadSramBytes a l s
  | .writeSramBytes a l d => Sys2Proof.Machine.execWriteSramBytes a l d s
  | .eepromSize => Sys2Proof.Machine.execEepromSize s
  | .readEepromBlock b => Sys2Proof.Machine.execReadEepromBlock b s
  | .writeEepromBlock b d => Sys2Proof.Machine.execWriteEepromBlock b d s
  | .readEepromBytes a l => Sys2Proof.Machine.execReadEepromBytes a l s
  | .writeAndVerifyEepromBytes a l d => Sys2Proof.Machine.execWriteAndVerifyEepromBytes a l d s
  | .flashCommand k p => Sys2Proof.Machine.execFlashCommand k p s
  | .flashReadStatus => Sys2Proof.Machine.execFlashReadStatus s
  | .flashWaitReady => Sys2Proof.Machine.execFlashWaitReady s
  | .hasFlashram => Sys2Proof.Machine.execHasFlashram s
  | .readFlashramBytes a l => Sys2Proof.Machine.execReadFlashramBytes a l s
  | .flashEraseBlock b => Sys2Proof.Machine.execFlashEraseBlock b s
  | .flashProgramPage p d => Sys2Proof.Machine.execFlashProgramPage p d s
  | .writeFlashramBytes a l d => Sys2Proof.Machine.execWriteFlashramBytes a l d s
  | .writeFlashramSector n d => Sys2Proof.Machine.execWriteFlashramSector n d s
  | .flashCommandReset => Sys2Proof.Machine.execFlashCommandReset s
  | .flashCommandReadArray => Sys2Proof.Machine.execFlashCommandReadArray s
  | .flashCommandStatusMode => Sys2Proof.Machine.execFlashCommandStatusMode s
  | .flashCommandEraseSelect p => Sys2Proof.Machine.execFlashCommandEraseSelect p s
  | .flashCommandEraseMode => Sys2Proof.Machine.execFlashCommandEraseMode s
  | .flashCommandProgram => Sys2Proof.Machine.execFlashCommandProgram s
  | .flashCommandPageSelect p => Sys2Proof.Machine.execFlashCommandPageSelect p s
  | .flashCommandExecute => Sys2Proof.Machine.execFlashCommandExecute s

end Sys2Proof.Machine
end

