-- ==== Sys2Proof/Machine/Step.lean ====
section
/-! DEFINITION. One step of the block: one host move, and a command record's whole operation
(spec/00_scope.md R3). -/

namespace Sys2Proof.Machine

/-- One step. A faulted state stays faulted and an ill-formed configuration is refused (R300); otherwise the
next host move is taken. -/
def step (s : State) : Host.Outcome State Fault Refusal :=
  if s.contention then .fault .busContention
  else if s.cfg.ok then
    match fetch s with
    | .wait => .next s
    | .stop reason => .refused reason
    | .changed t => .next t
    | .rejected cause t => raise cause t
    | .run i t => exec i t
  else .refused .illFormedConfig

/-- The state in which the next step runs the instruction of a table word. -/
def State.withFetchWord (s : State) (nbits w : Nat) : State := issueTableWord nbits w s

end Sys2Proof.Machine
end

