-- ==== Sys2Proof/Safety.lean ====
section
/-! DEFINITION. What claims about the block speak of: the traces of its cycles in the spec's order, the state
an operation leaves alone, the checks of R287 as a list, the statuses of R289 as a table, the invariants
of a run, and the observation of a run (spec/70_reset_and_hazards.md R338, R339). -/

namespace Sys2Proof.Machine

/-! ### Traces (spec/40_bus_primitives.md R133-R135), oldest event first -/

/-- The 14 events of an address latch cycle (R133). -/
def latchTrace (addr : Word) : List Event :=
  [.ctrl .wr 1#1, .ctrl .rd 1#1, .ctrl .aleh 1#1, .ctrl .alel 1#1, .dir true,
   .out (hi16 addr), .delay .tSetup, .ctrl .aleh 0#1, .delay .tHold,
   .out (lo16 addr), .delay .tSetup, .ctrl .alel 0#1, .delay .tHold, .dir false]

/-- The 5 events of a read cycle that samples `w` (R134). -/
def readTrace (w : Half) : List Event :=
  [.ctrl .rd 0#1, .delay .tAccess, .sample w, .ctrl .rd 1#1, .delay .tHold]

/-- The 6 events of a write cycle (R135). -/
def writeTrace (w : Half) : List Event :=
  [.dir true, .out w, .ctrl .wr 0#1, .delay .tWpw, .ctrl .wr 1#1, .dir false]

/-- `MemRead` at a bus address, sampling the words `ws` (R13). -/
def burstRead (addr : Nat) (ws : List Half) : List Event :=
  latchTrace (BitVec.ofNat 32 addr) ++ ws.flatMap readTrace

/-- `MemWrite` of the words `ws` at a bus address (R13). -/
def burstWrite (addr : Nat) (ws : List Half) : List Event :=
  latchTrace (BitVec.ofNat 32 addr) ++ ws.flatMap writeTrace

/-- The bytes of a run of bus words, big-endian (R60). -/
def bytesOfWords (ws : List Half) : List Byte := ws.flatMap halfBytes

/-- The bus words of a run of bytes, big-endian (R60); an odd last byte makes no word. -/
def wordsOfBytes : List Byte → List Half
  | b0 :: b1 :: bs => be16 b0 b1 :: wordsOfBytes bs
  | [_] => []
  | [] => []

/-- The 26 events of `send_command(k, p)` (R241). -/
def commandTrace (c : Params) (k : FlashKind) (p : Half) : List Event :=
  burstWrite c.flashCmdAddr [hi16 (c.flashWord k p), lo16 (c.flashWord k p)]

/-- The events of `read_status()` with the response words `ws` (R243). -/
def statusTrace (c : Params) (ws : List Half) : List Event :=
  commandTrace c .statusMode 0#16 ++ burstRead c.flashBase ws

/-- The events of a `wait_ready()` whose polls answered the given responses, one sleep and one yield between
polls (R244). -/
def pollTrace (c : Params) : List (List Half) → List Event
  | [] => []
  | [ws] => statusTrace c ws
  | ws :: rest => statusTrace c ws ++ [.sleep c.flashPollSleep, .yield] ++ pollTrace c rest

/-- The responses of a `wait_ready()` that ends at the first idle signature or, after `FLASH_POLL_MAX` polls,
in `TIMEOUT`; `ready` is the number of polls used (R244). -/
def pollsEnd (c : Params) (ready : Option Nat) (polls : List (List Half)) : Prop :=
  (∀ ws ∈ polls.dropLast, bytesOfWords ws ∉ c.idleSigs) ∧
  match ready with
  | some n => n = polls.length ∧ 1 ≤ n ∧ n ≤ c.flashPollMax ∧
      ∃ ws, polls.getLast? = some ws ∧ bytesOfWords ws ∈ c.idleSigs
  | none => polls.length = c.flashPollMax ∧ ∀ ws ∈ polls, bytesOfWords ws ∉ c.idleSigs

/-- `n` bytes of an image from an offset. -/
def imageBytes (img : Memory) (a n : Nat) : List Byte := (List.range n).map (fun i => img.read (a + i))

/-- The events of a ROM read of the words `ws` from ROM offset `a`: none for no words (R150). -/
def romTrace (c : Params) (a : Nat) (ws : List Half) : List Event :=
  if ws = [] then [] else burstRead (c.romBase + a) ws

/-- One `MemRead` a piece, at `base` plus the piece's start, sampling the piece's words (R170). -/
def readPieces (base : Nat) (pieces : List (Nat × Nat)) (wss : List (List Half)) : List Event :=
  (pieces.zip wss).flatMap (fun x => burstRead (base + x.1.1) x.2)

/-- One `MemWrite` a piece, of the piece's part of the bytes `v`, which stand from offset `o` on (R170). -/
def writePieces (base o : Nat) (v : List Byte) (pieces : List (Nat × Nat)) : List Event :=
  pieces.flatMap (fun x => burstWrite (base + x.1) (wordsOfBytes (slice v (x.1 - o) (x.2 - o))))

/-- The serial transaction that reads block `b`, with its answer (R108). -/
def eepReadEvent (c : Params) (b : Nat) (rx : Option (List Byte)) : Event :=
  .joy [c.joyCmdRead, BitVec.ofNat 8 b] rx

/-- The serial transaction that writes `d` to block `b`, with its answer (R108). -/
def eepWriteEvent (c : Params) (b : Nat) (d : List Byte) (rx : Option (List Byte)) : Event :=
  .joy (c.joyCmdWrite :: BitVec.ofNat 8 b :: d) rx

/-- One attempt of R199 on block `b`: the answers to its write and to its verify read. -/
def attemptTrace (c : Params) (b : Nat) (merged : List Byte)
    (answers : Option (List Byte) × Option (List Byte)) : List Event :=
  [eepWriteEvent c b merged answers.1, eepReadEvent c b answers.2]

/-- Whether an attempt verified (R199). -/
def attemptVerified (merged : List Byte) (answers : Option (List Byte) × Option (List Byte)) : Prop :=
  answers.1 ≠ none ∧ answers.2 = some merged

/-- The serial transactions that R199 makes over the blocks given, and how it ends: `none` for `OK`. A block
whose first read has no answer ends it `ABSENT`. Otherwise there are 1 to `1 + EEPROM_MAX_RETRIES` attempts,
all but the last unverified; the last one verified and the next block follows, or the bound is reached and
the block is the failing one. -/
def eepWriteRun (c : Params) (a l : Nat) (d : List Byte) : List Nat → List Event → Option Cause → Prop
  | [], es, verdict => es = [] ∧ verdict = none
  | b :: bs, es, verdict =>
    (es = [eepReadEvent c b none] ∧ verdict = some .absent) ∨
    ∃ (old : List Byte) (tries : List (Option (List Byte) × Option (List Byte))) (rest : List Event),
      old.length = c.eepromBlock ∧
      es = eepReadEvent c b (some old) ::
        tries.flatMap (attemptTrace c b (mergeUnit c.eepromBlock a l d b old)) ++ rest ∧
      tries.length ≤ 1 + c.eepromMaxRetries ∧
      (∀ x ∈ tries.dropLast, ¬ attemptVerified (mergeUnit c.eepromBlock a l d b old) x) ∧
      ((∃ x, tries.getLast? = some x ∧ attemptVerified (mergeUnit c.eepromBlock a l d b old) x ∧
          eepWriteRun c a l d bs rest verdict) ∨
        (tries.length = 1 + c.eepromMaxRetries ∧
          (∀ x ∈ tries, ¬ attemptVerified (mergeUnit c.eepromBlock a l d b old) x) ∧
          rest = [] ∧ verdict = some (.verifyFail b)))

/-- The events of a `wait_ready()` and the polls it used, `none` for `TIMEOUT` (R244). -/
def waitRun (c : Params) (es : List Event) (ready : Option Nat) : Prop :=
  ∃ polls : List (List Half),
    (∀ ws ∈ polls, ws.length = c.flashStatusLen / 2) ∧ pollsEnd c ready polls ∧ es = pollTrace c polls

/-- The cause a wait ends in: none when the chip became ready (R244, R285). -/
def waitVerdict (c : Params) (ready : Option Nat) : Option Cause :=
  if ready.isSome then none else some (.timeout c.flashPollMax)

/-- The events of `flash_read(a, l)` and the bytes it returns (R248). -/
def flashReadRun (c : Params) (a l : Nat) (es : List Event) (data : List Byte) : Prop :=
  if l = 0 then es = [] ∧ data = []
  else ∃ wss : List (List Half),
    wss.length = (unitsOf c.flashChunk a l).length ∧ (∀ ws ∈ wss, ws.length = c.flashChunk / 2) ∧
    es = commandTrace c .readArray 0#16 ++
      ((unitsOf c.flashChunk a l).zip wss).flatMap
        (fun x => burstRead (c.flashBase + x.1 * c.flashChunk / 2) x.2) ∧
    data = ((unitsOf c.flashChunk a l).zip wss).flatMap
      (fun x => slice (bytesOfWords x.2) (unitLo c.flashChunk a x.1) (unitHi c.flashChunk a l x.1))

/-- The events of `erase_block(b)` and how it ends (R252). -/
def eraseRun (c : Params) (b : Nat) (es : List Event) (verdict : Option Cause) : Prop :=
  ∃ we ready, waitRun c we ready ∧ verdict = waitVerdict c ready ∧
    es = commandTrace c .eraseSelect (BitVec.ofNat 16 (b * c.flashBlock / c.flashPage)) ++
      commandTrace c .eraseMode 0#16 ++ commandTrace c .execute 0#16 ++ we

/-- The events of `program_page(p, D)` and how it ends (R254). -/
def pageRun (c : Params) (p : Nat) (d : List Byte) (es : List Event) (verdict : Option Cause) : Prop :=
  ∃ we ready back, waitRun c we ready ∧
    es = commandTrace c .program 0#16 ++ burstWrite c.flashBase (wordsOfBytes d) ++
      commandTrace c .pageSelect (BitVec.ofNat 16 p) ++ commandTrace c .execute 0#16 ++ we ++ back ∧
    ((ready = none ∧ back = [] ∧ verdict = some (.timeout c.flashPollMax)) ∨
     (ready ≠ none ∧ ∃ ws : List Half, ws.length = c.flashPage / 2 ∧
        back = commandTrace c .readArray 0#16 ++ burstRead (c.flashBase + p * c.flashPage / 2) ws ∧
        verdict = if bytesOfWords ws = d then none else some (.verifyFail p)))

/-- The page loop of R256 over the pages `qs` of block `b` of the image `buf`: the first failing page ends
it. -/
def pagesRun (c : Params) (b : Nat) (buf : Memory) : List Nat → List Event → Option Cause → Prop
  | [], es, verdict => es = [] ∧ verdict = none
  | q :: qs, es, verdict =>
    ∃ e1 e2 v1,
      pageRun c (b * c.pagesPerBlock + q) (imageBytes buf (q * c.flashPage) c.flashPage) e1 v1 ∧
      es = e1 ++ e2 ∧
      ((v1 = none ∧ pagesRun c b buf qs e2 verdict) ∨ (v1 ≠ none ∧ e2 = [] ∧ verdict = v1))

/-- The erase of block `b` and, once it is ready, the programming of all its pages from the image `buf`
(steps 3 and 4 of R258; the commit of R262). -/
def blockRun (c : Params) (b : Nat) (buf : Memory) (es : List Event) (verdict : Option Cause) : Prop :=
  ∃ e1 e2 v1, eraseRun c b e1 v1 ∧ es = e1 ++ e2 ∧
    ((v1 = none ∧ pagesRun c b buf (List.range c.pagesPerBlock) e2 verdict) ∨
     (v1 ≠ none ∧ e2 = [] ∧ verdict = v1))

/-- The image of block `b` that R258 assembles: the old bytes with the caller's spliced in. -/
def splicedImage (c : Params) (a l : Nat) (d : List Byte) (b : Nat) (old : List Byte) : Memory :=
  (Memory.ofBytes 0 old).writeRange (unitLo c.flashBlock a b) (unitData c.flashBlock a l d b)

/-- The block loop of R258, with the block buffer before and after it: each block is read, spliced, erased
and programmed, and the first failing block ends it. -/
def flashWriteRun (c : Params) (a l : Nat) (d : List Byte) :
    List Nat → Memory → Memory → List Event → Option Cause → Prop
  | [], buf, buf', es, verdict => buf' = buf ∧ es = [] ∧ verdict = none
  | b :: bs, _, buf', es, verdict =>
    ∃ old e1 e2 e3 v1,
      flashReadRun c (b * c.flashBlock) c.flashBlock e1 old ∧
      blockRun c b (splicedImage c a l d b old) e2 v1 ∧ es = e1 ++ e2 ++ e3 ∧
      ((v1 = none ∧ flashWriteRun c a l d bs (splicedImage c a l d b old) buf' e3 verdict) ∨
       (v1 ≠ none ∧ e3 = [] ∧ verdict = v1 ∧ buf' = splicedImage c a l d b old))

/-! ### What an operation leaves alone -/

/-- The operation ended with this result, and the block is idle (R14, R280). -/
def finished (t : State) (status : Status) (value : Word) (data : List Byte) : Prop :=
  t.opState = .idle ∧ t.result = { status := status, value := value, data := data }

/-- The parameters, the host's further moves and the launch mark are unchanged, and no contention is noted. -/
def sameRun (s t : State) : Prop :=
  t.cfg = s.cfg ∧ t.inputs = s.inputs ∧ t.launched = s.launched ∧ t.contention = false

/-- The stream state is unchanged, and every byte of the block buffer reads as before (R32-R35). -/
def sameStream (s t : State) : Prop :=
  t.fsActive = s.fsActive ∧ t.fsBlock = s.fsBlock ∧ t.fsBitmap = s.fsBitmap ∧
  ∀ a, t.blkBuf.read a = s.blkBuf.read a

/-- All block state but the pins, the trace and the result is unchanged (R39). -/
def sameBlock (s t : State) : Prop :=
  sameRun s t ∧ sameStream s t ∧ t.eepSize = s.eepSize ∧ t.rstAsserted = s.rstAsserted ∧ t.joy = s.joy

/-- The AD bus and its strobes are as they were (R22-R26). -/
def sameBus (s t : State) : Prop :=
  t.gpioDir = s.gpioDir ∧ t.gpioOut = s.gpioOut ∧ t.gpioPull = s.gpioPull ∧ t.wr = s.wr ∧ t.rd = s.rd ∧
  t.aleh = s.aleh ∧ t.alel = s.alel

/-- Every pin register is unchanged (R22-R28). -/
def samePins (s t : State) : Prop :=
  sameBus s t ∧ t.rstAsserted = s.rstAsserted ∧ t.joy = s.joy

/-- The bus is released: input with pull-ups, `WR` and `RD` high (R37). -/
def busReleased (t : State) : Prop :=
  t.gpioDir = 0x0000#16 ∧ t.gpioPull = 1#1 ∧ t.wr = 1#1 ∧ t.rd = 1#1

/-- The bus after an operation that latched an address: released, both ALE strobes low (R37, R38). -/
def settled (t : State) : Prop := busReleased t ∧ t.aleh = 0#1 ∧ t.alel = 0#1

/-- `WR` and `RD` are high, as they are between operations (R26). -/
def strobesHigh (s : State) : Prop := s.wr = 1#1 ∧ s.rd = 1#1

/-- No pulse of a strobe is under way: it is high, or no event of the trace has set it low and none high since
(R65). So it is at power-on, whatever the pins are (R310). -/
def noPulse (line : Line) (s : State) : Prop := s.level line = 1#1 ∨ lastLevel line s.events ≠ some 0#1

/-- How an operation that can end in a run-time cause has ended: `OK` with the given value, or the cause. -/
def endedWith (t : State) (okValue : Word) : Option Cause → Prop
  | none => finished t .ok okValue []
  | some cause => finished t cause.status cause.value []

/-- The between-operation invariant of R37. -/
def quiet (s : State) : Prop := s.gpioDir = 0x0000#16 ∧ s.wr = 1#1 ∧ s.rd = 1#1 ∧ s.joy = 1#1

/-- What a serial operation leaves alone: the bus, the streamed write, the reset line and the run; its line is
released (R190). -/
def serialFrame (s t : State) : Prop :=
  sameBus s t ∧ t.joy = 1#1 ∧ sameRun s t ∧ sameStream s t ∧ t.rstAsserted = s.rstAsserted

/-- The operation ended `OK` and did nothing else: no event, and no register but the result's (R150, R174,
R175, R198, R199, R248, R258 for a length of 0). -/
def onlyOk (s t : State) : Prop :=
  t = { s with result := { status := .ok, value := 0#32, data := [] }, opState := .idle }

/-- A command record that finished without any event: only the result is new (R283, R286). -/
def onlyResult (s : State) (cause : Cause) (t : State) : Prop :=
  t = { s with result := { status := cause.status, value := cause.value, data := [] }, opState := .idle }

/-! ### The contents of the reference cartridge (spec/20_memory.md R81, R86) -/

/-- `SRAMIMG`, `EEPIMG` or `FARRAY`, whichever the save medium is. -/
def Save.image : Save → Memory
  | .none => []
  | .sram img => img
  | .eep4k img => img
  | .eep16k img => img
  | .flash chip => chip.array

/-- One byte of the cartridge's save medium. -/
def Env.saveByte (e : Env) (a : Nat) : Byte :=
  match e.body with
  | .oracle _ _ => Memory.blank
  | .cartridge k => k.save.image.read a

/-- Nothing the reference cartridge holds has changed: its ROM, and every byte of its save medium. -/
def sameContents (s t : State) : Prop :=
  t.env.rom = s.env.rom ∧ ∀ a, t.env.saveByte a = s.env.saveByte a

/-- The premise `env_ref` of R339: the environment is the given reference cartridge (R81), its variant and
images in it, under the given `AUTOINC_WRAP`. -/
def envRef (s : State) (wrap : Option Nat) (cart : Cart) : Prop :=
  s.env.body = .cartridge cart ∧ s.cfg.autoincWrap = wrap ∧ s.env.romSized s.cfg = true

/-- The environment is a reference cartridge in the slot and out of reset, with the given ROM, save medium and
`AUTOINC_WRAP`. -/
def refCart (s : State) (wrap : Option Nat) (rom : RomImage) (save : Save) : Prop :=
  envRef s wrap { rom := some rom, save := save } ∧ s.rstAsserted = false

/-- The slot is empty and the reset line released (`NOCART`, R81, R82). -/
def emptySlot (s : State) : Prop :=
  (∃ save, s.env.body = .cartridge { rom := none, save := save }) ∧ s.rstAsserted = false

/-- No address of the ROM region lies in `[base, base + n)`: the media's windows are apart (R69). -/
def apartFromRom (c : Params) (base n : Nat) : Prop :=
  base + n ≤ c.romBase ∨ c.romBase + c.romSpace ≤ base

/-- The FlashRAM window that the engine's reads and writes cover, which is apart from the ROM region, and
its command register, which is apart from the staging page (R69). A command register inside the ROM region
is not excluded: the chip takes commands there too (log 35). -/
def flashLayout (c : Params) : Prop :=
  apartFromRom c c.flashBase c.flashSpan ∧
  (c.flashBase + c.flashPage ≤ c.flashCmdAddr ∨ c.flashCmdAddr + 4 ≤ c.flashBase)

/-- The command words of different kinds differ in their upper half, but for `RESET` and `READ_ARRAY`, whose
words R240 lets coincide: then the reference chip can tell them apart (R87). -/
def commandsApart (c : Params) : Prop :=
  ∀ k k' : FlashKind, hi16 (c.flashCmd k) = hi16 (c.flashCmd k') →
    k = k' ∨ (k = .reset ∧ k' = .readArray) ∨ (k = .readArray ∧ k' = .reset)

/-- A reference chip that `wait_ready()` can see become ready: its ID block is an idle signature, its busy
patterns have 8 bytes, and the pattern it shows while busy is no signature (R89). -/
def readableChip (c : Params) (chip : FlashChip) : Prop :=
  chip.idBlk.toList ∈ c.idleSigs ∧ (∀ p ∈ chip.patScript, p.length = 8) ∧
  (0 < chip.busy → chip.busyPat.length = 8 ∧ chip.busyPat ∉ c.idleSigs)

/-- The chip's next `n` `BUSY` draws are known and below `FLASH_POLL_MAX`: no `TIMEOUT` (R259). -/
def shortDraws (c : Params) (chip : FlashChip) (n : Nat) : Prop :=
  n ≤ chip.busyScript.length ∧ ∀ b ∈ chip.busyScript, b < c.flashPollMax

/-- The byte of the array at `x` after `EXECUTE` (R88): blank in the block of an armed erase; otherwise, in the
selected page and inside the chip, the old byte AND the page buffer's; any other byte is the old one. -/
def executedByte (c : Params) (chip : FlashChip) (x : Nat) : Byte :=
  match chip.eraseArmed, chip.eraseSel, chip.pageSel with
  | true, some b, _ =>
    if b * c.flashBlock ≤ x ∧ x < (b + 1) * c.flashBlock then 0xFF#8 else chip.array.read x
  | true, none, _ => chip.array.read x
  | false, _, some p =>
    if p * c.flashPage ≤ x ∧ x < (p + 1) * c.flashPage ∧ x < c.flashSize
    then chip.array.read x &&& chip.pageBuf.read (x - p * c.flashPage) else chip.array.read x
  | false, _, none => chip.array.read x

/-- A byte of the ROM at an offset, mirrored (R68, R83). -/
def romByte (rom : RomImage) (o : Nat) : Byte := rom.img.read (o % rom.size)

/-! ### Decode checks and statuses (spec/60_exceptions.md R287, R289) -/

/-- The opcode's own range check (check 7 of R287). R9 keeps the ROM and the SRAM, and a `u32` the EEPROM, to
2^32 bytes, so a sum past 2^32 (R10) is a case of its own for the FlashRAM only. -/
def rangeFails (c : Params) (eep : Word) (r : Record) : Opcode → Bool
  | .readRomBytes => r.a.toNat + r.l.toNat > c.romSpace
  | .readSramBytes => r.a.toNat + r.l.toNat > c.sramSize
  | .writeSramBytes => r.a.toNat + r.l.toNat > c.sramSize
  | .readEepromBlock => r.a.toNat ≥ eep.toNat / c.eepromBlock
  | .writeEepromBlock => r.a.toNat ≥ eep.toNat / c.eepromBlock
  | .readEepromBytes => r.a.toNat + r.l.toNat > eep.toNat
  | .writeAndVerifyEepromBytes => r.a.toNat + r.l.toNat > eep.toNat
  | .readFlashramBytes => r.a.toNat + r.l.toNat > c.flashSize ∨ r.a.toNat + r.l.toNat > 2 ^ 32
  | .flashEraseBlock => r.a.toNat ≥ c.flashSize / c.flashBlock
  | .flashProgramPage => r.a.toNat ≥ c.flashSize / c.flashPage
  | .writeFlashramBytes => r.a.toNat + r.l.toNat > c.flashSize ∨ r.a.toNat + r.l.toNat > 2 ^ 32
  | .writeFlashramSector => r.a.toNat ≥ c.flashSize / c.flashSector
  | .busInit => false
  | .setDirection => false
  | .latchAddress => false
  | .readWord => false
  | .writeWord => false
  | .assertReset => false
  | .detectRomSize => false
  | .hasSram => false
  | .eepromSize => false
  | .flashCommand => false
  | .flashReadStatus => false
  | .flashWaitReady => false
  | .hasFlashram => false

/-- Checks 2 to 8 of R287 for an assigned opcode, in order: whether each fails, and what it then reports. -/
def checksOf (c : Params) (eep : Word) (dir : Half) (r : Record) (op : Opcode) : List (Bool × Cause) :=
  [(r.reserved != 0#3, .misuse .badOperand),
   (r.d.length != op.dataLength c r.l, .misuse .bufLen),
   (op == .flashCommand && 7 < r.k.toNat, .misuse .badOperand),
   (op == .readRomBytes && r.l.toNat % 2 == 1, .misuse .oddLen),
   (op == .readRomBytes && r.a.toNat % 2 == 1, .misuse .oddAddr),
   (rangeFails c eep r op, .misuse .range),
   (op == .readWord && dir != 0x0000#16, .misuse .busState)]

/-- What the first failing check of R287 reports, if one fails. It reads only the record, the parameters,
`S.EEP_SIZE` and `S.GPIO_DIR`. -/
def firstFailingCheck (c : Params) (eep : Word) (dir : Half) (r : Record) : Option Cause :=
  match Opcode.ofByte r.op with
  | none => some .illegalOp
  | some op => ((checksOf c eep dir r op).find? (fun check => check.1)).map (fun check => check.2)

/-- The `MISUSE` reasons of R289's table for an opcode. -/
def reasonsOf : Opcode → List Reason
  | .busInit => [.badOperand, .bufLen]
  | .setDirection => [.badOperand, .bufLen]
  | .latchAddress => [.badOperand, .bufLen]
  | .writeWord => [.badOperand, .bufLen]
  | .assertReset => [.badOperand, .bufLen]
  | .readWord => [.badOperand, .bufLen, .busState]
  | .readRomBytes => [.badOperand, .bufLen, .oddLen, .oddAddr, .range]
  | .detectRomSize => [.badOperand, .bufLen]
  | .hasSram => [.badOperand, .bufLen]
  | .eepromSize => [.badOperand, .bufLen]
  | .flashReadStatus => [.badOperand, .bufLen]
  | .hasFlashram => [.badOperand, .bufLen]
  | .readSramBytes => [.badOperand, .bufLen, .range]
  | .writeSramBytes => [.badOperand, .bufLen, .range]
  | .readFlashramBytes => [.badOperand, .bufLen, .range]
  | .readEepromBlock => [.badOperand, .bufLen, .range]
  | .writeEepromBlock => [.badOperand, .bufLen, .range]
  | .readEepromBytes => [.badOperand, .bufLen, .range]
  | .writeAndVerifyEepromBytes => [.badOperand, .bufLen, .range]
  | .flashCommand => [.badOperand, .bufLen]
  | .flashWaitReady => [.badOperand, .bufLen]
  | .flashEraseBlock => [.badOperand, .bufLen, .range]
  | .flashProgramPage => [.badOperand, .bufLen, .range]
  | .writeFlashramBytes => [.badOperand, .bufLen, .range]
  | .writeFlashramSector => [.badOperand, .bufLen, .range]

/-- The opcodes that may finish `ABSENT` (R289). -/
def mayBeAbsent (op : Opcode) : Bool :=
  [Opcode.readEepromBlock, .writeEepromBlock, .readEepromBytes, .writeAndVerifyEepromBytes].contains op

/-- The opcodes that may finish `VERIFY_FAIL` (R289). -/
def mayFailVerify (op : Opcode) : Bool :=
  [Opcode.writeAndVerifyEepromBytes, .flashProgramPage, .writeFlashramBytes, .writeFlashramSector].contains op

/-- The opcodes that may finish `TIMEOUT` (R289). -/
def mayTimeOut (op : Opcode) : Bool :=
  [Opcode.flashWaitReady, .flashEraseBlock, .flashProgramPage, .writeFlashramBytes,
   .writeFlashramSector].contains op

/-- R289's table: whether an opcode may finish with this result. -/
def statusAllowed (op : Opcode) (r : Result) : Prop :=
  match r.status with
  | .ok => True
  | .absent => mayBeAbsent op = true
  | .misuse => ∃ reason ∈ reasonsOf op, r.value = reason.code
  | .verifyFail => mayFailVerify op = true
  | .timeout => mayTimeOut op = true
  | .illegalOp => False

/-! ### Invariants of a run -/

/-- Between operations the sequencer is idle and no contention has been noted; once launched, the direction
register is all input or all output (R22), the pull-ups are on (R24), `WR`, `RD` and the serial line are
high (R37), and the two ALE strobes are both high or both low (R38). -/
def sequencerInv (s : State) : Prop :=
  s.opState = .idle ∧ s.contention = false ∧
  (s.launched = true →
    (s.gpioDir = 0x0000#16 ∨ s.gpioDir = 0xFFFF#16) ∧ s.gpioPull = 1#1 ∧ s.wr = 1#1 ∧ s.rd = 1#1 ∧
    s.joy = 1#1 ∧ ((s.aleh = 1#1 ∧ s.alel = 1#1) ∨ (s.aleh = 0#1 ∧ s.alel = 0#1)))

/-- A host move carries no ill-formed memory, and no ROM of a size R81 excludes. -/
def HostMove.wf (c : Params) : HostMove → Bool
  | .issue _ => true
  | .changeCartridge env => env.wf && env.romSized c

/-- Every memory of the state is in its canonical form, and the ROM's size is as R81 asks. -/
def memoryInv (s : State) : Prop :=
  s.blkBuf.wf = true ∧ s.env.wf = true ∧ s.env.romSized s.cfg = true ∧ ∀ m ∈ s.inputs, m.wf s.cfg = true

/-- The stream bitmap has one bit a sector of a block, is all 0 while no stream is in flight and is never
full between operations; an active stream is of a block of the chip (R32-R34, R262). -/
def streamInv (s : State) : Prop :=
  s.fsBitmap.length = s.cfg.sectorsPerBlock ∧ s.fsBitmap.all id = false ∧
  (s.fsActive = false → s.fsBitmap = List.replicate s.cfg.sectorsPerBlock false) ∧
  (s.fsActive = true → s.fsBlock.toNat < s.cfg.flashSize / s.cfg.flashBlock)

/-- `S.EEP_SIZE ∈ {0, 512, 2048}`, the latter two as parameters (R43). -/
def eepSizeInv (s : State) : Prop :=
  s.eepSize = 0#32 ∨ s.eepSize = reported s.cfg.eeprom4kSize ∨
  s.eepSize = reported s.cfg.eeprom16kSize

/-! ### Runs and their end (R338) -/

/-- The block's own state: the fields of spec/10_state.md R21-R35 and R43, without the parameters, the trace,
the environment and the model's own fields. -/
structure BlockState where
  opState : OpState
  gpioDir : Half
  gpioOut : Half
  gpioPull : Level
  wr : Level
  rd : Level
  aleh : Level
  alel : Level
  rstAsserted : Bool
  joy : Level
  result : Result
  fsActive : Bool
  fsBlock : Word
  fsBitmap : List Bool
  blkBuf : Memory
  eepSize : Word
deriving DecidableEq, Repr

/-- The block state of a state. -/
def State.block (s : State) : BlockState where
  opState := s.opState
  gpioDir := s.gpioDir
  gpioOut := s.gpioOut
  gpioPull := s.gpioPull
  wr := s.wr
  rd := s.rd
  aleh := s.aleh
  alel := s.alel
  rstAsserted := s.rstAsserted
  joy := s.joy
  result := s.result
  fsActive := s.fsActive
  fsBlock := s.fsBlock
  fsBitmap := s.fsBitmap
  blkBuf := s.blkBuf
  eepSize := s.eepSize

/-- The observation of a run (R338): the whole trace, one result a command, and the final block state. What
the cartridge holds is no part of it. -/
structure Observation where
  /-- The ordered event trace. -/
  trace : List Event
  /-- One result a finished command. -/
  results : List Result
  /-- The final block state. -/
  final : BlockState
deriving DecidableEq, Repr

/-- How a run goes: only one whose every record has finished has an observation. -/
inductive RunEnd where
  /-- The last record's `finish` has happened and the block is idle (R338). -/
  | ended (seen : Observation)
  /-- A step faulted: a faulted state is never final (R300). -/
  | faulted (reason : Fault)
  /-- A record had no move, or the configuration no meaning (R300). -/
  | refused (reason : Refusal)
  /-- Moves are left, or the block is not idle. -/
  | unfinished
deriving DecidableEq, Repr

/-- The end of a run with no move left: it has ended where the block is idle (R338). -/
def runEnd (s : State) (results : List Result) : RunEnd :=
  if s.opState = .idle then .ended { trace := s.trace, results := results.reverse, final := s.block }
  else .unfinished

/-- At most `n` steps of a run, with the results so far, the last one first. -/
def runFrom : Nat → State → List Result → RunEnd
  | 0, s, rs =>
    match s.inputs with
    | [] => runEnd s rs
    | _ :: _ => .unfinished
  | n + 1, s, rs =>
    match s.inputs, step s with
    | [], _ => runEnd s rs
    | .issue _ :: _, .next t => runFrom n t (t.result :: rs)
    | .changeCartridge _ :: _, .next t => runFrom n t rs
    | _ :: _, .fault reason => .faulted reason
    | _ :: _, .refused reason => .refused reason

/-- The run of all the host's moves: each step takes one (R338). -/
def observe (s : State) : RunEnd := runFrom s.inputs.length s []

/-- The records among the host's moves, in order. -/
def issuedRecords (moves : List HostMove) : List (List Byte) :=
  moves.filterMap (fun m => match m with
    | .issue record => some record
    | .changeCartridge _ => none)

/-! ### The host's duties (R321, R328, R330) -/

/-- What a run has done at one move, as the host's duties speak of it. -/
inductive RunItem where
  /-- An operation that passed the decoder: the instruction, whether the cartridge's reset was asserted when
  it was issued, the events it appended, and its result. -/
  | operation (i : Instr) (inReset : Bool) (events : List Event) (result : Result)
  /-- A cartridge change. -/
  | cartridgeChange
deriving DecidableEq, Repr

/-- What at most `n` steps of a run do, in order. A record that fails a decode check touches no hardware and
is no item. -/
def runItems : Nat → State → List RunItem
  | 0, _ => []
  | n + 1, s =>
    match s.inputs, step s with
    | .issue bytes :: _, .next t =>
      match decode s.cfg bytes with
      | .ok i =>
        .operation i s.rstAsserted (t.events.take (t.events.length - s.events.length)) t.result :: runItems n t
      | .error _ => runItems n t
    | .changeCartridge _ :: _, .next t => .cartridgeChange :: runItems n t
    | _, _ => []

/-- The operations of steps 1 to 6 of R321, in its order. Step 5 issues none. -/
def bootSteps : List Instr :=
  [.busInit, .assertReset true, .assertReset false, .readRomBytes 0#32 64#32, .detectRomSize, .hasSram,
   .eepromSize, .hasFlashram]

/-- The pre-loads of step 7 of R321, one for each save medium. -/
def preloads : List Instr :=
  [.readSramBytes 0#32 512#32, .readEepromBytes 0#32 512#32, .readFlashramBytes 0#32 512#32]

/-- How far the boot sequence of R321 has come. -/
structure Boot where
  /-- The operations since it began, newest first. -/
  issued : List Instr
  /-- The steps that are still to run for the whole of it. -/
  todo : List Instr
  /-- The last header read said that there is no cartridge (step 3). -/
  absent : Bool
  /-- The last `HAS_SRAM` found one (step 6a). -/
  sram : Bool
  /-- The last `EEPROM_SIZE` found one (step 6b). -/
  eeprom : Bool
deriving DecidableEq, Repr

/-- Nothing has been issued: at the start of a run, and after a cartridge change (R297). -/
def Boot.start : Boot := { issued := [], todo := bootSteps, absent := false, sram := false, eeprom := false }

/-- A header whose first word is all-ones or all-zeros: no cartridge (R321 step 3). -/
def headerAbsent (header : Result) : Bool :=
  header.data.take 4 == List.replicate 4 0xFF#8 || header.data.take 4 == List.replicate 4 0x00#8

/-- The steps that follow a step, by the host's decision on its result (the last column of R321): after an absent
header only a new boot, and after a probe that finds its medium only the pre-load of that medium. -/
def stepsAfter (i : Instr) (r : Result) (rest : List Instr) : List Instr :=
  if i = .readRomBytes 0#32 64#32 then if headerAbsent r then bootSteps else rest
  else if i = .hasSram then if r.value = 1#32 then [.readSramBytes 0#32 512#32] else rest
  else if i = .eepromSize then if r.value ≠ 0#32 then [.readEepromBytes 0#32 512#32] else rest
  else if i = .hasFlashram then if r.value.getLsbD 8 then [.readFlashramBytes 0#32 512#32] else rest
  else rest

/-- The sequence after an operation with its result; `BUS_INIT` begins it anew. -/
def Boot.after (b : Boot) (i : Instr) (r : Result) : Boot :=
  if i = .busInit then { Boot.start with issued := [.busInit], todo := bootSteps.tail }
  else
    { issued := i :: b.issued
      todo := if b.todo.head? = some i then stepsAfter i r b.todo.tail else b.todo
      absent := if i = .readRomBytes 0#32 64#32 then headerAbsent r else b.absent
      sram := if i = .hasSram then r.value == 1#32 else b.sram
      eeprom := if i = .eepromSize then r.value != 0#32 else b.eeprom }

/-- Whether the decisions of R321 let the host issue an operation: with no cartridge nothing of steps 4 to 7
runs, and probing stops at the medium found. -/
def Boot.admits (b : Boot) (i : Instr) : Bool :=
  !(b.absent && ([Instr.detectRomSize, .hasSram, .eepromSize, .hasFlashram] ++ preloads).contains i) &&
  !(b.sram && [Instr.eepromSize, .hasFlashram].contains i) && !(b.eeprom && i == .hasFlashram)

/-- Of steps 1 to 6 of R321, those that were issued at all were issued in its order: among the operations there
is one of each, in that order. Step 2 counts where it ends, at `ASSERT_RESET 0`. DESIGN CHOICE (log 36; safe): a
step may be left out, as in the programs P3 and P4 of spec/95_test_vectors.md, which meet R339, and step 7 has
no place in the order, so a pre-load may come before the probes or be of a medium that was not found. -/
def Boot.inOrder (b : Boot) : Bool :=
  ((bootSteps.erase (.assertReset true)).filter b.issued.contains).isSublist b.issued.reverse

/-- The whole sequence has been run in its order, on a cartridge that is present: data operations give
meaningful results (R321). -/
def Boot.ready (b : Boot) : Bool := b.todo.isEmpty && !b.absent

/-- The sequence after a run's items. -/
def Boot.run : Boot → List RunItem → Boot
  | b, [] => b
  | b, .operation i _ _ r :: rest => Boot.run (b.after i r) rest
  | _, .cartridgeChange :: rest => Boot.run Boot.start rest

/-- The run keeps R321: up to each new `BUS_INIT` or cartridge change, its steps come in order and stop where a
decision says so. -/
def bootInOrder : Boot → List RunItem → Bool
  | b, [] => b.inOrder
  | b, .operation i _ _ r :: rest =>
    b.admits i && (i != .busInit || b.inOrder) && bootInOrder (b.after i r) rest
  | b, .cartridgeChange :: rest => b.inOrder && bootInOrder Boot.start rest

/-- An event by which the block does something to the cartridge: a strobe of the bus goes low, as in every
latch, read and write cycle, or a serial frame is sent. -/
def Event.reachesCartridge : Event → Bool
  | .ctrl line level => line != .rst && level == 0#1
  | .joy _ _ => true
  | .dir _ => false
  | .out _ => false
  | .delay _ => false
  | .sample _ => false
  | .sleep _ => false
  | .yield => false

/-- No bus or serial operation is issued while the cartridge's reset is asserted; the release wait ends with
`ASSERT_RESET 0` (R328). DESIGN CHOICE (log 37; safe): a bus or serial operation is one that reaches the
cartridge by an event. So `BUS_INIT`, `SET_DIRECTION`, `ASSERT_RESET` and an operation without events are none. -/
def quietInReset : RunItem → Bool
  | .operation _ inReset events _ => !(inReset && events.any Event.reachesCartridge)
  | .cartridgeChange => true

/-! ### Launch premises (R339) -/

/-- `cfg_ok`. -/
def cfgOk (s : State) : Prop := s.cfg.ok = true

/-- `first_bus_init`: the first record of the run is `BUS_INIT`. -/
def firstBusInit (s : State) : Prop :=
  ∃ record rest, issuedRecords s.inputs = record :: rest ∧ decode s.cfg record = .ok .busInit

/-- `from_reset`: the block is as R310 leaves it, and nothing has happened yet. The fields R310 calls
unspecified (the pins, the reset line and the block buffer) may have any value; parameters, environment and
host moves are the run's own. -/
def fromReset (s : State) : Prop :=
  s.opState = .idle ∧ s.result = { status := .ok, value := 0#32, data := [] } ∧ s.fsActive = false ∧
  s.fsBlock = 0#32 ∧ s.fsBitmap = List.replicate s.cfg.sectorsPerBlock false ∧ s.eepSize = 0#32 ∧
  s.events = [] ∧ s.launched = false

/-- `no_fault`: no fault is recorded, at the start or on the way. -/
def noFault (s : State) : Prop := s.contention = false ∧ ∀ reason, observe s ≠ .faulted reason

/-- `host_duties`: the host keeps R321 (anew after every cartridge change, R297), R328 and R330. Each record is
taken when the one before it has finished, so R330 asks an idle block at the start. -/
def hostDuties (s : State) : Prop :=
  s.opState = .idle ∧ bootInOrder Boot.start (runItems s.inputs.length s) = true ∧
  (runItems s.inputs.length s).all quietInReset = true

/-- The launch premises of R339 that every claim about a run may take; a claim about data takes `envRef` too. -/
structure Launch (s : State) : Prop where
  cfg_ok : cfgOk s
  first_bus_init : firstBusInit s
  from_reset : fromReset s
  no_fault : noFault s
  host_duties : hostDuties s

end Sys2Proof.Machine
end

