-- ==== Sys2Proof/Certificates/Slice0/Obligations.lean ====
section
/-! DEFINITION. The statements for the provers, from the numbered rules of spec/. A statement of what an
operation does ends in `exec … = .next t` with everything the operation leaves: its result, the events it
appends to the trace, each pin, the block's other state, and every byte the reference cartridge holds. The
events tie the words and bytes an operation read (bound by `∃`) to what the environment answered. -/

section Statements

open Sys2Proof Sys2Proof.Machine

/-! ### Encoding -/

/-- R101-R106, R114: decoding the record of a well-formed instruction gives it back, with every operand at
every value. -/
def Obligations.EncodingRoundTrip : Prop :=
  ∀ (c : Params) (i : Instr), i.wellFormed c = true → decode c (encode i) = .ok i

/-- R101, R104, R111: a few records written out byte by byte decode to the instructions they stand for. -/
def Obligations.DecodedRecordsAreRight : Prop :=
  decode Params.spec [0x03, 0, 0, 0, 0x10, 0x00, 0x00, 0x40, 0, 0, 0, 0] = .ok (.latchAddress 0x10000040#32) ∧
  decode Params.spec [0x05, 0x00, 0xBE, 0xEF, 0, 0, 0, 0, 0, 0, 0, 0] = .ok (.writeWord 0xBEEF#16) ∧
  decode Params.spec [0x06, 0x01, 0x00, 0x00, 0, 0, 0, 0, 0, 0, 0, 0] = .ok (.assertReset true) ∧
  decode Params.spec [0x10, 0, 0, 0, 0, 0, 0x01, 0x00, 0, 0, 0, 0x40] =
    .ok (.readRomBytes 0x100#32 0x40#32) ∧
  decode Params.spec [0x22, 0, 0, 0, 0, 0, 0, 0x11, 0, 0, 0, 2, 0xAA, 0xBB] =
    .ok (.writeSramBytes 0x11#32 2#32 [0xAA#8, 0xBB#8]) ∧
  decode Params.spec [0x31, 0, 0, 0, 0, 0, 0, 0x3F, 0, 0, 0, 0] = .ok (.readEepromBlock 0x3F#32) ∧
  decode Params.spec [0x40, 0x60, 0x01, 0x23, 0, 0, 0, 0, 0, 0, 0, 0] =
    .ok (.flashCommandPageSelect 0x0123#16) ∧
  decode Params.spec [0x45, 0, 0, 0, 0, 0, 0, 0, 0, 0, 0, 0] = .ok (.flashEraseBlock 0#32)

/-- R106, R112: what the decoder accepts is well formed, and its record has exactly as many bytes as R112
gives it. -/
def Obligations.DecodedIsWellFormed : Prop :=
  ∀ (c : Params) (bytes : List Byte) (i : Instr), decode c bytes = .ok i →
    i.wellFormed c = true ∧ (encode i).length = bytes.length

/-- R110, R286: a record with an `OP` that no operation has finishes `ILLEGAL_OP`, with no event and no other
change of state. -/
def Obligations.UnassignedOpcodeIsIllegal : Prop :=
  ∀ (s : State) (bytes : List Byte) (rest : List HostMove) (r : Record),
    s.contention = false → s.cfg.ok = true → s.opState = .idle → s.launched = true →
    s.inputs = .issue bytes :: rest → Record.ofBytes bytes = some r →
    (r.op.toNat = 0x00 ∨ (0x07 ≤ r.op.toNat ∧ r.op.toNat ≤ 0x0F) ∨ (0x12 ≤ r.op.toNat ∧ r.op.toNat ≤ 0x1F) ∨
      (0x23 ≤ r.op.toNat ∧ r.op.toNat ≤ 0x2F) ∨ (0x35 ≤ r.op.toNat ∧ r.op.toNat ≤ 0x3F) ∨
      0x49 ≤ r.op.toNat) →
    ∃ t, step s = .next t ∧ onlyResult (acceptRecord rest s) .illegalOp t

/-! ### The step -/

/-- R100, R287: when the next host move is a record that decodes to `i`, the step is `exec` of `i` in the state
that has accepted the record: the move taken, the run launched and the sequencer busy. -/
def Obligations.StepRunsDecodedInstruction : Prop :=
  ∀ (s : State) (bytes : List Byte) (rest : List HostMove) (i : Instr),
    s.contention = false → s.cfg.ok = true → s.opState = .idle → s.inputs = .issue bytes :: rest →
    decode s.cfg bytes = .ok i → (s.launched = true ∨ i = .busInit) →
    step s = exec i { s with inputs := rest, launched := true, opState := .busy }

/-- R297, R300, R311, R339: the steps that run no operation. A faulted state stays faulted; a configuration that
breaks R9 (log 5, the model's reading of its relations), a record while busy and a first record other than
`BUS_INIT` (one that fails a decode check too: log 14, the model's choice) have no move, nor have bytes too
few for a record (log 16, the model's choice). With no record the block waits (log 18, the model's choice).
A cartridge change is a step between operations (log 19, the model's choice) that touches nothing of the
block: the new cartridge holds what it held, a FlashRAM chip in it is at its power-on values (R86; log 33,
the model's choice), and it is in reset where the block asserts the reset line (R95). -/
def Obligations.StepsWithoutAnOperation : Prop :=
  (∀ s : State, s.contention = true → step s = .fault .busContention) ∧
  (∀ s : State, s.contention = false → s.cfg.ok = false → step s = .refused .illFormedConfig) ∧
  (∀ (s : State) (bytes : List Byte) (rest : List HostMove), s.contention = false → s.cfg.ok = true →
    s.inputs = .issue bytes :: rest →
    (s.opState = .busy → step s = .refused .commandWhileBusy) ∧
    (s.opState = .idle → bytes.length < 12 → step s = .refused .shortRecord) ∧
    (s.opState = .idle → s.launched = false → 12 ≤ bytes.length → decode s.cfg bytes ≠ .ok .busInit →
      step s = .refused .firstNotBusInit)) ∧
  (∀ s : State, s.contention = false → s.cfg.ok = true → s.inputs = [] → step s = .next s) ∧
  (∀ (s : State) (env : Env) (rest : List HostMove), s.contention = false → s.cfg.ok = true →
    s.inputs = .changeCartridge env :: rest →
    ∃ e, step s = .next { s with inputs := rest, env := e } ∧ e.rom = env.rom ∧
      (∀ a, e.saveByte a = env.saveByte a) ∧ (s.rstAsserted = false → e.ca = env.ca) ∧
      (∀ ws rs, env.body = .oracle ws rs → e.body = env.body) ∧
      ∀ k chip, e.body = .cartridge k → k.save = .flash chip →
        chip.eraseSel = none ∧ chip.eraseArmed = false ∧ chip.pageSel = none ∧ chip.busy = 0 ∧
        chip.cmdHi = none ∧ (s.rstAsserted = true → chip.mode = .array))

/-- R287: the decode checks, in their order, decide the record's end before any event: the first failing check
is reported and nothing else changes; with none failing, the operation runs, and ends in no `MISUSE` and no
`ILLEGAL_OP`. That a FlashRAM range past 2^32 fails check 7, and one that ends at 2^32 does not, is R10 as the
model reads it (log 40, DEDUCED). -/
def Obligations.DecodeChecksInOrder : Prop :=
  ∀ (s : State) (bytes : List Byte) (rest : List HostMove) (r : Record),
    s.contention = false → s.cfg.ok = true → s.opState = .idle → s.launched = true →
    s.inputs = .issue bytes :: rest → Record.ofBytes bytes = some r →
    match firstFailingCheck s.cfg s.eepSize s.gpioDir r with
    | some cause => ∃ t, step s = .next t ∧ onlyResult (acceptRecord rest s) cause t
    | none =>
      ∃ i, decode s.cfg bytes = .ok i ∧ step s = exec i (acceptRecord rest s) ∧
        ∀ t, step s = .next t → t.result.status ≠ .misuse ∧ t.result.status ≠ .illegalOp

/-- R289: the statuses each operation can finish with, as the table says. -/
def Obligations.StatusesOfEachOperation : Prop :=
  ∀ (s t : State) (bytes : List Byte) (rest : List HostMove) (r : Record),
    s.inputs = .issue bytes :: rest → Record.ofBytes bytes = some r → step s = .next t →
    match Opcode.ofByte r.op with
    | none => t.result.status = .illegalOp
    | some op => statusAllowed op t.result

/-! ### Bus primitives -/

/-- R131: `BUS_INIT` puts the pins into their idle state and touches nothing else. With no read or write pulse under
way, as between operations and at power-on with any pins (R310), it sends nothing to a cartridge that is out
of reset, whose counter, chip and contents are as before. -/
def Obligations.BusInitRuns : Prop :=
  ∀ s : State, s.contention = false →
    ∃ t, exec .busInit s = .next t ∧ finished t .ok 0#32 [] ∧
      t.trace = s.trace ++
        [.ctrl .wr 1#1, .ctrl .rd 1#1, .ctrl .aleh 1#1, .ctrl .alel 1#1, .dir false] ∧
      busReleased t ∧ t.aleh = 1#1 ∧ t.alel = 1#1 ∧ t.joy = 1#1 ∧ t.gpioOut = s.gpioOut ∧
      t.rstAsserted = s.rstAsserted ∧ t.eepSize = s.eepSize ∧ sameRun s t ∧ sameStream s t ∧
      (noPulse .wr s → sameContents s t) ∧
      (noPulse .wr s → noPulse .rd s → s.rstAsserted = false → t.env = s.env)

/-- R132: `SET_DIRECTION` writes the whole direction mask at once, and an output bus is driven low. Turning the
bus to output needs `RD` high, as it is between operations (R37). -/
def Obligations.SetDirectionRuns : Prop :=
  ∀ (s : State) (out : Bool), s.contention = false → (out = true → s.rd = 1#1) →
    ∃ t, exec (.setDirection out) s = .next t ∧ finished t .ok 0#32 [] ∧ t.trace = s.trace ++ [.dir out] ∧
      t.gpioDir = (if out then 0xFFFF#16 else 0x0000#16) ∧
      t.gpioOut = (if out then 0x0000#16 else s.gpioOut) ∧
      t.gpioPull = (if out then s.gpioPull else 1#1) ∧ (out = true → t.adLevel = 0x0000#16) ∧
      t.wr = s.wr ∧ t.rd = s.rd ∧ t.aleh = s.aleh ∧ t.alel = s.alel ∧ sameBlock s t ∧ t.env = s.env

/-- R133: `LATCH_ADDRESS` runs the 14 events of a latch cycle, leaves both ALE strobes low and the bus
released, and out of reset the cartridge's counter holds the address (R64), for every 32-bit address. -/
def Obligations.LatchAddressRuns : Prop :=
  ∀ (s : State) (addr : Word), s.contention = false →
    ∃ t, exec (.latchAddress addr) s = .next t ∧ finished t .ok 0#32 [] ∧
      t.trace = s.trace ++ latchTrace addr ∧ settled t ∧ t.gpioOut = lo16 addr ∧ sameBlock s t ∧
      (s.rstAsserted = false → t.env.ca = addr) ∧ (s.wr = 1#1 → sameContents s t)

/-- R134: `READ_WORD` on an input bus samples one word, which its result and its event carry, and the counter
advances by 2 (R65), inside its window where it wraps (R66); on any other bus it is refused without an event. -/
def Obligations.ReadWordRuns : Prop :=
  (∀ s : State, s.contention = false → s.gpioDir = 0x0000#16 →
    ∃ t w, exec .readWord s = .next t ∧ finished t .ok (w.zeroExtend 32) [] ∧
      t.trace = s.trace ++ readTrace w ∧ t.rd = 1#1 ∧
      t.gpioDir = s.gpioDir ∧ t.gpioOut = s.gpioOut ∧ t.gpioPull = s.gpioPull ∧ t.wr = s.wr ∧
      t.aleh = s.aleh ∧ t.alel = s.alel ∧ sameBlock s t ∧ sameContents s t ∧
      (s.rstAsserted = false → t.env.ca =
        match s.cfg.autoincWrap with
        | none => s.env.ca + 2#32
        | some n =>
          (s.env.ca &&& ~~~(BitVec.ofNat 32 (n - 1))) ||| ((s.env.ca + 2#32) &&& BitVec.ofNat 32 (n - 1)))) ∧
  (∀ s : State, s.contention = false → s.gpioDir ≠ 0x0000#16 →
    ∃ t, exec .readWord s = .next t ∧ onlyResult s (.misuse .busState) t)

/-- R135: `WRITE_WORD` runs the 6 events of a write cycle in either direction state, releases the bus, and the
counter advances by 2 (R65), inside its window where it wraps (R66). `RD` is high at entry, as it is between
operations (R37). -/
def Obligations.WriteWordRuns : Prop :=
  ∀ (s : State) (w : Half), s.contention = false → s.rd = 1#1 →
    ∃ t, exec (.writeWord w) s = .next t ∧ finished t .ok 0#32 [] ∧ t.trace = s.trace ++ writeTrace w ∧
      busReleased t ∧ t.gpioOut = w ∧ t.aleh = s.aleh ∧ t.alel = s.alel ∧ sameBlock s t ∧
      (s.rstAsserted = false → t.env.ca =
        match s.cfg.autoincWrap with
        | none => s.env.ca + 2#32
        | some n =>
          (s.env.ca &&& ~~~(BitVec.ofNat 32 (n - 1))) ||| ((s.env.ca + 2#32) &&& BitVec.ofNat 32 (n - 1)))

/-- R83-R85, R87, R88, R92: the bytes of the reference cartridge that `WRITE_WORD` stores. On an SRAM
cartridge, the word goes to the two bytes at the counter, if the counter is in the SRAM window (and not at its
odd last byte), and every other byte is as before. On a FlashRAM chip only the second half of a command that
is an `EXECUTE` changes bytes, as R88 says; on the others no byte of the save medium changes. No ROM byte ever
changes. Three cases are the model's choice: an odd counter, where spec/93 I4 leaves the effect of a write any
value and the word goes to the two bytes at it all the same (log 32); a counter that the parameters put both
in the ROM region and in the SRAM window or at the command register, where the save medium takes the write
(log 35); and a command register inside the staging page, where a half of a command loads nothing (log 38). -/
def Obligations.WriteWordStores : Prop :=
  ∀ (s t : State) (w : Half) (rom : RomImage) (save : Save) (wrap : Option Nat),
    refCart s wrap rom save → s.rd = 1#1 → exec (.writeWord w) s = .next t →
    t.env.rom = s.env.rom ∧
    match save with
    | .sram img =>
      img.wf = true →
      if s.cfg.sramBase ≤ s.env.ca.toNat ∧ s.env.ca.toNat + 1 < s.cfg.sramBase + s.cfg.sramSize then
        ∀ a, t.env.saveByte a =
          if a = s.env.ca.toNat - s.cfg.sramBase then hiByte w
          else if a = s.env.ca.toNat - s.cfg.sramBase + 1 then loByte w
          else s.env.saveByte a
      else s.env.ca.toNat + 1 ≠ s.cfg.sramBase + s.cfg.sramSize → ∀ a, t.env.saveByte a = s.env.saveByte a
    | .flash chip =>
      chip.array.wf = true → ∀ a, t.env.saveByte a =
        if s.env.ca.toNat = s.cfg.flashCmdAddr + 2 ∧
            chip.cmdHi.bind (fun h => Params.kindOf s.cfg (h ++ w)) = some .execute
        then executedByte s.cfg chip a else s.env.saveByte a
    | .eep4k _ => ∀ a, t.env.saveByte a = s.env.saveByte a
    | .eep16k _ => ∀ a, t.env.saveByte a = s.env.saveByte a
    | .none => ∀ a, t.env.saveByte a = s.env.saveByte a

/-- R136: `ASSERT_RESET` drives the reset line to the level of its new logical state and waits; no other pin,
and nothing the cartridge holds, changes. A cartridge that is or has been in reset has its FlashRAM chip in
array mode, and releasing a released line changes nothing of it (R95). -/
def Obligations.AssertResetRuns : Prop :=
  ∀ (s : State) (active : Bool), s.contention = false →
    ∃ t, exec (.assertReset active) s = .next t ∧ finished t .ok 0#32 [] ∧
      t.trace = s.trace ++
        [.ctrl .rst (if active then s.cfg.resetActiveLevel else 1#1 - s.cfg.resetActiveLevel),
         .delay (if active then .tRstAssert else .tRstRelease)] ∧
      t.rstAsserted = active ∧ sameBus s t ∧ t.joy = s.joy ∧ t.eepSize = s.eepSize ∧ sameRun s t ∧
      sameStream s t ∧ sameContents s t ∧
      (active = true ∨ s.rstAsserted = true →
        ∀ k chip, t.env.body = .cartridge k → k.save = .flash chip → chip.mode = .array) ∧
      (active = false → s.rstAsserted = false → t.env = s.env)

/-- R137: after a latch of `a` and `n` read cycles, or `n` write cycles, the counter is `a + 2n`. -/
def Obligations.BurstMovesCounter : Prop :=
  (∀ (s : State) (a : Word) (n : Nat), s.rstAsserted = false → s.cfg.autoincWrap = none →
    (readWords n (latchAddress a s)).2.env.ca = a + BitVec.ofNat 32 (2 * n)) ∧
  (∀ (s : State) (a : Word) (n : Nat) (v : List Byte), s.rstAsserted = false → s.cfg.autoincWrap = none →
    v.length = 2 * n → (writeWords v (latchAddress a s)).env.ca = a + BitVec.ofNat 32 (2 * n))

/-- R138: the numbers of events. -/
def Obligations.BusEventCounts : Prop :=
  (∀ (a : Word) (s : State), (latchAddress a s).events.length = s.events.length + 14) ∧
  (∀ s : State, (readWord s).2.events.length = s.events.length + 5) ∧
  (∀ (w : Half) (s : State), (writeWord w s).events.length = s.events.length + 6) ∧
  (∀ (active : Bool) (s t : State), exec (.assertReset active) s = .next t →
    t.events.length = s.events.length + 2) ∧
  (∀ s t : State, exec .busInit s = .next t → t.events.length = s.events.length + 5) ∧
  (∀ (out : Bool) (s t : State), exec (.setDirection out) s = .next t →
    t.events.length = s.events.length + 1) ∧
  (∀ (a n : Nat) (s : State), (memRead a n s).2.events.length = s.events.length + (14 + 5 * (n / 2))) ∧
  (∀ (a : Nat) (v : List Byte) (s : State),
    (memWrite a v s).events.length = s.events.length + (14 + 6 * (v.length / 2)))

/-! ### ROM -/

/-- R150: `READ_ROM_BYTES` checks the length, the offset and the range, in that order and before any event; then
it latches once and reads `l / 2` words, whose big-endian bytes are its data. A length of 0 makes no bus
activity. -/
def Obligations.ReadRomBytesRuns : Prop :=
  ∀ (s : State) (a l : Word), s.contention = false →
    if l.toNat % 2 ≠ 0 then ∃ t, exec (.readRomBytes a l) s = .next t ∧ onlyResult s (.misuse .oddLen) t
    else if a.toNat % 2 ≠ 0 then ∃ t, exec (.readRomBytes a l) s = .next t ∧ onlyResult s (.misuse .oddAddr) t
    else if s.cfg.romSpace < a.toNat + l.toNat ∨ 2 ^ 32 < a.toNat + l.toNat then
      ∃ t, exec (.readRomBytes a l) s = .next t ∧ onlyResult s (.misuse .range) t
    else if l.toNat = 0 then ∃ t, exec (.readRomBytes a l) s = .next t ∧ onlyOk s t
    else
      ∃ t ws, exec (.readRomBytes a l) s = .next t ∧ finished t .ok 0#32 (bytesOfWords ws) ∧
        ws.length = l.toNat / 2 ∧ t.trace = s.trace ++ burstRead (s.cfg.romBase + a.toNat) ws ∧
        settled t ∧ t.gpioOut = lo16 (BitVec.ofNat 32 (s.cfg.romBase + a.toNat)) ∧ sameBlock s t ∧
        (s.wr = 1#1 → sameContents s t)

/-- R151: on the reference cartridge, the data are the ROM's bytes, mirrored. -/
def Obligations.ReadRomBytesOnReference : Prop :=
  ∀ (s : State) (a l : Word) (rom : RomImage) (save : Save), refCart s none rom save → strobesHigh s →
    s.contention = false → s.cfg.ok = true → l.toNat % 2 = 0 → a.toNat % 2 = 0 →
    a.toNat + l.toNat ≤ s.cfg.romSpace →
    ∃ t, exec (.readRomBytes a l) s = .next t ∧
      finished t .ok 0#32 ((List.range l.toNat).map (fun i => romByte rom (a.toNat + i))) ∧ sameContents s t

/-- R152: `DETECT_ROM_SIZE` reads the fingerprint, then probes every boundary from the first on, and ends at the
first probe equal to the fingerprint, or after the last one with the whole ROM space. -/
def Obligations.DetectRomSizeRuns : Prop :=
  ∀ s : State, s.contention = false → s.cfg.ok = true →
    ∃ t size, ∃ (fp : List Half) (probes : List (List Half)),
      exec .detectRomSize s = .next t ∧ finished t .ok (reported size) [] ∧
      fp.length = s.cfg.romFpLen / 2 ∧ (∀ p ∈ probes, p.length = s.cfg.romFpLen / 2) ∧
      t.trace = s.trace ++ romTrace s.cfg 0 fp ++
        (probes.zipIdx 1).flatMap (fun x => romTrace s.cfg (x.2 * s.cfg.romProbeStep) x.1) ∧
      (∀ p ∈ probes.dropLast, bytesOfWords p ≠ bytesOfWords fp) ∧
      ((probes.length < s.cfg.romSpace / s.cfg.romProbeStep ∧ size = probes.length * s.cfg.romProbeStep ∧
          ∃ p, probes.getLast? = some p ∧ bytesOfWords p = bytesOfWords fp) ∨
       (probes.length = s.cfg.romSpace / s.cfg.romProbeStep - 1 ∧ size = s.cfg.romSpace ∧
          ∀ p ∈ probes, bytesOfWords p ≠ bytesOfWords fp)) ∧
      (0 < s.cfg.romFpLen → settled t) ∧ sameBlock s t ∧ (s.wr = 1#1 → sameContents s t)

/-- R153: on a ROM that repeats every `k` probe steps and carries no copy of its first bytes at an earlier
boundary, the size found is exactly `k` steps; with no copy at any boundary, it is the ROM space. -/
def Obligations.DetectRomSizeFindsMirror : Prop :=
  ∀ (s : State) (rom : RomImage) (save : Save), refCart s none rom save → strobesHigh s → s.contention = false →
    s.cfg.ok = true → s.cfg.romFpLen ≤ s.cfg.romProbeStep →
    (∀ k, 1 ≤ k → k * s.cfg.romProbeStep < s.cfg.romSpace →
      (∀ o, romByte rom (o + k * s.cfg.romProbeStep) = romByte rom o) →
      (∀ j, 1 ≤ j → j < k → ∃ i, i < s.cfg.romFpLen ∧
        romByte rom (j * s.cfg.romProbeStep + i) ≠ romByte rom i) →
      ∃ t, exec .detectRomSize s = .next t ∧
        finished t .ok (reported (k * s.cfg.romProbeStep)) [] ∧ sameContents s t) ∧
    ((∀ j, 1 ≤ j → j * s.cfg.romProbeStep < s.cfg.romSpace → ∃ i, i < s.cfg.romFpLen ∧
        romByte rom (j * s.cfg.romProbeStep + i) ≠ romByte rom i) →
      ∃ t, exec .detectRomSize s = .next t ∧ finished t .ok (reported s.cfg.romSpace) [] ∧
        sameContents s t)

/-- R154 and R74: the ROM reader lowers `WR` in no event of its trace, and on the reference cartridge a second
read of the same range returns the same data. (R154 says "no `WR` event"; every latch has the event
`CTRL(WR, 1)`, log 28.) -/
def Obligations.RomReadsAreRepeatable : Prop :=
  (∀ (s t : State) (i : Instr), ((∃ a l, i = .readRomBytes a l) ∨ i = .detectRomSize) →
    exec i s = .next t → ∃ es, t.trace = s.trace ++ es ∧ .ctrl .wr 0#1 ∉ es) ∧
  (∀ (s : State) (a l : Word) (rom : RomImage) (save : Save), refCart s none rom save → strobesHigh s →
    s.contention = false → s.cfg.ok = true → l.toNat % 2 = 0 → a.toNat % 2 = 0 →
    a.toNat + l.toNat ≤ s.cfg.romSpace →
    ∃ t u, exec (.readRomBytes a l) s = .next t ∧ exec (.readRomBytes a l) t = .next u ∧
      u.result = t.result ∧ sameContents s u)

/-! ### SRAM -/

/-- R172: `HAS_SRAM` reads the base word; all-ones means absent. Otherwise it reads the probe word, writes the
sentinel, reads it back and restores the probe word, and the verdict is whether the sentinel came back. -/
def Obligations.HasSramRuns : Prop :=
  ∀ s : State, s.contention = false →
    ∃ t w0, exec .hasSram s = .next t ∧ settled t ∧ sameBlock s t ∧ t.env.rom = s.env.rom ∧
      if w0 = 0xFFFF#16 then
        finished t .ok 0#32 [] ∧ t.trace = s.trace ++ burstRead s.cfg.sramBase [w0] ∧
        (s.wr = 1#1 → sameContents s t)
      else
        ∃ orig rb, finished t .ok (if rb = s.cfg.sramSentinel then 1#32 else 0#32) [] ∧
          t.trace = s.trace ++ burstRead s.cfg.sramBase [w0] ++
            burstRead (s.cfg.sramBase + s.cfg.sramProbeOffset) [orig] ++
            burstWrite (s.cfg.sramBase + s.cfg.sramProbeOffset) [s.cfg.sramSentinel] ++
            burstRead (s.cfg.sramBase + s.cfg.sramProbeOffset) [rb] ++
            burstWrite (s.cfg.sramBase + s.cfg.sramProbeOffset) [orig]

/-- R172, R173: on the reference SRAM cartridge `HAS_SRAM` leaves every byte as it was and answers 1 where the
base word is not all-ones, and 0 after that one read where it is; on a reference cartridge with no medium at
the window, and on an empty slot, it answers 0 after one read of all-ones. (R173 states the answer 1 for
every SRAM cartridge; by R172 a base word of 0xFFFF reads as absent.) -/
def Obligations.HasSramOnReference : Prop :=
  (∀ (s : State) (rom : RomImage) (save : Save), refCart s none rom save → strobesHigh s →
    s.contention = false → s.cfg.ok = true → apartFromRom s.cfg s.cfg.sramBase s.cfg.sramSize →
    (∀ img, save = .sram img → img.wf = true →
      if be16 (img.read 0) (img.read 1) = 0xFFFF#16 then
        ∃ t, exec .hasSram s = .next t ∧ finished t .ok 0#32 [] ∧
          t.trace = s.trace ++ burstRead s.cfg.sramBase [0xFFFF#16] ∧ sameContents s t
      else ∃ t, exec .hasSram s = .next t ∧ finished t .ok 1#32 [] ∧ sameContents s t) ∧
    ((save = .none ∨ (∃ img, save = .eep4k img) ∨ ∃ img, save = .eep16k img) →
      ∃ t, exec .hasSram s = .next t ∧ finished t .ok 0#32 [] ∧
        t.trace = s.trace ++ burstRead s.cfg.sramBase [0xFFFF#16] ∧ sameContents s t)) ∧
  (∀ s : State, emptySlot s → s.contention = false →
    ∃ t, exec .hasSram s = .next t ∧ finished t .ok 0#32 [] ∧
      t.trace = s.trace ++ burstRead s.cfg.sramBase [0xFFFF#16] ∧ sameContents s t)

/-- R174: `READ_SRAM_BYTES` of a range inside the SRAM reads the range's word cover, one burst a piece, and
returns the range's own bytes; a length of 0 makes no bus activity, and a range outside is refused without an
event. -/
def Obligations.ReadSramBytesRuns : Prop :=
  ∀ (s : State) (a l : Word), s.contention = false → s.cfg.ok = true → s.cfg.domains = true →
    if s.cfg.sramSize < a.toNat + l.toNat then
      ∃ t, exec (.readSramBytes a l) s = .next t ∧ onlyResult s (.misuse .range) t
    else if l.toNat = 0 then ∃ t, exec (.readSramBytes a l) s = .next t ∧ onlyOk s t
    else
      ∃ t wss data, exec (.readSramBytes a l) s = .next t ∧ finished t .ok 0#32 data ∧
        data = slice (wss.flatMap bytesOfWords) (a.toNat - coverStart a.toNat)
          (a.toNat - coverStart a.toNat + l.toNat) ∧
        data.length = l.toNat ∧
        (let ps := burstPieces s.cfg.sramBurst (coverStart a.toNat)
            (coverEnd a.toNat l.toNat - coverStart a.toNat)
         wss.length = ps.length ∧ (∀ x ∈ ps.zip wss, x.2.length = (x.1.2 - x.1.1) / 2) ∧
         t.trace = s.trace ++ readPieces s.cfg.sramBase ps wss) ∧
        settled t ∧ sameBlock s t ∧ (s.wr = 1#1 → sameContents s t)

/-- R175: `WRITE_SRAM_BYTES` of a range inside the SRAM reads the word of a partial head, then of a partial tail,
and writes the whole cover with the kept bytes around the caller's; a length of 0 makes no bus activity, and a
wrong data length and then a range outside are refused without an event. -/
def Obligations.WriteSramBytesRuns : Prop :=
  ∀ (s : State) (a l : Word) (d : List Byte), s.contention = false → s.cfg.ok = true → s.cfg.domains = true →
    if d.length ≠ l.toNat then
      ∃ t, exec (.writeSramBytes a l d) s = .next t ∧ onlyResult s (.misuse .bufLen) t
    else if s.cfg.sramSize < a.toNat + l.toNat then
      ∃ t, exec (.writeSramBytes a l d) s = .next t ∧ onlyResult s (.misuse .range) t
    else if l.toNat = 0 then ∃ t, exec (.writeSramBytes a l d) s = .next t ∧ onlyOk s t
    else
      ∃ t, ∃ head tail : List Half, exec (.writeSramBytes a l d) s = .next t ∧ finished t .ok 0#32 [] ∧
        head.length = a.toNat % 2 ∧ tail.length = (a.toNat + l.toNat) % 2 ∧
        t.trace = s.trace ++
          head.flatMap (fun w => burstRead (s.cfg.sramBase + coverStart a.toNat) [w]) ++
          tail.flatMap (fun w => burstRead (s.cfg.sramBase + (coverEnd a.toNat l.toNat - 2)) [w]) ++
          writePieces s.cfg.sramBase (coverStart a.toNat) (head.map hiByte ++ d ++ tail.map loByte)
            (burstPieces s.cfg.sramBurst (coverStart a.toNat)
              (coverEnd a.toNat l.toNat - coverStart a.toNat)) ∧
        settled t ∧ sameBlock s t ∧ t.env.rom = s.env.rom

/-- R170, R171: the word cover of a range is even and inside the SRAM, and the pieces of an even range are even,
follow one another without gap from its start to its end, and each stays between two multiples of the
burst. -/
def Obligations.BurstPiecesTileTheCover : Prop :=
  (∀ size a l : Nat, 0 < l → size % 2 = 0 → a + l ≤ size →
    coverStart a % 2 = 0 ∧ coverEnd a l % 2 = 0 ∧ coverStart a ≤ a ∧ a + l ≤ coverEnd a l ∧
    coverEnd a l ≤ size) ∧
  (∀ burst o n : Nat, 0 < burst → burst % 2 = 0 → o % 2 = 0 → n % 2 = 0 →
    (burstPieces burst o n).flatMap (fun x => List.range' x.1 (x.2 - x.1)) = List.range' o n ∧
    ∀ x ∈ burstPieces burst o n, x.1 < x.2 ∧ x.1 % 2 = 0 ∧ x.2 % 2 = 0 ∧ x.1 / burst = (x.2 - 1) / burst ∧
      (x.2 % burst = 0 ∨ x.2 = o + n))

/-- R176: on the reference SRAM cartridge, what `WRITE_SRAM_BYTES` wrote reads back, and every byte outside the
range is unchanged. -/
def Obligations.SramReadsBackWhatWasWritten : Prop :=
  ∀ (s : State) (a l : Word) (d : List Byte) (rom : RomImage) (img : Memory),
    refCart s none rom (.sram img) → strobesHigh s → s.contention = false → s.cfg.ok = true →
    s.cfg.domains = true → img.wf = true →
    apartFromRom s.cfg s.cfg.sramBase s.cfg.sramSize → d.length = l.toNat →
    a.toNat + l.toNat ≤ s.cfg.sramSize →
    ∃ t u, exec (.writeSramBytes a l d) s = .next t ∧ t.result.status = .ok ∧
      (∀ x, t.env.saveByte x = if a.toNat ≤ x ∧ x < a.toNat + l.toNat then d.getD (x - a.toNat) 0xFF#8
        else s.env.saveByte x) ∧ t.env.rom = s.env.rom ∧
      exec (.readSramBytes a l) t = .next u ∧ finished u .ok 0#32 d ∧ sameContents t u

/-! ### EEPROM -/

/-- R194: `EEPROM_SIZE` makes the info transaction and records the size its type byte means. -/
def Obligations.EepromSizeRuns : Prop :=
  ∀ s : State, s.contention = false →
    ∃ t rx size, exec .eepromSize s = .next t ∧ finished t .ok (reported size) [] ∧
      t.trace = s.trace ++ [.joy [s.cfg.joyCmdInfo] rx] ∧ t.eepSize = reported size ∧
      ((rx = none ∧ size = 0) ∨
       ∃ idHi type status, rx = some [idHi, type, status] ∧
         size = if type = s.cfg.joyType16k then s.cfg.eeprom16kSize
           else if type = s.cfg.joyType4k then s.cfg.eeprom4kSize else 0) ∧
      serialFrame s t ∧ sameContents s t

/-- R195: `READ_EEPROM_BLOCK` of a block below the recorded size makes one transaction and returns its bytes, or
finishes `ABSENT` where nothing answers; any other block is refused without an event, so every block is while
the recorded size is 0 (R43). -/
def Obligations.ReadEepromBlockRuns : Prop :=
  ∀ (s : State) (i : Word), s.contention = false → s.cfg.ok = true →
    if i.toNat < s.eepSize.toNat / s.cfg.eepromBlock then
      ∃ t rx, exec (.readEepromBlock i) s = .next t ∧ t.trace = s.trace ++ [eepReadEvent s.cfg i.toNat rx] ∧
        ((rx = none ∧ finished t .absent 0#32 []) ∨
         ∃ bs, rx = some bs ∧ bs.length = s.cfg.eepromBlock ∧ finished t .ok 0#32 bs) ∧
        serialFrame s t ∧ t.eepSize = s.eepSize ∧ sameContents s t
    else ∃ t, exec (.readEepromBlock i) s = .next t ∧ onlyResult s (.misuse .range) t

/-- R196: `WRITE_EEPROM_BLOCK` of a whole block below the recorded size makes one transaction and looks at no
more than whether it was answered; a wrong data length and then a block out of range are refused without an
event. -/
def Obligations.WriteEepromBlockRuns : Prop :=
  ∀ (s : State) (i : Word) (d : List Byte), s.contention = false →
    if d.length ≠ s.cfg.eepromBlock then
      ∃ t, exec (.writeEepromBlock i d) s = .next t ∧ onlyResult s (.misuse .bufLen) t
    else if i.toNat < s.eepSize.toNat / s.cfg.eepromBlock then
      ∃ t rx, exec (.writeEepromBlock i d) s = .next t ∧
        t.trace = s.trace ++ [eepWriteEvent s.cfg i.toNat d rx] ∧
        ((rx = none ∧ finished t .absent 0#32 []) ∨ (∃ b, rx = some [b]) ∧ finished t .ok 0#32 []) ∧
        serialFrame s t ∧ t.eepSize = s.eepSize ∧ t.env.rom = s.env.rom
    else ∃ t, exec (.writeEepromBlock i d) s = .next t ∧ onlyResult s (.misuse .range) t

/-- R94, R195, R196: on the reference EEPROM of `n` blocks, reading a block returns its bytes and changes none,
and writing one stores its bytes and changes no other byte. -/
def Obligations.EepromBlocksOnReference : Prop :=
  ∀ (s : State) (i : Word) (rom : RomImage) (save : Save) (img : Memory) (n : Nat) (wrap : Option Nat),
    refCart s wrap rom save →
    ((save = .eep4k img ∧ n = s.cfg.eeprom4kSize / s.cfg.eepromBlock) ∨
      (save = .eep16k img ∧ n = s.cfg.eeprom16kSize / s.cfg.eepromBlock)) →
    img.wf = true → s.contention = false → s.cfg.ok = true → s.cfg.domains = true → i.toNat < n →
    i.toNat < s.eepSize.toNat / s.cfg.eepromBlock →
    (∃ t, exec (.readEepromBlock i) s = .next t ∧
      finished t .ok 0#32 (imageBytes img (s.cfg.eepromBlock * i.toNat) s.cfg.eepromBlock) ∧
      sameContents s t) ∧
    (∀ d : List Byte, d.length = s.cfg.eepromBlock →
      ∃ t, exec (.writeEepromBlock i d) s = .next t ∧ finished t .ok 0#32 [] ∧ t.env.rom = s.env.rom ∧
        ∀ x, t.env.saveByte x =
          if s.cfg.eepromBlock * i.toNat ≤ x ∧ x < s.cfg.eepromBlock * i.toNat + s.cfg.eepromBlock
          then d.getD (x - s.cfg.eepromBlock * i.toNat) 0xFF#8 else s.env.saveByte x)

/-- R198: `READ_EEPROM_BYTES` of a range inside the recorded size reads the straddled blocks in ascending order
and returns their slices, or finishes `ABSENT` at the first block without an answer; a length of 0 makes no
transaction, and a range outside is refused without an event. -/
def Obligations.ReadEepromBytesRuns : Prop :=
  ∀ (s : State) (a l : Word), s.contention = false → s.cfg.ok = true → s.cfg.domains = true →
    if s.eepSize.toNat < a.toNat + l.toNat then
      ∃ t, exec (.readEepromBytes a l) s = .next t ∧ onlyResult s (.misuse .range) t
    else if l.toNat = 0 then ∃ t, exec (.readEepromBytes a l) s = .next t ∧ onlyOk s t
    else
      ∃ t rxs, exec (.readEepromBytes a l) s = .next t ∧
        (let blocks := unitsOf s.cfg.eepromBlock a.toNat l.toNat
         rxs.length ≤ blocks.length ∧
         t.trace = s.trace ++ (blocks.zip rxs).map (fun x => eepReadEvent s.cfg x.1 x.2) ∧
         ((rxs.getLast? = some none ∧ (∀ rx ∈ rxs.dropLast, rx ≠ none) ∧ finished t .absent 0#32 []) ∨
          (rxs.length = blocks.length ∧ (∀ rx ∈ rxs, ∃ bs, rx = some bs ∧ bs.length = s.cfg.eepromBlock) ∧
            ∃ data, finished t .ok 0#32 data ∧ data.length = l.toNat ∧
              data = (blocks.zip rxs).flatMap (fun x => slice (x.2.getD [])
                (unitLo s.cfg.eepromBlock a.toNat x.1) (unitHi s.cfg.eepromBlock a.toNat l.toNat x.1))))) ∧
        serialFrame s t ∧ t.eepSize = s.eepSize ∧ sameContents s t

/-- R197, for units of any size: the straddled units run from the first to the last, each slice is a non-empty
part of its unit, and the caller's bytes for the units are exactly the data, in order. -/
def Obligations.StraddledUnitsCoverTheRange : Prop :=
  ∀ (u a l : Nat) (d : List Byte), 0 < u → 0 < l → d.length = l →
    (∀ b, b ∈ unitsOf u a l ↔ a / u ≤ b ∧ b ≤ (a + l - 1) / u) ∧
    (∀ b ∈ unitsOf u a l, unitLo u a b = max a (u * b) - u * b ∧ unitHi u a l b = min (a + l) (u * b + u) - u * b ∧
      unitLo u a b < unitHi u a l b ∧ unitHi u a l b ≤ u ∧
      unitData u a l d b = slice d (u * b + unitLo u a b - a) (u * b + unitHi u a l b - a)) ∧
    (unitsOf u a l).flatMap (unitData u a l d) = d

/-- R199: `WRITE_AND_VERIFY_EEPROM_BYTES` of a range inside the recorded size makes exactly the transactions of
the rule's loop, at most `1 + EEPROM_MAX_RETRIES` attempts a block, and ends `OK`, `ABSENT` or `VERIFY_FAIL`
with the failing block; a length of 0 makes none, and a wrong data length and then a range outside are
refused without an event. -/
def Obligations.WriteAndVerifyEepromBytesRuns : Prop :=
  ∀ (s : State) (a l : Word) (d : List Byte), s.contention = false →
    if d.length ≠ l.toNat then
      ∃ t, exec (.writeAndVerifyEepromBytes a l d) s = .next t ∧ onlyResult s (.misuse .bufLen) t
    else if s.eepSize.toNat < a.toNat + l.toNat then
      ∃ t, exec (.writeAndVerifyEepromBytes a l d) s = .next t ∧ onlyResult s (.misuse .range) t
    else if l.toNat = 0 then ∃ t, exec (.writeAndVerifyEepromBytes a l d) s = .next t ∧ onlyOk s t
    else
      ∃ t es verdict, exec (.writeAndVerifyEepromBytes a l d) s = .next t ∧ endedWith t 0#32 verdict ∧
        eepWriteRun s.cfg a.toNat l.toNat d (unitsOf s.cfg.eepromBlock a.toNat l.toNat) es verdict ∧
        t.trace = s.trace ++ es ∧ serialFrame s t ∧ t.eepSize = s.eepSize ∧ t.env.rom = s.env.rom

/-- R200: on the reference EEPROM, `WRITE_AND_VERIFY_EEPROM_BYTES` inside the device succeeds, leaves the
caller's bytes in the range and every other byte of the device unchanged; reading the range gives them back
(R198). -/
def Obligations.EepromSpliceKeepsOtherBytes : Prop :=
  ∀ (s : State) (a l : Word) (d : List Byte) (rom : RomImage) (save : Save) (img : Memory)
    (wrap : Option Nat),
    refCart s wrap rom save →
    ((save = .eep4k img ∧ s.eepSize.toNat = s.cfg.eeprom4kSize ∧
        s.cfg.eeprom4kSize % s.cfg.eepromBlock = 0) ∨
      (save = .eep16k img ∧ s.eepSize.toNat = s.cfg.eeprom16kSize ∧
        s.cfg.eeprom16kSize % s.cfg.eepromBlock = 0)) →
    img.wf = true → s.contention = false → s.cfg.ok = true → s.cfg.domains = true → d.length = l.toNat →
    a.toNat + l.toNat ≤ s.eepSize.toNat →
    ∃ t u, exec (.writeAndVerifyEepromBytes a l d) s = .next t ∧ finished t .ok 0#32 [] ∧
      t.env.rom = s.env.rom ∧
      (∀ x, t.env.saveByte x = if a.toNat ≤ x ∧ x < a.toNat + l.toNat then d.getD (x - a.toNat) 0xFF#8
        else s.env.saveByte x) ∧
      exec (.readEepromBytes a l) t = .next u ∧ finished u .ok 0#32 d ∧ sameContents t u

/-! ### FlashRAM -/

/-- R242: each FLASH_COMMAND sends its kind's command word, its operand only for the two select kinds; a `K` of
8 to 15 is refused without an event. -/
def Obligations.FlashCommandsRun : Prop :=
  ∀ (s : State) (p : Half), s.contention = false →
    (∀ x ∈ [(Instr.flashCommandReset, FlashKind.reset), (.flashCommandReadArray, .readArray),
        (.flashCommandStatusMode, .statusMode), (.flashCommandEraseSelect p, .eraseSelect),
        (.flashCommandEraseMode, .eraseMode), (.flashCommandProgram, .program),
        (.flashCommandPageSelect p, .pageSelect), (.flashCommandExecute, .execute),
        (.flashCommand 0#4 p, .reset), (.flashCommand 1#4 p, .readArray), (.flashCommand 2#4 p, .statusMode),
        (.flashCommand 3#4 p, .eraseSelect), (.flashCommand 4#4 p, .eraseMode),
        (.flashCommand 5#4 p, .program), (.flashCommand 6#4 p, .pageSelect), (.flashCommand 7#4 p, .execute)],
      ∃ t, exec x.1 s = .next t ∧ finished t .ok 0#32 [] ∧
        t.trace = s.trace ++ burstWrite s.cfg.flashCmdAddr
          [hi16 (s.cfg.flashCmd x.2 ||| (if x.2 = .eraseSelect ∨ x.2 = .pageSelect then p.zeroExtend 32 else 0#32)),
           lo16 (s.cfg.flashCmd x.2 ||| (if x.2 = .eraseSelect ∨ x.2 = .pageSelect then p.zeroExtend 32 else 0#32))] ∧
        settled t ∧ t.gpioOut = lo16 (s.cfg.flashWord x.2 p) ∧ sameBlock s t ∧ t.env.rom = s.env.rom) ∧
    (∀ k : BitVec 4, 8 ≤ k.toNat →
      ∃ t, exec (.flashCommand k p) s = .next t ∧ onlyResult s (.misuse .badOperand) t)

/-- R243: `FLASH_READ_STATUS` sends `STATUS_MODE` and reads the status response in one burst. -/
def Obligations.FlashReadStatusRuns : Prop :=
  ∀ s : State, s.contention = false →
    ∃ t ws, exec .flashReadStatus s = .next t ∧ finished t .ok 0#32 (bytesOfWords ws) ∧
      ws.length = s.cfg.flashStatusLen / 2 ∧
      t.trace = s.trace ++ commandTrace s.cfg .statusMode 0#16 ++ burstRead s.cfg.flashBase ws ∧
      settled t ∧ sameBlock s t ∧ t.env.rom = s.env.rom

/-- R244: `FLASH_WAIT_READY` polls until a response is an idle signature and returns the polls used, with one
sleep and one yield between polls, and finishes `TIMEOUT` after `FLASH_POLL_MAX` of them. -/
def Obligations.FlashWaitReadyRuns : Prop :=
  ∀ s : State, s.contention = false → s.cfg.ok = true →
    ∃ t ready polls, exec .flashWaitReady s = .next t ∧ pollsEnd s.cfg ready polls ∧
      (∀ ws ∈ polls, ws.length = s.cfg.flashStatusLen / 2) ∧ t.trace = s.trace ++ pollTrace s.cfg polls ∧
      (∀ n, ready = some n → finished t .ok (reported n) []) ∧
      (ready = none → finished t .timeout (reported s.cfg.flashPollMax) []) ∧
      settled t ∧ sameBlock s t ∧ t.env.rom = s.env.rom

/-- R246: `HAS_FLASHRAM` sends `RESET`, reads the status response, and sends `RESET` again whatever it found; the
verdict is whether byte 7 is an accepted device ID. -/
def Obligations.HasFlashramRuns : Prop :=
  ∀ s : State, s.contention = false → s.cfg.ok = true → s.cfg.domains = true →
    ∃ t ws id, exec .hasFlashram s = .next t ∧ ws.length = 4 ∧ (bytesOfWords ws)[7]? = some id ∧
      finished t .ok (BitVec.ofNat 32 ((if id ∈ s.cfg.flashDeviceIds then 256 else 0) + id.toNat))
        (bytesOfWords ws) ∧
      t.trace = s.trace ++ commandTrace s.cfg .reset 0#16 ++ statusTrace s.cfg ws ++
        commandTrace s.cfg .reset 0#16 ∧
      settled t ∧ sameBlock s t ∧ t.env.rom = s.env.rom

/-- R89, R243, R244, R246: on the reference FlashRAM, an idle chip answers its ID block and `HAS_FLASHRAM`
its last byte; a chip with `BUSY = b` below the bound becomes ready at poll `b + 1`; none of the three changes
the array. -/
def Obligations.FlashStatusOnReference : Prop :=
  ∀ (s : State) (rom : RomImage) (chip : FlashChip), refCart s none rom (.flash chip) → strobesHigh s →
    s.contention = false → s.cfg.ok = true → s.cfg.domains = true → commandsApart s.cfg → flashLayout s.cfg →
    readableChip s.cfg chip →
    (chip.busy = 0 →
    ∃ t, exec .flashReadStatus s = .next t ∧ finished t .ok 0#32 chip.idBlk.toList ∧ sameContents s t) ∧
    (chip.busy = 0 → ∃ t, exec .hasFlashram s = .next t ∧
      finished t .ok (presenceValue (s.cfg.flashDeviceIds.contains chip.idBlk[7]) chip.idBlk[7])
        chip.idBlk.toList ∧ sameContents s t) ∧
    (chip.busy < s.cfg.flashPollMax → ∃ t, exec .flashWaitReady s = .next t ∧
      finished t .ok (reported (chip.busy + 1)) [] ∧ sameContents s t)

/-- R248: `READ_FLASHRAM_BYTES` of a range inside the chip sends `READ_ARRAY` once, reads each straddled chunk
whole at its byte offset shifted right by 1, and returns the chunks' slices; a length of 0 makes no bus
activity, and a range outside is refused without an event. A range past 2^32 is outside, and one that ends at
2^32 is not: R10 as the model reads it (log 40, DEDUCED). -/
def Obligations.ReadFlashramBytesRuns : Prop :=
  ∀ (s : State) (a l : Word), s.contention = false → s.cfg.ok = true →
    if s.cfg.flashSize < a.toNat + l.toNat ∨ 2 ^ 32 < a.toNat + l.toNat then
      ∃ t, exec (.readFlashramBytes a l) s = .next t ∧ onlyResult s (.misuse .range) t
    else if l.toNat = 0 then ∃ t, exec (.readFlashramBytes a l) s = .next t ∧ onlyOk s t
    else
      ∃ t es data, exec (.readFlashramBytes a l) s = .next t ∧ finished t .ok 0#32 data ∧
        data.length = l.toNat ∧ flashReadRun s.cfg a.toNat l.toNat es data ∧ t.trace = s.trace ++ es ∧
        settled t ∧ sameBlock s t ∧ t.env.rom = s.env.rom

/-- R249: on the reference FlashRAM, `READ_FLASHRAM_BYTES` returns the array's bytes and changes none. -/
def Obligations.ReadFlashramBytesOnReference : Prop :=
  ∀ (s : State) (a l : Word) (rom : RomImage) (chip : FlashChip), refCart s none rom (.flash chip) →
    strobesHigh s → s.contention = false → s.cfg.ok = true → commandsApart s.cfg → flashLayout s.cfg →
    a.toNat + l.toNat ≤ s.cfg.flashSize → a.toNat + l.toNat ≤ 2 ^ 32 →
    ∃ t, exec (.readFlashramBytes a l) s = .next t ∧
      finished t .ok 0#32 (imageBytes chip.array a.toNat l.toNat) ∧ sameContents s t

/-- R252: `FLASH_ERASE_BLOCK` of a block of the chip sends the three erase commands, the first with the page
index of the block's start, and waits for the chip; a block outside is refused without an event. -/
def Obligations.FlashEraseBlockRuns : Prop :=
  ∀ (s : State) (b : Word), s.contention = false → s.cfg.ok = true →
    if s.cfg.flashSize / s.cfg.flashBlock ≤ b.toNat then
      ∃ t, exec (.flashEraseBlock b) s = .next t ∧ onlyResult s (.misuse .range) t
    else
      ∃ t es verdict, exec (.flashEraseBlock b) s = .next t ∧ endedWith t 0#32 verdict ∧
        eraseRun s.cfg b.toNat es verdict ∧ t.trace = s.trace ++ es ∧ settled t ∧ sameBlock s t ∧
        t.env.rom = s.env.rom

/-- R88, R252: on the reference FlashRAM, `FLASH_ERASE_BLOCK` leaves every byte of the block 0xFF and every other
byte as it was, and finishes `OK` where the chip is ready in time. -/
def Obligations.EraseOnReference : Prop :=
  ∀ (s : State) (b : Word) (rom : RomImage) (chip : FlashChip), refCart s none rom (.flash chip) → strobesHigh s →
    s.contention = false → s.cfg.ok = true → s.cfg.domains = true → commandsApart s.cfg → flashLayout s.cfg →
    chip.array.wf = true → b.toNat < s.cfg.flashSize / s.cfg.flashBlock →
    ∃ t, exec (.flashEraseBlock b) s = .next t ∧ t.env.rom = s.env.rom ∧
      (∀ x, t.env.saveByte x =
        if b.toNat * s.cfg.flashBlock ≤ x ∧ x < (b.toNat + 1) * s.cfg.flashBlock then 0xFF#8
        else s.env.saveByte x) ∧
      (readableChip s.cfg chip → shortDraws s.cfg chip 1 → finished t .ok 0#32 [])

/-- R254: `FLASH_PROGRAM_PAGE` of a page of the chip sends `PROGRAM`, bursts the page to the staging address,
selects and executes, waits, and reads the page back: `OK` where it equals the data, `VERIFY_FAIL` with the
page where it does not, `TIMEOUT` where the chip does not become ready; a wrong data length and then a page
outside are refused without an event. -/
def Obligations.FlashProgramPageRuns : Prop :=
  ∀ (s : State) (p : Word) (d : List Byte), s.contention = false → s.cfg.ok = true →
    if d.length ≠ s.cfg.flashPage then
      ∃ t, exec (.flashProgramPage p d) s = .next t ∧ onlyResult s (.misuse .bufLen) t
    else if s.cfg.flashSize / s.cfg.flashPage ≤ p.toNat then
      ∃ t, exec (.flashProgramPage p d) s = .next t ∧ onlyResult s (.misuse .range) t
    else
      ∃ t es verdict, exec (.flashProgramPage p d) s = .next t ∧ endedWith t 0#32 verdict ∧
        pageRun s.cfg p.toNat d es verdict ∧ t.trace = s.trace ++ es ∧ settled t ∧ sameBlock s t ∧
        t.env.rom = s.env.rom

/-- R88, R254, R332: on the reference FlashRAM with no erase armed, `FLASH_PROGRAM_PAGE` ANDs its data into the
page and changes no other byte; where the chip is ready in time it finishes `OK` if the page can take the data
(`D AND old = D`), and `VERIFY_FAIL` with the page otherwise. -/
def Obligations.ProgramPageOnReference : Prop :=
  ∀ (s : State) (p : Word) (d : List Byte) (rom : RomImage) (chip : FlashChip),
    refCart s none rom (.flash chip) → strobesHigh s → s.contention = false → s.cfg.ok = true → s.cfg.domains = true →
    commandsApart s.cfg → flashLayout s.cfg → chip.array.wf = true → chip.pageBuf.wf = true →
    chip.eraseArmed = false → d.length = s.cfg.flashPage → p.toNat < s.cfg.flashSize / s.cfg.flashPage →
    ∃ t, exec (.flashProgramPage p d) s = .next t ∧ t.env.rom = s.env.rom ∧
      (∀ x, t.env.saveByte x =
        if p.toNat * s.cfg.flashPage ≤ x ∧ x < (p.toNat + 1) * s.cfg.flashPage
        then s.env.saveByte x &&& d.getD (x - p.toNat * s.cfg.flashPage) 0xFF#8 else s.env.saveByte x) ∧
      (readableChip s.cfg chip → shortDraws s.cfg chip 1 →
        if ∀ i, i < d.length →
            d.getD i 0xFF#8 &&& chip.array.read (p.toNat * s.cfg.flashPage + i) = d.getD i 0xFF#8
        then finished t .ok 0#32 [] else finished t .verifyFail p [])

/-- R258: `WRITE_FLASHRAM_BYTES` of a range inside the chip abandons a stream, then reads, splices, erases and
programs each straddled block in ascending order until one fails, and the block buffer holds the last image; a
length of 0 does nothing, and a wrong data length and then a range outside are refused without an event. A
range past 2^32 is outside, and one that ends at 2^32 is not: R10 as the model reads it (log 40, DEDUCED). -/
def Obligations.WriteFlashramBytesRuns : Prop :=
  ∀ (s : State) (a l : Word) (d : List Byte), s.contention = false → s.cfg.ok = true →
    if d.length ≠ l.toNat then
      ∃ t, exec (.writeFlashramBytes a l d) s = .next t ∧ onlyResult s (.misuse .bufLen) t
    else if s.cfg.flashSize < a.toNat + l.toNat ∨ 2 ^ 32 < a.toNat + l.toNat then
      ∃ t, exec (.writeFlashramBytes a l d) s = .next t ∧ onlyResult s (.misuse .range) t
    else if l.toNat = 0 then ∃ t, exec (.writeFlashramBytes a l d) s = .next t ∧ onlyOk s t
    else
      ∃ t es verdict, exec (.writeFlashramBytes a l d) s = .next t ∧ endedWith t 0#32 verdict ∧
        flashWriteRun s.cfg a.toNat l.toNat d (unitsOf s.cfg.flashBlock a.toNat l.toNat) s.blkBuf t.blkBuf es
          verdict ∧
        t.trace = s.trace ++ es ∧ t.fsActive = false ∧
        t.fsBitmap = List.replicate s.cfg.sectorsPerBlock false ∧ t.fsBlock = s.fsBlock ∧
        settled t ∧ t.joy = s.joy ∧ t.rstAsserted = s.rstAsserted ∧ t.eepSize = s.eepSize ∧ sameRun s t ∧
        t.env.rom = s.env.rom

/-- R259: on the reference FlashRAM, a successful `WRITE_FLASHRAM_BYTES` leaves the data in its range, where
`READ_FLASHRAM_BYTES` then finds them, and every other byte as it was; it succeeds where every `BUSY` draw is
below the bound. -/
def Obligations.FlashWriteKeepsOtherBytes : Prop :=
  ∀ (s : State) (a l : Word) (d : List Byte) (rom : RomImage) (chip : FlashChip),
    refCart s none rom (.flash chip) → strobesHigh s → s.contention = false → s.cfg.ok = true → s.cfg.domains = true →
    commandsApart s.cfg → flashLayout s.cfg → chip.array.wf = true → chip.pageBuf.wf = true →
    d.length = l.toNat → a.toNat + l.toNat ≤ s.cfg.flashSize → a.toNat + l.toNat ≤ 2 ^ 32 →
    ∃ t, exec (.writeFlashramBytes a l d) s = .next t ∧ t.env.rom = s.env.rom ∧
      (t.result.status = .ok →
        (∀ x, t.env.saveByte x =
          if a.toNat ≤ x ∧ x < a.toNat + l.toNat then d.getD (x - a.toNat) 0xFF#8 else s.env.saveByte x) ∧
        ∃ u, exec (.readFlashramBytes a l) t = .next u ∧ finished u .ok 0#32 d) ∧
      (readableChip s.cfg chip →
        shortDraws s.cfg chip ((unitsOf s.cfg.flashBlock a.toNat l.toNat).length * (1 + s.cfg.pagesPerBlock)) →
        finished t .ok 0#32 [])

/-- R260, R262: a sector that does not complete its block is stored in its slot of the block buffer and marked,
in the stream in flight or, where that is of another block or there is none, in a new one; there is no event. -/
def Obligations.SectorIsBuffered : Prop :=
  ∀ (s : State) (n : Word) (d : List Byte) (bits : List Bool), s.contention = false → s.cfg.ok = true →
    s.blkBuf.wf = true → d.length = s.cfg.flashSector → n.toNat < s.cfg.flashSize / s.cfg.flashSector →
    bits = (if s.fsActive = true ∧ s.fsBlock.toNat = n.toNat / s.cfg.sectorsPerBlock then s.fsBitmap
      else List.replicate s.cfg.sectorsPerBlock false).set (n.toNat % s.cfg.sectorsPerBlock) true →
    false ∈ bits →
    ∃ t, exec (.writeFlashramSector n d) s = .next t ∧ finished t .ok 0#32 [] ∧ t.trace = s.trace ∧
      t.fsActive = true ∧ t.fsBlock = BitVec.ofNat 32 (n.toNat / s.cfg.sectorsPerBlock) ∧ t.fsBitmap = bits ∧
      (∀ x, t.blkBuf.read x =
        if s.cfg.flashSector * (n.toNat % s.cfg.sectorsPerBlock) ≤ x ∧
            x < s.cfg.flashSector * (n.toNat % s.cfg.sectorsPerBlock) + s.cfg.flashSector
        then d.getD (x - s.cfg.flashSector * (n.toNat % s.cfg.sectorsPerBlock)) 0xFF#8 else s.blkBuf.read x) ∧
      samePins s t ∧ t.eepSize = s.eepSize ∧ sameRun s t ∧ t.env = s.env

/-- R262: the sector that completes its block ends the stream, then erases the block and programs the buffer
with that sector in it, and finishes with the value 1, or as the erase or the programming failed. A wrong data
length and then a sector outside the chip are refused without an event or a change. -/
def Obligations.LastSectorCommits : Prop :=
  ∀ (s : State) (n : Word) (d : List Byte) (bits : List Bool), s.contention = false → s.cfg.ok = true →
    bits = (if s.fsActive = true ∧ s.fsBlock.toNat = n.toNat / s.cfg.sectorsPerBlock then s.fsBitmap
      else List.replicate s.cfg.sectorsPerBlock false).set (n.toNat % s.cfg.sectorsPerBlock) true →
    if d.length ≠ s.cfg.flashSector then
      ∃ t, exec (.writeFlashramSector n d) s = .next t ∧ onlyResult s (.misuse .bufLen) t
    else if s.cfg.flashSize / s.cfg.flashSector ≤ n.toNat then
      ∃ t, exec (.writeFlashramSector n d) s = .next t ∧ onlyResult s (.misuse .range) t
    else false ∉ bits →
      ∃ t es verdict, exec (.writeFlashramSector n d) s = .next t ∧ endedWith t 1#32 verdict ∧
        blockRun s.cfg (n.toNat / s.cfg.sectorsPerBlock) t.blkBuf es verdict ∧ t.trace = s.trace ++ es ∧
        t.blkBuf = s.blkBuf.writeRange (s.cfg.flashSector * (n.toNat % s.cfg.sectorsPerBlock)) d ∧
        t.fsActive = false ∧ t.fsBitmap = List.replicate s.cfg.sectorsPerBlock false ∧
        t.fsBlock = BitVec.ofNat 32 (n.toNat / s.cfg.sectorsPerBlock) ∧
        settled t ∧ t.joy = s.joy ∧ t.rstAsserted = s.rstAsserted ∧ t.eepSize = s.eepSize ∧ sameRun s t ∧
        t.env.rom = s.env.rom

/-- R88, R262: on the reference FlashRAM, the sector that completes its block, ended `OK`, leaves the bytes of the
block buffer in the block and every other byte of the chip as it was; it ends `OK` where every `BUSY` draw is
below the bound. -/
def Obligations.SectorCommitOnReference : Prop :=
  ∀ (s : State) (n : Word) (d : List Byte) (rom : RomImage) (chip : FlashChip),
    refCart s none rom (.flash chip) → strobesHigh s → s.contention = false → s.cfg.ok = true →
    s.cfg.domains = true → commandsApart s.cfg → flashLayout s.cfg → chip.array.wf = true →
    chip.pageBuf.wf = true → d.length = s.cfg.flashSector → n.toNat < s.cfg.flashSize / s.cfg.flashSector →
    false ∉ (if s.fsActive = true ∧ s.fsBlock.toNat = n.toNat / s.cfg.sectorsPerBlock then s.fsBitmap
      else List.replicate s.cfg.sectorsPerBlock false).set (n.toNat % s.cfg.sectorsPerBlock) true →
    ∃ t, exec (.writeFlashramSector n d) s = .next t ∧ t.env.rom = s.env.rom ∧
      t.blkBuf = s.blkBuf.writeRange (s.cfg.flashSector * (n.toNat % s.cfg.sectorsPerBlock)) d ∧
      (t.result.status = .ok → ∀ x, t.env.saveByte x =
        if n.toNat / s.cfg.sectorsPerBlock * s.cfg.flashBlock ≤ x ∧
            x < (n.toNat / s.cfg.sectorsPerBlock + 1) * s.cfg.flashBlock
        then t.blkBuf.read (x - n.toNat / s.cfg.sectorsPerBlock * s.cfg.flashBlock)
        else s.env.saveByte x) ∧
      (readableChip s.cfg chip → shortDraws s.cfg chip (1 + s.cfg.pagesPerBlock) → finished t .ok 1#32 [])

/-- R241, R263: the numbers of events of a command, of a status read, of a wait that ended ready after `n` polls,
and of a page program that did not time out, for pages of 128 bytes. -/
def Obligations.FlashEventCounts : Prop :=
  (∀ (k : FlashKind) (p : Half) (s : State), (sendCommand k p s).events.length = s.events.length + 26) ∧
  (∀ s : State, s.cfg.ok = true → s.cfg.domains = true → (readStatus s).2.events.length = s.events.length + 60) ∧
  (∀ (s : State) (n : Nat), s.cfg.ok = true → s.cfg.domains = true → (waitReady s).1 = some n →
    (waitReady s).2.events.length = s.events.length + (60 * n + 2 * (n - 1))) ∧
  (∀ (s : State) (p : Nat) (d : List Byte), s.cfg.ok = true → s.cfg.domains = true →
    s.cfg.flashPage = 128 → d.length = 128 →
    (programPage p d s).1 ≠ some (.timeout s.cfg.flashPollMax) →
    ∃ n, 1 ≤ n ∧ n ≤ s.cfg.flashPollMax ∧ (programPage p d s).2.events.length =
      s.events.length + (26 + (14 + 64 * 6) + 26 + 26 + (60 * n + 2 * (n - 1)) + 26 + (14 + 64 * 5)))

/-- R83, R88, R92: on a reference cartridge whose SRAM window, if it has one, is apart from the command register,
no raw command but `EXECUTE`, no status operation and no FlashRAM read changes a byte the cartridge holds; and
the raw `EXECUTE` on the reference FlashRAM erases the armed block, else ANDs the page buffer into the
selected page, else changes nothing, every other byte as before (at a command register that the parameters put
inside the ROM region too, or inside the staging page: the model's choices, logs 35 and 38). -/
def Obligations.FlashReadsKeepContents : Prop :=
  (∀ (s t : State) (i : Instr) (rom : RomImage) (save : Save), refCart s none rom save → strobesHigh s →
    s.cfg.ok = true → commandsApart s.cfg →
    (∀ img, save = .sram img →
      s.cfg.flashCmdAddr + 4 ≤ s.cfg.sramBase ∨ s.cfg.sramBase + s.cfg.sramSize ≤ s.cfg.flashCmdAddr) →
    (i ∈ [.flashCommandReset, .flashCommandReadArray, .flashCommandStatusMode, .flashCommandEraseMode,
        .flashCommandProgram, .flashReadStatus, .flashWaitReady, .hasFlashram] ∨
      (∃ p, i = .flashCommandEraseSelect p) ∨ (∃ p, i = .flashCommandPageSelect p) ∨
      ∃ a l, i = .readFlashramBytes a l) →
    exec i s = .next t → sameContents s t) ∧
  (∀ (s : State) (rom : RomImage) (chip : FlashChip), refCart s none rom (.flash chip) → strobesHigh s →
    s.contention = false → s.cfg.ok = true → commandsApart s.cfg → chip.array.wf = true →
    ∃ t, exec .flashCommandExecute s = .next t ∧ finished t .ok 0#32 [] ∧ t.env.rom = s.env.rom ∧
      ∀ x, t.env.saveByte x = executedByte s.cfg chip x)

/-! ### The whole block -/

/-- R280, R300: every operation ends, in a next state that is idle or in the contention fault, never in a refusal.
R27, R32-R35, R39, R43: the parameters, the host's moves and the launch mark are no operation's; the reset
state is `ASSERT_RESET`'s, the EEPROM size `EEPROM_SIZE`'s, the streamed write's state the two FlashRAM
writes'. The trace only grows (R40), and no operation changes the ROM (R83). R338: so a run from reset, of
records with a header each, the first of them `BUS_INIT`, ends, with one result a record. -/
def Obligations.EveryOperationFinishes : Prop :=
  (∀ (i : Instr) (s : State), exec i s = .fault .busContention ∨
    ∃ t, exec i s = .next t ∧ t.opState = .idle ∧ sameRun s t ∧ (∃ es, t.trace = s.trace ++ es) ∧
      t.env.rom = s.env.rom ∧
      ((∀ active, i ≠ .assertReset active) → t.rstAsserted = s.rstAsserted) ∧
      (i ≠ .eepromSize → t.eepSize = s.eepSize) ∧
      ((∀ a l d, i ≠ .writeFlashramBytes a l d) → (∀ n d, i ≠ .writeFlashramSector n d) → sameStream s t)) ∧
  (∀ s : State, cfgOk s → firstBusInit s → fromReset s → s.contention = false →
    (∀ record ∈ issuedRecords s.inputs, 12 ≤ record.length) →
    ∃ seen, observe s = .ended seen ∧ seen.results.length = (issuedRecords s.inputs).length)

/-- R37: from a quiet bus every operation answers a next state with a quiet bus, but for `SET_DIRECTION` to
output, which leaves the bus driven low; and a read cycle is refused while the bus is not an input. -/
def Obligations.OperationsLeaveBusQuiet : Prop :=
  (∀ (i : Instr) (s : State), quiet s → s.contention = false → i ≠ .setDirection true →
    ∃ t, exec i s = .next t ∧ quiet t) ∧
  (∀ s : State, quiet s → s.contention = false →
    ∃ t, exec (.setDirection true) s = .next t ∧ t.gpioDir = 0xFFFF#16 ∧ t.gpioOut = 0x0000#16 ∧
      t.wr = 1#1 ∧ t.rd = 1#1 ∧ t.joy = 1#1) ∧
  (∀ s : State, s.gpioDir ≠ 0x0000#16 → s.contention = false →
    ∃ t, exec .readWord s = .next t ∧ onlyResult s (.misuse .busState) t)

/-- R21, R22, R24, R26, R28, R38: every step keeps the sequencer's invariant, from every state that has it; and
R326: no step from such a state ends in bus contention, so no run from reset does, with any pins at the start
(R310, R339). -/
def Obligations.StepKeepsSequencer : Prop :=
  (∀ s t : State, sequencerInv s → step s = .next t → sequencerInv t) ∧
  (∀ (s : State) (f : Fault), sequencerInv s → step s ≠ .fault f) ∧
  (∀ (s : State) (f : Fault), fromReset s → s.contention = false → observe s ≠ .faulted f)

/-- R35, R81, R86: every step keeps every memory in its canonical form (the form is the model's, log 7), and the
size of the ROM in the slot a power of two from 2 to the ROM space. -/
def Obligations.StepKeepsMemoryForm : Prop :=
  ∀ s t : State, memoryInv s → step s = .next t → memoryInv t

/-- R32-R34, R262: every step keeps the streamed write's state consistent: 256 bits of bitmap (one a sector), not
all set, all clear while no stream is in flight, and a stream only of a block of the chip; and R43: every step
keeps the recorded EEPROM size one of the three. -/
def Obligations.StepKeepsBlockRegisters : Prop :=
  (∀ s t : State, streamInv s → step s = .next t → streamInv t) ∧
  (∀ s t : State, eepSizeInv s → step s = .next t → eepSizeInv t)

/-- R310: reset leaves the values the spec states for the fields it specifies, the parameters satisfy R9 and
their own domains, and the four invariants hold (the values of the pins at reset are the model's, log 6; so
are those of the parameters, logs 2 to 4, and the blank memory, log 7). -/
def Obligations.ResetStateMeetsInvariants : Prop :=
  State.reset.opState = .idle ∧ State.reset.result = { status := .ok, value := 0#32, data := [] } ∧
  State.reset.fsActive = false ∧ State.reset.fsBlock = 0#32 ∧
  State.reset.fsBitmap = List.replicate 256 false ∧ State.reset.eepSize = 0#32 ∧
  State.reset.cfg.ok = true ∧ State.reset.cfg.domains = true ∧ fromReset State.reset ∧
  sequencerInv State.reset ∧ memoryInv State.reset ∧ streamInv State.reset ∧ eepSizeInv State.reset

end Statements
end

