-- ==== Sys2Proof/Laws/Encoding.lean ====
section
/-! SUPPORT. Reading back what a command record was written with (spec/30_encoding.md R101, R102, R104). -/

namespace Sys2Proof

/-- The opcodes' codes are distinct: each code selects its own opcode (R104). -/
theorem Opcode.ofByte_code (op : Opcode) : Opcode.ofByte op.code = some op := by cases op <;> decide

theorem commandWord_op (op : Opcode) (k : BitVec 4) (f : Bool) (w : Half) :
    (commandWord op k f w).extractLsb' 24 8 = op.code := by
  ext i hi
  have a1 : ¬ (24 + i < 16) := by omega
  have a2 : ¬ (24 + i - 16 < 1) := by omega
  have a3 : ¬ (24 + i - 16 - 1 < 3) := by omega
  have a4 : ¬ (24 + i - 16 - 1 - 3 < 4) := by omega
  have a5 : 24 + i - 16 - 1 - 3 - 4 = i := by omega
  simp only [commandWord, BitVec.getElem_extractLsb', BitVec.getLsbD_append, a1, a2, a3, a4, a5,
    BitVec.getLsbD_eq_getElem hi, if_false]

theorem commandWord_k (op : Opcode) (k : BitVec 4) (f : Bool) (w : Half) :
    (commandWord op k f w).extractLsb' 20 4 = k := by
  ext i hi
  have a1 : ¬ (20 + i < 16) := by omega
  have a2 : ¬ (20 + i - 16 < 1) := by omega
  have a3 : ¬ (20 + i - 16 - 1 < 3) := by omega
  have a4 : 20 + i - 16 - 1 - 3 < 4 := by omega
  have a5 : 20 + i - 16 - 1 - 3 = i := by omega
  simp only [commandWord, BitVec.getElem_extractLsb', BitVec.getLsbD_append, a1, a2, a3, a4, if_false, if_true]
  rw [a5, BitVec.getLsbD_eq_getElem hi]

theorem commandWord_reserved (op : Opcode) (k : BitVec 4) (f : Bool) (w : Half) :
    (commandWord op k f w).extractLsb' 17 3 = 0#3 := by
  ext i hi
  have a1 : ¬ (17 + i < 16) := by omega
  have a2 : ¬ (17 + i - 16 < 1) := by omega
  have a3 : 17 + i - 16 - 1 < 3 := by omega
  simp only [commandWord, BitVec.getElem_extractLsb', BitVec.getLsbD_append, a1, a2, a3, if_false, if_true]
  simp

theorem commandWord_f (op : Opcode) (k : BitVec 4) (f : Bool) (w : Half) :
    (commandWord op k f w).getLsbD 16 = f := by
  simp only [commandWord, BitVec.getLsbD_append]
  cases f <;> rfl

theorem commandWord_w (op : Opcode) (k : BitVec 4) (f : Bool) (w : Half) :
    (commandWord op k f w).extractLsb' 0 16 = w := by
  ext i hi
  simp only [commandWord, BitVec.getElem_extractLsb', BitVec.getLsbD_append, Nat.zero_add,
    BitVec.getLsbD_eq_getElem hi]
  simp [hi]

theorem be32_wordBytes (w : Word) :
    be32 (w.extractLsb' 24 8) (w.extractLsb' 16 8) (w.extractLsb' 8 8) (w.extractLsb' 0 8) = w := by
  simp only [be32]
  ext i hi
  simp only [BitVec.getElem_append, BitVec.getElem_extractLsb']
  split
  · simp [BitVec.getLsbD_eq_getElem hi]
  · split
    · rw [show 8 + (i - 8) = i by omega]
      simp [BitVec.getLsbD_eq_getElem hi]
    · split
      · rw [show 16 + (i - 8 - 8) = i by omega]
        simp [BitVec.getLsbD_eq_getElem hi]
      · rw [show 24 + (i - 8 - 8 - 8) = i by omega]
        simp [BitVec.getLsbD_eq_getElem hi]

/-- A record reads back from its bytes (R101). -/
theorem Record.ofBytes_toBytes (r : Record) : Record.ofBytes r.toBytes = some r := by
  simp [Record.toBytes, wordBytes, Record.ofBytes, be32_wordBytes]

/-- A record has 12 header bytes before its data (R101, R112). -/
theorem Record.toBytes_length (r : Record) : r.toBytes.length = 12 + r.d.length := by
  simp [Record.toBytes, wordBytes]
  omega

/-- The record of an opcode with operands, decoded: the opcode's instruction, if the data has the length R106
requires. -/
theorem decode_recordOf (c : Params) (op : Opcode) (k : BitVec 4) (f : Bool) (w : Half) (a l : Word)
    (d : List Byte) (h : d.length = op.dataLength c l) :
    decode c (recordOf op k f w a l d).toBytes = .ok (op.build (recordOf op k f w a l d)) := by
  have e1 : (recordOf op k f w a l d).op = op.code := commandWord_op op k f w
  have e2 : (recordOf op k f w a l d).reserved = 0#3 := commandWord_reserved op k f w
  have e3 : (recordOf op k f w a l d).d.length = op.dataLength c (recordOf op k f w a l d).l := h
  simp only [decode, Record.ofBytes_toBytes, decodeRecord, e1, Opcode.ofByte_code, e2, e3]
  simp

end Sys2Proof
end

