-- ==== Sys2Proof/Laws/Memory.lean ====
section
/-! SUPPORT. The laws of the sparse memories: a read after a write, and the canonical form kept by every
memory operation. -/

namespace Sys2Proof.Machine

@[simp] theorem Memory.read_nil (a : Nat) : Memory.read [] a = Memory.blank := rfl

/-- Below the first address of a canonical memory every byte is blank. -/
theorem Memory.read_below {m : Memory} {lo a : Nat} (h : Memory.wfFrom lo m = true) (ha : a < lo) :
    m.read a = Memory.blank := by
  induction m generalizing lo with
  | nil => rfl
  | cons c m ih =>
    obtain ⟨x, v⟩ := c
    simp only [Memory.wfFrom, Bool.and_eq_true, decide_eq_true_eq] at h
    have hx : a ≠ x := by omega
    simp only [Memory.read, if_neg hx]
    exact ih h.2 (by omega)

theorem Memory.wfFrom_mono {m : Memory} {lo lo' : Nat} (h : Memory.wfFrom lo m = true) (hl : lo' ≤ lo) :
    Memory.wfFrom lo' m = true := by
  cases m with
  | nil => rfl
  | cons c m =>
    obtain ⟨x, v⟩ := c
    simp only [Memory.wfFrom, Bool.and_eq_true, decide_eq_true_eq] at h ⊢
    exact ⟨⟨by omega, h.1.2⟩, h.2⟩

/-- The byte just written reads back; every other byte reads as before. -/
theorem Memory.read_write {m : Memory} {lo : Nat} (h : Memory.wfFrom lo m = true) (a : Nat) (b : Byte)
    (a' : Nat) : (m.write a b).read a' = if a' = a then b else m.read a' := by
  induction m generalizing lo with
  | nil =>
    by_cases hb : b = Memory.blank
    · simp only [Memory.write, if_pos hb, Memory.read]
      split <;> simp_all
    · simp only [Memory.write, if_neg hb, Memory.read]
  | cons c m ih =>
    obtain ⟨x, v⟩ := c
    simp only [Memory.wfFrom, Bool.and_eq_true, decide_eq_true_eq] at h
    by_cases hlt : a < x
    · by_cases hb : b = Memory.blank
      · simp only [Memory.write, if_pos hlt, if_pos hb]
        split
        · next e =>
          subst e
          rw [hb]
          simp only [Memory.read, if_neg (Nat.ne_of_lt hlt)]
          exact Memory.read_below h.2 (by omega)
        · rfl
      · simp only [Memory.write, if_pos hlt, if_neg hb, Memory.read]
    · by_cases he : a = x
      · subst he
        by_cases hb : b = Memory.blank
        · simp only [Memory.write, if_neg hlt, ↓reduceIte, if_pos hb, Memory.read]
          split
          · next e => subst e; rw [hb]; exact Memory.read_below h.2 (by omega)
          · rfl
        · simp only [Memory.write, if_neg hlt, ↓reduceIte, if_neg hb, Memory.read]
          by_cases e : a' = a <;> simp [e]
      · simp only [Memory.write, if_neg hlt, if_neg he, Memory.read, ih h.2]
        by_cases e : a' = x
        · have hne : x ≠ a := fun h => he h.symm
          simp [e, hne]
        · simp [e]

theorem Memory.wfFrom_write {m : Memory} {lo a : Nat} (h : Memory.wfFrom lo m = true) (ha : lo ≤ a)
    (b : Byte) : Memory.wfFrom lo (m.write a b) = true := by
  induction m generalizing lo with
  | nil =>
    by_cases hb : b = Memory.blank
    · simp [Memory.write, if_pos hb, Memory.wfFrom]
    · simp [Memory.write, Memory.wfFrom, ha, hb]
  | cons c m ih =>
    obtain ⟨x, v⟩ := c
    simp only [Memory.wfFrom, Bool.and_eq_true, decide_eq_true_eq] at h
    by_cases hlt : a < x
    · by_cases hb : b = Memory.blank
      · simp only [Memory.write, if_pos hlt, if_pos hb, Memory.wfFrom, Bool.and_eq_true, decide_eq_true_eq]
        exact h
      · simp only [Memory.write, if_pos hlt, if_neg hb, Memory.wfFrom, Bool.and_eq_true, decide_eq_true_eq]
        exact ⟨⟨ha, by simpa using hb⟩, ⟨by omega, h.1.2⟩, h.2⟩
    · by_cases he : a = x
      · subst he
        by_cases hb : b = Memory.blank
        · simp only [Memory.write, if_neg hlt, ↓reduceIte, if_pos hb]
          exact Memory.wfFrom_mono h.2 (by omega)
        · simp only [Memory.write, if_neg hlt, ↓reduceIte, if_neg hb, Memory.wfFrom, Bool.and_eq_true,
            decide_eq_true_eq]
          exact ⟨⟨ha, by simpa using hb⟩, h.2⟩
      · simp only [Memory.write, if_neg hlt, if_neg he, Memory.wfFrom, Bool.and_eq_true, decide_eq_true_eq]
        exact ⟨h.1, ih h.2 (by omega)⟩

/-- A write keeps the canonical form. -/
theorem Memory.wf_write {m : Memory} (h : m.wf = true) (a : Nat) (b : Byte) : (m.write a b).wf = true :=
  Memory.wfFrom_write h (Nat.zero_le a) b

/-- Reading after a write, for a canonical memory. -/
theorem Memory.read_write_wf {m : Memory} (h : m.wf = true) (a : Nat) (b : Byte) (a' : Nat) :
    (m.write a b).read a' = if a' = a then b else m.read a' := Memory.read_write h a b a'

/-- Writing a run of bytes keeps the canonical form. -/
theorem Memory.wf_writeRange {m : Memory} (h : m.wf = true) (a : Nat) (bs : List Byte) :
    (m.writeRange a bs).wf = true := by
  induction bs generalizing m a with
  | nil => exact h
  | cons b bs ih => exact ih (Memory.wf_write h a b) (a + 1)

/-- After writing a run of bytes, the run reads back and every byte outside it reads as before. -/
theorem Memory.read_writeRange {m : Memory} (h : m.wf = true) (a : Nat) (bs : List Byte) (a' : Nat) :
    (m.writeRange a bs).read a' =
      if a ≤ a' ∧ a' < a + bs.length then bs.getD (a' - a) Memory.blank else m.read a' := by
  induction bs generalizing m a with
  | nil => simp [Memory.writeRange]
  | cons b bs ih =>
    rw [Memory.writeRange, ih (Memory.wf_write h a b) (a + 1), Memory.read_write_wf h]
    by_cases h1 : a' = a
    · subst h1
      simp
    · by_cases h2 : a + 1 ≤ a' ∧ a' < a + 1 + bs.length
      · have h3 : a ≤ a' ∧ a' < a + (b :: bs).length := by simp; omega
        rw [if_pos h2, if_pos h3]
        obtain ⟨k, rfl⟩ : ∃ k, a' = a + 1 + k := ⟨a' - (a + 1), by omega⟩
        have e1 : a + 1 + k - (a + 1) = k := by omega
        have e2 : a + 1 + k - a = k + 1 := by omega
        simp [e1, e2]
      · have h3 : ¬ (a ≤ a' ∧ a' < a + (b :: bs).length) := by simp; omega
        rw [if_neg h2, if_neg h3, if_neg h1]

theorem Memory.wfFrom_ofBytes (a lo : Nat) (h : lo ≤ a) (bs : List Byte) :
    Memory.wfFrom lo (Memory.ofBytes a bs) = true := by
  induction bs generalizing a lo with
  | nil => rfl
  | cons b bs ih =>
    simp only [Memory.ofBytes]
    split
    · exact ih (a + 1) lo (by omega)
    · next hb =>
      simp only [Memory.wfFrom, Bool.and_eq_true, decide_eq_true_eq]
      exact ⟨⟨h, by simpa using hb⟩, ih (a + 1) (a + 1) (Nat.le_refl _)⟩

/-- The memory of a run of bytes is canonical. -/
theorem Memory.wf_ofBytes (a : Nat) (bs : List Byte) : (Memory.ofBytes a bs).wf = true :=
  Memory.wfFrom_ofBytes a 0 (Nat.zero_le a) bs

/-- The memory of a run of bytes reads the run, and blank elsewhere. -/
theorem Memory.read_ofBytes (a : Nat) (bs : List Byte) (a' : Nat) :
    (Memory.ofBytes a bs).read a' =
      if a ≤ a' ∧ a' < a + bs.length then bs.getD (a' - a) Memory.blank else Memory.blank := by
  induction bs generalizing a with
  | nil => simp [Memory.ofBytes]
  | cons b bs ih =>
    have step : (Memory.ofBytes a (b :: bs)).read a' =
        if a' = a then b else (Memory.ofBytes (a + 1) bs).read a' := by
      simp only [Memory.ofBytes]
      split
      · next hb =>
        split
        · next e =>
          subst e
          rw [hb]
          exact Memory.read_below (Memory.wfFrom_ofBytes (a' + 1) (a' + 1) (Nat.le_refl _) bs) (by omega)
        · rfl
      · simp only [Memory.read]
    rw [step, ih (a + 1)]
    by_cases h1 : a' = a
    · subst h1
      simp
    · rw [if_neg h1]
      by_cases h2 : a + 1 ≤ a' ∧ a' < a + 1 + bs.length
      · have h3 : a ≤ a' ∧ a' < a + (b :: bs).length := by simp; omega
        rw [if_pos h2, if_pos h3]
        obtain ⟨k, rfl⟩ : ∃ k, a' = a + 1 + k := ⟨a' - (a + 1), by omega⟩
        have e1 : a + 1 + k - (a + 1) = k := by omega
        have e2 : a + 1 + k - a = k + 1 := by omega
        simp [e1, e2]
      · have h3 : ¬ (a ≤ a' ∧ a' < a + (b :: bs).length) := by simp; omega
        rw [if_neg h2, if_neg h3]

theorem Memory.wfFrom_filter {m : Memory} {lo : Nat} (h : Memory.wfFrom lo m = true)
    (keep : Host.Cell → Bool) : Memory.wfFrom lo (m.filter keep) = true := by
  induction m generalizing lo with
  | nil => rfl
  | cons c m ih =>
    obtain ⟨x, v⟩ := c
    simp only [Memory.wfFrom, Bool.and_eq_true, decide_eq_true_eq] at h
    simp only [List.filter]
    split
    · simp only [Memory.wfFrom, Bool.and_eq_true, decide_eq_true_eq]
      exact ⟨h.1, ih h.2⟩
    · exact Memory.wfFrom_mono (ih h.2) (by omega)

/-- Clearing a range keeps the canonical form. -/
theorem Memory.wf_clearRange {m : Memory} (h : m.wf = true) (lo hi : Nat) : (m.clearRange lo hi).wf = true :=
  Memory.wfFrom_filter h _

/-- A cleared range reads blank; every byte outside it reads as before. -/
theorem Memory.read_clearRange {m : Memory} {l : Nat} (h : Memory.wfFrom l m = true) (lo hi a : Nat) :
    (m.clearRange lo hi).read a = if lo ≤ a ∧ a < hi then Memory.blank else m.read a := by
  induction m generalizing l with
  | nil => simp [Memory.clearRange]
  | cons c m ih =>
    obtain ⟨x, v⟩ := c
    simp only [Memory.wfFrom, Bool.and_eq_true, decide_eq_true_eq] at h
    have ih' := ih h.2
    simp only [Memory.clearRange] at ih' ⊢
    simp only [List.filter]
    by_cases hx : lo ≤ x ∧ x < hi
    · simp only [hx.1, hx.2, decide_true, Bool.and_self, Bool.not_true]
      rw [ih']
      by_cases ha : lo ≤ a ∧ a < hi
      · rw [if_pos ha, if_pos ha]
      · have : a ≠ x := by rintro rfl; exact ha hx
        rw [if_neg ha, if_neg ha, Memory.read, if_neg this]
    · have hk : (!(decide (lo ≤ x) && decide (x < hi))) = true := by
        simp only [Bool.not_eq_true', Bool.and_eq_false_iff, decide_eq_false_iff_not]
        omega
      simp only [hk, Memory.read, ih']
      by_cases ha : a = x
      · subst ha
        rw [if_pos rfl, if_pos rfl, if_neg hx]
      · rw [if_neg ha, if_neg ha]

@[simp] theorem Memory.readRange_length (m : Memory) (a n : Nat) : (m.readRange a n).length = n := by
  induction n generalizing a with
  | zero => rfl
  | succ n ih => simp [Memory.readRange, ih]

/-- The bytes of a range, one by one. -/
theorem Memory.readRange_eq_map (m : Memory) (a n : Nat) :
    m.readRange a n = (List.range n).map (fun i => m.read (a + i)) := by
  induction n generalizing a with
  | zero => rfl
  | succ n ih =>
    rw [Memory.readRange, ih, List.range_succ_eq_map, List.map_cons, List.map_map]
    congr 1
    apply List.map_congr_left
    intro i _
    simp only [Function.comp]
    congr 1
    omega

/-- At reset every memory is canonical. -/
theorem reset_memory_wf : State.reset.blkBuf.wf = true ∧ State.reset.env.wf = true := by decide

end Sys2Proof.Machine
end

