-- ==== Sys2Proof/Laws/State.lean ====
section
/-! SUPPORT. What each named update of the state leaves in each field: one lemma per field per update, true by
`rfl`, so that no proof unfolds a record update. -/

namespace Sys2Proof.Machine

/-! ### `emit` -/

@[simp] theorem emit_cfg (e : Event) (s : State) : (emit e s).cfg = s.cfg := rfl
@[simp] theorem emit_inputs (e : Event) (s : State) : (emit e s).inputs = s.inputs := rfl
@[simp] theorem emit_launched (e : Event) (s : State) : (emit e s).launched = s.launched := rfl
@[simp] theorem emit_opState (e : Event) (s : State) : (emit e s).opState = s.opState := rfl
@[simp] theorem emit_gpioDir (e : Event) (s : State) : (emit e s).gpioDir = s.gpioDir := rfl
@[simp] theorem emit_gpioOut (e : Event) (s : State) : (emit e s).gpioOut = s.gpioOut := rfl
@[simp] theorem emit_gpioPull (e : Event) (s : State) : (emit e s).gpioPull = s.gpioPull := rfl
@[simp] theorem emit_wr (e : Event) (s : State) : (emit e s).wr = s.wr := rfl
@[simp] theorem emit_rd (e : Event) (s : State) : (emit e s).rd = s.rd := rfl
@[simp] theorem emit_aleh (e : Event) (s : State) : (emit e s).aleh = s.aleh := rfl
@[simp] theorem emit_alel (e : Event) (s : State) : (emit e s).alel = s.alel := rfl
@[simp] theorem emit_rstAsserted (e : Event) (s : State) : (emit e s).rstAsserted = s.rstAsserted := rfl
@[simp] theorem emit_joy (e : Event) (s : State) : (emit e s).joy = s.joy := rfl
@[simp] theorem emit_result (e : Event) (s : State) : (emit e s).result = s.result := rfl
@[simp] theorem emit_fsActive (e : Event) (s : State) : (emit e s).fsActive = s.fsActive := rfl
@[simp] theorem emit_fsBlock (e : Event) (s : State) : (emit e s).fsBlock = s.fsBlock := rfl
@[simp] theorem emit_fsBitmap (e : Event) (s : State) : (emit e s).fsBitmap = s.fsBitmap := rfl
@[simp] theorem emit_blkBuf (e : Event) (s : State) : (emit e s).blkBuf = s.blkBuf := rfl
@[simp] theorem emit_eepSize (e : Event) (s : State) : (emit e s).eepSize = s.eepSize := rfl
@[simp] theorem emit_events (e : Event) (s : State) :
    (emit e s).events = e :: s.events := rfl
@[simp] theorem emit_contention (e : Event) (s : State) : (emit e s).contention = s.contention := rfl
@[simp] theorem emit_env (e : Event) (s : State) : (emit e s).env = s.env := rfl

/-! ### `setDir` -/

@[simp] theorem setDir_cfg (out : Bool) (s : State) : (setDir out s).cfg = s.cfg := rfl
@[simp] theorem setDir_inputs (out : Bool) (s : State) : (setDir out s).inputs = s.inputs := rfl
@[simp] theorem setDir_launched (out : Bool) (s : State) : (setDir out s).launched = s.launched := rfl
@[simp] theorem setDir_opState (out : Bool) (s : State) : (setDir out s).opState = s.opState := rfl
@[simp] theorem setDir_gpioDir (out : Bool) (s : State) :
    (setDir out s).gpioDir = if out then 0xFFFF#16 else 0x0000#16 := rfl
@[simp] theorem setDir_gpioOut (out : Bool) (s : State) :
    (setDir out s).gpioOut = if out then 0x0000#16 else s.gpioOut := rfl
@[simp] theorem setDir_gpioPull (out : Bool) (s : State) :
    (setDir out s).gpioPull = if out then s.gpioPull else 1#1 := rfl
@[simp] theorem setDir_wr (out : Bool) (s : State) : (setDir out s).wr = s.wr := rfl
@[simp] theorem setDir_rd (out : Bool) (s : State) : (setDir out s).rd = s.rd := rfl
@[simp] theorem setDir_aleh (out : Bool) (s : State) : (setDir out s).aleh = s.aleh := rfl
@[simp] theorem setDir_alel (out : Bool) (s : State) : (setDir out s).alel = s.alel := rfl
@[simp] theorem setDir_rstAsserted (out : Bool) (s : State) : (setDir out s).rstAsserted = s.rstAsserted := rfl
@[simp] theorem setDir_joy (out : Bool) (s : State) : (setDir out s).joy = s.joy := rfl
@[simp] theorem setDir_result (out : Bool) (s : State) : (setDir out s).result = s.result := rfl
@[simp] theorem setDir_fsActive (out : Bool) (s : State) : (setDir out s).fsActive = s.fsActive := rfl
@[simp] theorem setDir_fsBlock (out : Bool) (s : State) : (setDir out s).fsBlock = s.fsBlock := rfl
@[simp] theorem setDir_fsBitmap (out : Bool) (s : State) : (setDir out s).fsBitmap = s.fsBitmap := rfl
@[simp] theorem setDir_blkBuf (out : Bool) (s : State) : (setDir out s).blkBuf = s.blkBuf := rfl
@[simp] theorem setDir_eepSize (out : Bool) (s : State) : (setDir out s).eepSize = s.eepSize := rfl
@[simp] theorem setDir_events (out : Bool) (s : State) :
    (setDir out s).events = .dir out :: s.events := rfl
@[simp] theorem setDir_contention (out : Bool) (s : State) :
    (setDir out s).contention = (s.contention || (out && s.rd == 0#1 && s.envDrives)) := rfl
@[simp] theorem setDir_env (out : Bool) (s : State) : (setDir out s).env = s.env := rfl

/-! ### `drive` -/

@[simp] theorem drive_cfg (v : Half) (s : State) : (drive v s).cfg = s.cfg := rfl
@[simp] theorem drive_inputs (v : Half) (s : State) : (drive v s).inputs = s.inputs := rfl
@[simp] theorem drive_launched (v : Half) (s : State) : (drive v s).launched = s.launched := rfl
@[simp] theorem drive_opState (v : Half) (s : State) : (drive v s).opState = s.opState := rfl
@[simp] theorem drive_gpioDir (v : Half) (s : State) : (drive v s).gpioDir = s.gpioDir := rfl
@[simp] theorem drive_gpioOut (v : Half) (s : State) :
    (drive v s).gpioOut = v := rfl
@[simp] theorem drive_gpioPull (v : Half) (s : State) : (drive v s).gpioPull = s.gpioPull := rfl
@[simp] theorem drive_wr (v : Half) (s : State) : (drive v s).wr = s.wr := rfl
@[simp] theorem drive_rd (v : Half) (s : State) : (drive v s).rd = s.rd := rfl
@[simp] theorem drive_aleh (v : Half) (s : State) : (drive v s).aleh = s.aleh := rfl
@[simp] theorem drive_alel (v : Half) (s : State) : (drive v s).alel = s.alel := rfl
@[simp] theorem drive_rstAsserted (v : Half) (s : State) : (drive v s).rstAsserted = s.rstAsserted := rfl
@[simp] theorem drive_joy (v : Half) (s : State) : (drive v s).joy = s.joy := rfl
@[simp] theorem drive_result (v : Half) (s : State) : (drive v s).result = s.result := rfl
@[simp] theorem drive_fsActive (v : Half) (s : State) : (drive v s).fsActive = s.fsActive := rfl
@[simp] theorem drive_fsBlock (v : Half) (s : State) : (drive v s).fsBlock = s.fsBlock := rfl
@[simp] theorem drive_fsBitmap (v : Half) (s : State) : (drive v s).fsBitmap = s.fsBitmap := rfl
@[simp] theorem drive_blkBuf (v : Half) (s : State) : (drive v s).blkBuf = s.blkBuf := rfl
@[simp] theorem drive_eepSize (v : Half) (s : State) : (drive v s).eepSize = s.eepSize := rfl
@[simp] theorem drive_events (v : Half) (s : State) :
    (drive v s).events = .out v :: s.events := rfl
@[simp] theorem drive_contention (v : Half) (s : State) : (drive v s).contention = s.contention := rfl
@[simp] theorem drive_env (v : Half) (s : State) : (drive v s).env = s.env := rfl

/-! ### `ctrl` -/

@[simp] theorem ctrl_cfg (line : Line) (level : Level) (s : State) : (ctrl line level s).cfg = s.cfg := rfl
@[simp] theorem ctrl_inputs (line : Line) (level : Level) (s : State) : (ctrl line level s).inputs = s.inputs := rfl
@[simp] theorem ctrl_launched (line : Line) (level : Level) (s : State) : (ctrl line level s).launched = s.launched := rfl
@[simp] theorem ctrl_opState (line : Line) (level : Level) (s : State) : (ctrl line level s).opState = s.opState := rfl
@[simp] theorem ctrl_gpioDir (line : Line) (level : Level) (s : State) : (ctrl line level s).gpioDir = s.gpioDir := rfl
@[simp] theorem ctrl_gpioOut (line : Line) (level : Level) (s : State) : (ctrl line level s).gpioOut = s.gpioOut := rfl
@[simp] theorem ctrl_gpioPull (line : Line) (level : Level) (s : State) : (ctrl line level s).gpioPull = s.gpioPull := rfl
@[simp] theorem ctrl_wr (line : Line) (level : Level) (s : State) :
    (ctrl line level s).wr = if line = .wr then level else s.wr := rfl
@[simp] theorem ctrl_rd (line : Line) (level : Level) (s : State) :
    (ctrl line level s).rd = if line = .rd then level else s.rd := rfl
@[simp] theorem ctrl_aleh (line : Line) (level : Level) (s : State) :
    (ctrl line level s).aleh = if line = .aleh then level else s.aleh := rfl
@[simp] theorem ctrl_alel (line : Line) (level : Level) (s : State) :
    (ctrl line level s).alel = if line = .alel then level else s.alel := rfl
@[simp] theorem ctrl_rstAsserted (line : Line) (level : Level) (s : State) : (ctrl line level s).rstAsserted = s.rstAsserted := rfl
@[simp] theorem ctrl_joy (line : Line) (level : Level) (s : State) : (ctrl line level s).joy = s.joy := rfl
@[simp] theorem ctrl_result (line : Line) (level : Level) (s : State) : (ctrl line level s).result = s.result := rfl
@[simp] theorem ctrl_fsActive (line : Line) (level : Level) (s : State) : (ctrl line level s).fsActive = s.fsActive := rfl
@[simp] theorem ctrl_fsBlock (line : Line) (level : Level) (s : State) : (ctrl line level s).fsBlock = s.fsBlock := rfl
@[simp] theorem ctrl_fsBitmap (line : Line) (level : Level) (s : State) : (ctrl line level s).fsBitmap = s.fsBitmap := rfl
@[simp] theorem ctrl_blkBuf (line : Line) (level : Level) (s : State) : (ctrl line level s).blkBuf = s.blkBuf := rfl
@[simp] theorem ctrl_eepSize (line : Line) (level : Level) (s : State) : (ctrl line level s).eepSize = s.eepSize := rfl
@[simp] theorem ctrl_events (line : Line) (level : Level) (s : State) :
    (ctrl line level s).events = .ctrl line level :: s.events := rfl
@[simp] theorem ctrl_contention (line : Line) (level : Level) (s : State) :
    (ctrl line level s).contention = (s.contention || (line == .rd && level == 0#1 && s.gpioDir != 0#16 && s.envDrives)) := rfl
@[simp] theorem ctrl_env (line : Line) (level : Level) (s : State) :
    (ctrl line level s).env = s.env.onCtrl s.cfg s.rstAsserted s.events s.adLevel s.gpioOut line (s.seenLevel line level) level := rfl

/-! ### `delay` -/

@[simp] theorem delay_cfg (kind : DelayKind) (s : State) : (delay kind s).cfg = s.cfg := rfl
@[simp] theorem delay_inputs (kind : DelayKind) (s : State) : (delay kind s).inputs = s.inputs := rfl
@[simp] theorem delay_launched (kind : DelayKind) (s : State) : (delay kind s).launched = s.launched := rfl
@[simp] theorem delay_opState (kind : DelayKind) (s : State) : (delay kind s).opState = s.opState := rfl
@[simp] theorem delay_gpioDir (kind : DelayKind) (s : State) : (delay kind s).gpioDir = s.gpioDir := rfl
@[simp] theorem delay_gpioOut (kind : DelayKind) (s : State) : (delay kind s).gpioOut = s.gpioOut := rfl
@[simp] theorem delay_gpioPull (kind : DelayKind) (s : State) : (delay kind s).gpioPull = s.gpioPull := rfl
@[simp] theorem delay_wr (kind : DelayKind) (s : State) : (delay kind s).wr = s.wr := rfl
@[simp] theorem delay_rd (kind : DelayKind) (s : State) : (delay kind s).rd = s.rd := rfl
@[simp] theorem delay_aleh (kind : DelayKind) (s : State) : (delay kind s).aleh = s.aleh := rfl
@[simp] theorem delay_alel (kind : DelayKind) (s : State) : (delay kind s).alel = s.alel := rfl
@[simp] theorem delay_rstAsserted (kind : DelayKind) (s : State) : (delay kind s).rstAsserted = s.rstAsserted := rfl
@[simp] theorem delay_joy (kind : DelayKind) (s : State) : (delay kind s).joy = s.joy := rfl
@[simp] theorem delay_result (kind : DelayKind) (s : State) : (delay kind s).result = s.result := rfl
@[simp] theorem delay_fsActive (kind : DelayKind) (s : State) : (delay kind s).fsActive = s.fsActive := rfl
@[simp] theorem delay_fsBlock (kind : DelayKind) (s : State) : (delay kind s).fsBlock = s.fsBlock := rfl
@[simp] theorem delay_fsBitmap (kind : DelayKind) (s : State) : (delay kind s).fsBitmap = s.fsBitmap := rfl
@[simp] theorem delay_blkBuf (kind : DelayKind) (s : State) : (delay kind s).blkBuf = s.blkBuf := rfl
@[simp] theorem delay_eepSize (kind : DelayKind) (s : State) : (delay kind s).eepSize = s.eepSize := rfl
@[simp] theorem delay_events (kind : DelayKind) (s : State) :
    (delay kind s).events = .delay kind :: s.events := rfl
@[simp] theorem delay_contention (kind : DelayKind) (s : State) : (delay kind s).contention = s.contention := rfl
@[simp] theorem delay_env (kind : DelayKind) (s : State) : (delay kind s).env = s.env := rfl

/-! ### `sleep` -/

@[simp] theorem sleep_cfg (ms : Nat) (s : State) : (sleep ms s).cfg = s.cfg := rfl
@[simp] theorem sleep_inputs (ms : Nat) (s : State) : (sleep ms s).inputs = s.inputs := rfl
@[simp] theorem sleep_launched (ms : Nat) (s : State) : (sleep ms s).launched = s.launched := rfl
@[simp] theorem sleep_opState (ms : Nat) (s : State) : (sleep ms s).opState = s.opState := rfl
@[simp] theorem sleep_gpioDir (ms : Nat) (s : State) : (sleep ms s).gpioDir = s.gpioDir := rfl
@[simp] theorem sleep_gpioOut (ms : Nat) (s : State) : (sleep ms s).gpioOut = s.gpioOut := rfl
@[simp] theorem sleep_gpioPull (ms : Nat) (s : State) : (sleep ms s).gpioPull = s.gpioPull := rfl
@[simp] theorem sleep_wr (ms : Nat) (s : State) : (sleep ms s).wr = s.wr := rfl
@[simp] theorem sleep_rd (ms : Nat) (s : State) : (sleep ms s).rd = s.rd := rfl
@[simp] theorem sleep_aleh (ms : Nat) (s : State) : (sleep ms s).aleh = s.aleh := rfl
@[simp] theorem sleep_alel (ms : Nat) (s : State) : (sleep ms s).alel = s.alel := rfl
@[simp] theorem sleep_rstAsserted (ms : Nat) (s : State) : (sleep ms s).rstAsserted = s.rstAsserted := rfl
@[simp] theorem sleep_joy (ms : Nat) (s : State) : (sleep ms s).joy = s.joy := rfl
@[simp] theorem sleep_result (ms : Nat) (s : State) : (sleep ms s).result = s.result := rfl
@[simp] theorem sleep_fsActive (ms : Nat) (s : State) : (sleep ms s).fsActive = s.fsActive := rfl
@[simp] theorem sleep_fsBlock (ms : Nat) (s : State) : (sleep ms s).fsBlock = s.fsBlock := rfl
@[simp] theorem sleep_fsBitmap (ms : Nat) (s : State) : (sleep ms s).fsBitmap = s.fsBitmap := rfl
@[simp] theorem sleep_blkBuf (ms : Nat) (s : State) : (sleep ms s).blkBuf = s.blkBuf := rfl
@[simp] theorem sleep_eepSize (ms : Nat) (s : State) : (sleep ms s).eepSize = s.eepSize := rfl
@[simp] theorem sleep_events (ms : Nat) (s : State) :
    (sleep ms s).events = .sleep ms :: s.events := rfl
@[simp] theorem sleep_contention (ms : Nat) (s : State) : (sleep ms s).contention = s.contention := rfl
@[simp] theorem sleep_env (ms : Nat) (s : State) : (sleep ms s).env = s.env := rfl

/-! ### `yieldPoint` -/

@[simp] theorem yieldPoint_cfg (s : State) : (yieldPoint s).cfg = s.cfg := rfl
@[simp] theorem yieldPoint_inputs (s : State) : (yieldPoint s).inputs = s.inputs := rfl
@[simp] theorem yieldPoint_launched (s : State) : (yieldPoint s).launched = s.launched := rfl
@[simp] theorem yieldPoint_opState (s : State) : (yieldPoint s).opState = s.opState := rfl
@[simp] theorem yieldPoint_gpioDir (s : State) : (yieldPoint s).gpioDir = s.gpioDir := rfl
@[simp] theorem yieldPoint_gpioOut (s : State) : (yieldPoint s).gpioOut = s.gpioOut := rfl
@[simp] theorem yieldPoint_gpioPull (s : State) : (yieldPoint s).gpioPull = s.gpioPull := rfl
@[simp] theorem yieldPoint_wr (s : State) : (yieldPoint s).wr = s.wr := rfl
@[simp] theorem yieldPoint_rd (s : State) : (yieldPoint s).rd = s.rd := rfl
@[simp] theorem yieldPoint_aleh (s : State) : (yieldPoint s).aleh = s.aleh := rfl
@[simp] theorem yieldPoint_alel (s : State) : (yieldPoint s).alel = s.alel := rfl
@[simp] theorem yieldPoint_rstAsserted (s : State) : (yieldPoint s).rstAsserted = s.rstAsserted := rfl
@[simp] theorem yieldPoint_joy (s : State) : (yieldPoint s).joy = s.joy := rfl
@[simp] theorem yieldPoint_result (s : State) : (yieldPoint s).result = s.result := rfl
@[simp] theorem yieldPoint_fsActive (s : State) : (yieldPoint s).fsActive = s.fsActive := rfl
@[simp] theorem yieldPoint_fsBlock (s : State) : (yieldPoint s).fsBlock = s.fsBlock := rfl
@[simp] theorem yieldPoint_fsBitmap (s : State) : (yieldPoint s).fsBitmap = s.fsBitmap := rfl
@[simp] theorem yieldPoint_blkBuf (s : State) : (yieldPoint s).blkBuf = s.blkBuf := rfl
@[simp] theorem yieldPoint_eepSize (s : State) : (yieldPoint s).eepSize = s.eepSize := rfl
@[simp] theorem yieldPoint_events (s : State) :
    (yieldPoint s).events = .yield :: s.events := rfl
@[simp] theorem yieldPoint_contention (s : State) : (yieldPoint s).contention = s.contention := rfl
@[simp] theorem yieldPoint_env (s : State) : (yieldPoint s).env = s.env := rfl

/-! ### `sample` -/

@[simp] theorem sample_word (s : State) : (sample s).1 = s.sampleWord := rfl
@[simp] theorem sample_cfg (s : State) : (sample s).2.cfg = s.cfg := rfl
@[simp] theorem sample_inputs (s : State) : (sample s).2.inputs = s.inputs := rfl
@[simp] theorem sample_launched (s : State) : (sample s).2.launched = s.launched := rfl
@[simp] theorem sample_opState (s : State) : (sample s).2.opState = s.opState := rfl
@[simp] theorem sample_gpioDir (s : State) : (sample s).2.gpioDir = s.gpioDir := rfl
@[simp] theorem sample_gpioOut (s : State) : (sample s).2.gpioOut = s.gpioOut := rfl
@[simp] theorem sample_gpioPull (s : State) : (sample s).2.gpioPull = s.gpioPull := rfl
@[simp] theorem sample_wr (s : State) : (sample s).2.wr = s.wr := rfl
@[simp] theorem sample_rd (s : State) : (sample s).2.rd = s.rd := rfl
@[simp] theorem sample_aleh (s : State) : (sample s).2.aleh = s.aleh := rfl
@[simp] theorem sample_alel (s : State) : (sample s).2.alel = s.alel := rfl
@[simp] theorem sample_rstAsserted (s : State) : (sample s).2.rstAsserted = s.rstAsserted := rfl
@[simp] theorem sample_joy (s : State) : (sample s).2.joy = s.joy := rfl
@[simp] theorem sample_result (s : State) : (sample s).2.result = s.result := rfl
@[simp] theorem sample_fsActive (s : State) : (sample s).2.fsActive = s.fsActive := rfl
@[simp] theorem sample_fsBlock (s : State) : (sample s).2.fsBlock = s.fsBlock := rfl
@[simp] theorem sample_fsBitmap (s : State) : (sample s).2.fsBitmap = s.fsBitmap := rfl
@[simp] theorem sample_blkBuf (s : State) : (sample s).2.blkBuf = s.blkBuf := rfl
@[simp] theorem sample_eepSize (s : State) : (sample s).2.eepSize = s.eepSize := rfl
@[simp] theorem sample_events (s : State) :
    (sample s).2.events = .sample s.sampleWord :: s.events := rfl
@[simp] theorem sample_contention (s : State) : (sample s).2.contention = s.contention := rfl
@[simp] theorem sample_env (s : State) :
    (sample s).2.env = s.env.afterSample := rfl

/-! ### `joyXfer` -/

@[simp] theorem joyXfer_reply (tx : List Byte) (n : Nat) (s : State) :
    (joyXfer tx n s).1 = receive n (s.env.joy s.cfg s.events tx).1 := rfl
@[simp] theorem joyXfer_cfg (tx : List Byte) (n : Nat) (s : State) : (joyXfer tx n s).2.cfg = s.cfg := rfl
@[simp] theorem joyXfer_inputs (tx : List Byte) (n : Nat) (s : State) : (joyXfer tx n s).2.inputs = s.inputs := rfl
@[simp] theorem joyXfer_launched (tx : List Byte) (n : Nat) (s : State) : (joyXfer tx n s).2.launched = s.launched := rfl
@[simp] theorem joyXfer_opState (tx : List Byte) (n : Nat) (s : State) : (joyXfer tx n s).2.opState = s.opState := rfl
@[simp] theorem joyXfer_gpioDir (tx : List Byte) (n : Nat) (s : State) : (joyXfer tx n s).2.gpioDir = s.gpioDir := rfl
@[simp] theorem joyXfer_gpioOut (tx : List Byte) (n : Nat) (s : State) : (joyXfer tx n s).2.gpioOut = s.gpioOut := rfl
@[simp] theorem joyXfer_gpioPull (tx : List Byte) (n : Nat) (s : State) : (joyXfer tx n s).2.gpioPull = s.gpioPull := rfl
@[simp] theorem joyXfer_wr (tx : List Byte) (n : Nat) (s : State) : (joyXfer tx n s).2.wr = s.wr := rfl
@[simp] theorem joyXfer_rd (tx : List Byte) (n : Nat) (s : State) : (joyXfer tx n s).2.rd = s.rd := rfl
@[simp] theorem joyXfer_aleh (tx : List Byte) (n : Nat) (s : State) : (joyXfer tx n s).2.aleh = s.aleh := rfl
@[simp] theorem joyXfer_alel (tx : List Byte) (n : Nat) (s : State) : (joyXfer tx n s).2.alel = s.alel := rfl
@[simp] theorem joyXfer_rstAsserted (tx : List Byte) (n : Nat) (s : State) : (joyXfer tx n s).2.rstAsserted = s.rstAsserted := rfl
@[simp] theorem joyXfer_joy (tx : List Byte) (n : Nat) (s : State) :
    (joyXfer tx n s).2.joy = 1#1 := rfl
@[simp] theorem joyXfer_result (tx : List Byte) (n : Nat) (s : State) : (joyXfer tx n s).2.result = s.result := rfl
@[simp] theorem joyXfer_fsActive (tx : List Byte) (n : Nat) (s : State) : (joyXfer tx n s).2.fsActive = s.fsActive := rfl
@[simp] theorem joyXfer_fsBlock (tx : List Byte) (n : Nat) (s : State) : (joyXfer tx n s).2.fsBlock = s.fsBlock := rfl
@[simp] theorem joyXfer_fsBitmap (tx : List Byte) (n : Nat) (s : State) : (joyXfer tx n s).2.fsBitmap = s.fsBitmap := rfl
@[simp] theorem joyXfer_blkBuf (tx : List Byte) (n : Nat) (s : State) : (joyXfer tx n s).2.blkBuf = s.blkBuf := rfl
@[simp] theorem joyXfer_eepSize (tx : List Byte) (n : Nat) (s : State) : (joyXfer tx n s).2.eepSize = s.eepSize := rfl
@[simp] theorem joyXfer_events (tx : List Byte) (n : Nat) (s : State) :
    (joyXfer tx n s).2.events = .joy tx (receive n (s.env.joy s.cfg s.events tx).1) :: s.events := rfl
@[simp] theorem joyXfer_contention (tx : List Byte) (n : Nat) (s : State) : (joyXfer tx n s).2.contention = s.contention := rfl
@[simp] theorem joyXfer_env (tx : List Byte) (n : Nat) (s : State) :
    (joyXfer tx n s).2.env = (s.env.joy s.cfg s.events tx).2 := rfl

/-! ### `acceptRecord` -/

@[simp] theorem acceptRecord_cfg (rest : List HostMove) (s : State) : (acceptRecord rest s).cfg = s.cfg := rfl
@[simp] theorem acceptRecord_inputs (rest : List HostMove) (s : State) :
    (acceptRecord rest s).inputs = rest := rfl
@[simp] theorem acceptRecord_launched (rest : List HostMove) (s : State) :
    (acceptRecord rest s).launched = true := rfl
@[simp] theorem acceptRecord_opState (rest : List HostMove) (s : State) :
    (acceptRecord rest s).opState = .busy := rfl
@[simp] theorem acceptRecord_gpioDir (rest : List HostMove) (s : State) : (acceptRecord rest s).gpioDir = s.gpioDir := rfl
@[simp] theorem acceptRecord_gpioOut (rest : List HostMove) (s : State) : (acceptRecord rest s).gpioOut = s.gpioOut := rfl
@[simp] theorem acceptRecord_gpioPull (rest : List HostMove) (s : State) : (acceptRecord rest s).gpioPull = s.gpioPull := rfl
@[simp] theorem acceptRecord_wr (rest : List HostMove) (s : State) : (acceptRecord rest s).wr = s.wr := rfl
@[simp] theorem acceptRecord_rd (rest : List HostMove) (s : State) : (acceptRecord rest s).rd = s.rd := rfl
@[simp] theorem acceptRecord_aleh (rest : List HostMove) (s : State) : (acceptRecord rest s).aleh = s.aleh := rfl
@[simp] theorem acceptRecord_alel (rest : List HostMove) (s : State) : (acceptRecord rest s).alel = s.alel := rfl
@[simp] theorem acceptRecord_rstAsserted (rest : List HostMove) (s : State) : (acceptRecord rest s).rstAsserted = s.rstAsserted := rfl
@[simp] theorem acceptRecord_joy (rest : List HostMove) (s : State) : (acceptRecord rest s).joy = s.joy := rfl
@[simp] theorem acceptRecord_result (rest : List HostMove) (s : State) : (acceptRecord rest s).result = s.result := rfl
@[simp] theorem acceptRecord_fsActive (rest : List HostMove) (s : State) : (acceptRecord rest s).fsActive = s.fsActive := rfl
@[simp] theorem acceptRecord_fsBlock (rest : List HostMove) (s : State) : (acceptRecord rest s).fsBlock = s.fsBlock := rfl
@[simp] theorem acceptRecord_fsBitmap (rest : List HostMove) (s : State) : (acceptRecord rest s).fsBitmap = s.fsBitmap := rfl
@[simp] theorem acceptRecord_blkBuf (rest : List HostMove) (s : State) : (acceptRecord rest s).blkBuf = s.blkBuf := rfl
@[simp] theorem acceptRecord_eepSize (rest : List HostMove) (s : State) : (acceptRecord rest s).eepSize = s.eepSize := rfl
@[simp] theorem acceptRecord_events (rest : List HostMove) (s : State) : (acceptRecord rest s).events = s.events := rfl
@[simp] theorem acceptRecord_contention (rest : List HostMove) (s : State) : (acceptRecord rest s).contention = s.contention := rfl
@[simp] theorem acceptRecord_env (rest : List HostMove) (s : State) : (acceptRecord rest s).env = s.env := rfl

/-! ### `cartridgeChanged` -/

@[simp] theorem cartridgeChanged_cfg (env : Env) (rest : List HostMove) (s : State) : (cartridgeChanged env rest s).cfg = s.cfg := rfl
@[simp] theorem cartridgeChanged_inputs (env : Env) (rest : List HostMove) (s : State) :
    (cartridgeChanged env rest s).inputs = rest := rfl
@[simp] theorem cartridgeChanged_launched (env : Env) (rest : List HostMove) (s : State) : (cartridgeChanged env rest s).launched = s.launched := rfl
@[simp] theorem cartridgeChanged_opState (env : Env) (rest : List HostMove) (s : State) : (cartridgeChanged env rest s).opState = s.opState := rfl
@[simp] theorem cartridgeChanged_gpioDir (env : Env) (rest : List HostMove) (s : State) : (cartridgeChanged env rest s).gpioDir = s.gpioDir := rfl
@[simp] theorem cartridgeChanged_gpioOut (env : Env) (rest : List HostMove) (s : State) : (cartridgeChanged env rest s).gpioOut = s.gpioOut := rfl
@[simp] theorem cartridgeChanged_gpioPull (env : Env) (rest : List HostMove) (s : State) : (cartridgeChanged env rest s).gpioPull = s.gpioPull := rfl
@[simp] theorem cartridgeChanged_wr (env : Env) (rest : List HostMove) (s : State) : (cartridgeChanged env rest s).wr = s.wr := rfl
@[simp] theorem cartridgeChanged_rd (env : Env) (rest : List HostMove) (s : State) : (cartridgeChanged env rest s).rd = s.rd := rfl
@[simp] theorem cartridgeChanged_aleh (env : Env) (rest : List HostMove) (s : State) : (cartridgeChanged env rest s).aleh = s.aleh := rfl
@[simp] theorem cartridgeChanged_alel (env : Env) (rest : List HostMove) (s : State) : (cartridgeChanged env rest s).alel = s.alel := rfl
@[simp] theorem cartridgeChanged_rstAsserted (env : Env) (rest : List HostMove) (s : State) : (cartridgeChanged env rest s).rstAsserted = s.rstAsserted := rfl
@[simp] theorem cartridgeChanged_joy (env : Env) (rest : List HostMove) (s : State) : (cartridgeChanged env rest s).joy = s.joy := rfl
@[simp] theorem cartridgeChanged_result (env : Env) (rest : List HostMove) (s : State) : (cartridgeChanged env rest s).result = s.result := rfl
@[simp] theorem cartridgeChanged_fsActive (env : Env) (rest : List HostMove) (s : State) : (cartridgeChanged env rest s).fsActive = s.fsActive := rfl
@[simp] theorem cartridgeChanged_fsBlock (env : Env) (rest : List HostMove) (s : State) : (cartridgeChanged env rest s).fsBlock = s.fsBlock := rfl
@[simp] theorem cartridgeChanged_fsBitmap (env : Env) (rest : List HostMove) (s : State) : (cartridgeChanged env rest s).fsBitmap = s.fsBitmap := rfl
@[simp] theorem cartridgeChanged_blkBuf (env : Env) (rest : List HostMove) (s : State) : (cartridgeChanged env rest s).blkBuf = s.blkBuf := rfl
@[simp] theorem cartridgeChanged_eepSize (env : Env) (rest : List HostMove) (s : State) : (cartridgeChanged env rest s).eepSize = s.eepSize := rfl
@[simp] theorem cartridgeChanged_events (env : Env) (rest : List HostMove) (s : State) : (cartridgeChanged env rest s).events = s.events := rfl
@[simp] theorem cartridgeChanged_contention (env : Env) (rest : List HostMove) (s : State) : (cartridgeChanged env rest s).contention = s.contention := rfl
@[simp] theorem cartridgeChanged_env (env : Env) (rest : List HostMove) (s : State) :
    (cartridgeChanged env rest s).env = env.inserted s.rstAsserted s.events := rfl

/-! ### `setReset` -/

@[simp] theorem setReset_cfg (active : Bool) (s : State) : (setReset active s).cfg = s.cfg := rfl
@[simp] theorem setReset_inputs (active : Bool) (s : State) : (setReset active s).inputs = s.inputs := rfl
@[simp] theorem setReset_launched (active : Bool) (s : State) : (setReset active s).launched = s.launched := rfl
@[simp] theorem setReset_opState (active : Bool) (s : State) : (setReset active s).opState = s.opState := rfl
@[simp] theorem setReset_gpioDir (active : Bool) (s : State) : (setReset active s).gpioDir = s.gpioDir := rfl
@[simp] theorem setReset_gpioOut (active : Bool) (s : State) : (setReset active s).gpioOut = s.gpioOut := rfl
@[simp] theorem setReset_gpioPull (active : Bool) (s : State) : (setReset active s).gpioPull = s.gpioPull := rfl
@[simp] theorem setReset_wr (active : Bool) (s : State) : (setReset active s).wr = s.wr := rfl
@[simp] theorem setReset_rd (active : Bool) (s : State) : (setReset active s).rd = s.rd := rfl
@[simp] theorem setReset_aleh (active : Bool) (s : State) : (setReset active s).aleh = s.aleh := rfl
@[simp] theorem setReset_alel (active : Bool) (s : State) : (setReset active s).alel = s.alel := rfl
@[simp] theorem setReset_rstAsserted (active : Bool) (s : State) : (setReset active s).rstAsserted = active := rfl
@[simp] theorem setReset_joy (active : Bool) (s : State) : (setReset active s).joy = s.joy := rfl
@[simp] theorem setReset_result (active : Bool) (s : State) : (setReset active s).result = s.result := rfl
@[simp] theorem setReset_fsActive (active : Bool) (s : State) : (setReset active s).fsActive = s.fsActive := rfl
@[simp] theorem setReset_fsBlock (active : Bool) (s : State) : (setReset active s).fsBlock = s.fsBlock := rfl
@[simp] theorem setReset_fsBitmap (active : Bool) (s : State) : (setReset active s).fsBitmap = s.fsBitmap := rfl
@[simp] theorem setReset_blkBuf (active : Bool) (s : State) : (setReset active s).blkBuf = s.blkBuf := rfl
@[simp] theorem setReset_eepSize (active : Bool) (s : State) : (setReset active s).eepSize = s.eepSize := rfl
@[simp] theorem setReset_events (active : Bool) (s : State) : (setReset active s).events = s.events := rfl
@[simp] theorem setReset_contention (active : Bool) (s : State) : (setReset active s).contention = s.contention := rfl
@[simp] theorem setReset_env (active : Bool) (s : State) :
    (setReset active s).env = if s.rstAsserted then s.env.heldInReset s.events else s.env := rfl

/-! ### `dropStream` -/

@[simp] theorem dropStream_cfg (s : State) : (dropStream s).cfg = s.cfg := rfl
@[simp] theorem dropStream_inputs (s : State) : (dropStream s).inputs = s.inputs := rfl
@[simp] theorem dropStream_launched (s : State) : (dropStream s).launched = s.launched := rfl
@[simp] theorem dropStream_opState (s : State) : (dropStream s).opState = s.opState := rfl
@[simp] theorem dropStream_gpioDir (s : State) : (dropStream s).gpioDir = s.gpioDir := rfl
@[simp] theorem dropStream_gpioOut (s : State) : (dropStream s).gpioOut = s.gpioOut := rfl
@[simp] theorem dropStream_gpioPull (s : State) : (dropStream s).gpioPull = s.gpioPull := rfl
@[simp] theorem dropStream_wr (s : State) : (dropStream s).wr = s.wr := rfl
@[simp] theorem dropStream_rd (s : State) : (dropStream s).rd = s.rd := rfl
@[simp] theorem dropStream_aleh (s : State) : (dropStream s).aleh = s.aleh := rfl
@[simp] theorem dropStream_alel (s : State) : (dropStream s).alel = s.alel := rfl
@[simp] theorem dropStream_rstAsserted (s : State) : (dropStream s).rstAsserted = s.rstAsserted := rfl
@[simp] theorem dropStream_joy (s : State) : (dropStream s).joy = s.joy := rfl
@[simp] theorem dropStream_result (s : State) : (dropStream s).result = s.result := rfl
@[simp] theorem dropStream_fsActive (s : State) :
    (dropStream s).fsActive = false := rfl
@[simp] theorem dropStream_fsBlock (s : State) : (dropStream s).fsBlock = s.fsBlock := rfl
@[simp] theorem dropStream_fsBitmap (s : State) :
    (dropStream s).fsBitmap = List.replicate s.cfg.sectorsPerBlock false := rfl
@[simp] theorem dropStream_blkBuf (s : State) : (dropStream s).blkBuf = s.blkBuf := rfl
@[simp] theorem dropStream_eepSize (s : State) : (dropStream s).eepSize = s.eepSize := rfl
@[simp] theorem dropStream_events (s : State) : (dropStream s).events = s.events := rfl
@[simp] theorem dropStream_contention (s : State) : (dropStream s).contention = s.contention := rfl
@[simp] theorem dropStream_env (s : State) : (dropStream s).env = s.env := rfl

end Sys2Proof.Machine
end

