-- ==== Sys2Proof/Laws/Ops.lean ====
section
/-! SUPPORT. What the shared bus operations can do, said once: the events of each cycle, the pins it leaves,
and the block state it keeps. Proofs about operations cite these and unfold no cycle again. -/

namespace Sys2Proof.Machine

/-! ### The trace -/

@[simp] theorem trace_of_events {s t : State} {es : List Event} (h : t.events = es.reverse ++ s.events) :
    t.trace = s.trace ++ es := by
  simp [State.trace, h]

theorem latchAddress_events (a : Word) (s : State) :
    (latchAddress a s).events = (latchTrace a).reverse ++ s.events := rfl

theorem readWord_events (s : State) :
    (readWord s).2.events = (readTrace (readWord s).1).reverse ++ s.events := rfl

theorem writeWord_events (w : Half) (s : State) :
    (writeWord w s).events = (writeTrace w).reverse ++ s.events := rfl

@[simp] theorem latchAddress_trace (a : Word) (s : State) :
    (latchAddress a s).trace = s.trace ++ latchTrace a := trace_of_events (latchAddress_events a s)

@[simp] theorem readWord_trace (s : State) :
    (readWord s).2.trace = s.trace ++ readTrace (readWord s).1 := trace_of_events (readWord_events s)

@[simp] theorem writeWord_trace (w : Half) (s : State) :
    (writeWord w s).trace = s.trace ++ writeTrace w := trace_of_events (writeWord_events w s)

/-! ### What a bus operation keeps -/

/-- Every field but the pins, the environment and the trace is as before; the trace has grown; the
environment has the same ROM (R83), and its memories are canonical if they were. -/
structure Keeps (s t : State) : Prop where
  cfg : t.cfg = s.cfg
  inputs : t.inputs = s.inputs
  launched : t.launched = s.launched
  opState : t.opState = s.opState
  rstAsserted : t.rstAsserted = s.rstAsserted
  result : t.result = s.result
  fsActive : t.fsActive = s.fsActive
  fsBlock : t.fsBlock = s.fsBlock
  fsBitmap : t.fsBitmap = s.fsBitmap
  blkBuf : t.blkBuf = s.blkBuf
  eepSize : t.eepSize = s.eepSize
  grows : ∃ es, t.events = es ++ s.events
  env : s.env.wf = true → t.env.wf = true
  rom : t.env.rom = s.env.rom

theorem Keeps.refl (s : State) : Keeps s s :=
  ⟨rfl, rfl, rfl, rfl, rfl, rfl, rfl, rfl, rfl, rfl, rfl, ⟨[], rfl⟩, id, rfl⟩

theorem Keeps.trans {s t u : State} (h : Keeps s t) (k : Keeps t u) : Keeps s u where
  cfg := k.cfg.trans h.cfg
  inputs := k.inputs.trans h.inputs
  launched := k.launched.trans h.launched
  opState := k.opState.trans h.opState
  rstAsserted := k.rstAsserted.trans h.rstAsserted
  result := k.result.trans h.result
  fsActive := k.fsActive.trans h.fsActive
  fsBlock := k.fsBlock.trans h.fsBlock
  fsBitmap := k.fsBitmap.trans h.fsBitmap
  blkBuf := k.blkBuf.trans h.blkBuf
  eepSize := k.eepSize.trans h.eepSize
  grows := by
    obtain ⟨e1, h1⟩ := h.grows
    obtain ⟨e2, h2⟩ := k.grows
    exact ⟨e2 ++ e1, by rw [h2, h1, List.append_assoc]⟩
  env := fun w => k.env (h.env w)
  rom := k.rom.trans h.rom

/-! ### Sizes and counts in a `u32` -/

/-- A number that a `u32` holds is reported as it is. -/
theorem reported_eq {n : Nat} (h : n < 2 ^ 32) : reported n = BitVec.ofNat 32 n := if_pos h

@[simp] theorem reported_toNat (w : Word) : reported w.toNat = w := by simp [reported_eq w.isLt]

/-! ### The levels the cartridge has seen -/

@[simp] theorem lastLevel_nil (line : Line) : lastLevel line [] = none := rfl

@[simp] theorem lastLevel_cons (line : Line) (e : Event) (es : List Event) :
    lastLevel line (e :: es) = (e.levelOf line).or (lastLevel line es) := by
  simp only [lastLevel, List.findSome?_cons]
  cases e.levelOf line <;> rfl

/-- A line that the last event on it set to its pin level has been seen at that level. -/
theorem State.seenLevel_set {s : State} {line : Line} (h : lastLevel line s.events = some (s.level line))
    (new : Level) : s.seenLevel line new = s.level line := by simp [State.seenLevel, h]

/-- An event that sets a line high makes no edge where the line is high, or no event has set it low (R65). -/
theorem State.seenLevel_high {s : State} {line : Line}
    (h : s.level line = 1#1 ∨ lastLevel line s.events ≠ some 0#1) : s.seenLevel line 1#1 = 1#1 := by
  unfold State.seenLevel
  split
  · next e =>
    rcases h with h | h
    · exact h
    · rw [e] at h
      rcases BitVec.eq_zero_or_eq_one (s.level line) with h0 | h1
      · exact absurd (congrArg some h0) h
      · exact h1
  · rfl

/-! ### The environment keeps its memories canonical -/

theorem FlashChip.programmed_wf (c : Params) (p : Nat) {k : FlashChip} (h : k.array.wf = true) (n : Nat) :
    (FlashChip.programmed c p k n).wf = true := by
  induction n with
  | zero => exact h
  | succ n ih =>
    simp only [FlashChip.programmed]
    split
    · exact Memory.wf_write ih _ _
    · exact ih

@[simp] theorem FlashChip.drawBusy_array (seed : Nat) (ev : List Event) (k : FlashChip) :
    (k.drawBusy seed ev).array = k.array := by unfold FlashChip.drawBusy; split <;> rfl

@[simp] theorem FlashChip.drawBusy_pageBuf (seed : Nat) (ev : List Event) (k : FlashChip) :
    (k.drawBusy seed ev).pageBuf = k.pageBuf := by unfold FlashChip.drawBusy; split <;> rfl

@[simp] theorem FlashChip.drawPattern_array (c : Params) (seed : Nat) (ev : List Event) (k : FlashChip) :
    (k.drawPattern c seed ev).array = k.array := by unfold FlashChip.drawPattern; split <;> rfl

@[simp] theorem FlashChip.drawPattern_pageBuf (c : Params) (seed : Nat) (ev : List Event) (k : FlashChip) :
    (k.drawPattern c seed ev).pageBuf = k.pageBuf := by unfold FlashChip.drawPattern; split <;> rfl

/-- No command touches the page buffer. -/
@[simp] theorem FlashChip.command_pageBuf (c : Params) (seed : Nat) (ev : List Event) (kind : FlashKind)
    (p : Nat) (k : FlashChip) : (k.command c seed ev kind p).pageBuf = k.pageBuf := by
  cases kind <;> simp [FlashChip.command]

theorem FlashChip.command_array_wf (c : Params) (seed : Nat) (ev : List Event) (kind : FlashKind) (p : Nat)
    {k : FlashChip} (h : k.array.wf = true) : (k.command c seed ev kind p).array.wf = true := by
  cases kind <;> simp only [FlashChip.command, FlashChip.drawPattern_array, FlashChip.drawBusy_array] <;>
    try exact h
  split
  · exact Memory.wf_clearRange h _ _
  · exact h
  · exact FlashChip.programmed_wf c _ h _
  · exact h

theorem FlashChip.onWrite_wf (c : Params) (seed : Nat) (ev : List Event) (ca : Nat) (w : Half)
    {k : FlashChip} (h : k.pageBuf.wf = true ∧ k.array.wf = true) :
    (k.onWrite c seed ev ca w).pageBuf.wf = true ∧ (k.onWrite c seed ev ca w).array.wf = true := by
  unfold FlashChip.onWrite
  split
  · exact h
  · split
    · split
      · exact h
      · dsimp only
        split
        · exact h
        · exact ⟨by simpa using h.1, FlashChip.command_array_wf c seed ev _ _ h.2⟩
    · split
      · refine ⟨?_, h.2⟩
        dsimp only
        split
        · exact Memory.wf_write (Memory.wf_write h.1 _ _) _ _
        · exact Memory.wf_write h.1 _ _
      · exact h

theorem FlashChip.afterRead_same (c : Params) (seed : Nat) (ev : List Event) (ca : Nat) (k : FlashChip) :
    (k.afterRead c seed ev ca).pageBuf = k.pageBuf ∧ (k.afterRead c seed ev ca).array = k.array := by
  unfold FlashChip.afterRead
  split
  · exact ⟨rfl, rfl⟩
  · split <;> simp
  · split
    · exact ⟨rfl, rfl⟩
    · split <;> exact ⟨rfl, rfl⟩

theorem Cart.onWrite_wf (c : Params) (seed : Nat) (ev : List Event) (ca : Nat) (w : Half) {k : Cart}
    (h : k.save.wf = true) : (k.onWrite c seed ev ca w).save.wf = true := by
  unfold Cart.onWrite
  split
  · exact h
  · cases hs : k.save with
    | none => simpa [hs] using h
    | eep4k img => simpa [hs] using h
    | eep16k img => simpa [hs] using h
    | sram img =>
      have hi : img.wf = true := by simpa [hs, Save.wf] using h
      dsimp only
      split
      · simp only [Save.wf]
        split
        · exact Memory.wf_write (Memory.wf_write hi _ _) _ _
        · exact Memory.wf_write hi _ _
      · simpa [hs, Save.wf] using hi
    | flash chip =>
      have hc : chip.pageBuf.wf = true ∧ chip.array.wf = true := by simpa [hs, Save.wf] using h
      have := FlashChip.onWrite_wf c seed ev ca w hc
      simp only [Save.wf, Bool.and_eq_true]
      exact this

@[simp] theorem Cart.onWrite_rom (c : Params) (seed : Nat) (ev : List Event) (ca : Nat) (w : Half) (k : Cart) :
    (k.onWrite c seed ev ca w).rom = k.rom := by
  unfold Cart.onWrite
  split
  · rfl
  · cases k.save <;> (dsimp only; try rfl)
    split <;> rfl

@[simp] theorem Cart.afterRead_rom (c : Params) (seed : Nat) (ev : List Event) (ca : Nat) (k : Cart) :
    (k.afterRead c seed ev ca).rom = k.rom := by unfold Cart.afterRead; split <;> rfl

@[simp] theorem Cart.onLatch_rom (c : Params) (ca : Nat) (k : Cart) : (k.onLatch c ca).rom = k.rom := by
  unfold Cart.onLatch; split <;> rfl

@[simp] theorem Cart.inReset_rom (fp : Option Nat) (k : Cart) : (k.inReset fp).rom = k.rom := by
  unfold Cart.inReset; split <;> rfl

/-- A read pulse changes no contents of the cartridge (R73, R74). -/
@[simp] theorem Cart.afterRead_image (c : Params) (seed : Nat) (ev : List Event) (ca : Nat) (k : Cart) :
    (k.afterRead c seed ev ca).save.image = k.save.image := by
  unfold Cart.afterRead
  split
  · next chip h => simp [Save.image, h, (FlashChip.afterRead_same c seed ev ca chip).2]
  all_goals rfl

/-- A latch changes no contents of the cartridge. -/
@[simp] theorem Cart.onLatch_image (c : Params) (ca : Nat) (k : Cart) :
    (k.onLatch c ca).save.image = k.save.image := by
  unfold Cart.onLatch
  split
  · next chip h => simp [Save.image, h, FlashChip.onLatch]
  all_goals rfl

theorem Cart.afterRead_wf (c : Params) (seed : Nat) (ev : List Event) (ca : Nat) {k : Cart}
    (h : k.save.wf = true) : (k.afterRead c seed ev ca).save.wf = true := by
  unfold Cart.afterRead
  split
  · next chip hs =>
    obtain ⟨e1, e2⟩ := FlashChip.afterRead_same c seed ev ca chip
    simp only [hs, Save.wf, e1, e2] at h ⊢
    exact h
  all_goals exact h

theorem Cart.onLatch_wf (c : Params) (ca : Nat) {k : Cart} (h : k.save.wf = true) :
    (k.onLatch c ca).save.wf = true := by
  unfold Cart.onLatch
  split
  · next chip hs => simpa [hs, Save.wf, FlashChip.onLatch] using h
  all_goals exact h

theorem Cart.inReset_wf (fp : Option Nat) {k : Cart} (h : k.save.wf = true) :
    (k.inReset fp).save.wf = true := by
  unfold Cart.inReset
  split
  · next chip hs => simpa [hs, Save.wf] using h
  all_goals exact h

/-- Replacing the cartridge by one with the same ROM and canonical contents keeps the environment's form. -/
theorem Env.mapCart_wf {f : Cart → Cart} {e : Env} (hr : ∀ k, (f k).rom = k.rom)
    (hs : ∀ k : Cart, k.save.wf = true → (f k).save.wf = true) (h : e.wf = true) :
    (e.mapCart f).wf = true := by
  obtain ⟨ca, seed, body⟩ := e
  cases body with
  | oracle ws rs => rfl
  | cartridge k =>
    simp only [Env.wf, Env.mapCart, Bool.and_eq_true] at h ⊢
    rw [hr k]
    exact ⟨h.1, hs k h.2⟩

theorem Env.wf_ca (e : Env) (a : Word) : ({ e with ca := a } : Env).wf = e.wf := rfl

@[simp] theorem Cart.powerOn_rom (k : Cart) : k.powerOn.rom = k.rom := by
  unfold Cart.powerOn; split <;> rfl

/-- Power-on keeps the saved contents (R86). -/
@[simp] theorem Cart.powerOn_image (k : Cart) : k.powerOn.save.image = k.save.image := by
  unfold Cart.powerOn
  split
  · next chip h => simp [Save.image, h, FlashChip.powerOn]
  all_goals rfl

theorem Cart.powerOn_wf {k : Cart} (h : k.save.wf = true) : k.powerOn.save.wf = true := by
  unfold Cart.powerOn
  split
  · next chip hs => simpa [hs, Save.wf, FlashChip.powerOn] using h
  all_goals exact h

theorem Env.heldInReset_wf (ev : List Event) {e : Env} (h : e.wf = true) : (e.heldInReset ev).wf = true :=
  Env.mapCart_wf (Cart.inReset_rom _) (fun _ => Cart.inReset_wf _) h

/-- An inserted cartridge's memories are in canonical form if they were. -/
theorem Env.inserted_wf (rst : Bool) (ev : List Event) {e : Env} (h : e.wf = true) :
    (e.inserted rst ev).wf = true := by
  have h1 : (e.mapCart Cart.powerOn).wf = true := Env.mapCart_wf Cart.powerOn_rom (fun _ => Cart.powerOn_wf) h
  unfold Env.inserted
  split
  · exact Env.heldInReset_wf ev h1
  · exact h1

theorem Env.onCtrl_wf (c : Params) (rst : Bool) (ev : List Event) (ad out : Half) (line : Line)
    (old new : Level) {e : Env} (h : e.wf = true) :
    (e.onCtrl c rst ev ad out line old new).wf = true := by
  unfold Env.onCtrl
  split
  · exact Env.heldInReset_wf ev h
  · cases line <;> dsimp only
    · split
      · exact Env.mapCart_wf (Cart.onWrite_rom c _ _ _ _) (fun _ => Cart.onWrite_wf c _ _ _ _) h
      · exact h
    · split
      · exact Env.mapCart_wf (Cart.afterRead_rom c _ _ _) (fun _ => Cart.afterRead_wf c _ _ _) h
      · exact h
    · split <;> exact h
    · split
      · exact Env.mapCart_wf (Cart.onLatch_rom c _) (fun _ => Cart.onLatch_wf c _) h
      · exact h
    · exact h

theorem Env.afterSample_wf {e : Env} (h : e.wf = true) : e.afterSample.wf = true := by
  obtain ⟨ca, seed, body⟩ := e
  cases body with
  | oracle ws rs => cases ws <;> rfl
  | cartridge k => exact h

theorem eepromAnswer_wf (c : Params) (type : Byte) (n : Nat) {img : Memory} (tx : List Byte)
    (h : img.wf = true) : (eepromAnswer c type n img tx).2.wf = true := by
  unfold eepromAnswer
  split
  · exact h
  · split <;> exact h
  · split
    · split
      · exact h
      · split
        · exact Memory.wf_writeRange h _ _
        · exact h
    · exact h

theorem Env.joy_wf (c : Params) (ev : List Event) (tx : List Byte) {e : Env} (h : e.wf = true) :
    (e.joy c ev tx).2.wf = true := by
  obtain ⟨ca, seed, body⟩ := e
  cases body with
  | oracle ws rs => cases rs <;> rfl
  | cartridge k =>
    obtain ⟨rom, save⟩ := k
    simp only [Env.wf, Bool.and_eq_true] at h
    cases rom with
    | none => cases save <;> simpa [Env.joy, Cart.joy, Env.wf] using h.2
    | some rom =>
      cases save with
      | eep4k img =>
        simp only [Env.joy, Cart.joy, Env.wf, Bool.and_eq_true]
        exact ⟨h.1, eepromAnswer_wf c _ _ tx h.2⟩
      | eep16k img =>
        simp only [Env.joy, Cart.joy, Env.wf, Bool.and_eq_true]
        exact ⟨h.1, eepromAnswer_wf c _ _ tx h.2⟩
      | none => simpa [Env.joy, Cart.joy, Env.wf] using h
      | sram img => simpa [Env.joy, Cart.joy, Env.wf] using h
      | flash chip => simpa [Env.joy, Cart.joy, Env.wf] using h

/-! ### Nothing changes the ROM -/

theorem Env.mapCart_rom {f : Cart → Cart} (hf : ∀ k, (f k).rom = k.rom) (e : Env) :
    (e.mapCart f).rom = e.rom := by
  obtain ⟨ca, seed, body⟩ := e
  cases body with
  | oracle ws rs => rfl
  | cartridge k => exact hf k

theorem Env.heldInReset_rom (ev : List Event) (e : Env) : (e.heldInReset ev).rom = e.rom :=
  Env.mapCart_rom (Cart.inReset_rom _) e

theorem Env.inserted_rom (rst : Bool) (ev : List Event) (e : Env) : (e.inserted rst ev).rom = e.rom := by
  unfold Env.inserted
  split
  · exact (Env.heldInReset_rom ev _).trans (Env.mapCart_rom Cart.powerOn_rom e)
  · exact Env.mapCart_rom Cart.powerOn_rom e

/-- The size check of an environment's ROM looks at nothing else. -/
theorem Env.romSized_of_rom {c : Params} {e f : Env} (h : f.rom = e.rom) : f.romSized c = e.romSized c := by
  unfold Env.romSized; rw [h]

/-- No control event changes the ROM (R83). -/
theorem Env.onCtrl_rom (c : Params) (rst : Bool) (ev : List Event) (ad out : Half) (line : Line)
    (old new : Level) (e : Env) : (e.onCtrl c rst ev ad out line old new).rom = e.rom := by
  unfold Env.onCtrl
  split
  · exact Env.heldInReset_rom ev e
  · cases line <;> dsimp only
    · split
      · exact Env.mapCart_rom (Cart.onWrite_rom c _ _ _ _) e
      · rfl
    · split
      · exact Env.mapCart_rom (Cart.afterRead_rom c _ _ _) e
      · rfl
    · split <;> rfl
    · split
      · exact Env.mapCart_rom (Cart.onLatch_rom c _) e
      · rfl

theorem Env.afterSample_rom (e : Env) : e.afterSample.rom = e.rom := by
  obtain ⟨ca, seed, body⟩ := e
  cases body with
  | oracle ws rs => cases ws <;> rfl
  | cartridge k => rfl

theorem Env.joy_rom (c : Params) (ev : List Event) (tx : List Byte) (e : Env) : (e.joy c ev tx).2.rom = e.rom := by
  obtain ⟨ca, seed, body⟩ := e
  cases body with
  | oracle ws rs => cases rs <;> rfl
  | cartridge k =>
    obtain ⟨rom, save⟩ := k
    cases rom <;> cases save <;> rfl

/-! ### The primitives keep the block's state -/

theorem setDir_keeps (out : Bool) (s : State) : Keeps s (setDir out s) :=
  ⟨rfl, rfl, rfl, rfl, rfl, rfl, rfl, rfl, rfl, rfl, rfl, ⟨[_], rfl⟩, id, rfl⟩

theorem drive_keeps (v : Half) (s : State) : Keeps s (drive v s) :=
  ⟨rfl, rfl, rfl, rfl, rfl, rfl, rfl, rfl, rfl, rfl, rfl, ⟨[_], rfl⟩, id, rfl⟩

theorem ctrl_keeps (line : Line) (level : Level) (s : State) : Keeps s (ctrl line level s) :=
  ⟨rfl, rfl, rfl, rfl, rfl, rfl, rfl, rfl, rfl, rfl, rfl, ⟨[_], rfl⟩, fun h => Env.onCtrl_wf _ _ _ _ _ _ _ _ h,
    Env.onCtrl_rom _ _ _ _ _ _ _ _ _⟩

theorem delay_keeps (kind : DelayKind) (s : State) : Keeps s (delay kind s) :=
  ⟨rfl, rfl, rfl, rfl, rfl, rfl, rfl, rfl, rfl, rfl, rfl, ⟨[_], rfl⟩, id, rfl⟩

theorem sleep_keeps (ms : Nat) (s : State) : Keeps s (sleep ms s) :=
  ⟨rfl, rfl, rfl, rfl, rfl, rfl, rfl, rfl, rfl, rfl, rfl, ⟨[_], rfl⟩, id, rfl⟩

theorem yieldPoint_keeps (s : State) : Keeps s (yieldPoint s) :=
  ⟨rfl, rfl, rfl, rfl, rfl, rfl, rfl, rfl, rfl, rfl, rfl, ⟨[_], rfl⟩, id, rfl⟩

theorem sample_keeps (s : State) : Keeps s (sample s).2 :=
  ⟨rfl, rfl, rfl, rfl, rfl, rfl, rfl, rfl, rfl, rfl, rfl, ⟨[_], rfl⟩, Env.afterSample_wf,
    Env.afterSample_rom _⟩

theorem joyXfer_keeps (tx : List Byte) (n : Nat) (s : State) : Keeps s (joyXfer tx n s).2 :=
  ⟨rfl, rfl, rfl, rfl, rfl, rfl, rfl, rfl, rfl, rfl, rfl, ⟨[_], rfl⟩, Env.joy_wf _ _ _,
    Env.joy_rom _ _ _ _⟩

theorem latchAddress_keeps (a : Word) (s : State) : Keeps s (latchAddress a s) := by
  unfold latchAddress
  refine Keeps.trans ?_ (setDir_keeps _ _)
  refine Keeps.trans ?_ (delay_keeps _ _)
  refine Keeps.trans ?_ (ctrl_keeps _ _ _)
  refine Keeps.trans ?_ (delay_keeps _ _)
  refine Keeps.trans ?_ (drive_keeps _ _)
  refine Keeps.trans ?_ (delay_keeps _ _)
  refine Keeps.trans ?_ (ctrl_keeps _ _ _)
  refine Keeps.trans ?_ (delay_keeps _ _)
  refine Keeps.trans ?_ (drive_keeps _ _)
  refine Keeps.trans ?_ (setDir_keeps _ _)
  refine Keeps.trans ?_ (ctrl_keeps _ _ _)
  refine Keeps.trans ?_ (ctrl_keeps _ _ _)
  refine Keeps.trans ?_ (ctrl_keeps _ _ _)
  exact ctrl_keeps _ _ _

theorem readWord_keeps (s : State) : Keeps s (readWord s).2 := by
  unfold readWord
  refine Keeps.trans ?_ (delay_keeps _ _)
  refine Keeps.trans ?_ (ctrl_keeps _ _ _)
  refine Keeps.trans ?_ (sample_keeps _)
  refine Keeps.trans ?_ (delay_keeps _ _)
  exact ctrl_keeps _ _ _

theorem writeWord_keeps (w : Half) (s : State) : Keeps s (writeWord w s) := by
  unfold writeWord
  refine Keeps.trans ?_ (setDir_keeps _ _)
  refine Keeps.trans ?_ (ctrl_keeps _ _ _)
  refine Keeps.trans ?_ (delay_keeps _ _)
  refine Keeps.trans ?_ (ctrl_keeps _ _ _)
  refine Keeps.trans ?_ (drive_keeps _ _)
  exact setDir_keeps _ _

/-! ### The pins a bus cycle leaves -/

/-- Once the bus is released, the operation leaves it released, with the serial line and the ALE strobes as
they are, and notes no contention. -/
structure Calm (s t : State) : Prop where
  released : busReleased s → busReleased t
  quiet : busReleased s → t.contention = s.contention

theorem Calm.refl (s : State) : Calm s s := ⟨id, fun _ => rfl⟩

theorem Calm.trans {s t u : State} (h : Calm s t) (k : Calm t u) : Calm s u :=
  ⟨fun r => k.released (h.released r), fun r => (k.quiet (h.released r)).trans (h.quiet r)⟩

theorem line_beq (a b : Line) : (a == b) = decide (a = b) := rfl

/-- A latch cycle releases the bus, whatever the pins were, and notes no contention (R133, R326). -/
theorem latchAddress_released (a : Word) (s : State) :
    busReleased (latchAddress a s) ∧ (latchAddress a s).contention = s.contention ∧
    (latchAddress a s).aleh = 0#1 ∧ (latchAddress a s).alel = 0#1 ∧ (latchAddress a s).joy = s.joy ∧
    (latchAddress a s).gpioOut = lo16 a := by
  simp [latchAddress, busReleased, line_beq]

theorem latchAddress_calm (a : Word) (s : State) : Calm s (latchAddress a s) :=
  ⟨fun _ => (latchAddress_released a s).1, fun _ => (latchAddress_released a s).2.1⟩

/-- A read cycle on a released bus leaves every pin as it was (R134). -/
theorem readWord_pins (s : State) (h : busReleased s) :
    busReleased (readWord s).2 ∧ (readWord s).2.contention = s.contention ∧
    (readWord s).2.aleh = s.aleh ∧ (readWord s).2.alel = s.alel ∧ (readWord s).2.joy = s.joy ∧
    (readWord s).2.gpioOut = s.gpioOut := by
  obtain ⟨h1, h2, h3, h4⟩ := h
  simp [readWord, busReleased, h1, h2, h3]

theorem readWord_calm (s : State) : Calm s (readWord s).2 :=
  ⟨fun h => (readWord_pins s h).1, fun h => (readWord_pins s h).2.1⟩

/-- A write cycle releases the bus; with `RD` high it notes no contention (R135, R326). -/
theorem writeWord_pins (w : Half) (s : State) (h : s.rd = 1#1) :
    busReleased (writeWord w s) ∧ (writeWord w s).contention = s.contention ∧
    (writeWord w s).aleh = s.aleh ∧ (writeWord w s).alel = s.alel ∧ (writeWord w s).joy = s.joy ∧
    (writeWord w s).gpioOut = w := by
  simp [writeWord, busReleased, h, line_beq]

theorem writeWord_calm (w : Half) (s : State) : Calm s (writeWord w s) :=
  ⟨fun h => (writeWord_pins w s h.2.2.2).1, fun h => (writeWord_pins w s h.2.2.2).2.1⟩

/-! ### Bursts -/

/-- A run of read cycles samples `n` words; its bytes and its trace are those words' (R13, R60). -/
theorem readWords_spec (n : Nat) (s : State) :
    ∃ ws : List Half, ws.length = n ∧ (readWords n s).1 = bytesOfWords ws ∧
      (readWords n s).2.trace = s.trace ++ ws.flatMap readTrace := by
  induction n generalizing s with
  | zero => exact ⟨[], rfl, rfl, by simp [readWords]⟩
  | succ n ih =>
    obtain ⟨ws, h1, h2, h3⟩ := ih (readWord s).2
    refine ⟨(readWord s).1 :: ws, by simp [h1], ?_, ?_⟩
    · simp [readWords, h2, bytesOfWords]
    · simp [readWords, h3]

theorem readWords_keeps (n : Nat) (s : State) : Keeps s (readWords n s).2 := by
  induction n generalizing s with
  | zero => exact Keeps.refl s
  | succ n ih => exact (readWord_keeps s).trans (ih _)

theorem readWords_calm (n : Nat) (s : State) : Calm s (readWords n s).2 := by
  induction n generalizing s with
  | zero => exact Calm.refl s
  | succ n ih => exact (readWord_calm s).trans (ih _)

/-- A run of write cycles writes the words of its bytes (R13, R60). -/
theorem writeWords_trace (v : List Byte) (s : State) :
    (writeWords v s).trace = s.trace ++ (wordsOfBytes v).flatMap writeTrace := by
  induction v, s using writeWords.induct with
  | case1 b0 b1 bs s ih => simp [writeWords, wordsOfBytes, ih]
  | case2 b s => simp [writeWords, wordsOfBytes]
  | case3 s => simp [writeWords, wordsOfBytes]

theorem writeWords_keeps (v : List Byte) (s : State) : Keeps s (writeWords v s) := by
  induction v, s using writeWords.induct with
  | case1 b0 b1 bs s ih => exact (writeWord_keeps _ s).trans ih
  | case2 b s => exact Keeps.refl s
  | case3 s => exact Keeps.refl s

theorem writeWords_calm (v : List Byte) (s : State) : Calm s (writeWords v s) := by
  induction v, s using writeWords.induct with
  | case1 b0 b1 bs s ih => exact (writeWord_calm _ s).trans ih
  | case2 b s => exact Calm.refl s
  | case3 s => exact Calm.refl s

/-- `MemRead` samples `n / 2` words after one latch (R13). -/
theorem memRead_spec (addr n : Nat) (s : State) :
    ∃ ws : List Half, ws.length = n / 2 ∧ (memRead addr n s).1 = bytesOfWords ws ∧
      (memRead addr n s).2.trace = s.trace ++ burstRead addr ws := by
  obtain ⟨ws, h1, h2, h3⟩ := readWords_spec (n / 2) (latchAddress (BitVec.ofNat 32 addr) s)
  exact ⟨ws, h1, h2, by simp [memRead, h3, burstRead]⟩

theorem memRead_keeps (addr n : Nat) (s : State) : Keeps s (memRead addr n s).2 :=
  (latchAddress_keeps _ s).trans (readWords_keeps _ _)

/-- After `MemRead` the bus is released, whatever the pins were, and no contention is noted. -/
theorem memRead_released (addr n : Nat) (s : State) :
    busReleased (memRead addr n s).2 ∧ (memRead addr n s).2.contention = s.contention := by
  have l := latchAddress_released (BitVec.ofNat 32 addr) s
  have c := readWords_calm (n / 2) (latchAddress (BitVec.ofNat 32 addr) s)
  exact ⟨c.released l.1, (c.quiet l.1).trans l.2.1⟩

/-- `MemWrite` writes the words of its bytes after one latch (R13). -/
theorem memWrite_trace (addr : Nat) (v : List Byte) (s : State) :
    (memWrite addr v s).trace = s.trace ++ burstWrite addr (wordsOfBytes v) := by
  simp [memWrite, writeWords_trace, burstWrite]

theorem memWrite_keeps (addr : Nat) (v : List Byte) (s : State) : Keeps s (memWrite addr v s) :=
  (latchAddress_keeps _ s).trans (writeWords_keeps _ _)

/-- After `MemWrite` the bus is released, whatever the pins were, and no contention is noted. -/
theorem memWrite_released (addr : Nat) (v : List Byte) (s : State) :
    busReleased (memWrite addr v s) ∧ (memWrite addr v s).contention = s.contention := by
  have l := latchAddress_released (BitVec.ofNat 32 addr) s
  have c := writeWords_calm v (latchAddress (BitVec.ofNat 32 addr) s)
  exact ⟨c.released l.1, (c.quiet l.1).trans l.2.1⟩

@[simp] theorem halfBytes_length (w : Half) : (halfBytes w).length = 2 := rfl

/-- A run of words has twice as many bytes. -/
@[simp] theorem bytesOfWords_length (ws : List Half) : (bytesOfWords ws).length = 2 * ws.length := by
  induction ws with
  | nil => rfl
  | cons w ws ih =>
    simp only [bytesOfWords, List.flatMap_cons, List.length_append, halfBytes_length, List.length_cons] at ih ⊢
    omega

/-! ### The end of an operation -/

/-- The state in which an operation ends: its result written, the block idle. -/
def endState (st : Status) (v : Word) (d : List Byte) (s : State) : State :=
  { s with result := { status := st, value := v, data := d }, opState := .idle }

@[simp] theorem endState_cfg (st : Status) (v : Word) (d : List Byte) (s : State) : (endState st v d s).cfg = s.cfg := rfl
@[simp] theorem endState_inputs (st : Status) (v : Word) (d : List Byte) (s : State) : (endState st v d s).inputs = s.inputs := rfl
@[simp] theorem endState_launched (st : Status) (v : Word) (d : List Byte) (s : State) : (endState st v d s).launched = s.launched := rfl
@[simp] theorem endState_gpioDir (st : Status) (v : Word) (d : List Byte) (s : State) : (endState st v d s).gpioDir = s.gpioDir := rfl
@[simp] theorem endState_gpioOut (st : Status) (v : Word) (d : List Byte) (s : State) : (endState st v d s).gpioOut = s.gpioOut := rfl
@[simp] theorem endState_gpioPull (st : Status) (v : Word) (d : List Byte) (s : State) : (endState st v d s).gpioPull = s.gpioPull := rfl
@[simp] theorem endState_wr (st : Status) (v : Word) (d : List Byte) (s : State) : (endState st v d s).wr = s.wr := rfl
@[simp] theorem endState_rd (st : Status) (v : Word) (d : List Byte) (s : State) : (endState st v d s).rd = s.rd := rfl
@[simp] theorem endState_aleh (st : Status) (v : Word) (d : List Byte) (s : State) : (endState st v d s).aleh = s.aleh := rfl
@[simp] theorem endState_alel (st : Status) (v : Word) (d : List Byte) (s : State) : (endState st v d s).alel = s.alel := rfl
@[simp] theorem endState_rstAsserted (st : Status) (v : Word) (d : List Byte) (s : State) : (endState st v d s).rstAsserted = s.rstAsserted := rfl
@[simp] theorem endState_joy (st : Status) (v : Word) (d : List Byte) (s : State) : (endState st v d s).joy = s.joy := rfl
@[simp] theorem endState_fsActive (st : Status) (v : Word) (d : List Byte) (s : State) : (endState st v d s).fsActive = s.fsActive := rfl
@[simp] theorem endState_fsBlock (st : Status) (v : Word) (d : List Byte) (s : State) : (endState st v d s).fsBlock = s.fsBlock := rfl
@[simp] theorem endState_fsBitmap (st : Status) (v : Word) (d : List Byte) (s : State) : (endState st v d s).fsBitmap = s.fsBitmap := rfl
@[simp] theorem endState_blkBuf (st : Status) (v : Word) (d : List Byte) (s : State) : (endState st v d s).blkBuf = s.blkBuf := rfl
@[simp] theorem endState_eepSize (st : Status) (v : Word) (d : List Byte) (s : State) : (endState st v d s).eepSize = s.eepSize := rfl
@[simp] theorem endState_events (st : Status) (v : Word) (d : List Byte) (s : State) : (endState st v d s).events = s.events := rfl
@[simp] theorem endState_contention (st : Status) (v : Word) (d : List Byte) (s : State) : (endState st v d s).contention = s.contention := rfl
@[simp] theorem endState_env (st : Status) (v : Word) (d : List Byte) (s : State) : (endState st v d s).env = s.env := rfl
@[simp] theorem endState_opState (st : Status) (v : Word) (d : List Byte) (s : State) : (endState st v d s).opState = .idle := rfl
@[simp] theorem endState_result (st : Status) (v : Word) (d : List Byte) (s : State) :
    (endState st v d s).result = { status := st, value := v, data := d } := rfl
@[simp] theorem endState_trace (st : Status) (v : Word) (d : List Byte) (s : State) : (endState st v d s).trace = s.trace := rfl

theorem endState_finished (st : Status) (v : Word) (d : List Byte) (s : State) : finished (endState st v d s) st v d := ⟨rfl, rfl⟩

/-- An operation that ends without contention answers the next state with its result, idle (R14, R280). -/
theorem finish_next {s : State} (h : s.contention = false) (st : Status) (v : Word) (d : List Byte) :
    finish st v d s = .next (endState st v d s) := by
  simp [finish, conclude, h, endState]

/-- A `raise` is such an end (R280). -/
theorem raise_next {s : State} (h : s.contention = false) (cause : Cause) :
    raise cause s = .next (endState cause.status cause.value [] s) := finish_next h _ _ _

/-- An operation that kept the block's state leaves it as it was, its result aside. -/
theorem Keeps.sameBlock {s t : State} (k : Keeps s t) (hj : t.joy = s.joy) (hc : t.contention = false)
    (st : Status) (v : Word) (d : List Byte) : sameBlock s (endState st v d t) :=
  ⟨⟨k.cfg, k.inputs, k.launched, hc⟩,
    ⟨k.fsActive, k.fsBlock, k.fsBitmap, fun a => by rw [endState_blkBuf, k.blkBuf]⟩,
    k.eepSize, k.rstAsserted, hj⟩

/-- The only other end is the contention fault (R300). -/
theorem finish_fault {s : State} (h : s.contention = true) (st : Status) (v : Word) (d : List Byte) :
    finish st v d s = .fault .busContention := by
  simp [finish, conclude, h]

end Sys2Proof.Machine
end

