-- ==== Sys2Proof/Laws/Families.lean ====
section
/-! SUPPORT. What each body that several operations share can do, said once for every environment: the events
it emits and how it ends, as the relations of Safety.lean, what it keeps, and the pins it leaves. -/

namespace Sys2Proof.Machine

/-! ### Contents of the cartridge -/

/-- With `WR` high at entry, the operation leaves it high and changes nothing the cartridge holds. -/
def Reads (s t : State) : Prop := s.wr = 1#1 → t.wr = 1#1 ∧ sameContents s t

theorem Reads.refl (s : State) : Reads s s := fun h => ⟨h, rfl, fun _ => rfl⟩

theorem Reads.trans {s t u : State} (h : Reads s t) (k : Reads t u) : Reads s u := by
  intro w
  obtain ⟨w1, r1, b1⟩ := h w
  obtain ⟨w2, r2, b2⟩ := k w1
  exact ⟨w2, r2.trans r1, fun a => (b2 a).trans (b1 a)⟩

theorem Reads.of_env {s t : State} (hw : t.wr = s.wr) (he : t.env = s.env) : Reads s t :=
  fun h => ⟨hw.trans h, by rw [he], fun a => by rw [he]⟩

theorem Env.rom_ca (e : Env) (a : Word) : ({ e with ca := a } : Env).rom = e.rom := rfl

theorem Env.saveByte_ca (e : Env) (a : Word) (x : Nat) : ({ e with ca := a } : Env).saveByte x = e.saveByte x := rfl

theorem Env.mapCart_saveByte {f : Cart → Cart} (hf : ∀ k, (f k).save.image = k.save.image) (e : Env) (x : Nat) :
    (e.mapCart f).saveByte x = e.saveByte x := by
  obtain ⟨ca, seed, body⟩ := e
  cases body with
  | oracle ws rs => rfl
  | cartridge k => simp [Env.mapCart, Env.saveByte, hf k]

@[simp] theorem Cart.inReset_image (fp : Option Nat) (k : Cart) :
    (k.inReset fp).save.image = k.save.image := by
  unfold Cart.inReset
  split
  · next chip h => simp [Save.image, h]
  all_goals rfl

/-- Contents survive reset (R95). -/
theorem Env.heldInReset_saveByte (ev : List Event) (e : Env) (x : Nat) :
    (e.heldInReset ev).saveByte x = e.saveByte x := Env.mapCart_saveByte (Cart.inReset_image _) e x

/-- An inserted cartridge holds what it held (R86, R95). -/
theorem Env.inserted_saveByte (rst : Bool) (ev : List Event) (e : Env) (x : Nat) :
    (e.inserted rst ev).saveByte x = e.saveByte x := by
  unfold Env.inserted
  split
  · exact (Env.heldInReset_saveByte ev _ x).trans (Env.mapCart_saveByte Cart.powerOn_image e x)
  · exact Env.mapCart_saveByte Cart.powerOn_image e x

/-- A control event that is no rising edge of `WR` changes no contents (R85). -/
theorem Env.onCtrl_saveByte (c : Params) (rst : Bool) (ev : List Event) (ad out : Half) (line : Line)
    (old new : Level) (h : ¬ (line = .wr ∧ old = 0#1 ∧ new = 1#1)) (e : Env) (x : Nat) :
    (e.onCtrl c rst ev ad out line old new).saveByte x = e.saveByte x := by
  unfold Env.onCtrl
  split
  · exact Env.heldInReset_saveByte ev e x
  · cases line <;> dsimp only
    · split
      · next hh => exact absurd ⟨rfl, hh⟩ h
      · rfl
    · split
      · exact Env.mapCart_saveByte (Cart.afterRead_image c _ _ _) e x
      · rfl
    · split <;> rfl
    · split
      · exact Env.mapCart_saveByte (Cart.onLatch_image c _) e x
      · rfl

theorem setDir_reads (out : Bool) (s : State) : Reads s (setDir out s) := Reads.of_env rfl rfl

theorem drive_reads (v : Half) (s : State) : Reads s (drive v s) := Reads.of_env rfl rfl

theorem delay_reads (kind : DelayKind) (s : State) : Reads s (delay kind s) := Reads.of_env rfl rfl

theorem sleep_reads (ms : Nat) (s : State) : Reads s (sleep ms s) := Reads.of_env rfl rfl

theorem yieldPoint_reads (s : State) : Reads s (yieldPoint s) := Reads.of_env rfl rfl

theorem ctrl_reads (line : Line) (level : Level) (h : line = .wr → level = 1#1) (s : State) :
    Reads s (ctrl line level s) := by
  intro w
  refine ⟨?_, Env.onCtrl_rom _ _ _ _ _ _ _ _ _, Env.onCtrl_saveByte _ _ _ _ _ _ _ _ ?_ _⟩
  · by_cases hl : line = .wr
    · simp [hl, h hl]
    · simp [hl, w]
  · rintro ⟨rfl, h0, h1⟩
    rw [h1, State.seenLevel_high (line := .wr) (.inl w)] at h0
    exact absurd h0 (by decide)

theorem sample_reads (s : State) : Reads s (sample s).2 := by
  intro w
  refine ⟨w, ?_, ?_⟩ <;> simp only [sample, Env.afterSample]
  · split <;> simp_all [Env.rom]
  · intro a
    split <;> simp_all [Env.saveByte]

theorem latchAddress_reads (a : Word) (s : State) : Reads s (latchAddress a s) := by
  unfold latchAddress
  refine Reads.trans ?_ (setDir_reads _ _)
  refine Reads.trans ?_ (delay_reads _ _)
  refine Reads.trans ?_ (ctrl_reads _ _ (by simp) _)
  refine Reads.trans ?_ (delay_reads _ _)
  refine Reads.trans ?_ (drive_reads _ _)
  refine Reads.trans ?_ (delay_reads _ _)
  refine Reads.trans ?_ (ctrl_reads _ _ (by simp) _)
  refine Reads.trans ?_ (delay_reads _ _)
  refine Reads.trans ?_ (drive_reads _ _)
  refine Reads.trans ?_ (setDir_reads _ _)
  refine Reads.trans ?_ (ctrl_reads _ _ (by simp) _)
  refine Reads.trans ?_ (ctrl_reads _ _ (by simp) _)
  refine Reads.trans ?_ (ctrl_reads _ _ (by simp) _)
  exact ctrl_reads _ _ (by simp) _

theorem readWord_reads (s : State) : Reads s (readWord s).2 := by
  unfold readWord
  refine Reads.trans ?_ (delay_reads _ _)
  refine Reads.trans ?_ (ctrl_reads _ _ (by simp) _)
  refine Reads.trans ?_ (sample_reads _)
  refine Reads.trans ?_ (delay_reads _ _)
  exact ctrl_reads _ _ (by simp) _

theorem readWords_reads (n : Nat) (s : State) : Reads s (readWords n s).2 := by
  induction n generalizing s with
  | zero => exact Reads.refl s
  | succ n ih => exact (readWord_reads s).trans (ih _)

theorem memRead_reads (addr n : Nat) (s : State) : Reads s (memRead addr n s).2 :=
  (latchAddress_reads _ s).trans (readWords_reads _ _)

/-! ### Operations that latch an address -/

/-- What an operation that latches an address keeps and leaves, whatever the pins were (R37, R326). -/
structure Cycle (s t : State) : Prop where
  keeps : Keeps s t
  joy : t.joy = s.joy
  contention : t.contention = s.contention
  settled : settled t

theorem Cycle.trans {s t u : State} (h : Cycle s t) (k : Cycle t u) : Cycle s u :=
  ⟨h.keeps.trans k.keeps, k.joy.trans h.joy, k.contention.trans h.contention, k.settled⟩

/-- What an operation does that starts on a settled bus. -/
def Settles (s t : State) : Prop := settled s → Cycle s t

theorem Settles.refl (s : State) : Settles s s := fun h => ⟨Keeps.refl s, rfl, rfl, h⟩

theorem Settles.trans {s t u : State} (h : Settles s t) (k : Settles t u) : Settles s u :=
  fun hs => (h hs).trans (k (h hs).settled)

theorem Cycle.then {s t u : State} (h : Cycle s t) (k : Settles t u) : Cycle s u := h.trans (k h.settled)

theorem latchAddress_cycle (a : Word) (s : State) : Cycle s (latchAddress a s) := by
  obtain ⟨h1, h2, h3, h4, h5, -⟩ := latchAddress_released a s
  exact ⟨latchAddress_keeps a s, h5, h2, h1, h3, h4⟩

theorem readWord_settles (s : State) : Settles s (readWord s).2 := by
  intro h
  obtain ⟨h1, h2, h3, h4, h5, -⟩ := readWord_pins s h.1
  exact ⟨readWord_keeps s, h5, h2, h1, h3.trans h.2.1, h4.trans h.2.2⟩

theorem writeWord_settles (w : Half) (s : State) : Settles s (writeWord w s) := by
  intro h
  obtain ⟨h1, h2, h3, h4, h5, -⟩ := writeWord_pins w s h.1.2.2.2
  exact ⟨writeWord_keeps w s, h5, h2, h1, h3.trans h.2.1, h4.trans h.2.2⟩

theorem sleep_settles (ms : Nat) (s : State) : Settles s (sleep ms s) :=
  fun h => ⟨sleep_keeps ms s, rfl, rfl, h⟩

theorem yieldPoint_settles (s : State) : Settles s (yieldPoint s) :=
  fun h => ⟨yieldPoint_keeps s, rfl, rfl, h⟩

theorem readWords_settles (n : Nat) (s : State) : Settles s (readWords n s).2 := by
  induction n generalizing s with
  | zero => exact Settles.refl s
  | succ n ih => exact (readWord_settles s).trans (ih _)

theorem writeWords_settles (v : List Byte) (s : State) : Settles s (writeWords v s) := by
  induction v, s using writeWords.induct with
  | case1 b0 b1 bs s ih => exact (writeWord_settles _ s).trans ih
  | case2 b s => exact Settles.refl s
  | case3 s => exact Settles.refl s

theorem memRead_cycle (addr n : Nat) (s : State) : Cycle s (memRead addr n s).2 :=
  (latchAddress_cycle _ s).then (readWords_settles _ _)

theorem memWrite_cycle (addr : Nat) (v : List Byte) (s : State) : Cycle s (memWrite addr v s) :=
  (latchAddress_cycle _ s).then (writeWords_settles _ _)

/-- The output latch after a `MemRead` holds the low half of the address (R133). -/
theorem memRead_gpioOut (addr n : Nat) (s : State) :
    (memRead addr n s).2.gpioOut = lo16 (BitVec.ofNat 32 addr) := by
  have key : ∀ (k : Nat) (u : State), busReleased u → (readWords k u).2.gpioOut = u.gpioOut := by
    intro k
    induction k with
    | zero => intro u _; rfl
    | succ k ih =>
      intro u hu
      have p := readWord_pins u hu
      exact (ih _ p.1).trans p.2.2.2.2.2
  have l := latchAddress_released (BitVec.ofNat 32 addr) s
  exact (key _ _ l.1).trans l.2.2.2.2.2

/-! ### ROM -/

/-- `rom_read`: the words of one burst, or nothing (R150). -/
theorem romRead_spec (a l : Nat) (h : l % 2 = 0) (s : State) :
    ∃ ws : List Half, ws.length = l / 2 ∧ (romRead a l s).1 = bytesOfWords ws ∧
      (romRead a l s).2.trace = s.trace ++ romTrace s.cfg a ws := by
  by_cases hl : l = 0
  · subst hl
    exact ⟨[], rfl, rfl, by simp [romRead, romTrace]⟩
  · obtain ⟨ws, h1, h2, h3⟩ := memRead_spec (s.cfg.romBase + a) l s
    refine ⟨ws, h1, by simp [romRead, hl, h2], ?_⟩
    have : ws ≠ [] := by rintro rfl; simp at h1; omega
    simp [romRead, hl, h3, romTrace, this]

theorem romRead_cycle (a l : Nat) (h : l ≠ 0) (s : State) : Cycle s (romRead a l s).2 := by
  simpa [romRead, h] using memRead_cycle (s.cfg.romBase + a) l s

theorem romRead_keeps (a l : Nat) (s : State) : Keeps s (romRead a l s).2 := by
  by_cases h : l = 0
  · simpa [romRead, h] using Keeps.refl s
  · exact (romRead_cycle a l h s).keeps

theorem romRead_reads (a l : Nat) (s : State) : Reads s (romRead a l s).2 := by
  by_cases h : l = 0
  · simpa [romRead, h] using Reads.refl s
  · simpa [romRead, h] using memRead_reads (s.cfg.romBase + a) l s

/-! ### SRAM -/

/-- `sram_read_words` over the pieces given: one `MemRead` a piece (R170). -/
theorem sramReadPieces_spec (ps : List (Nat × Nat)) (s : State) :
    ∃ wss : List (List Half), wss.length = ps.length ∧
      (∀ x ∈ ps.zip wss, x.2.length = (x.1.2 - x.1.1) / 2) ∧
      (sramReadPieces ps s).1 = wss.flatMap bytesOfWords ∧
      (sramReadPieces ps s).2.trace = s.trace ++ readPieces s.cfg.sramBase ps wss := by
  induction ps generalizing s with
  | nil => exact ⟨[], rfl, by simp, rfl, by simp [sramReadPieces, readPieces]⟩
  | cons p ps ih =>
    obtain ⟨p, q⟩ := p
    obtain ⟨ws, h1, h2, h3⟩ := memRead_spec (s.cfg.sramBase + p) (q - p) s
    obtain ⟨wss, k1, k2, k3, k4⟩ := ih (memRead (s.cfg.sramBase + p) (q - p) s).2
    have hc := (memRead_keeps (s.cfg.sramBase + p) (q - p) s).cfg
    refine ⟨ws :: wss, by simp [k1], ?_, ?_, ?_⟩
    · simp only [List.zip_cons_cons, List.mem_cons, forall_eq_or_imp]
      exact ⟨h1, k2⟩
    · simp [sramReadPieces, h2, k3]
    · simp only [hc] at k4
      simp [sramReadPieces, k4, h3, readPieces]

theorem sramReadPieces_settles (ps : List (Nat × Nat)) (s : State) : Settles s (sramReadPieces ps s).2 := by
  induction ps generalizing s with
  | nil => exact Settles.refl s
  | cons p ps ih => exact Settles.trans (fun _ => memRead_cycle _ _ s) (ih _)

theorem sramReadPieces_cycle (ps : List (Nat × Nat)) (h : ps ≠ []) (s : State) :
    Cycle s (sramReadPieces ps s).2 := by
  cases ps with
  | nil => exact absurd rfl h
  | cons p ps => exact (memRead_cycle _ _ s).then (sramReadPieces_settles ps _)

theorem sramReadPieces_reads (ps : List (Nat × Nat)) (s : State) : Reads s (sramReadPieces ps s).2 := by
  induction ps generalizing s with
  | nil => exact Reads.refl s
  | cons p ps ih => exact (memRead_reads _ _ s).trans (ih _)

/-- `sram_write_words` over the pieces given: one `MemWrite` a piece (R170). -/
theorem sramWritePieces_trace (o : Nat) (v : List Byte) (ps : List (Nat × Nat)) (s : State) :
    (sramWritePieces o v ps s).trace = s.trace ++ writePieces s.cfg.sramBase o v ps := by
  induction ps generalizing s with
  | nil => simp [sramWritePieces, writePieces]
  | cons p ps ih =>
    obtain ⟨p, q⟩ := p
    have hc := (memWrite_keeps (s.cfg.sramBase + p) (slice v (p - o) (q - o)) s).cfg
    simp [sramWritePieces, ih, hc, memWrite_trace, writePieces]

theorem sramWritePieces_settles (o : Nat) (v : List Byte) (ps : List (Nat × Nat)) (s : State) :
    Settles s (sramWritePieces o v ps s) := by
  induction ps generalizing s with
  | nil => exact Settles.refl s
  | cons p ps ih => exact Settles.trans (fun _ => memWrite_cycle _ _ s) (ih _)

theorem sramWritePieces_cycle (o : Nat) (v : List Byte) (ps : List (Nat × Nat)) (h : ps ≠ []) (s : State) :
    Cycle s (sramWritePieces o v ps s) := by
  cases ps with
  | nil => exact absurd rfl h
  | cons p ps => exact (memWrite_cycle _ _ s).then (sramWritePieces_settles o v ps _)

/-! ### Serial transactions -/

/-- What a serial operation keeps, and the pins it leaves: only the line's own may change (R190). -/
structure Serial (s t : State) : Prop where
  keeps : Keeps s t
  contention : t.contention = s.contention
  pins : t.gpioDir = s.gpioDir ∧ t.gpioOut = s.gpioOut ∧ t.gpioPull = s.gpioPull ∧ t.wr = s.wr ∧ t.rd = s.rd ∧
    t.aleh = s.aleh ∧ t.alel = s.alel

theorem Serial.refl (s : State) : Serial s s := ⟨Keeps.refl s, rfl, rfl, rfl, rfl, rfl, rfl, rfl, rfl⟩

theorem Serial.trans {s t u : State} (h : Serial s t) (k : Serial t u) : Serial s u := by
  obtain ⟨a1, a2, a3, a4, a5, a6, a7⟩ := h.pins
  obtain ⟨b1, b2, b3, b4, b5, b6, b7⟩ := k.pins
  exact ⟨h.keeps.trans k.keeps, k.contention.trans h.contention, b1.trans a1, b2.trans a2, b3.trans a3,
    b4.trans a4, b5.trans a5, b6.trans a6, b7.trans a7⟩

/-- A transaction is one event, and leaves the line released (R190). -/
theorem joyXfer_spec (tx : List Byte) (n : Nat) (s : State) :
    (joyXfer tx n s).2.trace = s.trace ++ [.joy tx (joyXfer tx n s).1] ∧ (joyXfer tx n s).2.joy = 1#1 ∧
    (∀ bs, (joyXfer tx n s).1 = some bs → bs.length = n) := by
  refine ⟨by simp [State.trace, joyXfer], rfl, ?_⟩
  intro bs h
  simp only [joyXfer, receive] at h
  split at h
  · cases h
  · split at h
    · cases h
    · cases h
      simp
      omega

theorem joyXfer_serial (tx : List Byte) (n : Nat) (s : State) : Serial s (joyXfer tx n s).2 :=
  ⟨joyXfer_keeps tx n s, rfl, rfl, rfl, rfl, rfl, rfl, rfl, rfl⟩

theorem eepReadBlock_serial (b : Nat) (s : State) : Serial s (eepReadBlock b s).2 := joyXfer_serial _ _ s

theorem eepWriteBlock_serial (b : Nat) (d : List Byte) (s : State) : Serial s (eepWriteBlock b d s).2 :=
  joyXfer_serial _ _ s

theorem eepReadBlock_trace (b : Nat) (s : State) :
    (eepReadBlock b s).2.trace = s.trace ++ [eepReadEvent s.cfg b (eepReadBlock b s).1] :=
  (joyXfer_spec _ _ s).1

theorem eepReadBlock_length (b : Nat) (s : State) (bs : List Byte) (h : (eepReadBlock b s).1 = some bs) :
    bs.length = s.cfg.eepromBlock := (joyXfer_spec _ _ s).2.2 bs h

/-- A block write: its event carries the answer, and the flag says whether there was one (R196). -/
theorem eepWriteBlock_spec (b : Nat) (d : List Byte) (s : State) :
    ∃ rx, (∀ bs, rx = some bs → bs.length = 1) ∧ (eepWriteBlock b d s).1 = rx.isSome ∧
      (eepWriteBlock b d s).2.trace = s.trace ++ [eepWriteEvent s.cfg b d rx] :=
  ⟨_, (joyXfer_spec _ _ s).2.2, rfl, (joyXfer_spec _ _ s).1⟩

/-- The attempts of R199 on one block. -/
theorem eepAttempts_spec (b : Nat) (merged : List Byte) (n : Nat) (s : State) :
    ∃ tries : List (Option (List Byte) × Option (List Byte)), tries.length ≤ n ∧
      (eepAttempts b merged n s).2.trace = s.trace ++ tries.flatMap (attemptTrace s.cfg b merged) ∧
      (∀ x ∈ tries.dropLast, ¬ attemptVerified merged x) ∧
      (((eepAttempts b merged n s).1 = true ∧
          ∃ x, tries.getLast? = some x ∧ attemptVerified merged x) ∨
       ((eepAttempts b merged n s).1 = false ∧ tries.length = n ∧ ∀ x ∈ tries, ¬ attemptVerified merged x)) := by
  induction n generalizing s with
  | zero => exact ⟨[], Nat.le_refl _, by simp [eepAttempts], by simp, .inr ⟨rfl, rfl, by simp⟩⟩
  | succ n ih =>
    obtain ⟨rx, -, hw, ht⟩ := eepWriteBlock_spec b merged s
    have hc := (eepWriteBlock_serial b merged s).keeps.cfg
    have hc2 := ((eepWriteBlock_serial b merged s).trans
      (eepReadBlock_serial b (eepWriteBlock b merged s).2)).keeps.cfg
    have hr := eepReadBlock_trace b (eepWriteBlock b merged s).2
    rw [hc, ht] at hr
    have key : attemptVerified merged (rx, (eepReadBlock b (eepWriteBlock b merged s).2).1) ↔
        ((eepWriteBlock b merged s).1 && (eepReadBlock b (eepWriteBlock b merged s).2).1 == some merged) = true := by
      simp [attemptVerified, hw, Option.ne_none_iff_isSome]
    by_cases hv : ((eepWriteBlock b merged s).1 &&
        (eepReadBlock b (eepWriteBlock b merged s).2).1 == some merged) = true
    · refine ⟨[(rx, (eepReadBlock b (eepWriteBlock b merged s).2).1)], by simp, ?_, by simp, .inl ⟨?_, ?_⟩⟩
      · simp only [eepAttempts, if_pos hv]
        simp [hr, attemptTrace]
      · simp only [eepAttempts, if_pos hv]
      · exact ⟨_, rfl, key.2 hv⟩
    · obtain ⟨tries, h1, h2, h3, h4⟩ := ih (eepReadBlock b (eepWriteBlock b merged s).2).2
      have hx : ¬ attemptVerified merged (rx, (eepReadBlock b (eepWriteBlock b merged s).2).1) :=
        fun h => hv (key.1 h)
      refine ⟨(rx, (eepReadBlock b (eepWriteBlock b merged s).2).1) :: tries, by simp; omega, ?_, ?_, ?_⟩
      · simp only [eepAttempts, if_neg hv]
        rw [h2, hr, hc2]
        simp [attemptTrace]
      · intro x hxm
        cases tries with
        | nil => simp at hxm
        | cons y ys =>
          simp only [List.dropLast_cons_cons, List.mem_cons] at hxm
          rcases hxm with rfl | hxm
          · exact hx
          · exact h3 x hxm
      · simp only [eepAttempts, if_neg hv]
        rcases h4 with ⟨e, x, hl, hv'⟩ | ⟨e, hl, hall⟩
        · refine .inl ⟨e, x, ?_, hv'⟩
          cases tries with
          | nil => simp at hl
          | cons y ys => simpa using hl
        · refine .inr ⟨e, by simp [hl], ?_⟩
          simp only [List.mem_cons, forall_eq_or_imp]
          exact ⟨hx, hall⟩

theorem eepAttempts_serial (b : Nat) (merged : List Byte) (n : Nat) (s : State) :
    Serial s (eepAttempts b merged n s).2 := by
  induction n generalizing s with
  | zero => exact Serial.refl s
  | succ n ih =>
    simp only [eepAttempts]
    split
    · exact (eepWriteBlock_serial _ _ s).trans (eepReadBlock_serial _ _)
    · exact ((eepWriteBlock_serial _ _ s).trans (eepReadBlock_serial _ _)).trans (ih _)

/-- The block loop of R199 makes the transactions that R199 says and ends as it says. -/
theorem eepWriteBlocks_run (a l : Nat) (d : List Byte) (bs : List Nat) (s : State) :
    ∃ es, (eepWriteBlocks a l d bs s).2.trace = s.trace ++ es ∧
      eepWriteRun s.cfg a l d bs es (eepWriteBlocks a l d bs s).1 := by
  induction bs generalizing s with
  | nil => exact ⟨[], by simp [eepWriteBlocks], rfl, rfl⟩
  | cons b bs ih =>
    have ht := eepReadBlock_trace b s
    have hl := eepReadBlock_length b s
    have hk := (eepReadBlock_serial b s).keeps.cfg
    cases hr : eepReadBlock b s with
    | mk r s1 =>
      rw [hr] at ht hl hk
      cases r with
      | none =>
        refine ⟨[eepReadEvent s.cfg b none], ?_, .inl ⟨rfl, ?_⟩⟩ <;> simp [eepWriteBlocks, hr, ht]
      | some old =>
        have hlen := hl old rfl
        dsimp only at ht hk
        obtain ⟨tries, h1, h2, h3, h4⟩ := eepAttempts_spec b
          (mergeUnit s.cfg.eepromBlock a l d b old) (1 + s.cfg.eepromMaxRetries) s1
        rw [hk, ht] at h2
        have hk2 := (eepAttempts_serial b (mergeUnit s.cfg.eepromBlock a l d b old)
          (1 + s.cfg.eepromMaxRetries) s1).keeps.cfg.trans hk
        cases ha : eepAttempts b (mergeUnit s.cfg.eepromBlock a l d b old) (1 + s.cfg.eepromMaxRetries) s1 with
        | mk ok s2 =>
          rw [ha] at h2 h4 hk2
          dsimp only at h2 h4 hk2
          cases ok with
          | false =>
            rcases h4 with ⟨e, -⟩ | ⟨-, hn, hall⟩
            · cases e
            · refine ⟨eepReadEvent s.cfg b (some old) ::
                  tries.flatMap (attemptTrace s.cfg b (mergeUnit s.cfg.eepromBlock a l d b old)) ++ [],
                ?_, .inr ⟨old, tries, [], hlen, rfl, h1, h3, .inr ⟨hn, hall, rfl, ?_⟩⟩⟩
              · simp [eepWriteBlocks, hr, ha, h2]
              · simp [eepWriteBlocks, hr, ha]
          | true =>
            obtain ⟨es, k1, k2⟩ := ih s2
            rcases h4 with ⟨-, x, hx, hv⟩ | ⟨e, -⟩
            · refine ⟨eepReadEvent s.cfg b (some old) ::
                  tries.flatMap (attemptTrace s.cfg b (mergeUnit s.cfg.eepromBlock a l d b old)) ++ es,
                ?_, .inr ⟨old, tries, es, hlen, rfl, h1, h3, .inl ⟨x, hx, hv, ?_⟩⟩⟩
              · simp [eepWriteBlocks, hr, ha, k1, h2]
              · rw [hk2] at k2
                simpa [eepWriteBlocks, hr, ha] using k2
            · cases e

theorem eepReadBlocks_serial (a l : Nat) (bs : List Nat) (s : State) :
    Serial s (eepReadBlocks a l bs s).2 := by
  induction bs generalizing s with
  | nil => exact Serial.refl s
  | cons b bs ih =>
    have h := eepReadBlock_serial b s
    simp only [eepReadBlocks]
    split
    · next hr => rw [hr] at h; exact h
    · next hr => rw [hr] at h; exact h.trans (ih _)

theorem eepWriteBlocks_serial (a l : Nat) (d : List Byte) (bs : List Nat) (s : State) :
    Serial s (eepWriteBlocks a l d bs s).2 := by
  induction bs generalizing s with
  | nil => exact Serial.refl s
  | cons b bs ih =>
    have h := eepReadBlock_serial b s
    simp only [eepWriteBlocks]
    split
    · next hr => rw [hr] at h; exact h
    · next hr =>
      rw [hr] at h
      dsimp only at h
      split
      · next ha => exact h.trans (by have := congrArg Prod.snd ha; dsimp only at this; rw [← this]; exact eepAttempts_serial _ _ _ _)
      · next ha =>
        exact (h.trans (by have := congrArg Prod.snd ha; dsimp only at this; rw [← this]; exact eepAttempts_serial _ _ _ _)).trans (ih _)

/-! ### FlashRAM -/

/-- `send_command`: its 26 events (R241). -/
theorem sendCommand_trace (k : FlashKind) (p : Half) (s : State) :
    (sendCommand k p s).trace = s.trace ++ commandTrace s.cfg k p := by
  simp [sendCommand, commandTrace, burstWrite]

theorem sendCommand_cycle (k : FlashKind) (p : Half) (s : State) : Cycle s (sendCommand k p s) :=
  ((latchAddress_cycle _ s).then (writeWord_settles _ _)).then (writeWord_settles _ _)

theorem sendCommand_gpioOut (k : FlashKind) (p : Half) (s : State) :
    (sendCommand k p s).gpioOut = lo16 (s.cfg.flashWord k p) := rfl

/-- `read_status`: a command, then one burst of the response's words (R243). -/
theorem readStatus_spec (s : State) :
    ∃ ws : List Half, ws.length = s.cfg.flashStatusLen / 2 ∧ (readStatus s).1 = bytesOfWords ws ∧
      (readStatus s).2.trace = s.trace ++ statusTrace s.cfg ws := by
  have hc := (sendCommand_cycle .statusMode 0#16 s).keeps.cfg
  obtain ⟨ws, h1, h2, h3⟩ := memRead_spec s.cfg.flashBase s.cfg.flashStatusLen (sendCommand .statusMode 0#16 s)
  exact ⟨ws, h1, h2, by simp [readStatus, h3, sendCommand_trace, statusTrace]⟩

theorem readStatus_cycle (s : State) : Cycle s (readStatus s).2 :=
  (sendCommand_cycle _ _ s).trans (memRead_cycle _ _ _)

/-- The poll loop of R244: the responses it saw, and how it ended. -/
theorem pollReady_spec (left n : Nat) (hl : 0 < left) (s : State) :
    ∃ polls : List (List Half), polls ≠ [] ∧
      (∀ ws ∈ polls, ws.length = s.cfg.flashStatusLen / 2) ∧
      (∀ ws ∈ polls.dropLast, bytesOfWords ws ∉ s.cfg.idleSigs) ∧
      (pollReady left n s).2.trace = s.trace ++ pollTrace s.cfg polls ∧
      match (pollReady left n s).1 with
      | some m => m + 1 = n + polls.length ∧ polls.length ≤ left ∧
          ∃ ws, polls.getLast? = some ws ∧ bytesOfWords ws ∈ s.cfg.idleSigs
      | none => polls.length = left ∧ ∀ ws ∈ polls, bytesOfWords ws ∉ s.cfg.idleSigs := by
  induction left generalizing n s with
  | zero => omega
  | succ left ih =>
    obtain ⟨ws, h1, h2, h3⟩ := readStatus_spec s
    have hc := (readStatus_cycle s).keeps.cfg
    by_cases hi : s.cfg.idleSigs.contains (readStatus s).1 = true
    · refine ⟨[ws], by simp, by simpa using h1, by simp, ?_, ?_⟩
      · simp only [pollReady, if_pos hi, h3, pollTrace]
      · simp only [pollReady, if_pos hi]
        refine ⟨by simp, by simp, ws, rfl, ?_⟩
        rw [← h2]
        simpa using hi
    · have hn : bytesOfWords ws ∉ s.cfg.idleSigs := by rw [← h2]; simpa using hi
      by_cases hz : left = 0
      · refine ⟨[ws], by simp, by simpa using h1, by simp, ?_, ?_⟩
        · simp only [pollReady, if_neg hi, if_pos hz, h3, pollTrace]
        · simp only [pollReady, if_neg hi, if_pos hz]
          exact ⟨by simp [hz], by simpa using hn⟩
      · obtain ⟨polls, g0, g1, g2, g3, g4⟩ := ih (n + 1) (by omega)
          (yieldPoint (sleep s.cfg.flashPollSleep (readStatus s).2))
        have hc' : (yieldPoint (sleep s.cfg.flashPollSleep (readStatus s).2)).cfg = s.cfg := hc
        rw [hc'] at g1 g2 g3 g4
        have ht : (yieldPoint (sleep s.cfg.flashPollSleep (readStatus s).2)).trace =
            s.trace ++ statusTrace s.cfg ws ++ [.sleep s.cfg.flashPollSleep, .yield] := by
          rw [← h3]
          simp [State.trace, yieldPoint, sleep]
        refine ⟨ws :: polls, by simp, ?_, ?_, ?_, ?_⟩
        · simp only [List.mem_cons, forall_eq_or_imp]
          exact ⟨h1, g1⟩
        · cases polls with
          | nil => exact absurd rfl g0
          | cons y ys =>
            simp only [List.dropLast_cons_cons, List.mem_cons, forall_eq_or_imp]
            exact ⟨hn, g2⟩
        · simp only [pollReady, if_neg hi, if_neg hz, g3, ht]
          cases polls with
          | nil => exact absurd rfl g0
          | cons y ys => simp [pollTrace]
        · simp only [pollReady, if_neg hi, if_neg hz]
          split
          · next m hm =>
            rw [hm] at g4
            obtain ⟨e1, e2, ws', e3, e4⟩ := g4
            refine ⟨by simp; omega, by simp; omega, ws', ?_, e4⟩
            cases polls with
            | nil => exact absurd rfl g0
            | cons y ys => simpa using e3
          · next hm =>
            rw [hm] at g4
            obtain ⟨e1, e2⟩ := g4
            refine ⟨by simp [e1], ?_⟩
            simp only [List.mem_cons, forall_eq_or_imp]
            exact ⟨hn, e2⟩

theorem pollReady_settles (left n : Nat) (s : State) : Settles s (pollReady left n s).2 := by
  induction left generalizing n s with
  | zero => exact Settles.refl s
  | succ left ih =>
    have h : Settles s (readStatus s).2 := fun _ => readStatus_cycle s
    simp only [pollReady]
    split
    · exact h
    · split
      · exact h
      · exact (h.trans ((sleep_settles _ _).trans (yieldPoint_settles _))).trans (ih _ _)

/-- `wait_ready` runs as R244 says. -/
theorem waitReady_run (s : State) (h : 1 ≤ s.cfg.flashPollMax) :
    ∃ es, (waitReady s).2.trace = s.trace ++ es ∧ waitRun s.cfg es (waitReady s).1 := by
  obtain ⟨polls, -, g1, g2, g3, g4⟩ := pollReady_spec s.cfg.flashPollMax 1 h s
  refine ⟨_, g3, polls, g1, ⟨g2, ?_⟩, rfl⟩
  unfold waitReady
  split
  · next m hm =>
    rw [hm] at g4
    obtain ⟨e1, e2, ws, e3, e4⟩ := g4
    have hp : polls ≠ [] := by rintro rfl; simp at e3
    have := List.length_pos_iff.mpr hp
    exact ⟨by omega, by omega, by omega, ws, e3, e4⟩
  · next hm => rw [hm] at g4; exact g4

theorem waitReady_settles (s : State) : Settles s (waitReady s).2 := pollReady_settles _ _ s

theorem flashReadChunks_spec (a l : Nat) (cs : List Nat) (s : State) :
    ∃ wss : List (List Half), wss.length = cs.length ∧ (∀ ws ∈ wss, ws.length = s.cfg.flashChunk / 2) ∧
      (flashReadChunks a l cs s).2.trace = s.trace ++
        (cs.zip wss).flatMap (fun x => burstRead (s.cfg.flashBase + x.1 * s.cfg.flashChunk / 2) x.2) ∧
      (flashReadChunks a l cs s).1 = (cs.zip wss).flatMap (fun x =>
        slice (bytesOfWords x.2) (unitLo s.cfg.flashChunk a x.1) (unitHi s.cfg.flashChunk a l x.1)) := by
  induction cs generalizing s with
  | nil => exact ⟨[], rfl, by simp, by simp [flashReadChunks], rfl⟩
  | cons k cs ih =>
    obtain ⟨ws, h1, h2, h3⟩ := memRead_spec (s.cfg.flashBase + k * s.cfg.flashChunk / 2) s.cfg.flashChunk s
    obtain ⟨wss, k1, k2, k3, k4⟩ :=
      ih (memRead (s.cfg.flashBase + k * s.cfg.flashChunk / 2) s.cfg.flashChunk s).2
    rw [(memRead_keeps _ _ s).cfg] at k2 k3 k4
    refine ⟨ws :: wss, by simp [k1], ?_, ?_, ?_⟩
    · simp only [List.mem_cons, forall_eq_or_imp]
      exact ⟨h1, k2⟩
    · simp [flashReadChunks, k3, h3]
    · simp [flashReadChunks, k4, h2]

theorem flashReadChunks_settles (a l : Nat) (cs : List Nat) (s : State) :
    Settles s (flashReadChunks a l cs s).2 := by
  induction cs generalizing s with
  | nil => exact Settles.refl s
  | cons k cs ih => exact Settles.trans (fun _ => memRead_cycle _ _ s) (ih _)

/-- `flash_read` runs as R248 says. -/
theorem flashRead_run (a l : Nat) (s : State) :
    ∃ es, (flashRead a l s).2.trace = s.trace ++ es ∧ flashReadRun s.cfg a l es (flashRead a l s).1 := by
  by_cases hl : l = 0
  · exact ⟨[], by simp [flashRead, hl], by simp [flashRead, flashReadRun, hl]⟩
  · obtain ⟨wss, h1, h2, h3, h4⟩ := flashReadChunks_spec a l (unitsOf s.cfg.flashChunk a l)
      (sendCommand .readArray 0#16 s)
    rw [(sendCommand_cycle .readArray 0#16 s).keeps.cfg] at h2 h3 h4
    simp only [flashRead, flashReadRun, if_neg hl]
    refine ⟨_, ?_, wss, h1, h2, rfl, h4⟩
    rw [h3, sendCommand_trace, List.append_assoc]

theorem flashRead_cycle (a l : Nat) (h : l ≠ 0) (s : State) : Cycle s (flashRead a l s).2 := by
  simp only [flashRead, if_neg h]
  exact (sendCommand_cycle _ _ s).then (flashReadChunks_settles _ _ _ _)

theorem flashRead_settles (a l : Nat) (s : State) : Settles s (flashRead a l s).2 := by
  by_cases h : l = 0
  · simpa [flashRead, h] using Settles.refl s
  · exact fun _ => flashRead_cycle a l h s

theorem eraseBlock_cycle (b : Nat) (s : State) : Cycle s (eraseBlock b s).2 :=
  (((sendCommand_cycle _ _ s).trans (sendCommand_cycle _ _ _)).trans (sendCommand_cycle _ _ _)).then
    (waitReady_settles _)

/-- `erase_block` runs as R252 says. -/
theorem eraseBlock_run (b : Nat) (s : State) (h : 1 ≤ s.cfg.flashPollMax) :
    ∃ es, (eraseBlock b s).2.trace = s.trace ++ es ∧ eraseRun s.cfg b es (eraseBlock b s).1 := by
  have c1 := (sendCommand_cycle .eraseSelect (BitVec.ofNat 16 (b * s.cfg.flashBlock / s.cfg.flashPage)) s)
  have c2 := c1.trans (sendCommand_cycle .eraseMode 0#16 _)
  have c3 := c2.trans (sendCommand_cycle .execute 0#16 _)
  obtain ⟨es, h1, h2⟩ := waitReady_run _ (show 1 ≤ (sendCommand .execute 0#16 (sendCommand .eraseMode 0#16
    (sendCommand .eraseSelect (BitVec.ofNat 16 (b * s.cfg.flashBlock / s.cfg.flashPage)) s))).cfg.flashPollMax by
      rw [c3.keeps.cfg]; exact h)
  rw [c3.keeps.cfg] at h2
  rw [sendCommand_trace, sendCommand_trace, sendCommand_trace, c1.keeps.cfg, c2.keeps.cfg] at h1
  refine ⟨_, ?_, es, _, h2, rfl, rfl⟩
  simp only [eraseBlock, h1, List.append_assoc]

theorem programPage_cycle (p : Nat) (d : List Byte) (s : State) : Cycle s (programPage p d s).2 := by
  have h : Cycle s (waitReady (sendCommand .execute 0#16 (sendCommand .pageSelect (BitVec.ofNat 16 p)
      (memWrite s.cfg.flashBase d (sendCommand .program 0#16 s))))).2 :=
    ((((sendCommand_cycle _ _ s).trans (memWrite_cycle _ _ _)).trans (sendCommand_cycle _ _ _)).trans
      (sendCommand_cycle _ _ _)).then (waitReady_settles _)
  simp only [programPage]
  split
  · exact (h.trans (sendCommand_cycle _ _ _)).trans (memRead_cycle _ _ _)
  · exact h

/-- `program_page` runs as R254 says. -/
theorem programPage_run (p : Nat) (d : List Byte) (s : State) (h : 1 ≤ s.cfg.flashPollMax) :
    ∃ es, (programPage p d s).2.trace = s.trace ++ es ∧ pageRun s.cfg p d es (programPage p d s).1 := by
  have c1 := sendCommand_cycle .program 0#16 s
  have c2 := c1.trans (memWrite_cycle s.cfg.flashBase d _)
  have c3 := c2.trans (sendCommand_cycle .pageSelect (BitVec.ofNat 16 p) _)
  have c4 := c3.trans (sendCommand_cycle .execute 0#16 _)
  have hp : 1 ≤ (sendCommand .execute 0#16 (sendCommand .pageSelect (BitVec.ofNat 16 p)
      (memWrite s.cfg.flashBase d (sendCommand .program 0#16 s)))).cfg.flashPollMax := by
    rw [c4.keeps.cfg]; exact h
  obtain ⟨we, h1, h2⟩ := waitReady_run _ hp
  have c5 := c4.then (waitReady_settles _)
  rw [c4.keeps.cfg] at h2
  rw [sendCommand_trace, sendCommand_trace, memWrite_trace, sendCommand_trace, c2.keeps.cfg,
    c3.keeps.cfg] at h1
  cases hw : waitReady (sendCommand .execute 0#16 (sendCommand .pageSelect (BitVec.ofNat 16 p)
      (memWrite s.cfg.flashBase d (sendCommand .program 0#16 s)))) with
  | mk ready s1 =>
    rw [hw] at h1 h2 c5
    dsimp only at h1 h2 c5
    cases ready with
    | none =>
      refine ⟨_, ?_, we, none, [], h2, rfl, .inl ⟨rfl, rfl, ?_⟩⟩
      · simp only [programPage, hw, Option.isSome_none, h1, Bool.false_eq_true, if_false, List.append_assoc,
          List.append_nil]
      · simp only [programPage, hw, Option.isSome_none, Bool.false_eq_true, if_false]
    | some n =>
      obtain ⟨ws, g1, g2, g3⟩ := memRead_spec (s.cfg.flashBase + p * s.cfg.flashPage / 2) s.cfg.flashPage
        (sendCommand .readArray 0#16 s1)
      rw [sendCommand_trace, h1, c5.keeps.cfg] at g3
      refine ⟨_, ?_, we, some n, _, h2, rfl, .inr ⟨by simp, ws, g1, rfl, ?_⟩⟩
      · simp only [programPage, hw, Option.isSome_some, if_true, g3, List.append_assoc]
      · simp only [programPage, hw, Option.isSome_some, if_true, g2]

theorem programPages_settles (b : Nat) (buf : Memory) (qs : List Nat) (s : State) :
    Settles s (programPages b buf qs s).2 := by
  induction qs generalizing s with
  | nil => exact Settles.refl s
  | cons q qs ih =>
    have h := programPage_cycle (b * s.cfg.pagesPerBlock + q)
      (buf.readRange (q * s.cfg.flashPage) s.cfg.flashPage) s
    simp only [programPages]
    split
    · next hr => rw [hr] at h; exact Settles.trans (fun _ => h) (ih _)
    · next hr => rw [hr] at h; exact fun _ => h

/-- The page loop runs as R256 says. -/
theorem programPages_run (b : Nat) (buf : Memory) (qs : List Nat) (s : State) (h : 1 ≤ s.cfg.flashPollMax) :
    ∃ es, (programPages b buf qs s).2.trace = s.trace ++ es ∧
      pagesRun s.cfg b buf qs es (programPages b buf qs s).1 := by
  induction qs generalizing s with
  | nil => exact ⟨[], by simp [programPages], rfl, rfl⟩
  | cons q qs ih =>
    have hc := programPage_cycle (b * s.cfg.pagesPerBlock + q)
      (buf.readRange (q * s.cfg.flashPage) s.cfg.flashPage) s
    obtain ⟨e1, h1, h2⟩ := programPage_run (b * s.cfg.pagesPerBlock + q)
      (buf.readRange (q * s.cfg.flashPage) s.cfg.flashPage) s h
    cases hr : programPage (b * s.cfg.pagesPerBlock + q)
        (buf.readRange (q * s.cfg.flashPage) s.cfg.flashPage) s with
    | mk v1 s1 =>
      rw [hr] at h1 h2 hc
      dsimp only at h1 h2
      rw [Memory.readRange_eq_map] at h2
      cases v1 with
      | none =>
        obtain ⟨e2, k1, k2⟩ := ih s1 (by rw [hc.keeps.cfg]; exact h)
        rw [hc.keeps.cfg] at k2
        refine ⟨e1 ++ e2, ?_, e1, e2, none, h2, rfl, .inl ⟨rfl, ?_⟩⟩
        · simp only [programPages, hr, k1, h1, List.append_assoc]
        · simpa only [programPages, hr] using k2
      | some cause =>
        refine ⟨e1, ?_, e1, [], some cause, h2, by simp, .inr ⟨by simp, rfl, ?_⟩⟩
        · simp only [programPages, hr, h1]
        · simp only [programPages, hr]

theorem eraseAndProgram_cycle (b : Nat) (s : State) : Cycle s (eraseAndProgram b s).2 := by
  have h := eraseBlock_cycle b s
  simp only [eraseAndProgram]
  split
  · next hr => rw [hr] at h; exact h
  · next hr => rw [hr] at h; exact h.then (programPages_settles _ _ _ _)

/-- Steps 3 and 4 of R258, and the commit of R262. -/
theorem eraseAndProgram_run (b : Nat) (s : State) (h : 1 ≤ s.cfg.flashPollMax) :
    ∃ es, (eraseAndProgram b s).2.trace = s.trace ++ es ∧
      blockRun s.cfg b s.blkBuf es (eraseAndProgram b s).1 := by
  have hc := eraseBlock_cycle b s
  obtain ⟨e1, h1, h2⟩ := eraseBlock_run b s h
  cases hr : eraseBlock b s with
  | mk v1 s1 =>
    rw [hr] at h1 h2 hc
    dsimp only at h1 h2 hc
    cases v1 with
    | none =>
      obtain ⟨e2, k1, k2⟩ := programPages_run b s1.blkBuf (List.range s1.cfg.pagesPerBlock) s1
        (by rw [hc.keeps.cfg]; exact h)
      rw [hc.keeps.cfg, hc.keeps.blkBuf] at k2
      refine ⟨e1 ++ e2, ?_, e1, e2, none, h2, rfl, .inl ⟨rfl, ?_⟩⟩
      · simp only [eraseAndProgram, hr, programBlock, k1, h1, List.append_assoc]
      · rw [hc.keeps.cfg] at k1
        simpa only [eraseAndProgram, hr, programBlock, hc.keeps.cfg, hc.keeps.blkBuf] using k2
    | some cause =>
      refine ⟨e1, ?_, e1, [], some cause, h2, by simp, .inr ⟨by simp, rfl, ?_⟩⟩
      · simp only [eraseAndProgram, hr, h1]
      · simp only [eraseAndProgram, hr]

/-- A cycle, a new content of the block buffer, and another cycle: only the buffer differs from one cycle. -/
theorem Cycle.withBuf {s t u : State} {buf : Memory} (h : Cycle s t) (k : Cycle { t with blkBuf := buf } u) :
    Cycle s { u with blkBuf := s.blkBuf } where
  keeps :=
    { cfg := k.keeps.cfg.trans h.keeps.cfg
      inputs := k.keeps.inputs.trans h.keeps.inputs
      launched := k.keeps.launched.trans h.keeps.launched
      opState := k.keeps.opState.trans h.keeps.opState
      rstAsserted := k.keeps.rstAsserted.trans h.keeps.rstAsserted
      result := k.keeps.result.trans h.keeps.result
      fsActive := k.keeps.fsActive.trans h.keeps.fsActive
      fsBlock := k.keeps.fsBlock.trans h.keeps.fsBlock
      fsBitmap := k.keeps.fsBitmap.trans h.keeps.fsBitmap
      blkBuf := rfl
      eepSize := k.keeps.eepSize.trans h.keeps.eepSize
      grows := by
        obtain ⟨e1, h1⟩ := h.keeps.grows
        obtain ⟨e2, h2⟩ := k.keeps.grows
        exact ⟨e2 ++ e1, by simp_all⟩
      env := fun w => k.keeps.env (h.keeps.env w)
      rom := k.keeps.rom.trans h.keeps.rom }
  joy := k.joy.trans h.joy
  contention := k.contention.trans h.contention
  settled := k.settled

/-- One block of R258: what it keeps, but for the block buffer, which holds the spliced image. -/
theorem writeBlock_cycle (a l : Nat) (d : List Byte) (b : Nat) (s : State) (hb : s.cfg.flashBlock ≠ 0) :
    Cycle s { (eraseAndProgram b (assembleBlock a l d b s)).2 with blkBuf := s.blkBuf } :=
  (flashRead_cycle (b * s.cfg.flashBlock) s.cfg.flashBlock hb s).withBuf (eraseAndProgram_cycle b _)

/-- One block of R258 runs as R258 says. -/
theorem writeBlock_run (a l : Nat) (d : List Byte) (b : Nat) (s : State) (hb : s.cfg.flashBlock ≠ 0)
    (hp : 1 ≤ s.cfg.flashPollMax) :
    ∃ old e1 e2, flashReadRun s.cfg (b * s.cfg.flashBlock) s.cfg.flashBlock e1 old ∧
      blockRun s.cfg b (splicedImage s.cfg a l d b old) e2 (eraseAndProgram b (assembleBlock a l d b s)).1 ∧
      (eraseAndProgram b (assembleBlock a l d b s)).2.trace = s.trace ++ e1 ++ e2 ∧
      (eraseAndProgram b (assembleBlock a l d b s)).2.blkBuf = splicedImage s.cfg a l d b old := by
  obtain ⟨e1, h1, h2⟩ := flashRead_run (b * s.cfg.flashBlock) s.cfg.flashBlock s
  have hc := (flashRead_cycle (b * s.cfg.flashBlock) s.cfg.flashBlock hb s).keeps.cfg
  have hu : (assembleBlock a l d b s).cfg = s.cfg := hc
  obtain ⟨e2, k1, k2⟩ := eraseAndProgram_run b (assembleBlock a l d b s) (by rw [hu]; exact hp)
  have kb := (eraseAndProgram_cycle b (assembleBlock a l d b s)).keeps.blkBuf
  refine ⟨(flashRead (b * s.cfg.flashBlock) s.cfg.flashBlock s).1, e1, e2, h2, ?_, ?_, ?_⟩
  · rw [hu] at k2
    exact k2
  · rw [k1, ← h1]
    rfl
  · exact kb

theorem flashWriteBlocks_settles (a l : Nat) (d : List Byte) (bs : List Nat) (s : State)
    (hb : s.cfg.flashBlock ≠ 0) :
    Settles s { (flashWriteBlocks a l d bs s).2 with blkBuf := s.blkBuf } := by
  induction bs generalizing s with
  | nil => exact Settles.refl s
  | cons b bs ih =>
    have h := writeBlock_cycle a l d b s hb
    simp only [flashWriteBlocks]
    split
    · next hr => rw [hr] at h; exact fun _ => h
    · next s1 hr =>
      rw [hr] at h
      dsimp only at h
      intro _
      have k := ih s1 (by have := h.keeps.cfg; dsimp only at this; rw [this]; exact hb) h.settled
      exact (show Cycle s { s1 with blkBuf := s.blkBuf } from h).withBuf (buf := s1.blkBuf)
        (u := { (flashWriteBlocks a l d bs s1).2 with blkBuf := s1.blkBuf }) k

theorem flashWriteBlocks_cycle (a l : Nat) (d : List Byte) (bs : List Nat) (hne : bs ≠ []) (s : State)
    (hb : s.cfg.flashBlock ≠ 0) :
    Cycle s { (flashWriteBlocks a l d bs s).2 with blkBuf := s.blkBuf } := by
  cases bs with
  | nil => exact absurd rfl hne
  | cons b bs =>
    have h := writeBlock_cycle a l d b s hb
    simp only [flashWriteBlocks]
    split
    · next hr => rw [hr] at h; exact h
    · next s1 hr =>
      rw [hr] at h
      dsimp only at h
      have k := flashWriteBlocks_settles a l d bs s1
        (by have := h.keeps.cfg; dsimp only at this; rw [this]; exact hb) h.settled
      exact (show Cycle s { s1 with blkBuf := s.blkBuf } from h).withBuf (buf := s1.blkBuf)
        (u := { (flashWriteBlocks a l d bs s1).2 with blkBuf := s1.blkBuf }) k

/-- The block loop of R258 runs as R258 says. -/
theorem flashWriteBlocks_run (a l : Nat) (d : List Byte) (bs : List Nat) (s : State)
    (hb : s.cfg.flashBlock ≠ 0) (hp : 1 ≤ s.cfg.flashPollMax) :
    ∃ es, (flashWriteBlocks a l d bs s).2.trace = s.trace ++ es ∧
      flashWriteRun s.cfg a l d bs s.blkBuf (flashWriteBlocks a l d bs s).2.blkBuf es
        (flashWriteBlocks a l d bs s).1 := by
  induction bs generalizing s with
  | nil => exact ⟨[], by simp [flashWriteBlocks], rfl, rfl, rfl⟩
  | cons b bs ih =>
    have hc := writeBlock_cycle a l d b s hb
    obtain ⟨old, e1, e2, h1, h2, h3, h4⟩ := writeBlock_run a l d b s hb hp
    cases hr : eraseAndProgram b (assembleBlock a l d b s) with
    | mk v1 s1 =>
      rw [hr] at h2 h3 h4 hc
      dsimp only at h2 h3 h4 hc
      have hcfg : s1.cfg = s.cfg := hc.keeps.cfg
      cases v1 with
      | none =>
        obtain ⟨e3, k1, k2⟩ := ih s1 (by rw [hcfg]; exact hb) (by rw [hcfg]; exact hp)
        rw [hcfg, h4] at k2
        refine ⟨e1 ++ e2 ++ e3, ?_, old, e1, e2, e3, none, h1, h2, rfl, .inl ⟨rfl, ?_⟩⟩
        · simp only [flashWriteBlocks, hr, k1, h3, List.append_assoc]
        · simpa only [flashWriteBlocks, hr] using k2
      | some cause =>
        refine ⟨e1 ++ e2, ?_, old, e1, e2, [], some cause, h1, h2, by simp, .inr ⟨by simp, rfl, ?_, ?_⟩⟩
        · simp only [flashWriteBlocks, hr, h3, List.append_assoc]
        · simp only [flashWriteBlocks, hr]
        · simpa only [flashWriteBlocks, hr] using h4

end Sys2Proof.Machine
end

