-- ==== Sys2Proof/Laws/Parameters.lean ====
section
/-! SUPPORT. What a well-formed configuration satisfies, read off its check once, and the domains of single
parameters (spec/00_scope.md R8, R9; log 5). -/

namespace Sys2Proof

/-- The relations of R9, as far as proofs use them. -/
structure Params.Relations (c : Params) : Prop where
  step : 0 < c.romProbeStep
  block : 0 < c.flashBlock
  page : 0 < c.flashPage
  chunk : 0 < c.flashChunk
  sector : 0 < c.flashSector
  block_page : c.flashBlock % c.flashPage = 0
  block_sector : c.flashBlock % c.flashSector = 0
  block_chunk : c.flashBlock % c.flashChunk = 0
  size_block : c.flashSize % c.flashBlock = 0
  page_even : c.flashPage % 2 = 0
  chunk_even : c.flashChunk % 2 = 0
  sram_even : c.sramSize % 2 = 0
  probe_even : c.sramProbeOffset % 2 = 0
  probe_below : c.sramProbeOffset < c.sramSize
  space_step : c.romSpace % c.romProbeStep = 0
  fp_even : c.romFpLen % 2 = 0
  polls : 1 ≤ c.flashPollMax
  pages : c.flashSize / c.flashPage ≤ 65536
  sentinel : c.sramSentinel ≠ 0xFFFF#16
  rom_top : c.romBase + c.romSpan ≤ 2 ^ 32
  sram_top : c.sramBase + c.sramSize ≤ 2 ^ 32
  flash_top : c.flashBase + c.flashSpan ≤ 2 ^ 32
  command_top : c.flashCmdAddr + 4 ≤ 2 ^ 32

/-- The domains of single parameters, as far as proofs use them. -/
structure Params.Domains (c : Params) : Prop where
  burst : 0 < c.sramBurst
  burst_even : c.sramBurst % 2 = 0
  eeprom : 0 < c.eepromBlock
  status : c.flashStatusLen = 8
  words : ∀ k, lo16 (c.flashCmd k) = 0#16
  blocks4k : c.eeprom4kSize ≤ 256 * c.eepromBlock
  blocks16k : c.eeprom16kSize ≤ 256 * c.eepromBlock
  size4k : c.eeprom4kSize < 2 ^ 32
  size16k : c.eeprom16kSize < 2 ^ 32

theorem FlashKind.mem_all (k : FlashKind) : k ∈ FlashKind.all := by cases k <;> simp [FlashKind.all]

theorem Params.ok_relations {c : Params} (h : c.ok = true) : c.Relations := by
  simp only [Params.ok, Params.relations, staysOnBus, Bool.and_eq_true, beq_iff_eq, decide_eq_true_eq,
    bne_iff_ne] at h
  constructor <;> tauto

theorem Params.domains_facts {c : Params} (h : c.domains = true) : c.Domains := by
  simp only [Params.domains, Bool.and_eq_true, beq_iff_eq, decide_eq_true_eq, List.all_eq_true] at h
  have words : ∀ k, (c.flashCmd k).extractLsb' 0 16 = 0#16 := fun k =>
    h.1.1.1.1.1.1.1.1.1.1.1.2 k (FlashKind.mem_all k)
  constructor <;> try tauto

/-- The windows of R9 hold the offsets the operations use. -/
theorem Params.span_bounds (c : Params) :
    c.romSpace ≤ c.romSpan ∧ c.romSpace - c.romProbeStep + c.romFpLen ≤ c.romSpan ∧
    c.flashStatusLen ≤ c.flashSpan ∧
    (0 < c.flashSize → c.flashSize / 2 + c.flashChunk / 2 ≤ c.flashSpan ∧
      c.flashSize / 2 + c.flashPage / 2 ≤ c.flashSpan) := by
  unfold Params.romSpan Params.flashSpan
  refine ⟨Nat.le_max_left _ _, Nat.le_max_right _ _, Nat.le_max_left _ _, fun h => ?_⟩
  rw [if_neg (by omega)]
  omega

/-- A block has at least one sector. -/
theorem Params.sectors_pos {c : Params} (h : c.ok = true) : 0 < c.sectorsPerBlock :=
  Nat.div_pos (Nat.le_of_dvd (c.ok_relations h).block (Nat.dvd_of_mod_eq_zero (c.ok_relations h).block_sector))
    (c.ok_relations h).sector

end Sys2Proof
end

