-- ==== Sys2Proof/Laws/PerInstr.lean ====
section
/-! SUPPORT. One lemma a constructor of `Instr` for the family `EncodedHeader` (spec/30_encoding.md R101-R104):
the record of an instruction reads back from its bytes, and its command word carries an assigned opcode, zero
reserved bits and the fields it was written with. -/

namespace Sys2Proof.Laws.EncodedHeader

/-- The instruction's bytes are a command record with an assigned opcode and zero reserved bits. -/
def Statement (i : Instr) : Prop :=
  Record.ofBytes (encode i) = some i.record ∧ (encode i).length = 12 + i.record.d.length ∧
  (Opcode.ofByte i.record.op).isSome ∧ i.record.reserved = 0#3

/-- Every record built from an opcode and operands is so. -/
theorem of_recordOf (op : Opcode) (k : BitVec 4) (f : Bool) (w : Half) (a l : Word) (d : List Byte) (i : Instr)
    (h : i.record = recordOf op k f w a l d) : Statement i := by
  refine ⟨?_, ?_, ?_, ?_⟩
  · simp [encode, Record.ofBytes_toBytes]
  · simp [encode, Record.toBytes_length]
  · have e : i.record.op = op.code := by rw [h]; exact commandWord_op op k f w
    simp [e, Opcode.ofByte_code]
  · rw [h]
    exact commandWord_reserved op k f w

theorem busInit : Statement .busInit :=
  of_recordOf _ _ _ _ _ _ _ _ rfl

theorem setDirection (out : Bool) : Statement (.setDirection out) :=
  of_recordOf _ _ _ _ _ _ _ _ rfl

theorem latchAddress (addr : Word) : Statement (.latchAddress addr) :=
  of_recordOf _ _ _ _ _ _ _ _ rfl

theorem readWord : Statement .readWord :=
  of_recordOf _ _ _ _ _ _ _ _ rfl

theorem writeWord (data : Half) : Statement (.writeWord data) :=
  of_recordOf _ _ _ _ _ _ _ _ rfl

theorem assertReset (active : Bool) : Statement (.assertReset active) :=
  of_recordOf _ _ _ _ _ _ _ _ rfl

theorem readRomBytes (a l : Word) : Statement (.readRomBytes a l) :=
  of_recordOf _ _ _ _ _ _ _ _ rfl

theorem detectRomSize : Statement .detectRomSize :=
  of_recordOf _ _ _ _ _ _ _ _ rfl

theorem hasSram : Statement .hasSram :=
  of_recordOf _ _ _ _ _ _ _ _ rfl

theorem readSramBytes (a l : Word) : Statement (.readSramBytes a l) :=
  of_recordOf _ _ _ _ _ _ _ _ rfl

theorem writeSramBytes (a l : Word) (d : List Byte) : Statement (.writeSramBytes a l d) :=
  of_recordOf _ _ _ _ _ _ _ _ rfl

theorem eepromSize : Statement .eepromSize :=
  of_recordOf _ _ _ _ _ _ _ _ rfl

theorem readEepromBlock (i : Word) : Statement (.readEepromBlock i) :=
  of_recordOf _ _ _ _ _ _ _ _ rfl

theorem writeEepromBlock (i : Word) (d : List Byte) : Statement (.writeEepromBlock i d) :=
  of_recordOf _ _ _ _ _ _ _ _ rfl

theorem readEepromBytes (a l : Word) : Statement (.readEepromBytes a l) :=
  of_recordOf _ _ _ _ _ _ _ _ rfl

theorem writeAndVerifyEepromBytes (a l : Word) (d : List Byte) : Statement (.writeAndVerifyEepromBytes a l d) :=
  of_recordOf _ _ _ _ _ _ _ _ rfl

theorem flashCommand (k : BitVec 4) (p : Half) : Statement (.flashCommand k p) :=
  of_recordOf _ _ _ _ _ _ _ _ rfl

theorem flashReadStatus : Statement .flashReadStatus :=
  of_recordOf _ _ _ _ _ _ _ _ rfl

theorem flashWaitReady : Statement .flashWaitReady :=
  of_recordOf _ _ _ _ _ _ _ _ rfl

theorem hasFlashram : Statement .hasFlashram :=
  of_recordOf _ _ _ _ _ _ _ _ rfl

theorem readFlashramBytes (a l : Word) : Statement (.readFlashramBytes a l) :=
  of_recordOf _ _ _ _ _ _ _ _ rfl

theorem flashEraseBlock (b : Word) : Statement (.flashEraseBlock b) :=
  of_recordOf _ _ _ _ _ _ _ _ rfl

theorem flashProgramPage (p : Word) (d : List Byte) : Statement (.flashProgramPage p d) :=
  of_recordOf _ _ _ _ _ _ _ _ rfl

theorem writeFlashramBytes (a l : Word) (d : List Byte) : Statement (.writeFlashramBytes a l d) :=
  of_recordOf _ _ _ _ _ _ _ _ rfl

theorem writeFlashramSector (s : Word) (d : List Byte) : Statement (.writeFlashramSector s d) :=
  of_recordOf _ _ _ _ _ _ _ _ rfl

theorem flashCommandReset : Statement .flashCommandReset :=
  of_recordOf _ _ _ _ _ _ _ _ rfl

theorem flashCommandReadArray : Statement .flashCommandReadArray :=
  of_recordOf _ _ _ _ _ _ _ _ rfl

theorem flashCommandStatusMode : Statement .flashCommandStatusMode :=
  of_recordOf _ _ _ _ _ _ _ _ rfl

theorem flashCommandEraseSelect (p : Half) : Statement (.flashCommandEraseSelect p) :=
  of_recordOf _ _ _ _ _ _ _ _ rfl

theorem flashCommandEraseMode : Statement .flashCommandEraseMode :=
  of_recordOf _ _ _ _ _ _ _ _ rfl

theorem flashCommandProgram : Statement .flashCommandProgram :=
  of_recordOf _ _ _ _ _ _ _ _ rfl

theorem flashCommandPageSelect (p : Half) : Statement (.flashCommandPageSelect p) :=
  of_recordOf _ _ _ _ _ _ _ _ rfl

theorem flashCommandExecute : Statement .flashCommandExecute :=
  of_recordOf _ _ _ _ _ _ _ _ rfl

end Sys2Proof.Laws.EncodedHeader
end

