-- ==== Sys2Proof/Laws/Reference.lean ====
section
/-! SUPPORT. The bus cycles against the reference cartridge (spec/20_memory.md R81-R95), with its reset
released and a counter that does not wrap: the counter after each cycle, the word a read samples, and the
devices after it. -/

namespace Sys2Proof.Machine

/-- The environment is the reference cartridge `k`, its counter at `ca`, out of reset, with no wrap. -/
structure CartAt (s : State) (k : Cart) (ca : Word) : Prop where
  body : s.env.body = .cartridge k
  ca : s.env.ca = ca
  rst : s.rstAsserted = false
  wrap : s.cfg.autoincWrap = none

theorem driven_level (v p : Half) : (0xFFFF#16 &&& v) ||| (~~~0xFFFF#16 &&& p) = v := by
  have h : ~~~0xFFFF#16 = 0#16 := rfl
  rw [h, BitVec.zero_and, BitVec.or_zero]
  exact BitVec.allOnes_and

theorem ones_and (v : Half) : 0xFFFF#16 &&& v = v := BitVec.allOnes_and

theorem released_level (v p : Half) : (0x0000#16 &&& v) ||| (~~~0x0000#16 &&& p) = p := by
  have h : ~~~0x0000#16 = BitVec.allOnes 16 := rfl
  rw [h, BitVec.zero_and, BitVec.zero_or, BitVec.allOnes_and]

theorem hi16_append (a b : Half) : hi16 (a ++ b : Word) = a := by
  simp only [hi16]
  exact BitVec.extractLsb'_append_eq_left

theorem lo16_append (a b : Half) : lo16 (a ++ b : Word) = b := by
  simp only [lo16]
  exact BitVec.extractLsb'_append_eq_right

theorem hi16_append_lo16 (w : Word) : (hi16 w ++ lo16 w : Word) = w := by
  simp only [hi16, lo16]
  ext i hi
  simp only [BitVec.getElem_append, BitVec.getElem_extractLsb']
  split
  · simp [BitVec.getLsbD_eq_getElem hi]
  · next h =>
    have h16 : 16 + (i - 16) = i := by omega
    simp [h16, BitVec.getLsbD_eq_getElem hi]

theorem alehFall_env (t : State) (h1 : t.rstAsserted = false) (h2 : t.aleh = 1#1) (h3 : t.gpioDir = 0xFFFF#16)
    (h4 : lastLevel .aleh t.events = some 1#1) :
    (ctrl .aleh 0#1 t).env = { t.env with ca := t.gpioOut ++ lo16 t.env.ca } := by
  have e : t.seenLevel .aleh 0#1 = 1#1 := (State.seenLevel_set (h4.trans (congrArg some h2.symm)) _).trans h2
  simp [Env.onCtrl, h1, e, State.adLevel, h3, ones_and]

theorem alelFall_env (t : State) (h1 : t.rstAsserted = false) (h2 : t.alel = 1#1) (h3 : t.gpioDir = 0xFFFF#16)
    (h4 : lastLevel .alel t.events = some 1#1) :
    (ctrl .alel 0#1 t).env =
      { t.env.mapCart (Cart.onLatch t.cfg (hi16 t.env.ca ++ t.gpioOut : Word).toNat) with
          ca := hi16 t.env.ca ++ t.gpioOut } := by
  have e : t.seenLevel .alel 0#1 = 1#1 := (State.seenLevel_set (h4.trans (congrArg some h2.symm)) _).trans h2
  simp [Env.onCtrl, h1, e, State.adLevel, h3, ones_and]

theorem ctrlHigh_env (line : Line) (t : State) (h : t.rstAsserted = false) (hw : t.wr = 1#1) (hr : t.rd = 1#1) :
    (ctrl line 1#1 t).env = t.env := by
  have ew : t.seenLevel .wr 1#1 = 1#1 := State.seenLevel_high (line := .wr) (.inl hw)
  have er : t.seenLevel .rd 1#1 = 1#1 := State.seenLevel_high (line := .rd) (.inl hr)
  cases line <;> simp [Env.onCtrl, h, ew, er]

/-- An address latch cycle out of reset, with `WR` and `RD` high before it: the counter takes the address
(R64, R133), and a FlashRAM chip's pointer follows it (R90). -/
theorem latchAddress_env (a : Word) (s : State) (hr : s.rstAsserted = false) (h : strobesHigh s) :
    (latchAddress a s).env = { s.env.mapCart (Cart.onLatch s.cfg a.toNat) with ca := a } := by
  obtain ⟨hw, hrd⟩ := h
  have e0 : (setDir true (ctrl .alel 1#1 (ctrl .aleh 1#1 (ctrl .rd 1#1 (ctrl .wr 1#1 s))))).env = s.env := by
    simp only [setDir_env]
    rw [ctrlHigh_env _ _ (by simpa using hr) (by simp) (by simp),
      ctrlHigh_env _ _ (by simpa using hr) (by simp) (by simp),
      ctrlHigh_env _ _ (by simpa using hr) (by simp) (by simpa using hrd),
      ctrlHigh_env _ _ hr hw hrd]
  have e1 := alehFall_env (delay .tSetup (drive (hi16 a) (setDir true (ctrl .alel 1#1 (ctrl .aleh 1#1
    (ctrl .rd 1#1 (ctrl .wr 1#1 s))))))) (by simpa using hr) (by simp) (by simp) (by simp [Event.levelOf])
  have e2 := alelFall_env (delay .tSetup (drive (lo16 a) (delay .tHold (ctrl .aleh 0#1 (delay .tSetup
    (drive (hi16 a) (setDir true (ctrl .alel 1#1 (ctrl .aleh 1#1 (ctrl .rd 1#1 (ctrl .wr 1#1 s)))))))))))
    (by simpa using hr) (by simp) (by simp) (by simp [Event.levelOf])
  have e3 : ∀ (e : Env) (x : Word), ({ e with ca := x } : Env).mapCart (Cart.onLatch s.cfg a.toNat) =
      { e.mapCart (Cart.onLatch s.cfg a.toNat) with ca := x } := by
    intro e x
    obtain ⟨ca, seed, body⟩ := e
    cases body <;> rfl
  have step : (latchAddress a s).env = (ctrl .alel 0#1 (delay .tSetup (drive (lo16 a) (delay .tHold
    (ctrl .aleh 0#1 (delay .tSetup (drive (hi16 a) (setDir true (ctrl .alel 1#1 (ctrl .aleh 1#1
    (ctrl .rd 1#1 (ctrl .wr 1#1 s)))))))))))).env := rfl
  rw [step, e2]
  simp only [delay_env, drive_env, delay_cfg, drive_cfg, ctrl_cfg, setDir_cfg, delay_gpioOut, drive_gpioOut] at e1 ⊢
  rw [e1]
  simp only [setDir_env] at e0
  simp only [setDir_env, e0, hi16_append, hi16_append_lo16]
  rw [e3]

theorem latchAddress_cart {s : State} {k : Cart} {ca : Word} (h : CartAt s k ca) (hs : strobesHigh s) (a : Word) :
    CartAt (latchAddress a s) (k.onLatch s.cfg a.toNat) a := by
  have e := latchAddress_env a s h.rst hs
  have kp := latchAddress_keeps a s
  refine ⟨?_, by rw [e], kp.rstAsserted.trans h.rst, by rw [kp.cfg]; exact h.wrap⟩
  rw [e]
  simp [Env.mapCart, h.body]

/-- A read cycle on a released bus samples the word the cartridge drives at the counter, or all-ones (R82,
R134), and the counter advances by 2 (R65). -/
theorem readWord_cart {s : State} {k : Cart} {ca : Word} (h : CartAt s k ca) (hs : settled s) :
    (readWord s).1 = (k.word s.cfg ca.toNat).getD 0xFFFF#16 ∧
    ∃ seed ev, CartAt (readWord s).2 (k.afterRead s.cfg seed ev ca.toNat) (ca + 2#32) := by
  obtain ⟨⟨h1, h2, h3, h4⟩, -, -⟩ := hs
  have kp := readWord_keeps s
  have hb := h.body
  have hc := h.ca
  generalize he : s.env = e at hb hc
  obtain ⟨eca, eseed, ebody⟩ := e
  dsimp only at hb hc
  subst hb hc
  constructor
  · simp [readWord, sample, State.sampleWord, Env.sampleWord, Env.onCtrl, State.level, State.seenLevel, h.rst, he, h4,
      State.adLevel, h1, State.undrivenLevel, h2]
  · refine ⟨eseed, .sample ((readWord s).1) :: .delay .tAccess :: .ctrl .rd 0#1 :: s.events, ?_, ?_,
      kp.rstAsserted.trans h.rst, by rw [kp.cfg]; exact h.wrap⟩
    · simp [readWord, sample, State.sampleWord, Env.sampleWord, Env.onCtrl, State.level, State.seenLevel, Event.levelOf, h.rst, he, h4,
        Env.afterSample, Env.mapCart, h.wrap]
    · simp [readWord, sample, State.sampleWord, Env.sampleWord, Env.onCtrl, State.level, State.seenLevel, Event.levelOf, h.rst, he, h4,
        Env.afterSample, Env.mapCart, advanceCounter, h.wrap]

/-- A write cycle gives the cartridge its word at the counter (R85, R135), and the counter advances by 2. -/
theorem writeWord_cart {s : State} {k : Cart} {ca : Word} (h : CartAt s k ca) (w : Half) :
    ∃ seed ev, CartAt (writeWord w s) (k.onWrite s.cfg seed ev ca.toNat w) (ca + 2#32) := by
  have kp := writeWord_keeps w s
  have hb := h.body
  have hc := h.ca
  generalize he : s.env = e at hb hc
  obtain ⟨eca, eseed, ebody⟩ := e
  dsimp only at hb hc
  subst hb hc
  refine ⟨eseed, .delay .tWpw :: .ctrl .wr 0#1 :: .out w :: .dir true :: s.events, ?_, ?_,
    kp.rstAsserted.trans h.rst, by rw [kp.cfg]; exact h.wrap⟩
  · simp [writeWord, Env.onCtrl, State.level, State.seenLevel, Event.levelOf, h.rst, he, Env.mapCart]
  · simp [writeWord, Env.onCtrl, State.level, State.seenLevel, Event.levelOf, h.rst, he, Env.mapCart, advanceCounter, h.wrap]

/-! ### ROM -/

/-- The word of the ROM at an offset (R83). -/
theorem Cart.word_rom {c : Params} {k : Cart} {rom : RomImage} (hk : k.rom = some rom) {ca : Nat}
    (h1 : c.romBase ≤ ca) (h2 : ca < c.romBase + c.romSpace) :
    k.word c ca = some (be16 (romByte rom (ca - c.romBase)) (romByte rom (ca - c.romBase + 1))) := by
  simp [Cart.word, hk, h1, h2, romByte]

theorem hiByte_be16 (a b : Byte) : hiByte (be16 a b) = a := by
  simp only [hiByte, be16]
  exact BitVec.extractLsb'_append_eq_left

theorem loByte_be16 (a b : Byte) : loByte (be16 a b) = b := by
  simp only [loByte, be16]
  exact BitVec.extractLsb'_append_eq_right

theorem halfBytes_be16 (a b : Byte) : halfBytes (be16 a b) = [a, b] := by
  simp [halfBytes, hiByte_be16, loByte_be16]

theorem readWord_settled {s : State} (h : settled s) : settled (readWord s).2 := (readWord_settles s h).settled

/-- A burst of `n` reads inside the ROM region gives the ROM's bytes (R151). -/
theorem readWords_rom {rom : RomImage} (n : Nat) {s : State} {k : Cart} {o : Nat}
    (hk : k.rom = some rom) (h : CartAt s k (BitVec.ofNat 32 (s.cfg.romBase + o))) (hs : settled s)
    (ho : o + 2 * n ≤ s.cfg.romSpace) (hb : s.cfg.romBase + s.cfg.romSpace ≤ 2 ^ 32) :
    (readWords n s).1 = (List.range (2 * n)).map (fun i => romByte rom (o + i)) ∧
    ∃ k' ca', k'.rom = some rom ∧ CartAt (readWords n s).2 k' ca' := by
  induction n generalizing s k o with
  | zero => exact ⟨rfl, k, _, hk, h⟩
  | succ n ih =>
    obtain ⟨hw, seed, ev, hn⟩ := readWord_cart h hs
    have hca : (BitVec.ofNat 32 (s.cfg.romBase + o)).toNat = s.cfg.romBase + o := by
      rw [BitVec.toNat_ofNat, Nat.mod_eq_of_lt (by omega)]
    rw [hca, Cart.word_rom hk (by omega) (by omega)] at hw
    have hcfg : (readWord s).2.cfg = s.cfg := (readWord_keeps s).cfg
    have hn' : CartAt (readWord s).2 (k.afterRead s.cfg seed ev
        (BitVec.ofNat 32 (s.cfg.romBase + o)).toNat) (BitVec.ofNat 32 ((readWord s).2.cfg.romBase + (o + 2))) := by
      have e : BitVec.ofNat 32 ((readWord s).2.cfg.romBase + (o + 2)) =
          BitVec.ofNat 32 (s.cfg.romBase + o) + 2#32 := by
        rw [hcfg, ← BitVec.ofNat_add_ofNat, ← BitVec.ofNat_add_ofNat, ← BitVec.ofNat_add_ofNat, BitVec.add_assoc]
      rw [e]; exact hn
    obtain ⟨d, kk⟩ := ih (by rw [Cart.afterRead_rom]; exact hk) hn' (readWord_settled hs)
      (by rw [hcfg]; omega) (by rw [hcfg]; exact hb)
    refine ⟨?_, kk⟩
    have e0 : s.cfg.romBase + o - s.cfg.romBase = o := by omega
    simp only [readWords, d, hw, Option.getD_some, halfBytes_be16, e0]
    have e2 : 2 * (n + 1) = 2 + 2 * n := by omega
    rw [e2, List.range_add, List.map_append, List.map_map]
    simp [List.range_succ, Function.comp_def, Nat.add_assoc]

/-- `rom_read` on the reference cartridge: the mirrored ROM bytes (R151). -/
theorem romRead_rom {rom : RomImage} {s : State} {k : Cart} {ca : Word} (hk : k.rom = some rom)
    (h : CartAt s k ca) (hs : strobesHigh s) (a l : Nat) (hl : l % 2 = 0)
    (hal : a + l ≤ s.cfg.romSpace) (hb : s.cfg.romBase + s.cfg.romSpace ≤ 2 ^ 32) :
    (romRead a l s).1 = (List.range l).map (fun i => romByte rom (a + i)) ∧
    ∃ k' ca', k'.rom = some rom ∧ CartAt (romRead a l s).2 k' ca' := by
  by_cases h0 : l = 0
  · subst h0
    exact ⟨rfl, k, ca, hk, h⟩
  · have hc := (latchAddress_keeps (BitVec.ofNat 32 (s.cfg.romBase + a)) s).cfg
    have key := readWords_rom (rom := rom) (l / 2) (s := latchAddress (BitVec.ofNat 32 (s.cfg.romBase + a)) s)
      (o := a) (k := k.onLatch s.cfg (BitVec.ofNat 32 (s.cfg.romBase + a)).toNat)
      (by rw [Cart.onLatch_rom]; exact hk) (by rw [hc]; exact latchAddress_cart h hs _) (latchAddress_cycle _ s).settled
      (by rw [hc]; omega) (by rw [hc]; exact hb)
    have e : 2 * (l / 2) = l := by omega
    rw [e] at key
    simpa [romRead, h0, memRead] using key

/-! ### SRAM -/

/-- The SRAM word at a counter in its window, which is apart from the ROM's (R84). -/
theorem Cart.word_sram {c : Params} {rom : Option RomImage} {img : Memory} {ca : Nat}
    (hr : rom.isSome) (h1 : c.sramBase ≤ ca) (h2 : ca < c.sramBase + c.sramSize)
    (ha : apartFromRom c c.sramBase c.sramSize) :
    (Cart.mk rom (.sram img)).word c ca =
      some (be16 (img.read (ca - c.sramBase)) (img.read (ca - c.sramBase + 1))) := by
  cases rom with
  | none => simp at hr
  | some r =>
    have : ¬ (c.romBase ≤ ca ∧ ca < c.romBase + c.romSpace) := by unfold apartFromRom at ha; omega
    simp [Cart.word, this, h1, h2]

theorem readWords_sram {r : RomImage} {img : Memory} (n : Nat) {s : State} {o : Nat}
    (h : CartAt s { rom := some r, save := .sram img } (BitVec.ofNat 32 (s.cfg.sramBase + o))) (hs : settled s)
    (ho : o + 2 * n ≤ s.cfg.sramSize) (hb : s.cfg.sramBase + s.cfg.sramSize ≤ 2 ^ 32)
    (ha : apartFromRom s.cfg s.cfg.sramBase s.cfg.sramSize) :
    (readWords n s).1 = imageBytes img o (2 * n) ∧
    ∃ ca', CartAt (readWords n s).2 { rom := some r, save := .sram img } ca' := by
  induction n generalizing s o with
  | zero => exact ⟨rfl, _, h⟩
  | succ n ih =>
    obtain ⟨hw, seed, ev, hn⟩ := readWord_cart h hs
    have hca : (BitVec.ofNat 32 (s.cfg.sramBase + o)).toNat = s.cfg.sramBase + o := by
      rw [BitVec.toNat_ofNat, Nat.mod_eq_of_lt (by omega)]
    rw [hca, Cart.word_sram rfl (by omega) (by omega) ha] at hw
    have hcfg : (readWord s).2.cfg = s.cfg := (readWord_keeps s).cfg
    have e : BitVec.ofNat 32 (s.cfg.sramBase + o) + 2#32 =
        BitVec.ofNat 32 ((readWord s).2.cfg.sramBase + (o + 2)) := by
      rw [hcfg, ← BitVec.ofNat_add_ofNat, ← BitVec.ofNat_add_ofNat, ← BitVec.ofNat_add_ofNat, BitVec.add_assoc]
    rw [e] at hn
    obtain ⟨d, kk⟩ := ih hn (readWord_settled hs) (by rw [hcfg]; omega) (by rw [hcfg]; exact hb)
      (by rw [hcfg]; exact ha)
    refine ⟨?_, kk⟩
    have e0 : s.cfg.sramBase + o - s.cfg.sramBase = o := by omega
    have e2 : 2 * (n + 1) = 2 + 2 * n := by omega
    simp only [readWords, d, hw, Option.getD_some, halfBytes_be16, e0, imageBytes]
    rw [e2, List.range_add, List.map_append, List.map_map]
    simp [List.range_succ, Function.comp_def, Nat.add_assoc]

/-- `MemRead` inside the SRAM window of the reference SRAM cartridge (R84). -/
theorem memRead_sram {r : RomImage} {img : Memory} {s : State} {ca : Word} (n o : Nat)
    (h : CartAt s { rom := some r, save := .sram img } ca) (hs : strobesHigh s) (hn : n % 2 = 0)
    (ho : o + n ≤ s.cfg.sramSize) (hb : s.cfg.sramBase + s.cfg.sramSize ≤ 2 ^ 32)
    (ha : apartFromRom s.cfg s.cfg.sramBase s.cfg.sramSize) :
    (memRead (s.cfg.sramBase + o) n s).1 = imageBytes img o n ∧
    ∃ ca', CartAt (memRead (s.cfg.sramBase + o) n s).2 { rom := some r, save := .sram img } ca' := by
  have hc := (latchAddress_keeps (BitVec.ofNat 32 (s.cfg.sramBase + o)) s).cfg
  have hl := latchAddress_cart h hs (BitVec.ofNat 32 (s.cfg.sramBase + o))
  have key := readWords_sram (n / 2) (s := latchAddress (BitVec.ofNat 32 (s.cfg.sramBase + o)) s) (o := o)
    (by rw [hc]; exact hl) (latchAddress_cycle _ s).settled (by rw [hc]; omega) (by rw [hc]; exact hb)
    (by rw [hc]; exact ha)
  have e : 2 * (n / 2) = n := by omega
  rw [e] at key
  simpa [memRead] using key

theorem Cart.onWrite_sram {c : Params} {r : RomImage} {img : Memory} (seed : Nat) (ev : List Event) {ca : Nat}
    (w : Half) (h1 : c.sramBase ≤ ca) (h2 : ca + 1 < c.sramBase + c.sramSize) :
    (Cart.mk (some r) (.sram img)).onWrite c seed ev ca w =
      { rom := some r, save := .sram (img.writeRange (ca - c.sramBase) [hiByte w, loByte w]) } := by
  have a1 : c.sramBase ≤ ca ∧ ca < c.sramBase + c.sramSize := ⟨h1, by omega⟩
  have a2 : ca - c.sramBase + 1 < c.sramSize := by omega
  simp [Cart.onWrite, a1, a2, Memory.writeRange]

theorem Memory.writeRange_append (m : Memory) (a : Nat) (xs ys : List Byte) :
    m.writeRange a (xs ++ ys) = (m.writeRange a xs).writeRange (a + xs.length) ys := by
  induction xs generalizing m a with
  | nil => rfl
  | cons x xs ih =>
    simp only [List.cons_append, Memory.writeRange, ih, List.length_cons]
    congr 1
    omega

/-- A burst of writes inside the SRAM window stores its bytes (R84, R176). -/
theorem writeWords_sram {r : RomImage} (v : List Byte) {img : Memory} {s : State} {o : Nat}
    (h : CartAt s { rom := some r, save := .sram img } (BitVec.ofNat 32 (s.cfg.sramBase + o)))
    (hv : v.length % 2 = 0) (ho : o + v.length ≤ s.cfg.sramSize)
    (hb : s.cfg.sramBase + s.cfg.sramSize ≤ 2 ^ 32) :
    ∃ ca', CartAt (writeWords v s) { rom := some r, save := .sram (img.writeRange o v) } ca' := by
  induction v, s using writeWords.induct generalizing img o with
  | case1 b0 b1 bs s ih =>
    simp only [List.length_cons] at hv ho
    obtain ⟨seed, ev, hn⟩ := writeWord_cart h (be16 b0 b1)
    have hca : (BitVec.ofNat 32 (s.cfg.sramBase + o)).toNat = s.cfg.sramBase + o := by
      rw [BitVec.toNat_ofNat, Nat.mod_eq_of_lt (by omega)]
    have hcfg : (writeWord (be16 b0 b1) s).cfg = s.cfg := (writeWord_keeps _ s).cfg
    have e : BitVec.ofNat 32 (s.cfg.sramBase + o) + 2#32 =
        BitVec.ofNat 32 ((writeWord (be16 b0 b1) s).cfg.sramBase + (o + 2)) := by
      rw [hcfg, ← BitVec.ofNat_add_ofNat, ← BitVec.ofNat_add_ofNat, ← BitVec.ofNat_add_ofNat, BitVec.add_assoc]
    rw [e, hca, Cart.onWrite_sram seed ev _ (by omega) (by omega), hiByte_be16, loByte_be16] at hn
    have e0 : s.cfg.sramBase + o - s.cfg.sramBase = o := by omega
    rw [e0] at hn
    obtain ⟨ca', k⟩ := ih hn (by omega) (by rw [hcfg]; omega) (by rw [hcfg]; exact hb)
    refine ⟨ca', ?_⟩
    simpa [writeWords, Memory.writeRange] using k
  | case2 b s => simp at hv
  | case3 s => exact ⟨_, h⟩

/-- `MemWrite` inside the SRAM window (R84). -/
theorem memWrite_sram {r : RomImage} {img : Memory} {s : State} {ca : Word} (v : List Byte) (o : Nat)
    (h : CartAt s { rom := some r, save := .sram img } ca) (hs : strobesHigh s) (hv : v.length % 2 = 0)
    (ho : o + v.length ≤ s.cfg.sramSize) (hb : s.cfg.sramBase + s.cfg.sramSize ≤ 2 ^ 32) :
    ∃ ca', CartAt (memWrite (s.cfg.sramBase + o) v s) { rom := some r, save := .sram (img.writeRange o v) } ca' := by
  have hc := (latchAddress_keeps (BitVec.ofNat 32 (s.cfg.sramBase + o)) s).cfg
  exact writeWords_sram v (s := latchAddress (BitVec.ofNat 32 (s.cfg.sramBase + o)) s)
    (by rw [hc]; exact latchAddress_cart h hs _) hv (by rw [hc]; exact ho) (by rw [hc]; exact hb)

theorem settled_strobesHigh {s : State} (h : settled s) : strobesHigh s := ⟨h.1.2.2.1, h.1.2.2.2⟩

/-! ### FlashRAM commands -/

theorem hi16_or_zeroExtend (v : Word) (p : Half) : hi16 (v ||| p.zeroExtend 32) = hi16 v := by
  simp only [hi16, BitVec.truncate_eq_setWidth]
  ext i hi
  simp [BitVec.getElem_extractLsb']

theorem Params.hi16_flashWord (c : Params) (k : FlashKind) (p : Half) : hi16 (c.flashWord k p) = hi16 (c.flashCmd k) := by
  unfold Params.flashWord
  split
  · exact hi16_or_zeroExtend _ _
  · rw [BitVec.or_zero]

theorem Params.lo16_flashWord {c : Params} {k : FlashKind} (h : lo16 (c.flashCmd k) = 0#16) (p : Half) :
    lo16 (c.flashWord k p) = if k.takesOperand then p else 0#16 := by
  unfold Params.flashWord
  split
  · have : lo16 (c.flashCmd k ||| p.zeroExtend 32) = lo16 (c.flashCmd k) ||| p := by
      simp only [lo16, BitVec.truncate_eq_setWidth]
      ext i hi
      have h32 : i < 32 := by omega
      simp [BitVec.getElem_extractLsb', h32, BitVec.getLsbD_eq_getElem hi]
    rw [this, h, BitVec.zero_or]
  · rw [BitVec.or_zero, h]

/-- The reference chip reads a command word as the kind that was sent, but for a `READ_ARRAY` that has the word
of `RESET` (R87, R240). -/
theorem Params.kindOf_flashWord {c : Params} (h : commandsApart c) (k : FlashKind) (p : Half) :
    Params.kindOf c (c.flashWord k p) = some k ∨
      (k = .readArray ∧ Params.kindOf c (c.flashWord k p) = some .reset) := by
  have hit : ∀ k', (if k'.takesOperand then hi16 (c.flashWord k p) == hi16 (c.flashCmd k')
      else c.flashWord k p == c.flashCmd k') = true → hi16 (c.flashCmd k') = hi16 (c.flashCmd k) := by
    intro k' hk
    split at hk
    · rw [← Params.hi16_flashWord c k p, eq_of_beq hk]
    · rw [← Params.hi16_flashWord c k p, eq_of_beq hk]
  have own : (if k.takesOperand then hi16 (c.flashWord k p) == hi16 (c.flashCmd k)
      else c.flashWord k p == c.flashCmd k) = true := by
    split
    · simp [Params.hi16_flashWord]
    · next ho => simp [Params.flashWord, ho]
  cases hf : Params.kindOf c (c.flashWord k p) with
  | none => exact absurd own (by simpa using List.find?_eq_none.mp hf k (FlashKind.mem_all k))
  | some k' =>
    have hk := hit k' (by
      unfold Params.kindOf at hf
      have h2 := List.find?_some hf
      exact h2)
    rcases h k' k hk with rfl | ⟨rfl, rfl⟩ | ⟨rfl, rfl⟩
    · exact .inl rfl
    · exact .inr ⟨rfl, rfl⟩
    · unfold Params.kindOf at hf
      rw [FlashKind.all, List.find?_cons, own] at hf
      exact absurd hf (by simp)

/-- The bytes after `n` bytes of page `q` are programmed: old AND new, inside the chip (R88). -/
theorem FlashChip.read_programmed (c : Params) {k : FlashChip} (hw : k.array.wf = true) (q n x : Nat) :
    (FlashChip.programmed c q k n).read x =
      if q * c.flashPage ≤ x ∧ x < q * c.flashPage + n ∧ x < c.flashSize
      then k.array.read x &&& k.pageBuf.read (x - q * c.flashPage) else k.array.read x := by
  induction n with
  | zero => rw [if_neg (by omega)]; rfl
  | succ n ih =>
    simp only [FlashChip.programmed]
    by_cases hlt : q * c.flashPage + n < c.flashSize
    · rw [if_pos hlt, Memory.read_write_wf (FlashChip.programmed_wf c q hw n)]
      by_cases hx : x = q * c.flashPage + n
      · subst hx
        have e : q * c.flashPage + n - q * c.flashPage = n := by omega
        rw [if_pos rfl, ih, if_neg (by omega), if_pos (by omega), e]
      · rw [if_neg hx, ih]
        exact if_congr (by omega) rfl rfl
    · rw [if_neg hlt, ih]
      exact if_congr (by omega) rfl rfl

/-- What `EXECUTE` leaves in the array (R88). -/
theorem FlashChip.command_execute_read (c : Params) (seed : Nat) (ev : List Event) (p : Nat) {k : FlashChip}
    (hw : k.array.wf = true) (x : Nat) :
    (k.command c seed ev .execute p).array.read x = executedByte c k x := by
  simp only [FlashChip.command, FlashChip.drawPattern_array, FlashChip.drawBusy_array, executedByte]
  cases k.eraseArmed with
  | true =>
    cases k.eraseSel with
    | none => rfl
    | some b => exact Memory.read_clearRange hw _ _ x
  | false =>
    cases k.pageSel with
    | none => rfl
    | some q =>
      dsimp only
      rw [FlashChip.read_programmed c hw, Nat.add_one_mul]

end Sys2Proof.Machine
end

