-- ==== Sys2Proof/Tests/Slice0.lean ====
section
/-! SUPPORT. The model's own tests. Expected results come from spec/95_test_vectors.md (the vector is named)
or by hand from the rule named; a theorem `witness_<Obligation>` shows that the hypotheses of that
obligation are met by a concrete state and operands. -/

namespace Sys2Proof.Tests

set_option Elab.async false

open Sys2Proof.Machine

/-! ### Helpers -/

/-- What a test says of the next state of an outcome; false of a fault or a refusal. -/
def leaves (o : Outcome) (p : State → Bool) : Bool :=
  match o with
  | .next t => p t
  | .fault _ => false
  | .refused _ => false

/-- The outcome is a refusal for the given reason. -/
def refuses (o : Outcome) (r : Refusal) : Bool :=
  match o with
  | .next _ => false
  | .fault _ => false
  | .refused r' => r == r'

/-- Whether bytes decode to the given instruction, under the parameters of the vectors. -/
def decodesTo (bytes : List Byte) (i : Instr) : Bool :=
  match decode Params.spec bytes with
  | .ok j => i == j
  | .error _ => false

/-- Whether bytes are rejected for the given reason. -/
def rejectsAs (bytes : List Byte) (e : Reject) : Bool :=
  match decode Params.spec bytes with
  | .ok _ => false
  | .error e' => e == e'

/-- A header with a command word only: `A` and `L` are 0. -/
def word (c0 c1 c2 c3 : Byte) : List Byte := [c0, c1, c2, c3, 0, 0, 0, 0, 0, 0, 0, 0]

/-- The result record and the number of events of the next state. -/
def ends (t : State) (status : Status) (value : Word) (data : List Byte) (events : Nat) : Bool :=
  t.result == { status := status, value := value, data := data } && t.events.length == events &&
    t.opState == .idle

/-- `ROM8` of the vectors at the bytes the tests read; the rest of its image does not matter to them. -/
def rom8 : RomImage where
  img := Memory.ofBytes 0 [0x80, 0x37, 0x12, 0x40, 4, 5, 6, 7, 8, 9, 10, 11, 12, 13, 14, 15] ++
    Memory.ofBytes 0x7FFFFC [0x13, 0x14, 0x15, 0x16]
  size := 0x800000

/-- A run launched on the reference cartridge, the bus idle and its trace empty. -/
def onCart (c : Params) (save : Save) : State :=
  { State.reset with
    cfg := c, launched := true
    env := { ca := 0#32, seed := 0, body := .cartridge { rom := some rom8, save := save } } }

/-- A run launched with no cartridge in the slot. -/
def noCart : State :=
  { State.reset with
    launched := true
    env := { ca := 0#32, seed := 0, body := .cartridge { rom := none, save := .none } } }

/-- `SRAM0` of the vectors at the bytes the tests touch. -/
def sram0 : Memory :=
  Memory.ofBytes 0 [0, 0] ++ Memory.ofBytes 0x10 [0xBE, 0xEF, 0x12, 0x34] ++ Memory.ofBytes 0x7FFE [0, 0]

/-- `EEP4K_A` of the vectors at the bytes the tests touch. -/
def eep4kA : Memory := Memory.ofBytes 0 ((List.range 24).map (fun i => if i < 16 then BitVec.ofNat 8 i else 0#8))

/-- The chip `FLASH_A` in array mode, with the given contents and `BUSY` draws; its busy patterns are zeros. -/
def flashA (array : Memory) (draws : List Nat) : FlashChip where
  mode := .array
  eraseSel := none
  eraseArmed := false
  pageSel := none
  pageBuf := []
  array := array
  busy := 0
  cmdHi := none
  idBlk := idBlkFlashA
  fp := none
  busyPat := List.replicate 8 0
  busyScript := draws
  patScript := []

/-- Parameters that R9 admits, with a FlashRAM chip of more than 2^32 bytes. -/
def hugeFlash : Params :=
  { Params.spec with flashBase := 0, flashPage := 0x20000, flashBlock := 0x20000, flashSize := 0x180000000 }

/-- The parameters with a small FlashRAM chip: 2 blocks of 2 sectors, 2 pages and 2 chunks of 4 bytes. -/
def smallFlash : Params :=
  { Params.spec with flashSize := 16, flashBlock := 8, flashSector := 4, flashPage := 4, flashChunk := 4 }

/-- The parameters with a ROM space of four probe steps of 16 bytes. -/
def smallRom : Params := { Params.spec with romSpace := 64, romProbeStep := 16, romFpLen := 4 }

/-- The state with one record to issue. -/
def issue (record : List Byte) (s : State) : State := { s with inputs := [.issue record] }

/-- `S.EEP_SIZE` recorded by an earlier EEPROM_SIZE. -/
def sized (n : Word) (s : State) : State := { s with eepSize := n }

/-- An address latched by an earlier LATCH_ADDRESS. -/
def latched (a : Word) (s : State) : State := { s with env := { s.env with ca := a } }

/-! ### Well-formedness: each check refuses an ill-formed term (R106, R111) -/

theorem test_wf_write_sram : (Instr.writeSramBytes 0#32 2#32 [1]).wellFormed Params.spec = false := by decide
theorem test_wf_write_eeprom_block :
    (Instr.writeEepromBlock 0#32 (List.replicate 7 0)).wellFormed Params.spec = false := by decide
theorem test_wf_write_eeprom :
    (Instr.writeAndVerifyEepromBytes 0#32 0#32 [1]).wellFormed Params.spec = false := by decide
theorem test_wf_flash_command : (Instr.flashCommand 7#4 0#16).wellFormed Params.spec = false := by decide
theorem test_wf_program_page :
    (Instr.flashProgramPage 0#32 (List.replicate 127 0)).wellFormed Params.spec = false := by decide +kernel
theorem test_wf_write_flashram :
    (Instr.writeFlashramBytes 0#32 1#32 []).wellFormed Params.spec = false := by decide
theorem test_wf_write_sector :
    (Instr.writeFlashramSector 0#32 (List.replicate 511 0)).wellFormed Params.spec = false := by decide +kernel

/-- Terms at each check's boundary that are well formed. -/
theorem test_wf_accepts :
    [Instr.writeSramBytes 0#32 1#32 [1], .writeEepromBlock 0#32 (List.replicate 8 0),
      .writeAndVerifyEepromBytes 0#32 0#32 [], .flashCommand 8#4 0#16,
      .flashProgramPage 0#32 (List.replicate 128 0), .writeFlashramBytes 0#32 1#32 [7],
      .writeFlashramSector 0#32 (List.replicate 512 0)].all (fun i => i.wellFormed Params.spec) = true := by
  decide +kernel

/-! ### Decoding: a record of every constructor, written out from R101, R102, R104, R111 -/

theorem test_decode_busInit : decodesTo (word 0x01 0 0 0) .busInit = true := by decide
/-- V-B12: unused fields are ignored. -/
theorem test_decode_unused_fields :
    decodesTo [0x01, 0x00, 0xFF, 0xFF, 0xDE, 0xAD, 0xBE, 0xEF, 0, 0, 0, 7] .busInit = true := by decide
theorem test_decode_setDirection : decodesTo (word 0x02 0x01 0 0) (.setDirection true) = true := by decide
theorem test_decode_latchAddress :
    decodesTo [0x03, 0, 0, 0, 0x10, 0, 0, 0x40, 0, 0, 0, 0] (.latchAddress 0x10000040#32) = true := by decide
theorem test_decode_readWord : decodesTo (word 0x04 0 0 0) .readWord = true := by decide
theorem test_decode_writeWord : decodesTo (word 0x05 0x00 0xBE 0xEF) (.writeWord 0xBEEF#16) = true := by decide
theorem test_decode_assertReset : decodesTo (word 0x06 0x00 0 0) (.assertReset false) = true := by decide
theorem test_decode_readRomBytes :
    decodesTo [0x10, 0, 0, 0, 0x03, 0xFF, 0xFF, 0xFC, 0, 0, 0, 4] (.readRomBytes 0x03FFFFFC#32 4#32) = true := by
  decide
theorem test_decode_detectRomSize : decodesTo (word 0x11 0 0 0) .detectRomSize = true := by decide
theorem test_decode_hasSram : decodesTo (word 0x20 0 0 0) .hasSram = true := by decide
theorem test_decode_readSramBytes :
    decodesTo [0x21, 0, 0, 0, 0, 0, 0, 0x11, 0, 0, 0, 2] (.readSramBytes 0x11#32 2#32) = true := by decide
theorem test_decode_writeSramBytes :
    decodesTo [0x22, 0, 0, 0, 0, 0, 0, 0x11, 0, 0, 0, 2, 0xAA, 0xBB]
      (.writeSramBytes 0x11#32 2#32 [0xAA, 0xBB]) = true := by decide
theorem test_decode_eepromSize : decodesTo (word 0x30 0 0 0) .eepromSize = true := by decide
theorem test_decode_readEepromBlock :
    decodesTo [0x31, 0, 0, 0, 0, 0, 0, 0x3F, 0, 0, 0, 0] (.readEepromBlock 0x3F#32) = true := by decide
theorem test_decode_writeEepromBlock :
    decodesTo [0x32, 0, 0, 0, 0, 0, 0, 3, 0, 0, 0, 0, 1, 2, 3, 4, 5, 6, 7, 8]
      (.writeEepromBlock 3#32 [1, 2, 3, 4, 5, 6, 7, 8]) = true := by decide
theorem test_decode_readEepromBytes :
    decodesTo [0x33, 0, 0, 0, 0, 0, 0, 6, 0, 0, 0, 4] (.readEepromBytes 6#32 4#32) = true := by decide
theorem test_decode_writeAndVerifyEepromBytes :
    decodesTo [0x34, 0, 0, 0, 0, 0, 0, 6, 0, 0, 0, 3, 0xA0, 0xA1, 0xA2]
      (.writeAndVerifyEepromBytes 6#32 3#32 [0xA0, 0xA1, 0xA2]) = true := by decide
theorem test_decode_flashCommand : decodesTo (word 0x40 0xF0 0x12 0x34) (.flashCommand 15#4 0x1234#16) = true := by
  decide
theorem test_decode_flashCommandReset : decodesTo (word 0x40 0x00 0 0) .flashCommandReset = true := by decide
/-- V-F4: the operand of a kind that takes none is dropped. -/
theorem test_decode_flashCommandReadArray :
    decodesTo (word 0x40 0x10 0x12 0x34) .flashCommandReadArray = true := by decide
theorem test_decode_flashCommandStatusMode : decodesTo (word 0x40 0x20 0 0) .flashCommandStatusMode = true := by
  decide
theorem test_decode_flashCommandEraseSelect :
    decodesTo (word 0x40 0x30 0x04 0x00) (.flashCommandEraseSelect 0x0400#16) = true := by decide
theorem test_decode_flashCommandEraseMode : decodesTo (word 0x40 0x40 0 0) .flashCommandEraseMode = true := by
  decide
theorem test_decode_flashCommandProgram : decodesTo (word 0x40 0x50 0 0) .flashCommandProgram = true := by decide
theorem test_decode_flashCommandPageSelect :
    decodesTo (word 0x40 0x60 0x01 0x23) (.flashCommandPageSelect 0x0123#16) = true := by decide
theorem test_decode_flashCommandExecute : decodesTo (word 0x40 0x70 0 0) .flashCommandExecute = true := by decide
theorem test_decode_flashReadStatus : decodesTo (word 0x41 0 0 0) .flashReadStatus = true := by decide
theorem test_decode_flashWaitReady : decodesTo (word 0x42 0 0 0) .flashWaitReady = true := by decide
theorem test_decode_hasFlashram : decodesTo (word 0x43 0 0 0) .hasFlashram = true := by decide
theorem test_decode_readFlashramBytes :
    decodesTo [0x44, 0, 0, 0, 0, 0, 1, 0, 0, 0, 0, 4] (.readFlashramBytes 0x100#32 4#32) = true := by decide
theorem test_decode_flashEraseBlock :
    decodesTo [0x45, 0, 0, 0, 0, 0, 0, 1, 0, 0, 0, 0] (.flashEraseBlock 1#32) = true := by decide
theorem test_decode_flashProgramPage :
    decodesTo ([0x46, 0, 0, 0, 0, 0, 0, 3, 0, 0, 0, 0] ++ List.replicate 128 0x5A)
      (.flashProgramPage 3#32 (List.replicate 128 0x5A)) = true := by decide +kernel
theorem test_decode_writeFlashramBytes :
    decodesTo [0x47, 0, 0, 0, 0, 0, 0, 0x10, 0, 0, 0, 1, 0xDE]
      (.writeFlashramBytes 0x10#32 1#32 [0xDE]) = true := by decide
theorem test_decode_writeFlashramSector :
    decodesTo ([0x48, 0, 0, 0, 0, 0, 0, 5, 0, 0, 0, 0] ++ List.replicate 512 0x55)
      (.writeFlashramSector 5#32 (List.replicate 512 0x55)) = true := by decide +kernel

/-- V-X1 to V-X5 and V-X6, V-X7, V-X8, V-X10: each rejected by the check that fails first. -/
theorem test_decode_rejects :
    (rejectsAs (word 0x00 0 0 0) .illegalOp && rejectsAs (word 0xFF 0 0 0) .illegalOp &&
      rejectsAs (word 0x07 0x02 0 0) .illegalOp && rejectsAs (word 0x01 0x02 0 0) .reservedBits &&
      rejectsAs (word 0x01 0x0E 0 0) .reservedBits && rejectsAs (word 0x01 0 0 0 ++ [0]) .dataLength &&
      rejectsAs ([0x10, 0, 0, 0, 0, 0, 0, 0, 0, 0, 0, 3] ++ [0]) .dataLength &&
      rejectsAs [0x01, 0, 0, 0, 0, 0, 0, 0, 0, 0, 0] .shortRecord) = true := by decide

/-- The table's words as the host numbers them: bit 0 of `CW` first, operand words of zeros. -/
theorem test_table_words :
    decodeTableWord 32 0x01000000 = some .busInit ∧ decodeTableWord 32 0x0500BEEF = some (.writeWord 0xBEEF#16) ∧
    decodeTableWord 32 0x40600123 = some (.flashCommandPageSelect 0x0123#16) ∧
    decodeTableWord 32 0x32000000 = some (.writeEepromBlock 0#32 (List.replicate 8 0)) ∧
    decodeTableWord 32 0x01020000 = none := by decide +kernel

/-- A table word stored by `withFetchWord` is the first instruction a step runs (V-B2). -/
theorem test_withFetchWord :
    leaves (step (State.reset.withFetchWord 32 0x02010000))
      (fun t => t.gpioDir == 0xFFFF#16 && ends t .ok 0#32 [] 1) = true := by decide +kernel

/-! ### One step each: the vectors of spec/95_test_vectors.md -/

/-- R131, R65, R310 by hand: at power-on with WR and RD low, BUS_INIT ends no pulse, so nothing is stored and
the counter stays. -/
theorem test_busInit_power_on :
    leaves (exec .busInit { latched 0x08000000#32 (onCart Params.spec (.sram sram0)) with
        wr := 0#1, rd := 0#1, gpioDir := 0xFFFF#16, gpioOut := 0xBEEF#16 })
      (fun t => ends t .ok 0#32 [] 5 && t.env.ca == 0x08000000#32 && t.env.saveByte 0 == 0#8 && t.wr == 1#1) = true := by
  decide +kernel

/-- V-B1. -/
theorem test_busInit :
    leaves (step (issue (word 0x01 0 0 0) { State.reset with gpioDir := 0xFFFF#16, aleh := 0#1, alel := 0#1 }))
      (fun t => ends t .ok 0#32 [] 5 && t.launched && t.gpioDir == 0#16 && t.gpioPull == 1#1 && t.aleh == 1#1 &&
        t.alel == 1#1 && t.joy == 1#1 &&
        t.trace == [.ctrl .wr 1#1, .ctrl .rd 1#1, .ctrl .aleh 1#1, .ctrl .alel 1#1, .dir false]) = true := by
  decide +kernel

/-- V-B2. -/
theorem test_setDirection_out :
    leaves (step (issue (word 0x02 0x01 0 0) { noCart with gpioOut := 0x1234#16 }))
      (fun t => ends t .ok 0#32 [] 1 && t.gpioDir == 0xFFFF#16 && t.gpioOut == 0#16) = true := by decide +kernel

/-- V-B4: the output latch is not touched when the bus becomes an input (R132). -/
theorem test_setDirection_in :
    leaves (step (issue (word 0x02 0x00 0 0) { noCart with gpioOut := 0x1234#16, gpioDir := 0xFFFF#16 }))
      (fun t => t.trace == [.dir false] && t.gpioDir == 0#16 && t.gpioOut == 0x1234#16) = true := by
  decide +kernel

/-- V-B5, with R133's example trace. -/
theorem test_latchAddress :
    leaves (step (issue [0x03, 0, 0, 0, 0x10, 0, 0, 0x40, 0, 0, 0, 0] (onCart Params.spec .none)))
      (fun t => ends t .ok 0#32 [] 14 && t.env.ca == 0x10000040#32 && t.aleh == 0#1 && t.alel == 0#1 &&
        t.trace == [.ctrl .wr 1#1, .ctrl .rd 1#1, .ctrl .aleh 1#1, .ctrl .alel 1#1, .dir true,
          .out 0x1000#16, .delay .tSetup, .ctrl .aleh 0#1, .delay .tHold,
          .out 0x0040#16, .delay .tSetup, .ctrl .alel 0#1, .delay .tHold, .dir false]) = true := by
  decide +kernel

/-- V-B6: the read cycle of a `PEEK`, and the counter after it. -/
theorem test_readWord :
    leaves (exec .readWord (latched 0x10000000#32 (onCart Params.spec .none)))
      (fun t => ends t .ok 0x8037#32 [] 5 && t.env.ca == 0x10000002#32 &&
        t.trace == [.ctrl .rd 0#1, .delay .tAccess, .sample 0x8037#16, .ctrl .rd 1#1, .delay .tHold]) = true := by
  decide +kernel

/-- V-B3. -/
theorem test_readWord_refused :
    leaves (step (issue (word 0x04 0 0 0) { noCart with gpioDir := 0xFFFF#16 }))
      (fun t => ends t .misuse 6#32 [] 0 && t.gpioDir == 0xFFFF#16) = true := by decide +kernel

/-- V-B7: the write cycle of a `POKE`, what it stores, and the counter after it. -/
theorem test_writeWord :
    leaves (exec (.writeWord 0xBEEF#16) (latched 0x08000010#32 (onCart Params.spec (.sram []))))
      (fun t => ends t .ok 0#32 [] 6 && t.env.ca == 0x08000012#32 &&
        t.env.saveByte 0x10 == 0xBE && t.env.saveByte 0x11 == 0xEF && t.env.saveByte 0x12 == 0xFF &&
        t.trace == [.dir true, .out 0xBEEF#16, .ctrl .wr 0#1, .delay .tWpw, .ctrl .wr 1#1, .dir false]) = true := by
  decide +kernel

/-- V-B11: legal in either direction state. -/
theorem test_writeWord_driven :
    leaves (step (issue (word 0x05 0x00 0x12 0x34) { noCart with gpioDir := 0xFFFF#16 }))
      (fun t => ends t .ok 0#32 [] 6 && t.gpioDir == 0#16) = true := by decide +kernel

/-- V-B8. -/
theorem test_assertReset :
    leaves (step (issue (word 0x06 0x01 0 0) (onCart Params.spec .none)))
      (fun t => ends t .ok 0#32 [] 2 && t.rstAsserted && t.trace == [.ctrl .rst 0#1, .delay .tRstAssert]) = true := by
  decide +kernel

/-- V-B9. -/
theorem test_releaseReset :
    leaves (step (issue (word 0x06 0x00 0 0) { noCart with rstAsserted := true }))
      (fun t => !t.rstAsserted && t.trace == [.ctrl .rst 1#1, .delay .tRstRelease]) = true := by decide +kernel

/-- Whether the environment is a FlashRAM cartridge whose chip satisfies a test. -/
def chipIs (e : Env) (p : FlashChip → Bool) : Bool :=
  match e.body with
  | .oracle _ _ => false
  | .cartridge k =>
    match k.save with
    | .flash chip => p chip
    | .none => false
    | .sram _ => false
    | .eep4k _ => false
    | .eep16k _ => false

/-- R95: a chip inserted while reset is asserted is in array mode once the line is released, with nothing armed
(R86). -/
theorem test_inserted_in_reset :
    leaves (step { noCart with
        rstAsserted := true,
        inputs := [
          .changeCartridge (onCart Params.spec
            (.flash { flashA [] [] with mode := .status, eraseSel := some 0, eraseArmed := true })).env,
          .issue (word 0x06 0x00 0 0)] })
      (fun s => leaves (step s) (fun t => !t.rstAsserted &&
        chipIs t.env (fun chip => chip.mode == .array && chip.eraseSel == none && !chip.eraseArmed))) = true := by
  decide +kernel

/-- R95: a chip held in reset from the start is in array mode once the line is released. -/
theorem test_release_from_reset :
    leaves (exec (.assertReset false)
        { onCart Params.spec (.flash { flashA [] [] with mode := .load }) with rstAsserted := true })
      (fun t => chipIs t.env (fun chip => chip.mode == .array && chip.array == [] && chip.cmdHi == none)) = true := by
  decide +kernel

/-- R81: what sizes a ROM may have. -/
theorem test_rom_sizes :
    [0, 1, 2, 3, 0x04000000, 0x08000000].map (fun n => RomImage.sized Params.spec { img := [], size := n }) =
      [false, false, true, false, true, false] := by decide +kernel

/-- V-R1. -/
theorem test_readRomBytes :
    leaves (exec (.readRomBytes 0#32 4#32) (onCart Params.spec .none))
      (fun t => ends t .ok 0#32 [0x80, 0x37, 0x12, 0x40] 24) = true := by decide +kernel

/-- V-R5, with R68's mirror. -/
theorem test_readRomBytes_mirror :
    leaves (exec (.readRomBytes 0x03FFFFFC#32 4#32) (onCart Params.spec .none))
      (fun t => ends t .ok 0#32 [0x13, 0x14, 0x15, 0x16] 24) = true := by decide +kernel

/-- V-R16: the counter wraps from 0x100001FE to 0x10000000 (R66). -/
theorem test_readRomBytes_wrap :
    leaves (exec (.readRomBytes 0x1FC#32 8#32) (onCart { Params.spec with autoincWrap := some 512 } .none))
      (fun t => (t.result.data.drop 4) == [0x80, 0x37, 0x12, 0x40]) = true := by decide +kernel

/-- R66 with the least power of two: the counter stays. -/
theorem test_counter_wrap_one : advanceCounter (some 1) 0x08000010#32 = 0x08000010#32 := by decide

/-- R9 by hand: `AUTOINC_WRAP` may be 1, and FLASH_BASE may be as high as its last chunk allows, not higher. -/
theorem test_config_bounds :
    ({ Params.spec with autoincWrap := some 1 }.ok && { Params.spec with autoincWrap := some 1 }.domains &&
      { Params.spec with flashBase := 0xFFFEFF80 }.ok && { Params.spec with flashBase := 0xFFFEFFC0 }.ok &&
      !{ Params.spec with flashBase := 0xFFFEFFC2 }.ok &&
      !{ Params.spec with romBase := 0xFFF00000, romSpace := 0x100000, romFpLen := 0x100002 }.ok) = true := by
  decide +kernel

/-- V-R11. -/
theorem test_detectRomSize_nocart :
    leaves (exec .detectRomSize noCart) (fun t => ends t .ok 0x00100000#32 [] 108) = true := by decide +kernel

/-- A cartridge of the small ROM space without a mirror: 64 different bytes. -/
def plainRom : RomImage where
  img := Memory.ofBytes 0 ((List.range 64).map (BitVec.ofNat 8))
  size := 64

/-- A run launched on the reference cartridge with the given ROM and save medium. -/
def onRom (c : Params) (rom : RomImage) (save : Save) : State :=
  { onCart c save with env := { ca := 0#32, seed := 0, body := .cartridge { rom := some rom, save := save } } }

/-- R152 by hand, on a ROM space of four steps of 16 bytes and no two boundaries alike: three probes, then the
whole space. -/
theorem test_detectRomSize_no_mirror :
    leaves (exec .detectRomSize (onRom smallRom plainRom .none)) (fun t => ends t .ok 64#32 [] (4 * 24)) = true := by
  decide +kernel

/-- V-S1. -/
theorem test_hasSram :
    leaves (exec .hasSram (onCart Params.spec (.sram sram0)))
      (fun t => ends t .ok 1#32 [] 97 && t.env.ca == 0x08008000#32 &&
        t.env.saveByte 0x7FFE == 0 && t.env.saveByte 0x7FFF == 0) = true := by decide +kernel

/-- V-S2. -/
theorem test_hasSram_nocart :
    leaves (exec .hasSram noCart) (fun t => ends t .ok 0#32 [] 19) = true := by decide +kernel

/-- V-S5. -/
theorem test_readSramBytes :
    leaves (exec (.readSramBytes 0x11#32 2#32) (onCart Params.spec (.sram sram0)))
      (fun t => ends t .ok 0#32 [0xEF, 0x12] 24) = true := by decide +kernel

/-- V-S9: a new latch at the burst boundary (the bytes there are blank in this image). -/
theorem test_readSramBytes_two_bursts :
    leaves (exec (.readSramBytes 0x1FE#32 4#32) (onCart Params.spec (.sram sram0)))
      (fun t => ends t .ok 0#32 [0xFF, 0xFF, 0xFF, 0xFF] 38 &&
        t.events.contains (.out 0x0200#16)) = true := by decide +kernel

/-- V-S6. -/
theorem test_writeSramBytes :
    leaves (exec (.writeSramBytes 0x11#32 2#32 [0xAA, 0xBB]) (onCart Params.spec (.sram sram0)))
      (fun t => ends t .ok 0#32 [] 64 && t.env.saveByte 0x10 == 0xBE && t.env.saveByte 0x11 == 0xAA &&
        t.env.saveByte 0x12 == 0xBB && t.env.saveByte 0x13 == 0x34) = true := by decide +kernel

/-- V-S7: the last byte of the SRAM. -/
theorem test_writeSramBytes_last :
    leaves (exec (.writeSramBytes 0x7FFF#32 1#32 [0x5A]) (onCart Params.spec (.sram sram0)))
      (fun t => ends t .ok 0#32 [] 39 && t.env.saveByte 0x7FFE == 0 && t.env.saveByte 0x7FFF == 0x5A) = true := by
  decide +kernel

/-- V-E1. -/
theorem test_eepromSize :
    leaves (exec .eepromSize (onCart Params.spec (.eep4k eep4kA)))
      (fun t => ends t .ok 512#32 [] 1 && t.eepSize == 512#32 &&
        t.trace == [.joy [0x00] (some [0x00, 0x80, 0x00])]) = true := by decide +kernel

/-- V-E2: a size recorded before is forgotten. -/
theorem test_eepromSize_nocart :
    leaves (exec .eepromSize (sized 512#32 noCart))
      (fun t => ends t .ok 0#32 [] 1 && t.eepSize == 0#32 && t.trace == [.joy [0x00] none]) = true := by
  decide +kernel

/-- R195 by hand: block 1 of `EEP4K_A`. -/
theorem test_readEepromBlock :
    leaves (exec (.readEepromBlock 1#32) (sized 512#32 (onCart Params.spec (.eep4k eep4kA))))
      (fun t => ends t .ok 0#32 [8, 9, 10, 11, 12, 13, 14, 15] 1 &&
        t.trace == [.joy [0x04, 0x01] (some [8, 9, 10, 11, 12, 13, 14, 15])]) = true := by decide +kernel

/-- V-E6 and V-E13. -/
theorem test_readEepromBlock_failures :
    (leaves (exec (.readEepromBlock 64#32) (sized 512#32 (onCart Params.spec (.eep4k eep4kA))))
      (fun t => ends t .misuse 3#32 [] 0) &&
     leaves (exec (.readEepromBlock 0#32) (sized 512#32 noCart)) (fun t => ends t .absent 0#32 [] 1)) = true := by
  decide +kernel

/-- R196 by hand: block 1 written, its neighbours kept. -/
theorem test_writeEepromBlock :
    leaves (exec (.writeEepromBlock 1#32 [0xF0, 1, 2, 3, 4, 5, 6, 0xF7]) (sized 512#32 (onCart Params.spec (.eep4k eep4kA))))
      (fun t => ends t .ok 0#32 [] 1 && t.env.saveByte 7 == 7 && t.env.saveByte 8 == 0xF0 &&
        t.env.saveByte 15 == 0xF7 && t.env.saveByte 16 == 0) = true := by decide +kernel

/-- V-E10. -/
theorem test_writeEepromBlock_short :
    leaves (exec (.writeEepromBlock 3#32 (List.replicate 7 0)) (sized 512#32 noCart))
      (fun t => ends t .misuse 4#32 [] 0) = true := by decide +kernel

/-- V-E4. -/
theorem test_readEepromBytes :
    leaves (exec (.readEepromBytes 6#32 4#32) (sized 512#32 (onCart Params.spec (.eep4k eep4kA))))
      (fun t => ends t .ok 0#32 [6, 7, 8, 9] 2) = true := by decide +kernel

/-- V-E8. -/
theorem test_readEepromBytes_empty :
    leaves (exec (.readEepromBytes 0#32 0#32) noCart) (fun t => ends t .ok 0#32 [] 0) = true := by decide +kernel

/-- V-E3. -/
theorem test_writeAndVerifyEepromBytes :
    leaves (exec (.writeAndVerifyEepromBytes 6#32 3#32 [0xA0, 0xA1, 0xA2])
        (sized 512#32 (onCart Params.spec (.eep4k eep4kA))))
      (fun t => ends t .ok 0#32 [] 6 &&
        ((List.range 16).map t.env.saveByte) ==
          [0, 1, 2, 3, 4, 5, 0xA0, 0xA1, 0xA2, 9, 10, 11, 12, 13, 14, 15]) = true := by decide +kernel

/-- A cartridge that answers serial frames with the given scripted answers, in order. -/
def answering (replies : List (Option (List Byte))) : State :=
  { noCart with env := { ca := 0#32, seed := 0, body := .oracle [] replies } }

/-- V-E11, the double as scripted answers: writes are answered and store nothing. -/
theorem test_writeAndVerifyEepromBytes_fails :
    leaves (exec (.writeAndVerifyEepromBytes 16#32 1#32 [0xFF]) (sized 512#32 (answering
        (some (List.replicate 8 0) :: (List.replicate 4 [some [0], some (List.replicate 8 0)]).flatten))))
      (fun t => ends t .verifyFail 2#32 [] 9) = true := by decide +kernel

/-- V-F1 and the seven other kinds: the two words each sends, and the mode of V-F1. -/
theorem test_flashCommandStatusMode :
    leaves (exec .flashCommandStatusMode (onCart Params.spec (.flash (flashA [] []))))
      (fun t => ends t .ok 0#32 [] 26 &&
        t.env.body == .cartridge { rom := some rom8, save := .flash { flashA [] [] with mode := .status } }) = true := by
  decide +kernel

/-- The two words that a raw command puts on the bus (R241), from its trace. -/
def sends (i : Instr) (hi lo : Half) : Bool :=
  leaves (exec i (onCart Params.spec (.flash (flashA [] [])))) (fun t => ends t .ok 0#32 [] 26 &&
    t.trace.drop 14 == [.dir true, .out hi, .ctrl .wr 0#1, .delay .tWpw, .ctrl .wr 1#1, .dir false,
      .dir true, .out lo, .ctrl .wr 0#1, .delay .tWpw, .ctrl .wr 1#1, .dir false])

/-- V-F1. -/
theorem test_flashCommandStatusMode_words : sends .flashCommandStatusMode 0xE100 0 = true := by decide +kernel
theorem test_flashCommandReset : sends .flashCommandReset 0xF000 0 = true := by decide +kernel
/-- V-F4. -/
theorem test_flashCommandReadArray : sends .flashCommandReadArray 0xF000 0 = true := by decide +kernel
/-- V-F2, with a page index. -/
theorem test_flashCommandEraseSelect : sends (.flashCommandEraseSelect 0x0400#16) 0x4B00 0x0400 = true := by
  decide +kernel
theorem test_flashCommandEraseMode : sends .flashCommandEraseMode 0x7800 0 = true := by decide +kernel
theorem test_flashCommandProgram : sends .flashCommandProgram 0xB400 0 = true := by decide +kernel
/-- V-F3. -/
theorem test_flashCommandPageSelect : sends (.flashCommandPageSelect 0x0123#16) 0xA500 0x0123 = true := by
  decide +kernel
theorem test_flashCommandExecute : sends .flashCommandExecute 0xD200 0 = true := by decide +kernel

/-- V-X12 and V-X13. -/
theorem test_flashCommand_refused :
    (leaves (exec (.flashCommand 8#4 0#16) noCart) (fun t => ends t .misuse 5#32 [] 0) &&
      leaves (exec (.flashCommand 15#4 0#16) noCart) (fun t => ends t .misuse 5#32 [] 0)) = true := by decide +kernel

/-- V-F14. -/
theorem test_flashReadStatus :
    leaves (exec .flashReadStatus (onCart Params.spec (.flash (flashA [] []))))
      (fun t => ends t .ok 0#32 [0x11, 0x11, 0x80, 0x01, 0x00, 0xC2, 0x00, 0x1E] 60) = true := by decide +kernel

/-- V-F15, and R244 with a chip that shows busy twice: 3 polls. -/
theorem test_flashWaitReady :
    (leaves (exec .flashWaitReady (onCart Params.spec (.flash (flashA [] [])))) (fun t => ends t .ok 1#32 [] 60) &&
      leaves (exec .flashWaitReady (onCart Params.spec
          (.flash { flashA [] [] with busy := 2, patScript := [List.replicate 8 1, List.replicate 8 2] })))
        (fun t => ends t .ok 3#32 [] (60 * 3 + 2 * 2))) = true := by decide +kernel

/-- V-F16 with a poll bound of 3 in place of 500. -/
theorem test_flashWaitReady_timeout :
    leaves (exec .flashWaitReady (onCart { Params.spec with flashPollMax := 3 }
        (.flash { flashA [] [] with busy := 10, patScript := List.replicate 3 (List.replicate 8 1) })))
      (fun t => ends t .timeout 3#32 [] (60 * 3 + 2 * 2)) = true := by decide +kernel

/-- V-F10. -/
theorem test_hasFlashram :
    leaves (exec .hasFlashram (onCart Params.spec (.flash (flashA [] []))))
      (fun t => ends t .ok 0x11E#32 [0x11, 0x11, 0x80, 0x01, 0x00, 0xC2, 0x00, 0x1E] 112) = true := by decide +kernel

/-- V-F11: the variant with an unknown ID. -/
theorem test_hasFlashram_unknown :
    leaves (exec .hasFlashram (onCart Params.spec (.flash { flashA [] [] with idBlk := idBlkFlashX })))
      (fun t => ends t .ok 0x099#32 idBlkFlashX.toList 112) = true := by decide +kernel

/-- R88 by hand: EXECUTE with a page selected ANDs the page buffer into it, and with an erase armed erases. -/
theorem test_flashCommandExecute_effect :
    (leaves (exec .flashCommandExecute (onCart smallFlash (.flash { flashA (Memory.ofBytes 3 [0x11, 0x13]) [0] with
        pageSel := some 1, pageBuf := Memory.ofBytes 0 [0x12] })))
      (fun t => t.env.saveByte 3 == 0x11 && t.env.saveByte 4 == 0x12 && t.env.saveByte 5 == 0xFF) &&
     leaves (exec .flashCommandExecute (onCart smallFlash (.flash { flashA (Memory.ofBytes 7 [0x11, 0x13]) [0] with
        eraseSel := some 1, eraseArmed := true, pageSel := some 1, pageBuf := Memory.ofBytes 0 [0x12] })))
      (fun t => t.env.saveByte 7 == 0x11 && t.env.saveByte 8 == 0xFF)) = true := by decide +kernel

/-- R10, D37: a sum past 2^32 is a range error on a chip that holds it, and no wrap. -/
theorem test_range_past_32_bits :
    (leaves (exec (.readFlashramBytes 0xFFFFFFFE#32 4#32) { noCart with cfg := hugeFlash })
      (fun t => ends t .misuse 3#32 [] 0) &&
     leaves (exec (.writeFlashramBytes 0xFFFFFFFE#32 4#32 [1, 2, 3, 4]) { noCart with cfg := hugeFlash })
      (fun t => ends t .misuse 3#32 [] 0) &&
     !outOfRange hugeFlash.flashSize 0xFFFFFFFE#32 2#32) = true := by decide +kernel

/-- V-F12. -/
theorem test_hasFlashram_nocart :
    leaves (exec .hasFlashram noCart) (fun t => ends t .ok 0x0FF#32 (List.replicate 8 0xFF) 112) = true := by
  decide +kernel

/-- V-F19. -/
theorem test_readFlashramBytes :
    leaves (exec (.readFlashramBytes 0x100#32 4#32)
        (onCart Params.spec (.flash (flashA (Memory.ofBytes 0x100 [1, 2, 3, 4]) []))))
      (fun t => ends t .ok 0#32 [1, 2, 3, 4] 360) = true := by decide +kernel

/-- V-F20: two chunks. -/
theorem test_readFlashramBytes_two_chunks :
    leaves (exec (.readFlashramBytes 0x7F#32 2#32)
        (onCart Params.spec (.flash (flashA (Memory.ofBytes 0x7F [0xA1, 0xB2]) []))))
      (fun t => ends t .ok 0#32 [0xA1, 0xB2] (26 + 2 * 334)) = true := by decide +kernel

/-- V-F17, at two bytes of the block. -/
theorem test_flashEraseBlock :
    leaves (exec (.flashEraseBlock 0#32)
        (onCart Params.spec (.flash (flashA (Memory.ofBytes 0 [0x11] ++ Memory.ofBytes 0x1FFFF [0x11]) [0]))))
      (fun t => ends t .ok 0#32 [] 138 && t.env.saveByte 0 == 0xFF && t.env.saveByte 0x1FFFF == 0xFF) = true := by
  decide +kernel

/-- V-F18. -/
theorem test_flashEraseBlock_range :
    leaves (exec (.flashEraseBlock 1#32) noCart) (fun t => ends t .misuse 3#32 [] 0) = true := by decide +kernel

/-- V-F5. -/
theorem test_flashProgramPage :
    leaves (exec (.flashProgramPage 3#32 (List.replicate 128 0x5A))
        (onCart Params.spec (.flash { flashA [] [1] with patScript := [List.replicate 8 1, List.replicate 8 2] })))
      (fun t => ends t .ok 0#32 [] 958 && t.env.saveByte 383 == 0xFF && t.env.saveByte 384 == 0x5A &&
        t.env.saveByte 511 == 0x5A && t.env.saveByte 512 == 0xFF) = true := by decide +kernel

/-- V-F6 on a page of 4 bytes: the page reads back 0x00. -/
theorem test_flashProgramPage_verify :
    leaves (exec (.flashProgramPage 3#32 (List.replicate 4 0xA5))
        (onCart smallFlash (.flash (flashA (Memory.ofBytes 12 (List.replicate 4 0x5A)) [0]))))
      (fun t => t.result == { status := .verifyFail, value := 3#32, data := [] } &&
        t.env.saveByte 12 == 0 && t.env.saveByte 11 == 0xFF) = true := by decide +kernel

/-- Program P4's step 5 on a block of 8 bytes, the events counted as there. -/
theorem test_writeFlashramBytes :
    leaves (exec (.writeFlashramBytes 2#32 3#32 [0xDE, 0xAD, 0xBE])
        (onCart smallFlash (.flash (flashA (Memory.ofBytes 0 (List.replicate 16 0x11)) (List.replicate 3 0)))))
      (fun t => ends t .ok 0#32 [] ((26 + 2 * 24) + 138 + 2 * 214) &&
        (List.range 10).map t.env.saveByte == [0x11, 0x11, 0xDE, 0xAD, 0xBE, 0x11, 0x11, 0x11, 0x11, 0x11]) = true := by
  decide +kernel

/-- V-F25: a stream in flight is abandoned. -/
theorem test_writeFlashramBytes_drops_stream :
    leaves (exec (.writeFlashramBytes 0#32 1#32 [0])
        { onCart smallFlash (.flash (flashA [] (List.replicate 5 0))) with
          fsActive := true, fsBitmap := [true, false] })
      (fun t => !t.fsActive && t.fsBitmap == [false, false]) = true := by decide +kernel

/-- V-F22 and V-F24 on sectors of 4 bytes: sector 3 is slot 1 of block 1, and block 0's stream is abandoned. -/
theorem test_writeFlashramSector :
    leaves (exec (.writeFlashramSector 3#32 (List.replicate 4 0x55))
        { onCart smallFlash .none with fsActive := true, fsBlock := 0#32, fsBitmap := [true, false] })
      (fun t => ends t .ok 0#32 [] 0 && t.fsActive && t.fsBlock == 1#32 && t.fsBitmap == [false, true] &&
        t.blkBuf.read 3 == 0xFF && t.blkBuf.read 4 == 0x55 && t.blkBuf.read 7 == 0x55 &&
        t.blkBuf.read 8 == 0xFF) = true := by decide +kernel

/-- Program P5's last record on a block of two sectors of 4 bytes: the commit. -/
theorem test_writeFlashramSector_commits :
    leaves (exec (.writeFlashramSector 2#32 (List.replicate 4 0x22))
        { onCart smallFlash (.flash (flashA [] (List.replicate 3 0))) with
          fsActive := true, fsBlock := 1#32, fsBitmap := [false, true]
          blkBuf := Memory.ofBytes 4 (List.replicate 4 0x33) })
      (fun t => ends t .ok 1#32 [] (138 + 2 * 214) && !t.fsActive && t.fsBitmap == [false, false] &&
        (List.range 9).map (fun i => t.env.saveByte (7 + i)) ==
          [0xFF, 0x22, 0x22, 0x22, 0x22, 0x33, 0x33, 0x33, 0x33]) = true := by decide +kernel

/-! ### Step refusals and the fault (R300, R339) -/

theorem test_step_refusals :
    (refuses (step { noCart with cfg := { Params.spec with sramSize := 3 } }) .illFormedConfig &&
      refuses (step (issue (word 0x01 0 0 0) { noCart with opState := .busy })) .commandWhileBusy &&
      refuses (step (issue (word 0x04 0 0 0) State.reset)) .firstNotBusInit &&
      refuses (step (issue [0x01] noCart)) .shortRecord) = true := by decide +kernel

/-- R29, R300: turning the bus to output while `RD` is low and the cartridge drives is contention. -/
theorem test_contention :
    (match exec (.setDirection true) { State.reset with rd := 0#1 } with
      | .fault .busContention => true
      | .next _ => false
      | .refused _ => false) = true := by decide +kernel

/-! ### Runs and launch premises (R321, R328, R338, R339) -/

/-- A run from reset with the given records, on an empty slot. -/
def launch (records : List (List Byte)) : State :=
  { State.reset with inputs := records.map .issue, env := noCart.env }

/-- Program P6's first two records: the run has ended, with a result each, and the block state of R132. -/
theorem test_observe :
    (match observe (launch [word 0x01 0 0 0, word 0x02 0x01 0 0, word 0x04 0 0 0]) with
      | .ended seen => seen.results.map (fun r => (r.status, r.value)) == [(.ok, 0#32), (.ok, 0#32), (.misuse, 6#32)] &&
          seen.trace.length == 6 && seen.final.gpioDir == 0xFFFF#16
      | .faulted _ => false
      | .refused _ => false
      | .unfinished => false) = true := by decide +kernel

/-- A run that breaks `first_bus_init` has no observation. -/
theorem test_observe_refused :
    observe (launch [word 0x04 0 0 0]) = .refused .firstNotBusInit := by decide +kernel

/-- R321 on an empty slot (V-H2): the boot sequence stops at the header. -/
def bootNoCart : State :=
  launch [word 0x01 0 0 0, word 0x06 0x01 0 0, word 0x06 0x00 0 0, [0x10, 0, 0, 0, 0, 0, 0, 0, 0, 0, 0, 0x40]]

/-- Nothing past that point runs (V-H2): a further probe breaks the duties, and so does a bus operation in
reset. -/
theorem test_duties_broken :
    (bootInOrder .start (runItems 5 { bootNoCart with inputs := bootNoCart.inputs ++ [.issue (word 0x11 0 0 0)] })
      || (runItems 3 (launch [word 0x01 0 0 0, word 0x06 0x01 0 0, word 0x04 0 0 0])).all quietInReset) = false := by
  decide +kernel

/-- Whether a run's items keep R321 and R328. -/
def dutiful (s : State) : Bool :=
  bootInOrder .start (runItems s.inputs.length s) && (runItems s.inputs.length s).all quietInReset

/-- The boot may be run again after an absent header, and after a change the header's first word alone may be
read (V-H4); BUS_INIT is no bus operation where power-on left the reset line asserted (R310, R328). -/
theorem test_duties_kept :
    (dutiful { bootNoCart with inputs := bootNoCart.inputs ++ bootNoCart.inputs } &&
     dutiful { bootNoCart with inputs := bootNoCart.inputs ++
       [.changeCartridge noCart.env, .issue [0x10, 0, 0, 0, 0, 0, 0, 0, 0, 0, 0, 4]] } &&
     dutiful { bootNoCart with rstAsserted := true }) = true := by decide +kernel

/-- The programs P3 and P4 (its first five operations, a read in place of the write) meet the duties. -/
theorem test_duties_programs :
    (dutiful { launch [word 0x01 0 0 0, word 0x20 0 0 0, [0x31, 0, 0, 0, 0, 0, 0, 0, 0, 0, 0, 0], word 0x30 0 0 0,
        [0x31, 0, 0, 0, 0, 0, 0, 0x40, 0, 0, 0, 0], [0x34, 0, 0, 0, 0, 0, 0, 6, 0, 0, 0, 3, 0xA0, 0xA1, 0xA2],
        [0x33, 0, 0, 0, 0, 0, 0, 4, 0, 0, 0, 8]] with env := (onCart Params.spec (.eep4k eep4kA)).env } &&
     dutiful { launch [word 0x01 0 0 0, word 0x06 0x01 0 0, word 0x06 0x00 0 0, word 0x43 0 0 0,
        [0x44, 0, 0, 0, 0, 0, 0, 0x0E, 0, 0, 0, 8]] with env := (onCart Params.spec (.flash (flashA [] []))).env })
      = true := by decide +kernel

/-- A reset line released by itself before the boot does not spoil it; a pre-load after an absent header, and
probes in the wrong order, break the duties (R321). -/
theorem test_boot_order :
    (let ok (value : Word) (data : List Byte) : Result := { status := .ok, value := value, data := data }
     let op (i : Instr) (value : Word) (data : List Byte) : RunItem := .operation i false [] (ok value data)
     let reset : List RunItem := [op (.assertReset true) 0#32 [], op (.assertReset false) 0#32 []]
     let header (b : Byte) : RunItem := op (.readRomBytes 0#32 64#32) 0#32 (List.replicate 64 b)
     let sram : RunItem := op .hasSram 0#32 []
     let eeprom : RunItem := op .eepromSize 0#32 []
     let flash : RunItem := op .hasFlashram 0xFF#32 []
     let probes : List RunItem := [op .detectRomSize 0x00800000#32 [], sram, eeprom, flash]
     let early : List RunItem := [op .busInit 0#32 [], op (.assertReset false) 0#32 []] ++ reset ++ [header 0x80] ++ probes
     bootInOrder .start early && (Boot.run .start early).ready &&
     bootInOrder .start ([op .busInit 0#32 [], sram] ++ reset ++ [header 0x80] ++ probes ++ [header 0x80]) &&
     !bootInOrder .start ([op .busInit 0#32 []] ++ reset ++ [header 0xFF, op (.readSramBytes 0#32 512#32) 0#32 []]) &&
     !bootInOrder .start [op .busInit 0#32 [], flash, sram, eeprom] &&
     !bootInOrder .start [op .busInit 0#32 [], op .hasSram 1#32 [], eeprom]) = true := by decide +kernel

/-- P1's operations and results are the whole boot sequence, to the pre-load of the SRAM found; without the
pre-load, or after an absent header (V-H2), it has not given data operations their meaning. -/
theorem test_boot_ready :
    (let ok (value : Word) (data : List Byte) : Result := { status := .ok, value := value, data := data }
     let steps (header : List Byte) : List RunItem :=
       [.operation .busInit false [] (ok 0#32 []), .operation (.assertReset true) false [] (ok 0#32 []),
        .operation (.assertReset false) true [] (ok 0#32 []),
        .operation (.readRomBytes 0#32 64#32) false [] (ok 0#32 header),
        .operation .detectRomSize false [] (ok 0x00800000#32 []), .operation .hasSram false [] (ok 1#32 [])]
     let load : RunItem := .operation (.readSramBytes 0#32 512#32) false [] (ok 0#32 [])
     (Boot.run .start (steps [0x80, 0x37, 0x12, 0x40] ++ [load])).ready &&
     !(Boot.run .start (steps [0x80, 0x37, 0x12, 0x40])).ready &&
     !(Boot.run .start (steps [0xFF, 0xFF, 0xFF, 0xFF] ++ [load])).ready &&
     !bootInOrder .start (steps [0xFF, 0xFF, 0xFF, 0xFF])) = true := by decide +kernel

theorem witness_Launch : Launch bootNoCart where
  cfg_ok := by unfold cfgOk; decide +kernel
  first_bus_init := ⟨word 0x01 0 0 0, _, rfl, rfl⟩
  from_reset := by unfold fromReset; decide +kernel
  no_fault := ⟨rfl, fun reason h => by
    have e : (match observe bootNoCart with | .ended _ => true | _ => false) = true := by decide +kernel
    rw [h] at e
    exact Bool.noConfusion e⟩
  host_duties := by unfold hostDuties; decide +kernel

/-! ### Witnesses: the hypotheses of each obligation are met together -/

/-- The command words of the vectors are apart (R87, R240). -/
theorem commandsApart_spec : commandsApart Params.spec := by
  intro k k'; cases k <;> cases k' <;> decide

theorem commandsApart_small : commandsApart smallFlash := by
  intro k k'; cases k <;> cases k' <;> decide

theorem spec_ok : Params.spec.ok = true := by decide +kernel

theorem spec_domains : Params.spec.domains = true := by decide +kernel

theorem rom8_sized : rom8.sized Params.spec = true := by decide +kernel

theorem rom8_small : rom8.sized smallFlash = true := by decide +kernel

/-- An outcome of which a test says something is a next state. -/
theorem next_of_leaves {o : Outcome} {p : State → Bool} (h : leaves o p = true) : ∃ t, o = .next t ∧ p t = true := by
  cases o with
  | next t => exact ⟨t, rfl, h⟩
  | fault f => exact Bool.noConfusion h
  | refused r => exact Bool.noConfusion h

/-- A reference cartridge with the given save medium, under the parameters of the vectors. -/
abbrev cart (save : Save) : State := onCart Params.spec save

/-- Hypotheses on the state alone: no contention, well-formed parameters in their domains, `WR` and `RD` high. They are all
that BusInitRuns, SetDirectionRuns, WriteWordRuns, AssertResetRuns, DetectRomSizeRuns, HasSramRuns,
EepromSizeRuns, FlashReadStatusRuns, FlashWaitReadyRuns and HasFlashramRuns ask. -/
theorem witness_calm :
    noCart.contention = false ∧ noCart.cfg.ok = true ∧ noCart.cfg.domains = true ∧ noCart.rd = 1#1 ∧ noCart.wr = 1#1 := by
  decide +kernel

/-- BusInitRuns at power-on with both strobes low: no pulse is under way. -/
theorem witness_BusInitRuns :
    let s := { State.reset with wr := 0#1, rd := 0#1 }
    s.contention = false ∧ noPulse .wr s ∧ noPulse .rd s ∧ s.rstAsserted = false := by
  unfold noPulse
  decide +kernel

theorem witness_EncodingRoundTrip :
    (Instr.writeSramBytes 0x11#32 2#32 [0xAA, 0xBB]).wellFormed Params.spec = true ∧
    (Instr.flashCommand 8#4 0xFFFF#16).wellFormed Params.spec = true ∧
    (Instr.latchAddress 0xFFFFFFFF#32).wellFormed Params.spec = true := by decide

theorem witness_DecodedIsWellFormed :
    ∃ i, decode Params.spec [0x22, 0, 0, 0, 0, 0, 0, 0x11, 0, 0, 0, 2, 0xAA, 0xBB] = .ok i :=
  ⟨.writeSramBytes 0x11#32 2#32 [0xAA, 0xBB], rfl⟩

/-- The bytes that no operation has, at the ends of the clauses of R110. -/
theorem witness_UnassignedOpcodeIsIllegal :
    ∀ b ∈ [0x00#8, 0x07#8, 0x0F#8, 0x12#8, 0x1F#8, 0x23#8, 0x2F#8, 0x35#8, 0x3F#8, 0x49#8, 0xFF#8],
      (issue (word b 0 0 0) noCart).contention = false ∧ (issue (word b 0 0 0) noCart).cfg.ok = true ∧
      (issue (word b 0 0 0) noCart).opState = .idle ∧ (issue (word b 0 0 0) noCart).launched = true ∧
      (issue (word b 0 0 0) noCart).inputs = [.issue (word b 0 0 0)] ∧
      ∃ r, Record.ofBytes (word b 0 0 0) = some r ∧
        (r.op.toNat = 0x00 ∨ (0x07 ≤ r.op.toNat ∧ r.op.toNat ≤ 0x0F) ∨ (0x12 ≤ r.op.toNat ∧ r.op.toNat ≤ 0x1F) ∨
          (0x23 ≤ r.op.toNat ∧ r.op.toNat ≤ 0x2F) ∨ (0x35 ≤ r.op.toNat ∧ r.op.toNat ≤ 0x3F) ∨
          0x49 ≤ r.op.toNat) := by
  intro b hb
  refine ⟨rfl, spec_ok, rfl, rfl, rfl, _, rfl, ?_⟩
  revert b hb
  decide

/-- The first record of a run, and a record in a launched run. -/
theorem witness_StepRunsDecodedInstruction :
    (∃ i, State.reset.contention = false ∧ State.reset.cfg.ok = true ∧ State.reset.opState = .idle ∧
      (issue (word 0x01 0 0 0) State.reset).inputs = [.issue (word 0x01 0 0 0)] ∧
      decode State.reset.cfg (word 0x01 0 0 0) = .ok i ∧ i = .busInit) ∧
    (noCart.contention = false ∧ noCart.cfg.ok = true ∧ noCart.opState = .idle ∧ noCart.launched = true ∧
      (issue (word 0x04 0 0 0) noCart).inputs = [.issue (word 0x04 0 0 0)] ∧
      decode noCart.cfg (word 0x04 0 0 0) = .ok .readWord) :=
  ⟨⟨.busInit, rfl, by decide +kernel, rfl, rfl, rfl, rfl⟩, rfl, by decide +kernel, rfl, rfl, rfl, rfl⟩

/-- A state for each clause of StepsWithoutAnOperation. -/
theorem witness_StepsWithoutAnOperation :
    ({ noCart with contention := true }.contention = true) ∧
    ({ noCart with cfg := { Params.spec with flashPage := 3 } }.cfg.ok = false) ∧
    (noCart.contention = false ∧ noCart.cfg.ok = true ∧ noCart.inputs = []) ∧
    ({ issue (word 0x01 0 0 0) noCart with opState := .busy }.opState = .busy) ∧
    ((word 0x01 0 0 0).dropLast.length < 12) ∧
    (State.reset.launched = false ∧ 12 ≤ (word 0x04 0 0 0).length ∧
      decode State.reset.cfg (word 0x04 0 0 0) ≠ .ok .busInit) ∧
    ({ noCart with inputs := [.changeCartridge Env.unknown] }.inputs = [.changeCartridge Env.unknown]) := by
  refine ⟨rfl, by decide +kernel, ⟨rfl, by decide +kernel, rfl⟩, rfl, by decide, ⟨rfl, by decide, ?_⟩, rfl⟩
  have h : decode State.reset.cfg (word 0x04 0 0 0) = .ok .readWord := rfl
  rw [h]
  intro e
  injection e with e'
  exact Instr.noConfusion e'

/-- A record with no failing check, and one for every check of R287 in turn. -/
theorem witness_DecodeChecksInOrder :
    (∃ r, Record.ofBytes (word 0x01 0 0 0) = some r ∧ firstFailingCheck Params.spec 0#32 0#16 r = none) ∧
    (∃ r, Record.ofBytes (word 0x07 0x02 0 0) = some r ∧
      firstFailingCheck Params.spec 0#32 0#16 r = some .illegalOp) ∧
    (∃ r, Record.ofBytes (word 0x04 0x02 0 0) = some r ∧
      firstFailingCheck Params.spec 0#32 0xFFFF#16 r = some (.misuse .badOperand)) ∧
    (∃ r, Record.ofBytes (word 0x04 0 0 0 ++ [0]) = some r ∧
      firstFailingCheck Params.spec 0#32 0xFFFF#16 r = some (.misuse .bufLen)) ∧
    (∃ r, Record.ofBytes (word 0x40 0x80 0 0) = some r ∧
      firstFailingCheck Params.spec 0#32 0#16 r = some (.misuse .badOperand)) ∧
    (∃ r, Record.ofBytes [0x10, 0, 0, 0, 0, 0, 0, 1, 0, 0, 0, 3] = some r ∧
      firstFailingCheck Params.spec 0#32 0#16 r = some (.misuse .oddLen)) ∧
    (∃ r, Record.ofBytes [0x10, 0, 0, 0, 0, 0, 0, 1, 4, 0, 0, 0] = some r ∧
      firstFailingCheck Params.spec 0#32 0#16 r = some (.misuse .oddAddr)) ∧
    (∃ r, Record.ofBytes [0x31, 0, 0, 0, 0, 0, 0, 64, 0, 0, 0, 0] = some r ∧
      firstFailingCheck Params.spec 512#32 0#16 r = some (.misuse .range)) ∧
    (∃ r, Record.ofBytes (word 0x04 0 0 0) = some r ∧
      firstFailingCheck Params.spec 0#32 0xFFFF#16 r = some (.misuse .busState)) := by
  refine ⟨⟨_, rfl, ?_⟩, ⟨_, rfl, ?_⟩, ⟨_, rfl, ?_⟩, ⟨_, rfl, ?_⟩, ⟨_, rfl, ?_⟩, ⟨_, rfl, ?_⟩, ⟨_, rfl, ?_⟩,
    ⟨_, rfl, ?_⟩, ⟨_, rfl, ?_⟩⟩ <;> decide +kernel

/-- An illegal record and a legal one, each with its next state. -/
theorem witness_StatusesOfEachOperation :
    (∃ t r, Record.ofBytes (word 0x00 0 0 0) = some r ∧ step (issue (word 0x00 0 0 0) noCart) = .next t ∧
      Opcode.ofByte r.op = none) ∧
    (∃ t r, Record.ofBytes (word 0x02 0 0 0) = some r ∧ step (issue (word 0x02 0 0 0) noCart) = .next t ∧
      Opcode.ofByte r.op = some .setDirection) :=
  ⟨⟨_, _, rfl, rfl, by decide⟩, _, _, rfl, rfl, by decide⟩

theorem witness_LatchAddressRuns :
    noCart.contention = false ∧ noCart.rstAsserted = false ∧ noCart.wr = 1#1 := by decide

/-- An input bus, under either setting of the counter (WriteWordRuns asks no more of the state), and a bus that
is no input. -/
theorem witness_ReadWordRuns :
    (noCart.contention = false ∧ noCart.gpioDir = 0x0000#16 ∧ noCart.rd = 1#1 ∧ noCart.rstAsserted = false ∧
      noCart.cfg.autoincWrap = none) ∧
    (let s := { noCart with cfg := { Params.spec with autoincWrap := some 512 } }
     s.contention = false ∧ s.gpioDir = 0x0000#16 ∧ s.rd = 1#1 ∧ s.rstAsserted = false ∧
      s.cfg.autoincWrap = some 512 ∧ s.cfg.ok = true) ∧
    ({ noCart with gpioDir := 0x0001#16 }.gpioDir ≠ 0x0000#16) := by decide +kernel

/-- ASSERT_RESET on a FlashRAM cartridge in status mode: released, and held. -/
theorem witness_AssertResetRuns :
    (let s := cart (.flash { flashA [] [] with mode := .status })
     s.contention = false ∧ s.rstAsserted = false) ∧
    ∃ t, exec (.assertReset true) (cart (.flash { flashA [] [] with mode := .status })) = .next t ∧
      (t.contention == false && t.rstAsserted) = true :=
  ⟨by decide, next_of_leaves (by decide +kernel)⟩

/-- Every medium meets the hypotheses, whatever address is latched. -/
theorem written_cart (save : Save) (a : Word) :
    refCart (latched a (cart save)) none rom8 save ∧ (latched a (cart save)).rd = 1#1 := ⟨⟨⟨rfl, rfl, rom8_sized⟩, rfl⟩, rfl⟩

/-- A write pulse ends in a next state at the SRAM window's first and last word and the address after it, at the
FlashRAM command register, at its second half where the word completes an EXECUTE, and on the other media. -/
theorem witness_WriteWordStores :
    (let chip := { flashA [] [0] with cmdHi := some 0xD200#16, pageSel := some 1 }
     refCart (latched 0x08010002#32 (cart (.flash chip))) none rom8 (.flash chip) ∧ chip.array.wf = true ∧
     (0x08010002#32).toNat = Params.spec.flashCmdAddr + 2 ∧
     chip.cmdHi.bind (fun h => Params.kindOf Params.spec (h ++ 0x0000#16)) = some .execute ∧
     ∃ t, exec (.writeWord 0x0000#16) (latched 0x08010002#32 (cart (.flash chip))) = .next t ∧ true = true) ∧
    (∃ t, exec (.writeWord 0xBEEF#16) (latched 0x08000000#32 (cart (.sram []))) = .next t ∧ true = true) ∧
    (∃ t, exec (.writeWord 0xBEEF#16) (latched 0x08007FFE#32 (cart (.sram []))) = .next t ∧ true = true) ∧
    (∃ t, exec (.writeWord 0xBEEF#16) (latched 0x08008000#32 (cart (.sram []))) = .next t ∧ true = true) ∧
    (∃ t, exec (.writeWord 0xBEEF#16) (latched 0x08010000#32 (cart (.flash (flashA [] [])))) = .next t ∧ true = true) ∧
    (∃ t, exec (.writeWord 0xBEEF#16) (latched 0#32 (cart .none)) = .next t ∧ true = true) ∧
    (∃ t, exec (.writeWord 0xBEEF#16) (latched 0#32 (cart (.eep4k []))) = .next t ∧ true = true) ∧
    (∃ t, exec (.writeWord 0xBEEF#16) (latched 0#32 (cart (.eep16k []))) = .next t ∧ true = true) := by
  refine ⟨⟨⟨⟨rfl, rfl, rom8_sized⟩, rfl⟩, by decide, by decide, by decide, ?_⟩, ?_, ?_, ?_, ?_, ?_, ?_, ?_⟩ <;>
    exact next_of_leaves (p := fun _ => true) (by decide +kernel)

theorem witness_BurstMovesCounter :
    noCart.rstAsserted = false ∧ noCart.cfg.autoincWrap = none ∧ [0#8, 1#8].length = 2 * 1 := by decide

theorem witness_BusEventCounts :
    (∃ t, exec (.assertReset true) noCart = .next t ∧ true = true) ∧ (∃ t, exec .busInit noCart = .next t ∧ true = true) ∧
    (∃ t, exec (.setDirection true) noCart = .next t ∧ true = true) :=
  ⟨next_of_leaves (p := fun _ => true) (by decide +kernel), next_of_leaves (p := fun _ => true) (by decide +kernel),
    next_of_leaves (p := fun _ => true) (by decide +kernel)⟩

/-- Each clause of ReadRomBytesRuns at the edge of the one before: odd length, odd offset, past the end, nothing,
and the last two bytes. -/
theorem witness_ReadRomBytesRuns :
    (3#32).toNat % 2 ≠ 0 ∧ (1#32).toNat % 2 ≠ 0 ∧ Params.spec.romSpace < (0x03FFFFFE#32).toNat + (4#32).toNat ∧
    ¬ Params.spec.romSpace < (0x04000000#32).toNat + (0#32).toNat ∧
    ¬ Params.spec.romSpace < (0x03FFFFFE#32).toNat + (2#32).toNat := by decide +kernel

theorem witness_ReadRomBytesOnReference :
    refCart (cart .none) none rom8 .none ∧ strobesHigh (cart .none) ∧ (cart .none).contention = false ∧
    (cart .none).cfg.ok = true ∧ (2#32).toNat % 2 = 0 ∧ (0x03FFFFFE#32).toNat % 2 = 0 ∧
    (0x03FFFFFE#32).toNat + (2#32).toNat ≤ (cart .none).cfg.romSpace := by
  unfold refCart envRef strobesHigh
  decide +kernel

/-- A ROM of one probe step, mirrored at the first boundary. -/
def stepRom : RomImage where
  img := Memory.ofBytes 0 ((List.range 16).map (BitVec.ofNat 8))
  size := 16

/-- A ROM that repeats at the first boundary, and one that repeats at none. -/
theorem witness_DetectRomSizeFindsMirror :
    (refCart (onRom smallRom stepRom .none) none stepRom .none ∧ strobesHigh (onRom smallRom stepRom .none) ∧
      (onRom smallRom stepRom .none).contention = false ∧ smallRom.ok = true ∧
      smallRom.romFpLen ≤ smallRom.romProbeStep ∧ 1 ≤ 1 ∧ 1 * smallRom.romProbeStep < smallRom.romSpace ∧
      (∀ o, romByte stepRom (o + 1 * smallRom.romProbeStep) = romByte stepRom o) ∧
      (∀ j, 1 ≤ j → j < 1 → ∃ i, i < smallRom.romFpLen ∧
        romByte stepRom (j * smallRom.romProbeStep + i) ≠ romByte stepRom i)) ∧
    (refCart (onRom smallRom plainRom .none) none plainRom .none ∧
      (∀ j, 1 ≤ j → j * smallRom.romProbeStep < smallRom.romSpace → ∃ i, i < smallRom.romFpLen ∧
        romByte plainRom (j * smallRom.romProbeStep + i) ≠ romByte plainRom i)) := by
  refine ⟨⟨⟨⟨rfl, rfl, by decide +kernel⟩, rfl⟩, ⟨rfl, rfl⟩, rfl, by decide +kernel, by decide, by decide, by decide, ?_, ?_⟩,
    ⟨⟨rfl, rfl, by decide +kernel⟩, rfl⟩, ?_⟩
  · intro o
    simp [romByte, stepRom, smallRom]
  · intro j h1 h2
    omega
  · intro j h1 h2
    have : j < 4 := by simp only [smallRom] at h2; omega
    refine ⟨0, by decide, ?_⟩
    have hj : j = 1 ∨ j = 2 ∨ j = 3 := by omega
    rcases hj with rfl | rfl | rfl <;> decide +kernel

theorem witness_RomReadsAreRepeatable :
    (∃ t, exec (.readRomBytes 0#32 4#32) (cart .none) = .next t ∧ true = true) ∧
    (∃ t, exec .detectRomSize noCart = .next t ∧ true = true) :=
  ⟨next_of_leaves (p := fun _ => true) (by decide +kernel), next_of_leaves (p := fun _ => true) (by decide +kernel)⟩

/-- Each medium of HasSramOnReference, with either base word; its empty slot is the theorem after it. -/
theorem witness_HasSramOnReference :
    (∀ save ∈ [Save.sram sram0, .sram [], .none, .eep4k [], .eep16k []],
      refCart (cart save) none rom8 save ∧ strobesHigh (cart save) ∧ (cart save).contention = false) ∧
    Params.spec.ok = true ∧ Params.spec.domains = true ∧ apartFromRom Params.spec Params.spec.sramBase Params.spec.sramSize ∧
    sram0.wf = true ∧ be16 (sram0.read 0) (sram0.read 1) ≠ 0xFFFF#16 ∧
    Memory.wf [] = true ∧ be16 (Memory.read [] 0) (Memory.read [] 1) = 0xFFFF#16 := by
  unfold refCart envRef strobesHigh apartFromRom
  decide +kernel

theorem empty_slot : emptySlot noCart ∧ noCart.contention = false := ⟨⟨⟨.none, rfl⟩, rfl⟩, rfl⟩

/-- Past the end, nothing at the end, and the last byte. -/
theorem witness_ReadSramBytesRuns :
    Params.spec.sramSize < (0x7FFF#32).toNat + (2#32).toNat ∧
    ¬ Params.spec.sramSize < (0x8000#32).toNat + (0#32).toNat ∧
    (¬ Params.spec.sramSize < (0x7FFF#32).toNat + (1#32).toNat ∧ (1#32).toNat ≠ 0) := by decide +kernel

/-- A wrong length, past the end, nothing at the end, and the last byte. -/
theorem witness_WriteSramBytesRuns :
    [0#8].length ≠ (2#32).toNat ∧
    ([0#8, 0#8].length = (2#32).toNat ∧ Params.spec.sramSize < (0x7FFF#32).toNat + (2#32).toNat) ∧
    (([] : List Byte).length = (0#32).toNat ∧ ¬ Params.spec.sramSize < (0x8000#32).toNat + (0#32).toNat) ∧
    ([0#8].length = (1#32).toNat ∧ ¬ Params.spec.sramSize < (0x7FFF#32).toNat + (1#32).toNat) := by decide +kernel

theorem witness_BurstPiecesTileTheCover :
    (0 < 1 ∧ 0x8000 % 2 = 0 ∧ 0x7FFF + 1 ≤ 0x8000) ∧ (0 < 512 ∧ 512 % 2 = 0 ∧ 0x1FE % 2 = 0 ∧ 4 % 2 = 0) := by
  decide

/-- An odd byte up to the end of the SRAM. -/
theorem witness_SramReadsBackWhatWasWritten :
    refCart (cart (.sram sram0)) none rom8 (.sram sram0) ∧ strobesHigh (cart (.sram sram0)) ∧
    (cart (.sram sram0)).contention = false ∧ Params.spec.ok = true ∧ Params.spec.domains = true ∧ sram0.wf = true ∧
    apartFromRom Params.spec Params.spec.sramBase Params.spec.sramSize ∧ [0x5A#8].length = (1#32).toNat ∧
    (0x7FFF#32).toNat + (1#32).toNat ≤ Params.spec.sramSize := by
  unfold refCart envRef strobesHigh apartFromRom
  decide +kernel

/-- The last block, the one after it, and any block while no size is recorded. -/
theorem witness_ReadEepromBlockRuns :
    noCart.contention = false ∧ Params.spec.ok = true ∧ Params.spec.domains = true ∧
    (63#32).toNat < (sized 512#32 noCart).eepSize.toNat / Params.spec.eepromBlock ∧
    ¬ (64#32).toNat < (sized 512#32 noCart).eepSize.toNat / Params.spec.eepromBlock ∧
    ¬ (0#32).toNat < noCart.eepSize.toNat / Params.spec.eepromBlock := by decide +kernel

/-- Seven bytes; the last block, and the one after it. -/
theorem witness_WriteEepromBlockRuns :
    noCart.contention = false ∧ (List.replicate 7 0#8).length ≠ Params.spec.eepromBlock ∧
    ((List.replicate 8 0#8).length = Params.spec.eepromBlock ∧
      (63#32).toNat < (sized 512#32 noCart).eepSize.toNat / Params.spec.eepromBlock ∧
      ¬ (64#32).toNat < (sized 512#32 noCart).eepSize.toNat / Params.spec.eepromBlock) := by decide +kernel

/-- The last block of each device. -/
theorem witness_EepromBlocksOnReference :
    (refCart (sized 512#32 (cart (.eep4k eep4kA))) none rom8 (.eep4k eep4kA) ∧ eep4kA.wf = true ∧
      (cart (.eep4k eep4kA)).contention = false ∧ Params.spec.ok = true ∧ Params.spec.domains = true ∧
      (63#32).toNat < Params.spec.eeprom4kSize / Params.spec.eepromBlock ∧
      (63#32).toNat < (sized 512#32 (cart (.eep4k eep4kA))).eepSize.toNat / Params.spec.eepromBlock ∧
      (List.replicate 8 0#8).length = Params.spec.eepromBlock) ∧
    (refCart (sized 2048#32 (cart (.eep16k eep4kA))) none rom8 (.eep16k eep4kA) ∧
      (255#32).toNat < Params.spec.eeprom16kSize / Params.spec.eepromBlock ∧
      (255#32).toNat < (sized 2048#32 (cart (.eep16k eep4kA))).eepSize.toNat / Params.spec.eepromBlock) := by
  unfold refCart envRef
  decide +kernel

/-- Past the end, nothing at the end, and the last byte. -/
theorem witness_ReadEepromBytesRuns :
    noCart.contention = false ∧ Params.spec.ok = true ∧ Params.spec.domains = true ∧
    (sized 512#32 noCart).eepSize.toNat < (511#32).toNat + (2#32).toNat ∧
    ¬ (sized 512#32 noCart).eepSize.toNat < (512#32).toNat + (0#32).toNat ∧
    ¬ (sized 512#32 noCart).eepSize.toNat < (511#32).toNat + (1#32).toNat := by decide +kernel

theorem witness_StraddledUnitsCoverTheRange :
    0 < 8 ∧ 0 < 3 ∧ [0xA0#8, 0xA1#8, 0xA2#8].length = 3 := by decide

/-- A wrong length, past the end, nothing at the end, and the last byte. -/
theorem witness_WriteAndVerifyEepromBytesRuns :
    noCart.contention = false ∧ [0#8].length ≠ (2#32).toNat ∧
    ([0#8, 0#8].length = (2#32).toNat ∧ (sized 512#32 noCart).eepSize.toNat < (511#32).toNat + (2#32).toNat) ∧
    ¬ (sized 512#32 noCart).eepSize.toNat < (512#32).toNat + (0#32).toNat ∧
    ¬ (sized 512#32 noCart).eepSize.toNat < (511#32).toNat + (1#32).toNat := by decide +kernel

/-- The last byte of each device. -/
theorem witness_EepromSpliceKeepsOtherBytes :
    (refCart (sized 512#32 (cart (.eep4k eep4kA))) none rom8 (.eep4k eep4kA) ∧
      (sized 512#32 (cart (.eep4k eep4kA))).eepSize.toNat = Params.spec.eeprom4kSize ∧
      Params.spec.eeprom4kSize % Params.spec.eepromBlock = 0 ∧ eep4kA.wf = true ∧
      (cart (.eep4k eep4kA)).contention = false ∧ Params.spec.ok = true ∧ Params.spec.domains = true ∧ [0#8].length = (1#32).toNat ∧
      (511#32).toNat + (1#32).toNat ≤ (sized 512#32 (cart (.eep4k eep4kA))).eepSize.toNat) ∧
    (refCart (sized 2048#32 (cart (.eep16k eep4kA))) none rom8 (.eep16k eep4kA) ∧
      (sized 2048#32 (cart (.eep16k eep4kA))).eepSize.toNat = Params.spec.eeprom16kSize ∧
      Params.spec.eeprom16kSize % Params.spec.eepromBlock = 0 ∧
      (2047#32).toNat + (1#32).toNat ≤ (sized 2048#32 (cart (.eep16k eep4kA))).eepSize.toNat) := by
  unfold refCart envRef
  decide +kernel

theorem witness_FlashCommandsRun : noCart.contention = false ∧ 8 ≤ (8#4).toNat ∧ 8 ≤ (15#4).toNat := by decide

/-- A chip that becomes ready after the given number of further polls, and whose draws are all 0. -/
def readyIn (n : Nat) : FlashChip :=
  { flashA (Memory.ofBytes 0 (List.replicate 16 0x11)) (List.replicate 6 0) with
    busy := n, busyPat := List.replicate 8 1 }

/-- What the statements about a reference chip ask of the state, of any parameters with the words apart. -/
theorem reference_chip (c : Params) (n : Nat) (h : c.autoincWrap = none)
    (hr : rom8.sized c = true) :
    refCart (onCart c (.flash (readyIn n))) none rom8 (.flash (readyIn n)) ∧ strobesHigh (onCart c (.flash (readyIn n))) ∧
    (onCart c (.flash (readyIn n))).contention = false := ⟨⟨⟨rfl, h, hr⟩, rfl⟩, ⟨rfl, rfl⟩, rfl⟩

theorem small_ok : smallFlash.ok = true := by decide +kernel

theorem small_domains : smallFlash.domains = true := by decide +kernel

theorem small_layout : flashLayout smallFlash := by
  unfold flashLayout apartFromRom
  decide +kernel

theorem readable_chip (n : Nat) : readableChip smallFlash (readyIn n) := by
  have h : (flashA [] []).idBlk.toList ∈ smallFlash.idleSigs := by decide
  have h' : List.replicate 8 1#8 ∉ smallFlash.idleSigs := by decide
  exact ⟨h, fun p hp => absurd hp (List.not_mem_nil), fun _ => ⟨rfl, h'⟩⟩

/-- An idle chip, and the longest wait that ends ready. -/
theorem witness_FlashStatusOnReference :
    (∀ n, refCart (onCart smallFlash (.flash (readyIn n))) none rom8 (.flash (readyIn n)) ∧
      strobesHigh (onCart smallFlash (.flash (readyIn n))) ∧
      (onCart smallFlash (.flash (readyIn n))).contention = false) ∧
    smallFlash.ok = true ∧ smallFlash.domains = true ∧ commandsApart smallFlash ∧ flashLayout smallFlash ∧
    (readableChip smallFlash (readyIn 0) ∧ (readyIn 0).busy = 0) ∧
    (readableChip smallFlash (readyIn 499) ∧ (readyIn 499).busy < smallFlash.flashPollMax) :=
  ⟨fun n => reference_chip smallFlash n rfl rom8_small, small_ok, small_domains, commandsApart_small, small_layout,
    ⟨readable_chip 0, rfl⟩, readable_chip 499, by decide⟩

/-- Past the end, nothing at the end, and the last byte. -/
theorem witness_ReadFlashramBytesRuns :
    (hugeFlash.ok = true ∧ hugeFlash.domains = true ∧ 2 ^ 32 < (0xFFFFFFFE#32).toNat + (4#32).toNat ∧
      (0xFFFFFFFE#32).toNat + (4#32).toNat ≤ hugeFlash.flashSize ∧
      ¬ 2 ^ 32 < (0xFFFFFFFE#32).toNat + (2#32).toNat) ∧
    noCart.contention = false ∧ Params.spec.ok = true ∧ Params.spec.domains = true ∧
    Params.spec.flashSize < (0x1FFFF#32).toNat + (2#32).toNat ∧
    ¬ Params.spec.flashSize < (0x20000#32).toNat + (0#32).toNat ∧
    ¬ Params.spec.flashSize < (0x1FFFF#32).toNat + (1#32).toNat := by decide +kernel

theorem witness_ReadFlashramBytesOnReference :
    (refCart (onCart smallFlash (.flash (readyIn 0))) none rom8 (.flash (readyIn 0)) ∧
      strobesHigh (onCart smallFlash (.flash (readyIn 0))) ∧
      (onCart smallFlash (.flash (readyIn 0))).contention = false) ∧
    smallFlash.ok = true ∧ smallFlash.domains = true ∧ commandsApart smallFlash ∧ flashLayout smallFlash ∧
    (15#32).toNat + (1#32).toNat ≤ smallFlash.flashSize ∧ (15#32).toNat + (1#32).toNat ≤ 2 ^ 32 :=
  ⟨reference_chip smallFlash 0 rfl rom8_small, small_ok, small_domains, commandsApart_small, small_layout, by decide,
    by decide⟩

/-- The block after the last, and the last. -/
theorem witness_FlashEraseBlockRuns :
    noCart.contention = false ∧ Params.spec.ok = true ∧ Params.spec.domains = true ∧
    Params.spec.flashSize / Params.spec.flashBlock ≤ (1#32).toNat ∧
    ¬ Params.spec.flashSize / Params.spec.flashBlock ≤ (0#32).toNat := by decide +kernel

/-- The last block, the chip ready at once. -/
theorem witness_EraseOnReference :
    (refCart (onCart smallFlash (.flash (readyIn 0))) none rom8 (.flash (readyIn 0)) ∧
      strobesHigh (onCart smallFlash (.flash (readyIn 0))) ∧
      (onCart smallFlash (.flash (readyIn 0))).contention = false) ∧
    smallFlash.ok = true ∧ smallFlash.domains = true ∧ commandsApart smallFlash ∧ flashLayout smallFlash ∧ (readyIn 0).array.wf = true ∧
    (1#32).toNat < smallFlash.flashSize / smallFlash.flashBlock ∧ readableChip smallFlash (readyIn 0) ∧
    shortDraws smallFlash (readyIn 0) 1 :=
  ⟨reference_chip smallFlash 0 rfl rom8_small, small_ok, small_domains, commandsApart_small, small_layout, by decide, by decide,
    readable_chip 0, by unfold shortDraws; decide⟩

/-- A wrong length; the page after the last; the last page. -/
theorem witness_FlashProgramPageRuns :
    noCart.contention = false ∧ Params.spec.ok = true ∧ Params.spec.domains = true ∧ (List.replicate 127 0#8).length ≠ Params.spec.flashPage ∧
    (List.replicate 128 0#8).length = Params.spec.flashPage ∧
    Params.spec.flashSize / Params.spec.flashPage ≤ (1024#32).toNat ∧
    ¬ Params.spec.flashSize / Params.spec.flashPage ≤ (1023#32).toNat := by decide +kernel

/-- The last page, with data it can take (bits only cleared) and data it cannot. -/
theorem witness_ProgramPageOnReference :
    (refCart (onCart smallFlash (.flash (readyIn 0))) none rom8 (.flash (readyIn 0)) ∧
      strobesHigh (onCart smallFlash (.flash (readyIn 0))) ∧
      (onCart smallFlash (.flash (readyIn 0))).contention = false) ∧
    smallFlash.ok = true ∧ smallFlash.domains = true ∧ commandsApart smallFlash ∧ flashLayout smallFlash ∧ (readyIn 0).array.wf = true ∧
    (readyIn 0).pageBuf.wf = true ∧ (readyIn 0).eraseArmed = false ∧
    (∀ v ∈ [0x01#8, 0x22#8], (List.replicate 4 v).length = smallFlash.flashPage) ∧
    (3#32).toNat < smallFlash.flashSize / smallFlash.flashPage ∧ readableChip smallFlash (readyIn 0) ∧
    shortDraws smallFlash (readyIn 0) 1 ∧
    (∀ i, i < 4 → (List.replicate 4 0x01#8).getD i 0xFF#8 &&& (readyIn 0).array.read (12 + i) =
      (List.replicate 4 0x01#8).getD i 0xFF#8) ∧
    ¬ (∀ i, i < 4 → (List.replicate 4 0x22#8).getD i 0xFF#8 &&& (readyIn 0).array.read (12 + i) =
      (List.replicate 4 0x22#8).getD i 0xFF#8) := by
  refine ⟨reference_chip smallFlash 0 rfl rom8_small, small_ok, small_domains, commandsApart_small, small_layout, by decide, by decide, rfl,
    by decide, by decide, readable_chip 0, by unfold shortDraws; decide, by decide, by decide⟩

/-- A wrong length, past the end, nothing at the end, and the last byte. -/
theorem witness_WriteFlashramBytesRuns :
    noCart.contention = false ∧ Params.spec.ok = true ∧ Params.spec.domains = true ∧ [0#8].length ≠ (2#32).toNat ∧
    ([0#8, 0#8].length = (2#32).toNat ∧ Params.spec.flashSize < (0x1FFFF#32).toNat + (2#32).toNat) ∧
    ¬ Params.spec.flashSize < (0x20000#32).toNat + (0#32).toNat ∧
    ¬ Params.spec.flashSize < (0x1FFFF#32).toNat + (1#32).toNat := by decide +kernel

/-- A range that straddles both blocks to the end of the chip: 6 draws. -/
theorem witness_FlashWriteKeepsOtherBytes :
    (refCart (onCart smallFlash (.flash (readyIn 0))) none rom8 (.flash (readyIn 0)) ∧
      strobesHigh (onCart smallFlash (.flash (readyIn 0))) ∧
      (onCart smallFlash (.flash (readyIn 0))).contention = false) ∧
    smallFlash.ok = true ∧ smallFlash.domains = true ∧ commandsApart smallFlash ∧ flashLayout smallFlash ∧ (readyIn 0).array.wf = true ∧
    (readyIn 0).pageBuf.wf = true ∧ (List.replicate 9 0xAB#8).length = (9#32).toNat ∧
    (7#32).toNat + (9#32).toNat ≤ smallFlash.flashSize ∧ (7#32).toNat + (9#32).toNat ≤ 2 ^ 32 ∧ readableChip smallFlash (readyIn 0) ∧
    shortDraws smallFlash (readyIn 0)
      ((unitsOf smallFlash.flashBlock (7#32).toNat (9#32).toNat).length * (1 + smallFlash.pagesPerBlock)) :=
  ⟨reference_chip smallFlash 0 rfl rom8_small, small_ok, small_domains, commandsApart_small, small_layout, by decide, by decide, by decide,
    by decide, by decide, readable_chip 0, by unfold shortDraws; decide⟩

/-- A new stream, and a stream of another block, with the chip's last sector. -/
theorem witness_SectorIsBuffered :
    ∀ active ∈ [false, true],
      let s := { onCart smallFlash .none with fsActive := active, fsBitmap := if active then [true, false] else [false, false] }
      s.contention = false ∧ s.cfg.ok = true ∧ s.blkBuf.wf = true ∧
      (List.replicate 4 0x55#8).length = s.cfg.flashSector ∧ (3#32).toNat < s.cfg.flashSize / s.cfg.flashSector ∧
      [false, true] = (if s.fsActive = true ∧ s.fsBlock.toNat = (3#32).toNat / s.cfg.sectorsPerBlock then s.fsBitmap
        else List.replicate s.cfg.sectorsPerBlock false).set ((3#32).toNat % s.cfg.sectorsPerBlock) true ∧
      false ∈ [false, true] := by decide +kernel

/-- A wrong length, the sector after the last, and the sector that completes its block. -/
theorem witness_LastSectorCommits :
    let s := { onCart smallFlash .none with fsActive := true, fsBlock := 1#32, fsBitmap := [true, false] }
    s.contention = false ∧ s.cfg.ok = true ∧
    [true, true] = (if s.fsActive = true ∧ s.fsBlock.toNat = (3#32).toNat / s.cfg.sectorsPerBlock then s.fsBitmap
      else List.replicate s.cfg.sectorsPerBlock false).set ((3#32).toNat % s.cfg.sectorsPerBlock) true ∧
    (List.replicate 3 0#8).length ≠ s.cfg.flashSector ∧ s.cfg.flashSize / s.cfg.flashSector ≤ (4#32).toNat ∧
    (List.replicate 4 0#8).length = s.cfg.flashSector ∧ ¬ s.cfg.flashSize / s.cfg.flashSector ≤ (3#32).toNat ∧
    false ∉ [true, true] := by decide +kernel

/-- The sector that completes the last block, the chip ready at once: 3 draws. -/
theorem witness_SectorCommitOnReference :
    let s := { onCart smallFlash (.flash (readyIn 0)) with fsActive := true, fsBlock := 1#32, fsBitmap := [true, false] }
    (refCart s none rom8 (.flash (readyIn 0)) ∧ strobesHigh s ∧ s.contention = false) ∧
    smallFlash.ok = true ∧ smallFlash.domains = true ∧ commandsApart smallFlash ∧ flashLayout smallFlash ∧
    (readyIn 0).array.wf = true ∧ (readyIn 0).pageBuf.wf = true ∧
    (List.replicate 4 0x55#8).length = s.cfg.flashSector ∧ (3#32).toNat < s.cfg.flashSize / s.cfg.flashSector ∧
    false ∉ (if s.fsActive = true ∧ s.fsBlock.toNat = (3#32).toNat / s.cfg.sectorsPerBlock then s.fsBitmap
      else List.replicate s.cfg.sectorsPerBlock false).set ((3#32).toNat % s.cfg.sectorsPerBlock) true ∧
    readableChip smallFlash (readyIn 0) ∧ shortDraws smallFlash (readyIn 0) (1 + smallFlash.pagesPerBlock) :=
  ⟨⟨⟨⟨rfl, rfl, rom8_small⟩, rfl⟩, ⟨rfl, rfl⟩, rfl⟩, small_ok, small_domains, commandsApart_small, small_layout,
    by decide, by decide, by decide, by decide, by decide, readable_chip 0, by unfold shortDraws; decide⟩

/-- A wait that ends at its second poll, and a page program that does not time out. -/
theorem witness_FlashEventCounts :
    (cart (.flash (readyIn 1))).cfg.ok = true ∧ (cart (.flash (readyIn 1))).cfg.domains = true ∧
    (waitReady (cart (.flash { readyIn 1 with patScript := [List.replicate 8 1] }))).1 = some 2 ∧
    Params.spec.flashPage = 128 ∧ (List.replicate 128 0#8).length = 128 ∧
    (programPage 0 (List.replicate 128 0#8) (cart (.flash { flashA [] [0] with patScript := [List.replicate 8 1] }))).1
      ≠ some (.timeout Params.spec.flashPollMax) := by decide +kernel

/-- One instruction of each shape, on a cartridge with FlashRAM, and an SRAM window apart from the command
register. -/
theorem witness_FlashReadsKeepContents :
    (refCart (onCart smallFlash (.flash (readyIn 0))) none rom8 (.flash (readyIn 0)) ∧
      strobesHigh (onCart smallFlash (.flash (readyIn 0))) ∧
      (onCart smallFlash (.flash (readyIn 0))).contention = false) ∧
    smallFlash.ok = true ∧ commandsApart smallFlash ∧ (readyIn 0).array.wf = true ∧
    (Params.spec.flashCmdAddr + 4 ≤ Params.spec.sramBase ∨
      Params.spec.sramBase + Params.spec.sramSize ≤ Params.spec.flashCmdAddr) ∧
    ∀ i ∈ [Instr.flashCommandProgram, .flashCommandEraseSelect 1#16, .flashCommandPageSelect 1#16,
        .readFlashramBytes 15#32 1#32, .hasFlashram, .flashCommandExecute],
      ∃ t, exec i (onCart smallFlash (.flash (readyIn 0))) = .next t ∧ true = true := by
  refine ⟨reference_chip smallFlash 0 rfl rom8_small, small_ok, commandsApart_small, by decide, by decide, ?_⟩
  intro i hi
  refine next_of_leaves (p := fun _ => true) ?_
  revert i hi
  decide +kernel

/-- A run from reset whose records are whole, the first of them BUS_INIT. -/
theorem witness_EveryOperationFinishes :
    cfgOk bootNoCart ∧ firstBusInit bootNoCart ∧ fromReset bootNoCart ∧ bootNoCart.contention = false ∧
    ∀ record ∈ issuedRecords bootNoCart.inputs, 12 ≤ record.length :=
  ⟨witness_Launch.cfg_ok, witness_Launch.first_bus_init, witness_Launch.from_reset, rfl, by decide⟩

/-- A quiet state, and one whose bus is driven. -/
theorem witness_OperationsLeaveBusQuiet :
    quiet noCart ∧ noCart.contention = false ∧ Instr.busInit ≠ .setDirection true ∧
    { noCart with gpioDir := 0x8000#16 }.gpioDir ≠ 0x0000#16 := by
  unfold quiet
  decide

/-- A step of a launched run from a state with every invariant; reset has them too. -/
theorem witness_StepKeepsInvariants :
    let s := issue (word 0x20 0 0 0) (cart (.sram sram0))
    sequencerInv s ∧ memoryInv s ∧ streamInv s ∧ eepSizeInv s ∧ ∃ t, step s = .next t ∧ true = true := by
  refine ⟨?_, ?_, ?_, ?_, next_of_leaves (p := fun _ => true) (by decide +kernel)⟩
  · unfold sequencerInv
    decide +kernel
  · unfold memoryInv
    decide +kernel
  · unfold streamInv
    decide +kernel
  · unfold eepSizeInv
    decide +kernel

end Sys2Proof.Tests
end

/-! SUPPORT. What every operation keeps of the invariants of a run (spec/10_state.md R21-R43), said once for
each body, and the family `10_state.md` settled from it. -/

namespace Sys2Proof.Machine

/-! ### How an operation ends -/

/-- The outcome is that of an operation which ends, by `finish` or `raise`, in a state with `P` (R280). -/
def Ends (o : Outcome) (P : State → Prop) : Prop := ∃ st v d t, o = finish st v d t ∧ P t

section Ends
variable {o : Outcome} {P Q : State → Prop} {t : State}

theorem Ends.finish (st : Status) (v : Word) (d : List Byte) (h : P t) : Ends (finish st v d t) P :=
  ⟨st, v, d, t, rfl, h⟩

theorem Ends.raise (cause : Cause) (h : P t) : Ends (raise cause t) P := Ends.finish _ _ _ h

/-- A body that ends in `OK` or in a run-time cause. -/
theorem Ends.ofCause (v : Word) (r : Option Cause × State) : P r.2 →
    Ends (match r with
      | (none, s') => Machine.finish .ok v [] s'
      | (some cause, s') => Machine.raise cause s') P :=
  match r with
  | (none, _) => Ends.finish _ _ _
  | (some cause, _) => Ends.raise cause

theorem Ends.ite {c : Prop} [Decidable c] {o' : Outcome} (h : Ends o P) (h' : Ends o' P) :
    Ends (if c then o else o') P := by
  split
  · exact h
  · exact h'

theorem Ends.mono (h : Ends o P) (hPQ : ∀ {t}, P t → Q t) : Ends o Q := by
  obtain ⟨st, v, d, t, ho, ht⟩ := h
  exact ⟨st, v, d, t, ho, hPQ ht⟩

/-- An operation that answers a next state answers its end state. -/
theorem Ends.next (h : Ends o P) (ho : o = .next t) : ∃ st v d u, P u ∧ t = endState st v d u := by
  obtain ⟨st, v, d, u, rfl, hu⟩ := h
  cases hc : u.contention with
  | true => rw [finish_fault hc] at ho; cases ho
  | false =>
    rw [finish_next hc] at ho
    cases ho
    exact ⟨st, v, d, u, hu, rfl⟩

/-- An operation whose body notes no contention answers a next state. -/
theorem Ends.answers (h : Ends o P) (hc : ∀ {u}, P u → u.contention = false) :
    ∃ st v d u, P u ∧ o = .next (endState st v d u) := by
  obtain ⟨st, v, d, u, rfl, hu⟩ := h
  exact ⟨st, v, d, u, hu, finish_next (hc hu) st v d⟩

end Ends

/-! ### The invariants a body keeps -/

/-- The stream invariant looks at the parameters and the stream's registers only. -/
theorem streamInv_congr {s t : State} (hc : t.cfg = s.cfg) (ha : t.fsActive = s.fsActive)
    (hb : t.fsBlock = s.fsBlock) (hm : t.fsBitmap = s.fsBitmap) (h : streamInv s) : streamInv t := by
  unfold streamInv at h ⊢
  rwa [hc, ha, hb, hm]

/-- The body keeps the memories' form, the stream's registers consistent and the recorded EEPROM size one of
the three. -/
structure Lawful (s t : State) : Prop where
  cfg : t.cfg = s.cfg
  launched : t.launched = s.launched
  memory : memoryInv s → memoryInv t
  stream : s.cfg.ok = true → streamInv s → streamInv t
  eepSize : eepSizeInv s → eepSizeInv t

theorem Lawful.refl (s : State) : Lawful s s := ⟨rfl, rfl, id, fun _ => id, id⟩

theorem Lawful.trans {s t u : State} (h : Lawful s t) (k : Lawful t u) : Lawful s u where
  cfg := k.cfg.trans h.cfg
  launched := k.launched.trans h.launched
  memory := k.memory ∘ h.memory
  stream := fun hok hs => k.stream (h.cfg ▸ hok) (h.stream hok hs)
  eepSize := k.eepSize ∘ h.eepSize

theorem Keeps.lawful {s t : State} (k : Keeps s t) : Lawful s t where
  cfg := k.cfg
  launched := k.launched
  memory := by
    rintro ⟨hbuf, henv, hrom, hmoves⟩
    refine ⟨k.blkBuf ▸ hbuf, k.env henv, ?_, ?_⟩
    · rw [k.cfg, Env.romSized_of_rom k.rom]
      exact hrom
    · rw [k.cfg, k.inputs]
      exact hmoves
  stream := fun _ => streamInv_congr k.cfg k.fsActive k.fsBlock k.fsBitmap
  eepSize := by
    unfold eepSizeInv
    rw [k.cfg, k.eepSize]
    exact id

/-- From high strobes the body leaves them high and notes no contention; the bus is as it was or an input,
and what else the invariants ask of the pins stays so (R22, R24, R26, R28, R37, R38, R326). -/
structure Tidy (s t : State) : Prop where
  dir : t.gpioDir = s.gpioDir ∨ t.gpioDir = 0x0000#16
  pull : s.gpioPull = 1#1 → t.gpioPull = 1#1
  strobes : strobesHigh t
  joy : s.joy = 1#1 → t.joy = 1#1
  ale : s.aleh = s.alel → t.aleh = t.alel
  contention : t.contention = s.contention

theorem Tidy.trans {s t u : State} (h : Tidy s t) (k : Tidy t u) : Tidy s u where
  dir := by
    rcases k.dir with e | e
    · rw [e]
      exact h.dir
    · exact .inr e
  pull := k.pull ∘ h.pull
  strobes := k.strobes
  joy := k.joy ∘ h.joy
  ale := k.ale ∘ h.ale
  contention := k.contention.trans h.contention

/-- A body that touches no pin but the serial line, which it leaves as it was or releases. -/
theorem Tidy.of_sameBus {s t : State} (b : sameBus s t) (hj : s.joy = 1#1 → t.joy = 1#1)
    (hc : t.contention = s.contention) (h : strobesHigh s) : Tidy s t := by
  obtain ⟨hdir, -, hpull, hwr, hrd, haleh, halel⟩ := b
  exact ⟨.inl hdir, fun e => hpull.trans e, ⟨hwr.trans h.1, hrd.trans h.2⟩, hj,
    fun e => by rw [haleh, halel, e], hc⟩

/-- What the body of every operation does but `SET_DIRECTION`'s to output. -/
structure Orderly (s t : State) : Prop extends Lawful s t where
  pins : strobesHigh s → Tidy s t

theorem Orderly.refl (s : State) : Orderly s s :=
  ⟨Lawful.refl s, Tidy.of_sameBus ⟨rfl, rfl, rfl, rfl, rfl, rfl, rfl⟩ id rfl⟩

theorem Orderly.trans {s t u : State} (h : Orderly s t) (k : Orderly t u) : Orderly s u :=
  ⟨h.toLawful.trans k.toLawful, fun hs => (h.pins hs).trans (k.pins (h.pins hs).strobes)⟩

/-- An operation that latches an address is orderly, whatever the pins were. -/
theorem Cycle.orderly {s t : State} (h : Cycle s t) : Orderly s t where
  toLawful := h.keeps.lawful
  pins := fun _ => by
    obtain ⟨⟨hdir, hpull, hwr, hrd⟩, haleh, halel⟩ := h.settled
    exact ⟨.inr hdir, fun _ => hpull, ⟨hwr, hrd⟩, fun e => h.joy.trans e, fun _ => haleh.trans halel.symm,
      h.contention⟩

/-! ### Registers that a few operations set -/

/-- A new block buffer in canonical form. -/
theorem orderly_blkBuf {buf : Memory} {s : State} (h : s.blkBuf.wf = true → buf.wf = true) :
    Orderly s { s with blkBuf := buf } where
  toLawful := ⟨rfl, rfl, fun ⟨hbuf, hrest⟩ => ⟨h hbuf, hrest⟩, fun _ => id, id⟩
  pins := Tidy.of_sameBus ⟨rfl, rfl, rfl, rfl, rfl, rfl, rfl⟩ id rfl

/-- The capacity an info answer means is none or one of the two (R194). -/
theorem sizeOfInfo_cases (c : Params) (r : Option (List Byte)) :
    sizeOfInfo c r = 0 ∨ sizeOfInfo c r = c.eeprom4kSize ∨ sizeOfInfo c r = c.eeprom16kSize := by
  unfold sizeOfInfo
  split
  · exact .inl rfl
  · split
    · exact .inr (.inr rfl)
    · split
      · exact .inr (.inl rfl)
      · exact .inl rfl

theorem orderly_eepSize (r : Option (List Byte)) (s : State) :
    Orderly s { s with eepSize := reported (sizeOfInfo s.cfg r) } where
  toLawful := by
    refine ⟨rfl, rfl, id, fun _ => id, fun _ => ?_⟩
    show reported (sizeOfInfo s.cfg r) = 0#32 ∨ _
    rcases sizeOfInfo_cases s.cfg r with e | e | e
    · exact .inl (by rw [e]; rfl)
    · exact .inr (.inl (congrArg reported e))
    · exact .inr (.inr (congrArg reported e))
  pins := Tidy.of_sameBus ⟨rfl, rfl, rfl, rfl, rfl, rfl, rfl⟩ id rfl

/-- An empty bitmap is not full, a block having a sector (R34). -/
theorem replicate_not_full {c : Params} (h : c.ok = true) :
    (List.replicate c.sectorsPerBlock false).all id = false := by
  simp [(Params.sectors_pos h).ne']

/-- With no stream in flight the bitmap is clear, whatever it was (R262). -/
theorem dropStream_streamInv {s : State} (h : s.cfg.ok = true) : streamInv (dropStream s) :=
  ⟨by simp, replicate_not_full h, fun _ => rfl, by simp⟩

theorem dropStream_orderly (s : State) : Orderly s (dropStream s) where
  toLawful := ⟨rfl, rfl, id, fun h _ => dropStream_streamInv h, id⟩
  pins := Tidy.of_sameBus ⟨rfl, rfl, rfl, rfl, rfl, rfl, rfl⟩ id rfl

theorem setReset_orderly (active : Bool) (s : State) : Orderly s (setReset active s) where
  toLawful := by
    refine ⟨rfl, rfl, ?_, fun _ => id, id⟩
    rintro ⟨hbuf, henv, hrom, hmoves⟩
    have key : (setReset active s).env.wf = true ∧ (setReset active s).env.rom = s.env.rom := by
      rw [setReset_env]
      split
      · exact ⟨Env.heldInReset_wf _ henv, Env.heldInReset_rom _ _⟩
      · exact ⟨henv, rfl⟩
    exact ⟨hbuf, key.1, (Env.romSized_of_rom key.2).trans hrom, hmoves⟩
  pins := Tidy.of_sameBus ⟨rfl, rfl, rfl, rfl, rfl, rfl, rfl⟩ id rfl

/-! ### Bus primitives (R131-R136) -/

/-- The pins and the environment after `BUS_INIT` (R131), before its result is written. -/
def busInitBody (s : State) : State :=
  { setDir false (ctrl .alel 1#1 (ctrl .aleh 1#1 (ctrl .rd 1#1 (ctrl .wr 1#1 s)))) with joy := 1#1 }

theorem execBusInit_eq (s : State) : execBusInit s = finish .ok 0#32 [] (busInitBody s) := rfl

/-- `BUS_INIT` puts every pin at its level, whatever the pins were, and notes no contention (R131, R326). -/
theorem busInitBody_pins (s : State) :
    busReleased (busInitBody s) ∧ (busInitBody s).joy = 1#1 ∧ (busInitBody s).aleh = 1#1 ∧
    (busInitBody s).alel = 1#1 ∧ (busInitBody s).contention = s.contention := by
  simp [busInitBody, busReleased, line_beq]

theorem busInitBody_keeps (s : State) : Keeps s (busInitBody s) := by
  have k := ((((ctrl_keeps .wr 1#1 s).trans (ctrl_keeps .rd 1#1 _)).trans (ctrl_keeps .aleh 1#1 _)).trans
    (ctrl_keeps .alel 1#1 _)).trans (setDir_keeps false _)
  exact ⟨k.cfg, k.inputs, k.launched, k.opState, k.rstAsserted, k.result, k.fsActive, k.fsBlock, k.fsBitmap,
    k.blkBuf, k.eepSize, k.grows, k.env, k.rom⟩

theorem busInitBody_orderly (s : State) : Orderly s (busInitBody s) where
  toLawful := (busInitBody_keeps s).lawful
  pins := fun _ => by
    obtain ⟨⟨hdir, hpull, hwr, hrd⟩, hjoy, haleh, halel, hcon⟩ := busInitBody_pins s
    exact ⟨.inr hdir, fun _ => hpull, ⟨hwr, hrd⟩, fun _ => hjoy, fun _ => haleh.trans halel.symm, hcon⟩

theorem setDir_input_orderly (s : State) : Orderly s (setDir false s) where
  toLawful := (setDir_keeps false s).lawful
  pins := fun h => ⟨.inr rfl, fun _ => rfl, h, id, id, by simp⟩

/-- A read cycle leaves the bus of an input as it was, the strobes being high before it (R134). -/
theorem readWord_orderly {s : State} (hdir : s.gpioDir = 0x0000#16) : Orderly s (readWord s).2 where
  toLawful := (readWord_keeps s).lawful
  pins := fun h => by
    obtain ⟨hwr, hrd⟩ := h
    refine Tidy.of_sameBus ?_ ?_ ?_ ⟨hwr, hrd⟩
    · simp [sameBus, readWord, hrd]
    · simp [readWord]
    · simp [readWord, hdir]

theorem writeWord_orderly (w : Half) (s : State) : Orderly s (writeWord w s) where
  toLawful := (writeWord_keeps w s).lawful
  pins := fun h => by
    obtain ⟨⟨hdir, hpull, hwr, hrd⟩, hcon, haleh, halel, hjoy, -⟩ := writeWord_pins w s h.2
    exact ⟨.inr hdir, fun _ => hpull, ⟨hwr, hrd⟩, fun e => hjoy.trans e, fun e => by rw [haleh, halel, e], hcon⟩

/-- An event of the reset line moves no other pin (R136). -/
theorem ctrlRst_orderly (level : Level) (s : State) : Orderly s (ctrl .rst level s) where
  toLawful := (ctrl_keeps .rst level s).lawful
  pins := Tidy.of_sameBus ⟨rfl, rfl, rfl, rfl, rfl, rfl, rfl⟩ id (by simp [line_beq])

/-- An event alone, as of a delay, a sleep or a yield (R40). -/
theorem emit_orderly (e : Event) (s : State) : Orderly s (emit e s) where
  toLawful := ⟨rfl, rfl, id, fun _ => id, id⟩
  pins := Tidy.of_sameBus ⟨rfl, rfl, rfl, rfl, rfl, rfl, rfl⟩ id rfl

theorem execReadWord_orderly (s : State) : Ends (execReadWord s) (Orderly s) := by
  unfold execReadWord
  split
  · exact .raise _ (.refl s)
  · next h => exact .finish _ _ _ (readWord_orderly (not_not.mp h))

theorem execAssertReset_orderly (active : Bool) (s : State) : Ends (execAssertReset active s) (Orderly s) :=
  .finish _ _ _ (((setReset_orderly active s).trans (ctrlRst_orderly _ _)).trans (emit_orderly _ _))

/-! ### ROM (R150-R152) -/

theorem romRead_orderly (a l : Nat) (s : State) : Orderly s (romRead a l s).2 := by
  by_cases h : l = 0
  · simpa [romRead, h] using Orderly.refl s
  · exact (romRead_cycle a l h s).orderly

theorem probeMirrors_orderly (fp : List Byte) (ks : List Nat) (s : State) :
    Orderly s (probeMirrors fp ks s).2 := by
  induction ks generalizing s with
  | nil => exact .refl s
  | cons k ks ih =>
    have h := romRead_orderly (k * s.cfg.romProbeStep) s.cfg.romFpLen s
    simp only [probeMirrors]
    split
    · exact h
    · exact h.trans (ih _)

theorem detectRom_orderly (s : State) : Orderly s (detectRom s).2 :=
  (romRead_orderly _ _ s).trans (probeMirrors_orderly _ _ _)

theorem execReadRomBytes_orderly (a l : Word) (s : State) : Ends (execReadRomBytes a l s) (Orderly s) :=
  .ite (.raise _ (.refl s)) (.ite (.raise _ (.refl s)) (.ite (.raise _ (.refl s))
    (.finish _ _ _ (romRead_orderly _ _ s))))

/-! ### SRAM (R170-R175) -/

theorem sramReadWords_orderly (o n : Nat) (s : State) : Orderly s (sramReadWords o n s).2 := by
  unfold sramReadWords
  cases burstPieces s.cfg.sramBurst o n with
  | nil => exact .refl s
  | cons p ps => exact (sramReadPieces_cycle (p :: ps) (by simp) s).orderly

theorem sramWriteWords_orderly (o : Nat) (v : List Byte) (s : State) : Orderly s (sramWriteWords o v s) := by
  unfold sramWriteWords
  cases burstPieces s.cfg.sramBurst o v.length with
  | nil => exact .refl s
  | cons p ps => exact (sramWritePieces_cycle o v (p :: ps) (by simp) s).orderly

theorem peek_cycle (addr : Nat) (s : State) : Cycle s (peek addr s).2 :=
  (latchAddress_cycle _ s).then (readWord_settles _)

theorem poke_cycle (addr : Nat) (w : Half) (s : State) : Cycle s (poke addr w s) :=
  (latchAddress_cycle _ s).then (writeWord_settles w _)

theorem sramProbe_cycle (s : State) : Cycle s (sramProbe s).2 := by
  simp only [sramProbe]
  split
  · exact peek_cycle _ s
  · exact ((((peek_cycle _ s).trans (peek_cycle _ _)).trans (poke_cycle _ _ _)).trans (peek_cycle _ _)).trans
      (poke_cycle _ _ _)

theorem sramRead_orderly (a l : Nat) (s : State) : Orderly s (sramRead a l s).2 := by
  unfold sramRead
  split
  · exact .refl s
  · exact sramReadWords_orderly _ _ s

theorem sramHead_orderly (a : Nat) (s : State) : Orderly s (sramHead a s).2 := by
  unfold sramHead
  split
  · exact sramReadWords_orderly _ _ s
  · exact .refl s

theorem sramTail_orderly (a l : Nat) (s : State) : Orderly s (sramTail a l s).2 := by
  unfold sramTail
  split
  · exact sramReadWords_orderly _ _ s
  · exact .refl s

theorem sramWrite_orderly (a l : Nat) (d : List Byte) (s : State) : Orderly s (sramWrite a l d s) := by
  unfold sramWrite
  split
  · exact .refl s
  · exact ((sramHead_orderly a s).trans (sramTail_orderly a l _)).trans (sramWriteWords_orderly _ _ _)

theorem execReadSramBytes_orderly (a l : Word) (s : State) : Ends (execReadSramBytes a l s) (Orderly s) :=
  .ite (.raise _ (.refl s)) (.finish _ _ _ (sramRead_orderly _ _ s))

theorem execWriteSramBytes_orderly (a l : Word) (d : List Byte) (s : State) :
    Ends (execWriteSramBytes a l d s) (Orderly s) :=
  .ite (.raise _ (.refl s)) (.ite (.raise _ (.refl s)) (.finish _ _ _ (sramWrite_orderly _ _ _ s)))

/-! ### EEPROM (R194-R199) -/

theorem joyXfer_orderly (tx : List Byte) (n : Nat) (s : State) : Orderly s (joyXfer tx n s).2 where
  toLawful := (joyXfer_keeps tx n s).lawful
  pins := Tidy.of_sameBus ⟨rfl, rfl, rfl, rfl, rfl, rfl, rfl⟩ (fun _ => rfl) rfl

theorem eepReadBlock_orderly (b : Nat) (s : State) : Orderly s (eepReadBlock b s).2 := joyXfer_orderly _ _ s

theorem eepWriteBlock_orderly (b : Nat) (d : List Byte) (s : State) : Orderly s (eepWriteBlock b d s).2 :=
  joyXfer_orderly _ _ s

theorem eepReadBlocks_orderly (a l : Nat) (bs : List Nat) (s : State) :
    Orderly s (eepReadBlocks a l bs s).2 := by
  induction bs generalizing s with
  | nil => exact .refl s
  | cons b bs ih =>
    have h := eepReadBlock_orderly b s
    simp only [eepReadBlocks]
    split
    · next hr => rw [hr] at h; exact h
    · next hr => rw [hr] at h; exact h.trans (ih _)

theorem eepAttempts_orderly (b : Nat) (merged : List Byte) (n : Nat) (s : State) :
    Orderly s (eepAttempts b merged n s).2 := by
  induction n generalizing s with
  | zero => exact .refl s
  | succ n ih =>
    have h := (eepWriteBlock_orderly b merged s).trans (eepReadBlock_orderly b _)
    simp only [eepAttempts]
    split
    · exact h
    · exact h.trans (ih _)

theorem eepWriteBlocks_orderly (a l : Nat) (d : List Byte) (bs : List Nat) (s : State) :
    Orderly s (eepWriteBlocks a l d bs s).2 := by
  induction bs generalizing s with
  | nil => exact .refl s
  | cons b bs ih =>
    have h := eepReadBlock_orderly b s
    simp only [eepWriteBlocks]
    split
    · next hr => rw [hr] at h; exact h
    · next old s1 hr =>
      rw [hr] at h
      have k := h.trans (eepAttempts_orderly b (mergeUnit s.cfg.eepromBlock a l d b old)
        (1 + s.cfg.eepromMaxRetries) s1)
      split
      · next ha => rw [ha] at k; exact k
      · next ha => rw [ha] at k; exact k.trans (ih _)

theorem execEepromSize_orderly (s : State) : Ends (execEepromSize s) (Orderly s) :=
  .finish _ _ _ ((joyXfer_orderly [s.cfg.joyCmdInfo] 3 s).trans (orderly_eepSize _ _))

theorem execReadEepromBlock_orderly (i : Word) (s : State) : Ends (execReadEepromBlock i s) (Orderly s) := by
  have h := eepReadBlock_orderly i.toNat s
  refine .ite (.raise _ (.refl s)) ?_
  split
  · next hr => rw [hr] at h; exact .raise _ h
  · next hr => rw [hr] at h; exact .finish _ _ _ h

theorem execWriteEepromBlock_orderly (i : Word) (d : List Byte) (s : State) :
    Ends (execWriteEepromBlock i d s) (Orderly s) := by
  have h := eepWriteBlock_orderly i.toNat d s
  refine .ite (.raise _ (.refl s)) (.ite (.raise _ (.refl s)) ?_)
  split
  · next hr => rw [hr] at h; exact .raise _ h
  · next hr => rw [hr] at h; exact .finish _ _ _ h

theorem execReadEepromBytes_orderly (a l : Word) (s : State) :
    Ends (execReadEepromBytes a l s) (Orderly s) := by
  have h := eepReadBlocks_orderly a.toNat l.toNat (unitsOf s.cfg.eepromBlock a.toNat l.toNat) s
  refine .ite (.raise _ (.refl s)) (.ite (.finish _ _ _ (.refl s)) ?_)
  split
  · next hr => rw [hr] at h; exact .raise _ h
  · next hr => rw [hr] at h; exact .finish _ _ _ h

theorem execWriteAndVerifyEepromBytes_orderly (a l : Word) (d : List Byte) (s : State) :
    Ends (execWriteAndVerifyEepromBytes a l d s) (Orderly s) :=
  .ite (.raise _ (.refl s)) (.ite (.raise _ (.refl s)) (.ite (.finish _ _ _ (.refl s))
    (.ofCause _ _ (eepWriteBlocks_orderly _ _ _ _ s))))

/-! ### FlashRAM (R241-R258) -/

theorem sendCommand_orderly (k : FlashKind) (p : Half) (s : State) : Orderly s (sendCommand k p s) :=
  (sendCommand_cycle k p s).orderly

theorem readStatus_orderly (s : State) : Orderly s (readStatus s).2 := (readStatus_cycle s).orderly

theorem pollReady_orderly (left n : Nat) (s : State) : Orderly s (pollReady left n s).2 := by
  induction left generalizing n s with
  | zero => exact .refl s
  | succ left ih =>
    have h := readStatus_orderly s
    simp only [pollReady]
    split
    · exact h
    · split
      · exact h
      · exact ((h.trans (emit_orderly _ _)).trans (emit_orderly _ _)).trans (ih _ _)

theorem flashRead_orderly (a l : Nat) (s : State) : Orderly s (flashRead a l s).2 := by
  by_cases h : l = 0
  · simpa [flashRead, h] using Orderly.refl s
  · exact (flashRead_cycle a l h s).orderly

/-- The assembled image is canonical, built from bytes (R258). -/
theorem assembleBlock_orderly (a l : Nat) (d : List Byte) (b : Nat) (s : State) :
    Orderly s (assembleBlock a l d b s) :=
  (flashRead_orderly _ _ s).trans
    (orderly_blkBuf fun _ => Memory.wf_writeRange (Memory.wf_ofBytes 0 _) _ _)

theorem flashWriteBlocks_orderly (a l : Nat) (d : List Byte) (bs : List Nat) (s : State) :
    Orderly s (flashWriteBlocks a l d bs s).2 := by
  induction bs generalizing s with
  | nil => exact .refl s
  | cons b bs ih =>
    have h := (assembleBlock_orderly a l d b s).trans (eraseAndProgram_cycle b _).orderly
    simp only [flashWriteBlocks]
    split
    · next hr => rw [hr] at h; exact h
    · next hr => rw [hr] at h; exact h.trans (ih _)

theorem execFlashCommand_orderly (k : BitVec 4) (p : Half) (s : State) :
    Ends (execFlashCommand k p s) (Orderly s) := by
  unfold execFlashCommand
  split
  · exact .raise _ (.refl s)
  · exact .finish _ _ _ (sendCommand_orderly _ _ s)

theorem execFlashWaitReady_orderly (s : State) : Ends (execFlashWaitReady s) (Orderly s) := by
  have h : Orderly s (waitReady s).2 := pollReady_orderly _ _ s
  unfold execFlashWaitReady
  split
  · next hr => rw [hr] at h; exact .finish _ _ _ h
  · next hr => rw [hr] at h; exact .raise _ h

theorem execHasFlashram_orderly (s : State) : Ends (execHasFlashram s) (Orderly s) :=
  .finish _ _ _ (((sendCommand_orderly _ _ s).trans (readStatus_orderly _)).trans (sendCommand_orderly _ _ _))

theorem execReadFlashramBytes_orderly (a l : Word) (s : State) :
    Ends (execReadFlashramBytes a l s) (Orderly s) :=
  .ite (.raise _ (.refl s)) (.finish _ _ _ (flashRead_orderly _ _ s))

theorem execFlashEraseBlock_orderly (b : Word) (s : State) : Ends (execFlashEraseBlock b s) (Orderly s) :=
  .ite (.raise _ (.refl s)) (.ofCause _ _ (eraseBlock_cycle _ s).orderly)

theorem execFlashProgramPage_orderly (p : Word) (d : List Byte) (s : State) :
    Ends (execFlashProgramPage p d s) (Orderly s) :=
  .ite (.raise _ (.refl s)) (.ite (.raise _ (.refl s)) (.ofCause _ _ (programPage_cycle _ _ s).orderly))

theorem execWriteFlashramBytes_orderly (a l : Word) (d : List Byte) (s : State) :
    Ends (execWriteFlashramBytes a l d s) (Orderly s) :=
  .ite (.raise _ (.refl s)) (.ite (.raise _ (.refl s)) (.ite (.finish _ _ _ (.refl s))
    (.ofCause _ _ ((dropStream_orderly s).trans (flashWriteBlocks_orderly _ _ _ _ _)))))

/-! ### Streamed sectors (R260, R262) -/

/-- A sector of the chip lies in a block of the chip (R260). -/
theorem sectorBlock_lt {c : Params} (h : c.ok = true) {n : Nat} (hn : n < c.flashSize / c.flashSector) :
    sectorBlock c n < c.flashSize / c.flashBlock := by
  have r := Params.ok_relations h
  obtain ⟨k, hk⟩ := Nat.dvd_of_mod_eq_zero r.block_sector
  obtain ⟨m, hm⟩ := Nat.dvd_of_mod_eq_zero r.size_block
  have hblocks : c.flashSize / c.flashBlock = m := by rw [hm, Nat.mul_div_cancel_left _ r.block]
  have hsectors : c.sectorsPerBlock = k := by
    rw [Params.sectorsPerBlock, hk, Nat.mul_div_cancel_left _ r.sector]
  have hall : c.flashSize / c.flashSector = k * m := by
    rw [hm, hk, Nat.mul_assoc, Nat.mul_div_cancel_left _ r.sector]
  rw [sectorBlock, hsectors, hblocks]
  exact Nat.div_lt_of_lt_mul (hall ▸ hn)

/-- The stream that a sector of block `blk` goes to: active, of that block, with a bit a sector (R262). -/
theorem openStream_spec (blk : Nat) {s : State} (h : s.fsBitmap.length = s.cfg.sectorsPerBlock) :
    (openStream blk s).fsActive = true ∧ (openStream blk s).fsBlock.toNat ≤ blk ∧
    (openStream blk s).fsBitmap.length = s.cfg.sectorsPerBlock := by
  unfold openStream
  split
  · next e =>
    simp only [Bool.and_eq_true, beq_iff_eq] at e
    exact ⟨e.1, e.2.le, h⟩
  · exact ⟨rfl, by simpa using Nat.mod_le _ _, by simp⟩

/-- Opening a stream touches the stream's registers only. -/
theorem openStream_eq (blk : Nat) (s : State) :
    openStream blk s = { s with
      fsActive := (openStream blk s).fsActive
      fsBlock := (openStream blk s).fsBlock
      fsBitmap := (openStream blk s).fsBitmap } := by
  unfold openStream
  split <;> rfl

/-- A received sector touches the stream's registers and the block buffer only. -/
theorem receiveSector_eq (n : Nat) (d : List Byte) (s : State) :
    receiveSector n d s = { s with
      fsActive := (receiveSector n d s).fsActive
      fsBlock := (receiveSector n d s).fsBlock
      fsBitmap := (receiveSector n d s).fsBitmap
      blkBuf := s.blkBuf.writeRange (s.cfg.flashSector * sectorSlot s.cfg n) d } := by
  unfold receiveSector
  rw [openStream_eq]

theorem receiveSector_cfg (n : Nat) (d : List Byte) (s : State) : (receiveSector n d s).cfg = s.cfg := by
  rw [receiveSector_eq]

theorem receiveSector_streamInv {n : Nat} (d : List Byte) {s : State} (h : s.cfg.ok = true)
    (hn : n < s.cfg.flashSize / s.cfg.flashSector) (hpart : (receiveSector n d s).fsBitmap.all id = false)
    (hs : streamInv s) : streamInv (receiveSector n d s) := by
  obtain ⟨hactive, hblock, hlen⟩ := openStream_spec (sectorBlock s.cfg n) hs.1
  have ha : (receiveSector n d s).fsActive = true := hactive
  refine ⟨?_, hpart, fun e => absurd (ha.symm.trans e) (by decide), fun _ => ?_⟩
  · rw [receiveSector_cfg]
    simpa [receiveSector] using hlen
  · rw [receiveSector_cfg]
    exact hblock.trans_lt (sectorBlock_lt h hn)

/-- A received sector that leaves the stream's registers consistent, as those of a stream not yet full. -/
theorem receiveSector_orderly {n : Nat} (d : List Byte) {s : State}
    (hstream : s.cfg.ok = true → streamInv s → streamInv (receiveSector n d s)) :
    Orderly s (receiveSector n d s) := by
  rw [receiveSector_eq] at hstream ⊢
  exact
    { cfg := rfl
      launched := rfl
      memory := fun ⟨hbuf, hrest⟩ => ⟨Memory.wf_writeRange hbuf _ _, hrest⟩
      stream := hstream
      eepSize := id
      pins := Tidy.of_sameBus ⟨rfl, rfl, rfl, rfl, rfl, rfl, rfl⟩ id rfl }

/-- The last sector closes its stream (R262): nothing is left of it but the image in the block buffer. -/
theorem closeStream_orderly (n : Nat) (d : List Byte) (s : State) :
    Orderly s (dropStream (receiveSector n d s)) := by
  rw [receiveSector_eq]
  exact
    { cfg := rfl
      launched := rfl
      memory := fun ⟨hbuf, hrest⟩ => ⟨Memory.wf_writeRange hbuf _ _, hrest⟩
      stream := fun h _ => dropStream_streamInv h
      eepSize := id
      pins := Tidy.of_sameBus ⟨rfl, rfl, rfl, rfl, rfl, rfl, rfl⟩ id rfl }

theorem execWriteFlashramSector_orderly (n : Word) (d : List Byte) (s : State) :
    Ends (execWriteFlashramSector n d s) (Orderly s) := by
  unfold execWriteFlashramSector
  split
  · exact .raise _ (.refl s)
  split
  · exact .raise _ (.refl s)
  next hn =>
  split
  · exact .ofCause _ _ ((closeStream_orderly n.toNat d s).trans (eraseAndProgram_cycle _ _).orderly)
  · next hpart =>
    exact .finish _ _ _ (receiveSector_orderly d fun h =>
      receiveSector_streamInv d h (Nat.lt_of_not_le hn) (Bool.eq_false_of_not_eq_true hpart))

/-! ### Every operation -/

/-- Every operation but `SET_DIRECTION` to output ends with an orderly body. -/
theorem exec_orderly (i : Instr) (s : State) (h : i ≠ .setDirection true) : Ends (exec i s) (Orderly s) :=
  match i with
  | .busInit => .finish _ _ _ (busInitBody_orderly s)
  | .setDirection true => absurd rfl h
  | .setDirection false => .finish _ _ _ (setDir_input_orderly s)
  | .latchAddress a => .finish _ _ _ (latchAddress_cycle a s).orderly
  | .readWord => execReadWord_orderly s
  | .writeWord w => .finish _ _ _ (writeWord_orderly w s)
  | .assertReset active => execAssertReset_orderly active s
  | .readRomBytes a l => execReadRomBytes_orderly a l s
  | .detectRomSize => .finish _ _ _ (detectRom_orderly s)
  | .hasSram => .finish _ _ _ (sramProbe_cycle s).orderly
  | .readSramBytes a l => execReadSramBytes_orderly a l s
  | .writeSramBytes a l d => execWriteSramBytes_orderly a l d s
  | .eepromSize => execEepromSize_orderly s
  | .readEepromBlock b => execReadEepromBlock_orderly b s
  | .writeEepromBlock b d => execWriteEepromBlock_orderly b d s
  | .readEepromBytes a l => execReadEepromBytes_orderly a l s
  | .writeAndVerifyEepromBytes a l d => execWriteAndVerifyEepromBytes_orderly a l d s
  | .flashCommand k p => execFlashCommand_orderly k p s
  | .flashReadStatus => .finish _ _ _ (readStatus_orderly s)
  | .flashWaitReady => execFlashWaitReady_orderly s
  | .hasFlashram => execHasFlashram_orderly s
  | .readFlashramBytes a l => execReadFlashramBytes_orderly a l s
  | .flashEraseBlock b => execFlashEraseBlock_orderly b s
  | .flashProgramPage p d => execFlashProgramPage_orderly p d s
  | .writeFlashramBytes a l d => execWriteFlashramBytes_orderly a l d s
  | .writeFlashramSector n d => execWriteFlashramSector_orderly n d s
  | .flashCommandReset => .finish _ _ _ (sendCommand_orderly _ _ s)
  | .flashCommandReadArray => .finish _ _ _ (sendCommand_orderly _ _ s)
  | .flashCommandStatusMode => .finish _ _ _ (sendCommand_orderly _ _ s)
  | .flashCommandEraseSelect p => .finish _ _ _ (sendCommand_orderly _ p s)
  | .flashCommandEraseMode => .finish _ _ _ (sendCommand_orderly _ _ s)
  | .flashCommandProgram => .finish _ _ _ (sendCommand_orderly _ _ s)
  | .flashCommandPageSelect p => .finish _ _ _ (sendCommand_orderly _ p s)
  | .flashCommandExecute => .finish _ _ _ (sendCommand_orderly _ _ s)

/-- Every operation ends with a lawful body. -/
theorem exec_lawful (i : Instr) (s : State) : Ends (exec i s) (Lawful s) := by
  by_cases h : i = .setDirection true
  · subst h
    exact .finish _ _ _ (setDir_keeps true s).lawful
  · exact (exec_orderly i s h).mono Orderly.toLawful

/-- `SET_DIRECTION` to output drives the bus low; with `RD` high it notes no contention (R132, R326). -/
theorem setDir_output_pins {s : State} (h : s.rd = 1#1) :
    (setDir true s).gpioDir = 0xFFFF#16 ∧ (setDir true s).gpioOut = 0x0000#16 ∧
    (setDir true s).contention = s.contention := by
  simp [h]

/-! ### One step -/

/-- What a step can do: wait, change the cartridge, reject a record, run an operation, or have no next state. -/
inductive StepTo (s : State) : Outcome → Prop where
  | faulted (h : s.contention = true) : StepTo s (.fault .busContention)
  | refused (reason : Refusal) : StepTo s (.refused reason)
  | waited : StepTo s (.next s)
  | changed (env : Env) (rest : List HostMove) (h : s.inputs = .changeCartridge env :: rest) :
      StepTo s (.next (cartridgeChanged env rest s))
  | rejected (bytes : List Byte) (rest : List HostMove) (cause : Cause) (h : s.inputs = .issue bytes :: rest)
      (hl : s.launched = true) : StepTo s (raise cause (acceptRecord rest s))
  | ran (bytes : List Byte) (rest : List HostMove) (i : Instr) (hok : s.cfg.ok = true)
      (h : s.inputs = .issue bytes :: rest) (hl : s.launched = true ∨ i = .busInit) :
      StepTo s (exec i (acceptRecord rest s))

/-- What the step makes of what was fetched. -/
def Fetched.outcome (s : State) : Fetched → Outcome
  | .wait => .next s
  | .stop reason => .refused reason
  | .changed t => .next t
  | .rejected cause t => raise cause t
  | .run i t => exec i t

theorem step_eq_outcome {s : State} (hc : s.contention = false) (hok : s.cfg.ok = true) :
    step s = (fetch s).outcome s := by
  simp only [step, hc, hok, Bool.false_eq_true, if_false, if_true]
  cases fetch s <;> rfl

/-- A record is accepted only while the block is idle, and as the first one only `BUS_INIT` (R100, R339). -/
theorem stepTo_fetchRecord {s : State} {bytes : List Byte} {rest : List HostMove} (hok : s.cfg.ok = true)
    (h : s.inputs = .issue bytes :: rest) : StepTo s ((fetchRecord bytes rest s).outcome s) := by
  unfold fetchRecord
  split
  · exact .refused _
  split
  · split
    · next hl => exact .ran bytes rest _ hok h hl
    · exact .refused _
  · split
    · exact .refused _
    · split
      · next hl => exact .rejected bytes rest _ h hl
      · exact .refused _

theorem step_stepTo (s : State) : StepTo s (step s) := by
  cases hc : s.contention with
  | true => simpa [step, hc] using StepTo.faulted hc
  | false =>
    cases hok : s.cfg.ok with
    | false => simpa [step, hc, hok] using StepTo.refused (s := s) .illFormedConfig
    | true =>
      rw [step_eq_outcome hc hok, fetch]
      split
      · exact .waited
      · next h => exact .changed _ _ h
      · next h => exact stepTo_fetchRecord hok h

/-- What accepting a record, every lawful body, the end of an operation and a cartridge change keep, a step
keeps. -/
theorem step_preserves {P : State → Prop}
    (accept : ∀ {s bytes rest}, s.inputs = .issue bytes :: rest → P s → P (acceptRecord rest s))
    (change : ∀ {s env rest}, s.inputs = .changeCartridge env :: rest → P s → P (cartridgeChanged env rest s))
    (body : ∀ {s t}, s.cfg.ok = true → Lawful s t → P s → P t)
    (done : ∀ {s} st v d, P s → P (endState st v d s))
    {s t : State} (hs : P s) (ht : step s = .next t) : P t := by
  have hstep := step_stepTo s
  rw [ht] at hstep
  generalize ho : (Host.Outcome.next t : Outcome) = o at hstep
  cases hstep with
  | faulted => cases ho
  | refused => cases ho
  | waited => cases ho; exact hs
  | changed env rest h => cases ho; exact change h hs
  | rejected bytes rest cause h =>
    have hend : Ends (raise cause (acceptRecord rest s)) P := .raise cause (accept h hs)
    obtain ⟨st, v, d, u, hu, rfl⟩ := hend.next ho.symm
    exact done st v d hu
  | ran bytes rest i hok h =>
    obtain ⟨st, v, d, u, hu, rfl⟩ := (exec_lawful i (acceptRecord rest s)).next ho.symm
    exact done st v d (body (s := acceptRecord rest s) hok hu (accept h hs))

/-! ### The memories and the registers after a step -/

theorem acceptRecord_memoryInv {s : State} {bytes : List Byte} {rest : List HostMove}
    (h : s.inputs = .issue bytes :: rest) (hs : memoryInv s) : memoryInv (acceptRecord rest s) := by
  obtain ⟨hbuf, henv, hrom, hmoves⟩ := hs
  exact ⟨hbuf, henv, hrom, fun m hm => hmoves m (h ▸ List.mem_cons_of_mem _ hm)⟩

/-- The inserted cartridge brings the form its move had (R81, R86, R297). -/
theorem cartridgeChanged_memoryInv {s : State} {env : Env} {rest : List HostMove}
    (h : s.inputs = .changeCartridge env :: rest) (hs : memoryInv s) : memoryInv (cartridgeChanged env rest s) := by
  obtain ⟨hbuf, -, -, hmoves⟩ := hs
  rw [h] at hmoves
  have hmove := hmoves _ List.mem_cons_self
  simp only [HostMove.wf, Bool.and_eq_true] at hmove
  exact ⟨hbuf, Env.inserted_wf _ _ hmove.1, (Env.romSized_of_rom (Env.inserted_rom _ _ _)).trans hmove.2,
    fun m hm => hmoves m (List.mem_cons_of_mem _ hm)⟩

/-- Settles O57: every body is lawful, and a cartridge change brings memories in form. -/
theorem stepKeepsMemoryForm : Obligations.StepKeepsMemoryForm := fun _ _ =>
  step_preserves acceptRecord_memoryInv cartridgeChanged_memoryInv (fun _ k => k.memory) (fun _ _ _ => id)

/-- Settles O58: every body is lawful, and nothing else touches the registers. -/
theorem stepKeepsBlockRegisters : Obligations.StepKeepsBlockRegisters :=
  ⟨fun _ _ => step_preserves (fun _ => id) (fun _ => id) (fun hok k => k.stream hok) (fun _ _ _ => id),
    fun _ _ => step_preserves (fun _ => id) (fun _ => id) (fun _ k => k.eepSize) (fun _ _ _ => id)⟩

/-! ### The pins after a step -/

/-- The pins between operations of a launched run: the last clause of `sequencerInv`. -/
def pinsInv (s : State) : Prop :=
  (s.gpioDir = 0x0000#16 ∨ s.gpioDir = 0xFFFF#16) ∧ s.gpioPull = 1#1 ∧ s.wr = 1#1 ∧ s.rd = 1#1 ∧
  s.joy = 1#1 ∧ ((s.aleh = 1#1 ∧ s.alel = 1#1) ∨ (s.aleh = 0#1 ∧ s.alel = 0#1))

theorem sequencerInv_iff (s : State) :
    sequencerInv s ↔ s.opState = .idle ∧ s.contention = false ∧ (s.launched = true → pinsInv s) := Iff.rfl

/-- Two levels agree when both are high or both low (R38). -/
theorem level_eq_iff (a b : Level) : a = b ↔ (a = 1#1 ∧ b = 1#1) ∨ (a = 0#1 ∧ b = 0#1) := by
  constructor
  · rintro rfl
    rcases BitVec.eq_zero_or_eq_one a with h | h
    · exact .inr ⟨h, h⟩
    · exact .inl ⟨h, h⟩
  · rintro (⟨rfl, rfl⟩ | ⟨rfl, rfl⟩) <;> rfl

theorem pinsInv.strobes {s : State} (h : pinsInv s) : strobesHigh s := by
  obtain ⟨-, -, hwr, hrd, -, -⟩ := h
  exact ⟨hwr, hrd⟩

theorem Tidy.pinsInv {s t : State} (k : Tidy s t) (h : pinsInv s) : Machine.pinsInv t := by
  obtain ⟨hdir, hpull, -, -, hjoy, hale⟩ := h
  refine ⟨?_, k.pull hpull, k.strobes.1, k.strobes.2, k.joy hjoy,
    (level_eq_iff _ _).1 (k.ale ((level_eq_iff _ _).2 hale))⟩
  rcases k.dir with e | e
  · rw [e]
    exact hdir
  · exact .inl e

/-- `BUS_INIT` sets the pins up, whatever they were (R310, R339). -/
theorem busInitBody_pinsInv (s : State) : pinsInv (busInitBody s) := by
  obtain ⟨⟨hdir, hpull, hwr, hrd⟩, hjoy, haleh, halel, -⟩ := busInitBody_pins s
  exact ⟨.inl hdir, hpull, hwr, hrd, hjoy, .inl ⟨haleh, halel⟩⟩

theorem setDir_output_pinsInv {s : State} (h : pinsInv s) : pinsInv (setDir true s) := by
  obtain ⟨-, hrest⟩ := h
  exact ⟨.inr rfl, hrest⟩

/-- The pins are set up and no contention is noted: what a body leaves that starts so. -/
def Ready (s : State) : Prop := s.contention = false ∧ pinsInv s

theorem exec_ready (i : Instr) {s : State} (h : Ready s) : Ends (exec i s) Ready := by
  obtain ⟨hcon, hpins⟩ := h
  by_cases hi : i = .setDirection true
  · subst hi
    obtain ⟨-, -, hc⟩ := setDir_output_pins hpins.strobes.2
    exact .finish _ _ _ ⟨hc.trans hcon, setDir_output_pinsInv hpins⟩
  · refine (exec_orderly i s hi).mono fun k => ?_
    have hk := k.pins hpins.strobes
    exact ⟨hk.contention.trans hcon, hk.pinsInv hpins⟩

theorem execBusInit_ready {s : State} (hcon : s.contention = false) : Ends (execBusInit s) Ready := by
  obtain ⟨-, -, -, -, hc⟩ := busInitBody_pins s
  rw [execBusInit_eq]
  exact .finish _ _ _ ⟨hc.trans hcon, busInitBody_pinsInv s⟩

/-- An operation whose body leaves the pins set up answers a state with the sequencer's invariant. -/
theorem Ends.sequencerInv {o : Outcome} (h : Ends o Ready) : ∃ t, o = .next t ∧ sequencerInv t := by
  obtain ⟨st, v, d, u, ⟨hcon, hpins⟩, rfl⟩ := h.answers And.left
  exact ⟨_, rfl, rfl, hcon, fun _ => hpins⟩

/-- From a state with the sequencer's invariant a step answers one with it, or is refused (R300, R326). -/
theorem step_sequencerInv {s : State} (hs : sequencerInv s) :
    (∃ t, step s = .next t ∧ sequencerInv t) ∨ ∃ reason, step s = .refused reason := by
  obtain ⟨hidle, hcon, hpins⟩ := (sequencerInv_iff s).1 hs
  have hstep := step_stepTo s
  generalize step s = o at hstep ⊢
  cases hstep with
  | faulted h => exact absurd (hcon.symm.trans h) (by decide)
  | refused reason => exact .inr ⟨reason, rfl⟩
  | waited => exact .inl ⟨s, rfl, hidle, hcon, hpins⟩
  | changed => exact .inl ⟨_, rfl, hidle, hcon, hpins⟩
  | rejected bytes rest cause h hl =>
    have hready : Ready (acceptRecord rest s) := ⟨hcon, hpins hl⟩
    exact .inl (Ends.raise cause hready).sequencerInv
  | ran bytes rest i hok h hl =>
    rcases hl with hl | rfl
    · have hready : Ready (acceptRecord rest s) := ⟨hcon, hpins hl⟩
      exact .inl (exec_ready i hready).sequencerInv
    · exact .inl (execBusInit_ready (s := acceptRecord rest s) hcon).sequencerInv

theorem step_ne_fault {s : State} (hs : sequencerInv s) (f : Fault) : step s ≠ .fault f := by
  rcases step_sequencerInv hs with ⟨t, ht, -⟩ | ⟨reason, hr⟩
  · simp [ht]
  · simp [hr]

theorem sequencerInv_of_step {s t : State} (hs : sequencerInv s) (ht : step s = .next t) : sequencerInv t := by
  rcases step_sequencerInv hs with ⟨u, hu, hinv⟩ | ⟨reason, hr⟩
  · rw [ht] at hu
    cases hu
    exact hinv
  · rw [ht] at hr
    cases hr

/-- No run faults from a state with the sequencer's invariant (R326). -/
theorem runFrom_ne_faulted (n : Nat) {s : State} (rs : List Result) (f : Fault) (hs : sequencerInv s) :
    runFrom n s rs ≠ .faulted f := by
  have hend : ∀ u rs', runEnd u rs' ≠ .faulted f := by
    intro u rs'
    unfold runEnd
    split <;> simp
  induction n generalizing s rs with
  | zero =>
    unfold runFrom
    split
    · exact hend _ _
    · simp
  | succ n ih =>
    unfold runFrom
    split
    · exact hend _ _
    · next ht => exact ih _ (sequencerInv_of_step hs ht)
    · next ht => exact ih _ (sequencerInv_of_step hs ht)
    · next ht => exact absurd ht (step_ne_fault hs _)
    · simp

/-- At the start of a run no pin is asked for, the block not being launched (R310). -/
theorem fromReset.sequencerInv {s : State} (h : fromReset s) (hcon : s.contention = false) :
    sequencerInv s := by
  obtain ⟨hidle, -, -, -, -, -, -, hl⟩ := h
  exact ⟨hidle, hcon, fun e => absurd (hl.symm.trans e) (by decide)⟩

/-- Settles O56: an orderly body keeps the pins set up, `BUS_INIT` sets them up from any pins, and the run is
an induction on its steps. -/
theorem stepKeepsSequencer : Obligations.StepKeepsSequencer :=
  ⟨fun _ _ => sequencerInv_of_step, fun _ f hs => step_ne_fault hs f,
    fun s f h hcon => runFrom_ne_faulted s.inputs.length [] f (fromReset.sequencerInv h hcon)⟩

/-! ### A quiet bus (R37) -/

theorem Tidy.quiet {s t : State} (k : Tidy s t) (h : quiet s) : Machine.quiet t := by
  obtain ⟨hdir, -, -, hjoy⟩ := h
  refine ⟨?_, k.strobes.1, k.strobes.2, k.joy hjoy⟩
  rcases k.dir with e | e
  · exact e.trans hdir
  · exact e

theorem exec_quiet {i : Instr} {s : State} (h : quiet s) (hcon : s.contention = false)
    (hi : i ≠ .setDirection true) : ∃ t, exec i s = .next t ∧ quiet t := by
  have hstrobes : strobesHigh s := by
    obtain ⟨-, hwr, hrd, -⟩ := h
    exact ⟨hwr, hrd⟩
  obtain ⟨st, v, d, u, hk, ho⟩ := (exec_orderly i s hi).answers
    fun k => (k.pins hstrobes).contention.trans hcon
  exact ⟨endState st v d u, ho, (hk.pins hstrobes).quiet h⟩

/-- Settles O55: an orderly body keeps the bus quiet; `SET_DIRECTION` to output drives it low, and `READ_WORD`
checks it at entry. -/
theorem operationsLeaveBusQuiet : Obligations.OperationsLeaveBusQuiet := by
  refine ⟨fun i s => exec_quiet, fun s h hcon => ?_, fun s hdir hcon => ?_⟩
  · obtain ⟨-, hwr, hrd, hjoy⟩ := h
    obtain ⟨hout, hlow, hc⟩ := setDir_output_pins hrd
    exact ⟨_, finish_next (hc.trans hcon) .ok 0#32 [], hout, hlow, hwr, hrd, hjoy⟩
  · refine ⟨_, (?_ : execReadWord s = _).trans (raise_next hcon (.misuse .busState)), rfl⟩
    rw [execReadWord, if_pos hdir]

end Sys2Proof.Machine

/-! SUPPORT. What the devices of the reference cartridge store (spec/20_memory.md R81-R95), and the family
`20_memory.md` settled from it. -/

namespace Sys2Proof.Machine

/-! ### The reference cartridge in the slot -/

theorem refCart.saveByte {s : State} {wrap : Option Nat} {rom : RomImage} {save : Save}
    (h : refCart s wrap rom save) (x : Nat) : s.env.saveByte x = save.image.read x := by
  obtain ⟨⟨hbody, -, -⟩, -⟩ := h
  simp [Env.saveByte, hbody]

/-- A write cycle out of reset gives the cartridge its word at the counter (R85, R135), which advances as it
wraps (R65, R66). -/
theorem writeWord_env (w : Half) (s : State) (h : s.rstAsserted = false) :
    ∃ ev, (writeWord w s).env = { s.env.mapCart (Cart.onWrite s.cfg s.env.seed ev s.env.ca.toNat w) with
      ca := advanceCounter s.cfg.autoincWrap s.env.ca } :=
  ⟨.delay .tWpw :: .ctrl .wr 0#1 :: .out w :: .dir true :: s.events, by
    simp [writeWord, Env.onCtrl, State.level, State.seenLevel, Event.levelOf, h]⟩

/-! ### Write pulses -/

/-- Only `EXECUTE` touches the array (R88). -/
theorem FlashChip.command_array {kind : FlashKind} (h : kind ≠ .execute) (c : Params) (seed : Nat)
    (ev : List Event) (p : Nat) (k : FlashChip) : (k.command c seed ev kind p).array = k.array := by
  cases kind with
  | execute => exact absurd rfl h
  | reset | readArray | statusMode | eraseSelect | eraseMode | program | pageSelect => rfl

/-- A write pulse changes the array where it is the second half of an `EXECUTE` (R87, R88, R91, R92). -/
theorem FlashChip.onWrite_array_read (c : Params) (seed : Nat) (ev : List Event) (ca : Nat) (w : Half)
    {k : FlashChip} (hk : k.array.wf = true) (x : Nat) :
    (k.onWrite c seed ev ca w).array.read x =
      if ca = c.flashCmdAddr + 2 ∧ k.cmdHi.bind (fun h => Params.kindOf c (h ++ w)) = some .execute
      then executedByte c k x else k.array.read x := by
  unfold FlashChip.onWrite
  by_cases hhi : ca = c.flashCmdAddr
  · simp [hhi]
  by_cases hlo : ca = c.flashCmdAddr + 2
  · simp only [hlo, Nat.add_eq_left, OfNat.ofNat_ne_zero, if_false, if_true, true_and]
    cases hcmd : k.cmdHi with
    | none => simp
    | some h =>
      cases hkind : Params.kindOf c (h ++ w) with
      | none => simp [hkind]
      | some kind =>
        by_cases hexe : kind = .execute
        · subst hexe
          simp only [Option.bind_some, hkind, if_true]
          exact FlashChip.command_execute_read c seed ev _ (k := { k with cmdHi := none }) hk x
        · simp [hkind, hexe, FlashChip.command_array hexe]
  · simp only [hhi, hlo, false_and, if_false]
    split <;> rfl

/-- The word of a write pulse inside the SRAM goes to the two bytes at the counter (R84). -/
theorem Memory.read_writePair {m : Memory} (h : m.wf = true) (o : Nat) (b0 b1 : Byte) (x : Nat) :
    (m.writeRange o [b0, b1]).read x = if x = o then b0 else if x = o + 1 then b1 else m.read x := by
  simp only [Memory.writeRange, Memory.read_write_wf (Memory.wf_write h _ _), Memory.read_write_wf h]
  split
  · next e => rw [if_neg (by omega)]
  · rfl

/-- A write pulse outside its window changes nothing of the SRAM (R84). -/
theorem Cart.onWrite_sram_outside {c : Params} {ca : Nat} (h : ¬ (c.sramBase ≤ ca ∧ ca < c.sramBase + c.sramSize))
    (r : RomImage) (img : Memory) (seed : Nat) (ev : List Event) (w : Half) :
    (Cart.mk (some r) (.sram img)).onWrite c seed ev ca w = ⟨some r, .sram img⟩ := by
  simp [Cart.onWrite, h]

/-- Settles O14: a write cycle is one write pulse, and the save medium decides what it stores. -/
theorem writeWordStores : Obligations.WriteWordStores := by
  intro s t w rom save wrap href _ hexec
  have hbyte := href.saveByte
  obtain ⟨⟨hbody, -, -⟩, hrst⟩ := href
  have hend : Ends (exec (.writeWord w) s) (· = writeWord w s) := .finish _ _ _ rfl
  obtain ⟨st, v, d, u, rfl, rfl⟩ := hend.next hexec
  obtain ⟨ev, henv⟩ := writeWord_env w s hrst
  have hstored : ∀ x, (writeWord w s).env.saveByte x =
      ((Cart.mk (some rom) save).onWrite s.cfg s.env.seed ev s.env.ca.toNat w).save.image.read x := by
    intro x
    simp [henv, Env.saveByte, Env.mapCart, hbody]
  refine ⟨(writeWord_keeps w s).rom, ?_⟩
  simp only [endState_env, hstored, hbyte]
  cases save with
  | none => exact fun _ => rfl
  | eep4k img => exact fun _ => rfl
  | eep16k img => exact fun _ => rfl
  | flash chip => exact fun hwf x => FlashChip.onWrite_array_read _ _ _ _ _ hwf x
  | sram img =>
    intro hwf
    split
    · next hin =>
      intro x
      rw [Cart.onWrite_sram _ _ _ hin.1 hin.2]
      exact Memory.read_writePair hwf _ _ _ x
    · next hout =>
      intro hlast x
      rw [Cart.onWrite_sram_outside (by omega)]

/-! ### EEPROM blocks -/

theorem frameIndex_toNat {b : Nat} (h : b < 256) : (frameIndex b).toNat = b := by
  simp [frameIndex, Nat.mod_eq_of_lt h]

/-- The answer to the read of a block of the device: its bytes (R94). -/
theorem eepromAnswer_read (c : Params) (type : Byte) {n b : Nat} (img : Memory) (hb : b < n) (h : b < 256) :
    eepromAnswer c type n img [c.joyCmdRead, frameIndex b] =
      (some (img.readRange (c.eepromBlock * b) c.eepromBlock), img) := by
  simp [eepromAnswer, frameIndex_toNat h, hb]

/-- The answer to the write of a block of the device, and its contents after it (R94). -/
theorem eepromAnswer_write (c : Params) (type : Byte) {n b : Nat} (img : Memory) {d : List Byte} (hb : b < n)
    (h : b < 256) (hd : d.length = c.eepromBlock) (h0 : 0 < c.eepromBlock) :
    eepromAnswer c type n img (c.joyCmdWrite :: frameIndex b :: d) =
      (some [0x00#8], img.writeRange (c.eepromBlock * b) d) := by
  have hne : d ≠ [] := List.ne_nil_of_length_pos (hd ▸ h0)
  simp [eepromAnswer, frameIndex_toNat h, hb, hne, hd]

/-- The EEPROM devices of R94, by the block count and the type byte that tell them apart. -/
inductive EepromAt (c : Params) : Save → Memory → Nat → Byte → Prop
  | eep4k (img : Memory) : EepromAt c (.eep4k img) img (c.eeprom4kSize / c.eepromBlock) c.joyType4k
  | eep16k (img : Memory) : EepromAt c (.eep16k img) img (c.eeprom16kSize / c.eepromBlock) c.joyType16k

/-- A serial transaction with the reference EEPROM: what it answers, and what it then holds (R94). -/
theorem joyXfer_eeprom {s : State} {wrap : Option Nat} {rom : RomImage} {save : Save} {img : Memory} {n : Nat}
    {type : Byte} (href : refCart s wrap rom save) (he : EepromAt s.cfg save img n type) (tx : List Byte) (len : Nat) :
    (joyXfer tx len s).1 = receive len (eepromAnswer s.cfg type n img tx).1 ∧
    ∀ x, (joyXfer tx len s).2.env.saveByte x = (eepromAnswer s.cfg type n img tx).2.read x := by
  obtain ⟨⟨hbody, -, -⟩, -⟩ := href
  cases he <;> simp [joyXfer, Env.joy, hbody, Cart.joy, Env.saveByte, Save.image]

theorem EepromAt.blocks_le {c : Params} {save : Save} {img : Memory} {n : Nat} {type : Byte}
    (h : EepromAt c save img n type) (hd : c.Domains) : n ≤ 256 := by
  cases h with
  | eep4k => exact Nat.div_le_of_le_mul (Nat.mul_comm _ _ ▸ hd.blocks4k)
  | eep16k => exact Nat.div_le_of_le_mul (Nat.mul_comm _ _ ▸ hd.blocks16k)

/-- A block of the device reads as stored, and nothing it holds changes (R94, R195). -/
theorem execReadEepromBlock_reference {s : State} {wrap : Option Nat} {rom : RomImage} {save : Save} {img : Memory}
    {n : Nat} {type : Byte} (href : refCart s wrap rom save) (he : EepromAt s.cfg save img n type)
    (hcon : s.contention = false) (hd : s.cfg.Domains) {i : Word} (hi : i.toNat < n)
    (hsize : i.toNat < s.eepSize.toNat / s.cfg.eepromBlock) :
    ∃ t, execReadEepromBlock i s = .next t ∧
      finished t .ok 0#32 (imageBytes img (s.cfg.eepromBlock * i.toNat) s.cfg.eepromBlock) ∧ sameContents s t := by
  have hans := eepromAnswer_read s.cfg type img hi (hi.trans_le (he.blocks_le hd))
  obtain ⟨hrx, hstored⟩ := joyXfer_eeprom href he [s.cfg.joyCmdRead, frameIndex i.toNat] s.cfg.eepromBlock
  have hk := joyXfer_serial [s.cfg.joyCmdRead, frameIndex i.toNat] s.cfg.eepromBlock s
  cases hx : joyXfer [s.cfg.joyCmdRead, frameIndex i.toNat] s.cfg.eepromBlock s with
  | mk rx u =>
    rw [hx, hans] at hrx hstored
    rw [hx] at hk
    have hread : eepReadBlock i.toNat s =
        (some (imageBytes img (s.cfg.eepromBlock * i.toNat) s.cfg.eepromBlock), u) := by
      refine hx.trans (Prod.ext (hrx.trans ?_) rfl)
      simp [receive, Memory.readRange_eq_map, imageBytes]
    refine ⟨endState .ok 0#32 _ u, ?_, endState_finished _ _ _ _, hk.keeps.rom, fun x => (hstored x).trans ?_⟩
    · rw [execReadEepromBlock, if_neg (Nat.not_le.mpr hsize), hread]
      exact finish_next (hk.contention.trans hcon) _ _ _
    · rw [href.saveByte]
      cases he <;> rfl

/-- A block write stores its bytes and no other (R94, R196). -/
theorem execWriteEepromBlock_reference {s : State} {wrap : Option Nat} {rom : RomImage} {save : Save} {img : Memory}
    {n : Nat} {type : Byte} (href : refCart s wrap rom save) (he : EepromAt s.cfg save img n type)
    (hwf : img.wf = true) (hcon : s.contention = false) (hd : s.cfg.Domains) {i : Word} (hi : i.toNat < n)
    (hsize : i.toNat < s.eepSize.toNat / s.cfg.eepromBlock) {d : List Byte} (hlen : d.length = s.cfg.eepromBlock) :
    ∃ t, execWriteEepromBlock i d s = .next t ∧ finished t .ok 0#32 [] ∧ t.env.rom = s.env.rom ∧
      ∀ x, t.env.saveByte x =
        if s.cfg.eepromBlock * i.toNat ≤ x ∧ x < s.cfg.eepromBlock * i.toNat + s.cfg.eepromBlock
        then d.getD (x - s.cfg.eepromBlock * i.toNat) 0xFF#8 else s.env.saveByte x := by
  have hans := eepromAnswer_write s.cfg type img hi (hi.trans_le (he.blocks_le hd)) hlen hd.eeprom
  obtain ⟨hrx, hstored⟩ := joyXfer_eeprom href he (s.cfg.joyCmdWrite :: frameIndex i.toNat :: d) 1
  have hk := joyXfer_serial (s.cfg.joyCmdWrite :: frameIndex i.toNat :: d) 1 s
  cases hx : joyXfer (s.cfg.joyCmdWrite :: frameIndex i.toNat :: d) 1 s with
  | mk rx u =>
    rw [hx, hans] at hrx hstored
    rw [hx] at hk
    have hwrite : eepWriteBlock i.toNat d s = (true, u) := by
      simp [eepWriteBlock, hx, hrx, receive]
    refine ⟨endState .ok 0#32 [] u, ?_, endState_finished _ _ _ _, hk.keeps.rom, fun x => (hstored x).trans ?_⟩
    · rw [execWriteEepromBlock, if_neg (not_not.mpr hlen), if_neg (Nat.not_le.mpr hsize), hwrite]
      exact finish_next (hk.contention.trans hcon) _ _ _
    · rw [Memory.read_writeRange hwf, hlen, href.saveByte]
      cases he <;> rfl

/-- Settles O32: both devices answer by R94, with their own block count. -/
theorem eepromBlocksOnReference : Obligations.EepromBlocksOnReference := by
  intro s i rom save img n wrap href hsave hwf hcon _ hdom hi hsize
  have hd := Params.domains_facts hdom
  have hdev : ∃ type, EepromAt s.cfg save img n type := by
    rcases hsave with ⟨rfl, rfl⟩ | ⟨rfl, rfl⟩
    · exact ⟨_, .eep4k img⟩
    · exact ⟨_, .eep16k img⟩
  obtain ⟨type, he⟩ := hdev
  exact ⟨execReadEepromBlock_reference href he hcon hd hi hsize,
    fun d hlen => execWriteEepromBlock_reference href he hwf hcon hd hi hsize hlen⟩

/-! ### The cartridge between two bus cycles -/

/-- Between two cycles, out of reset and with no wrap: the strobes are high and the slot holds the reference
cartridge with this ROM and this save medium. -/
structure Slot (c : Params) (rom : RomImage) (save : Save) (s : State) : Prop where
  cfg : s.cfg = c
  cart : ∃ ca, CartAt s ⟨some rom, save⟩ ca
  strobes : strobesHigh s

theorem refCart.slot {s : State} {rom : RomImage} {save : Save} (h : refCart s none rom save)
    (hs : strobesHigh s) : Slot s.cfg rom save s := by
  obtain ⟨⟨hbody, hwrap, -⟩, hrst⟩ := h
  exact ⟨rfl, ⟨_, hbody, rfl, hrst, hwrap⟩, hs⟩

section
variable {c : Params} {rom : RomImage} {save : Save} {s t : State}

theorem Slot.saveByte (h : Slot c rom save s) (x : Nat) : s.env.saveByte x = save.image.read x := by
  obtain ⟨-, ⟨ca, hcart⟩, -⟩ := h
  simp [Env.saveByte, hcart.body]

theorem Slot.rom_eq (h : Slot c rom save s) : s.env.rom = some rom := by
  obtain ⟨-, ⟨ca, hcart⟩, -⟩ := h
  simp [Env.rom, hcart.body]

/-- Two slots whose save media hold the same bytes have the same contents. -/
theorem Slot.sameContents {save' : Save} (h : Slot c rom save s) (k : Slot c rom save' t)
    (himg : save'.image = save.image) : sameContents s t :=
  ⟨k.rom_eq.trans h.rom_eq.symm, fun x => by rw [k.saveByte, h.saveByte, himg]⟩

/-- A cycle leaves the parameters and high strobes; what it makes of the cartridge is its own. -/
theorem Cycle.slot {ca : Word} (h : Cycle s t) (hc : s.cfg = c) (hcart : CartAt t ⟨some rom, save⟩ ca) :
    Slot c rom save t := ⟨h.keeps.cfg.trans hc, ⟨ca, hcart⟩, settled_strobesHigh h.settled⟩

end

/-! ### What only the chip's own commands change -/

/-- The FlashRAM chip after operations that store nothing: its bytes, its page buffer, its ID and its draws are
as before, and no erase has become armed. -/
structure FlashChip.Stays (k k' : FlashChip) : Prop where
  array : k'.array = k.array
  pageBuf : k'.pageBuf = k.pageBuf
  idBlk : k'.idBlk = k.idBlk
  busyScript : k'.busyScript = k.busyScript
  patScript : k'.patScript ⊆ k.patScript
  unarmed : k.eraseArmed = false → k'.eraseArmed = false

theorem FlashChip.Stays.refl (k : FlashChip) : k.Stays k := ⟨rfl, rfl, rfl, rfl, fun _ h => h, id⟩

theorem FlashChip.Stays.trans {k k' k'' : FlashChip} (h : k.Stays k') (g : k'.Stays k'') : k.Stays k'' where
  array := g.array.trans h.array
  pageBuf := g.pageBuf.trans h.pageBuf
  idBlk := g.idBlk.trans h.idBlk
  busyScript := g.busyScript.trans h.busyScript
  patScript := List.Subset.trans g.patScript h.patScript
  unarmed := g.unarmed ∘ h.unarmed

/-- The save medium after operations that store nothing. -/
inductive Save.Stays : Save → Save → Prop
  | same (save : Save) : Save.Stays save save
  | flash {k k' : FlashChip} (h : k.Stays k') : Save.Stays (.flash k) (.flash k')

theorem Save.Stays.trans {a b d : Save} (h : a.Stays b) (g : b.Stays d) : a.Stays d := by
  cases h with
  | same => exact g
  | flash h =>
    cases g with
    | same => exact .flash h
    | flash g => exact .flash (h.trans g)

theorem Save.Stays.image {a b : Save} (h : a.Stays b) : b.image = a.image := by
  cases h with
  | same => rfl
  | flash h => exact h.array

theorem Save.Stays.of_flash {k : FlashChip} {b : Save} (h : (Save.flash k).Stays b) :
    ∃ k', b = .flash k' ∧ k.Stays k' := by
  cases h with
  | same => exact ⟨k, rfl, .refl k⟩
  | flash h => exact ⟨_, rfl, h⟩

theorem Save.Stays.sram {a : Save} {img : Memory} (h : a.Stays (.sram img)) : a = .sram img := by
  cases h
  rfl

theorem FlashChip.onLatch_stays (c : Params) (ca : Nat) (k : FlashChip) : k.Stays (k.onLatch c ca) :=
  ⟨rfl, rfl, rfl, rfl, fun _ h => h, id⟩

theorem FlashChip.drawPattern_stays (c : Params) (seed : Nat) (ev : List Event) (k : FlashChip) :
    k.Stays (k.drawPattern c seed ev) := by
  unfold FlashChip.drawPattern
  split
  · next p ps hp => exact ⟨rfl, rfl, rfl, rfl, fun q hq => hp ▸ List.mem_cons_of_mem p hq, id⟩
  · exact ⟨rfl, rfl, rfl, rfl, fun _ h => h, id⟩

theorem FlashChip.afterRead_stays (c : Params) (seed : Nat) (ev : List Event) (ca : Nat) (k : FlashChip) :
    k.Stays (k.afterRead c seed ev ca) := by
  have hbusy : k.Stays { k with busy := k.busy - 1 } := ⟨rfl, rfl, rfl, rfl, fun _ h => h, id⟩
  unfold FlashChip.afterRead
  split
  · exact .refl k
  · split
    · exact hbusy.trans (FlashChip.drawPattern_stays c seed ev _)
    · exact .refl k
  · split
    · exact .refl k
    · split
      · exact ⟨rfl, rfl, rfl, rfl, fun _ h => h, id⟩
      · exact .refl k

/-- Every command but `ERASE_MODE`, which arms an erase, and `EXECUTE` (R88). -/
theorem FlashChip.command_stays {kind : FlashKind} (harm : kind ≠ .eraseMode) (hexe : kind ≠ .execute) (c : Params)
    (seed : Nat) (ev : List Event) (p : Nat) (k : FlashChip) : k.Stays (k.command c seed ev kind p) := by
  cases kind with
  | eraseMode => exact absurd rfl harm
  | execute => exact absurd rfl hexe
  | reset => exact ⟨rfl, rfl, rfl, rfl, fun _ h => h, fun _ => rfl⟩
  | readArray | statusMode | eraseSelect | program | pageSelect => exact ⟨rfl, rfl, rfl, rfl, fun _ h => h, id⟩

theorem Cart.onLatch_stays (c : Params) (ca : Nat) (rom : RomImage) (save : Save) :
    ∃ save', (Cart.mk (some rom) save).onLatch c ca = ⟨some rom, save'⟩ ∧ save.Stays save' := by
  cases save with
  | flash k => exact ⟨_, rfl, .flash (k.onLatch_stays c ca)⟩
  | none | sram | eep4k | eep16k => exact ⟨_, rfl, .same _⟩

theorem Cart.afterRead_stays (c : Params) (seed : Nat) (ev : List Event) (ca : Nat) (rom : RomImage) (save : Save) :
    ∃ save', (Cart.mk (some rom) save).afterRead c seed ev ca = ⟨some rom, save'⟩ ∧ save.Stays save' := by
  cases save with
  | flash k => exact ⟨_, rfl, .flash (k.afterRead_stays c seed ev ca)⟩
  | none | sram | eep4k | eep16k => exact ⟨_, rfl, .same _⟩

/-! ### Reads and latches store nothing -/

/-- An SRAM window is apart from the command register. -/
def Save.offRegister (c : Params) (save : Save) : Prop :=
  ∀ img, save = .sram img → c.flashCmdAddr + 4 ≤ c.sramBase ∨ c.sramBase + c.sramSize ≤ c.flashCmdAddr

theorem Save.offRegister_flash (c : Params) (k : FlashChip) : (Save.flash k).offRegister c := by
  intro img h
  cases h

theorem Save.Stays.offRegister {c : Params} {a b : Save} (h : a.Stays b) (ha : a.offRegister c) : b.offRegister c := by
  rintro img rfl
  exact ha img h.sram

/-- The operation stores nothing in a cartridge whose SRAM window, if it has one, is apart from the command
register. -/
def Steady (c : Params) (s t : State) : Prop :=
  ∀ ⦃rom save⦄, save.offRegister c → Slot c rom save s → ∃ save', Slot c rom save' t ∧ save.Stays save'

section
variable {c : Params} {s t u : State}

theorem Steady.refl (c : Params) (s : State) : Steady c s s := fun _ _ _ h => ⟨_, h, .same _⟩

theorem Steady.trans (h : Steady c s t) (k : Steady c t u) : Steady c s u := by
  intro rom save hreg hs
  obtain ⟨save', ht, hsave⟩ := h hreg hs
  obtain ⟨save'', hu, hsave'⟩ := k (hsave.offRegister hreg) ht
  exact ⟨save'', hu, hsave.trans hsave'⟩

theorem Steady.contents {rom : RomImage} {save : Save} (h : Steady c s t) (hreg : save.offRegister c)
    (hs : Slot c rom save s) : sameContents s t := by
  obtain ⟨save', ht, hsave⟩ := h hreg hs
  exact hs.sameContents ht hsave.image

theorem latchAddress_steady (a : Word) : Steady c s (latchAddress a s) := by
  intro rom save _ hs
  obtain ⟨hcfg, ⟨ca, hcart⟩, hstrobes⟩ := hs
  have hnext := latchAddress_cart hcart hstrobes a
  obtain ⟨save', hsave, hstays⟩ := Cart.onLatch_stays s.cfg a.toNat rom save
  rw [hsave] at hnext
  exact ⟨save', (latchAddress_cycle a s).slot hcfg hnext, hstays⟩

theorem readWord_steady (h : settled s) : Steady c s (readWord s).2 := by
  intro rom save _ hs
  obtain ⟨hcfg, ⟨ca, hcart⟩, -⟩ := hs
  obtain ⟨-, seed, ev, hnext⟩ := readWord_cart hcart h
  obtain ⟨save', hsave, hstays⟩ := Cart.afterRead_stays s.cfg seed ev ca.toNat rom save
  rw [hsave] at hnext
  exact ⟨save', (readWord_settles s h).slot hcfg hnext, hstays⟩

theorem readWords_steady (n : Nat) (h : settled s) : Steady c s (readWords n s).2 := by
  induction n generalizing s with
  | zero => exact .refl c s
  | succ n ih => exact (readWord_steady h).trans (ih (readWord_settled h))

theorem memRead_steady (addr n : Nat) : Steady c s (memRead addr n s).2 :=
  (latchAddress_steady _).trans (readWords_steady _ (latchAddress_cycle _ s).settled)

/-- An event alone changes nothing of the slot (R40). -/
theorem Slot.emit {rom : RomImage} {save : Save} (h : Slot c rom save s) (e : Event) : Slot c rom save (emit e s) := by
  obtain ⟨hcfg, ⟨ca, hcart⟩, hstrobes⟩ := h
  exact ⟨hcfg, ⟨ca, hcart.body, hcart.ca, hcart.rst, hcart.wrap⟩, hstrobes⟩

theorem emit_steady (e : Event) : Steady c s (emit e s) := fun _ _ _ h => ⟨_, h.emit e, .same _⟩

end
/-! ### Commands -/

/-- A command's first word is held for the second (R87). -/
theorem FlashChip.onWrite_register (c : Params) (seed : Nat) (ev : List Event) (w : Half) (k : FlashChip) :
    k.onWrite c seed ev c.flashCmdAddr w = { k with cmdHi := some w } := by simp [FlashChip.onWrite]

/-- The second word of a command runs it (R87). -/
theorem FlashChip.onWrite_command {c : Params} {k : FlashChip} {h w : Half} {kind : FlashKind}
    (hk : k.cmdHi = some h) (hkind : Params.kindOf c (h ++ w) = some kind) (seed : Nat) (ev : List Event) :
    k.onWrite c seed ev (c.flashCmdAddr + 2) w = { k with cmdHi := none }.command c seed ev kind w.toNat := by
  simp [FlashChip.onWrite, hk, hkind]

/-- The chip between two commands: its pointer where the last latch put it, no command half held (R87, R90). -/
def FlashChip.awaiting (fp : Option Nat) (k : FlashChip) : FlashChip := { k with fp := fp, cmdHi := none }

/-- What `send_command` makes of a save medium: a chip runs the command, or a `RESET` that has the word of the
`READ_ARRAY` sent (R240); nothing else is there to hear it. -/
inductive Save.Commanded (c : Params) (kind : FlashKind) (p : Half) : Save → Save → Prop
  | other (save : Save) (h : ∀ k, save ≠ .flash k) : Save.Commanded c kind p save save
  | flash (k : FlashChip) (ran : FlashKind) (seed : Nat) (ev : List Event) (fp : Option Nat)
      (hran : ran = kind ∨ (kind = .readArray ∧ ran = .reset)) :
      Save.Commanded c kind p (.flash k)
        (.flash ((k.awaiting fp).command c seed ev ran (lo16 (c.flashWord kind p)).toNat))

theorem Save.Commanded.image {c : Params} {kind : FlashKind} {p : Half} {a b : Save} (hexe : kind ≠ .execute)
    (h : Save.Commanded c kind p a b) : b.image = a.image := by
  cases h with
  | other => rfl
  | flash k ran seed ev fp hran =>
    refine FlashChip.command_array ?_ c seed ev _ (k.awaiting fp)
    rcases hran with rfl | ⟨-, rfl⟩
    · exact hexe
    · decide

theorem Save.Commanded.stays {c : Params} {kind : FlashKind} {p : Half} {a b : Save} (harm : kind ≠ .eraseMode)
    (hexe : kind ≠ .execute) (h : Save.Commanded c kind p a b) : a.Stays b := by
  cases h with
  | other => exact .same a
  | flash k ran seed ev fp hran =>
    have hwait : k.Stays (k.awaiting fp) := ⟨rfl, rfl, rfl, rfl, fun _ h => h, id⟩
    refine .flash (hwait.trans (FlashChip.command_stays ?_ ?_ c seed ev _ _)) <;>
      rcases hran with rfl | ⟨-, rfl⟩
    · exact harm
    · decide
    · exact hexe
    · decide

theorem Save.Commanded.of_flash {c : Params} {kind : FlashKind} {p : Half} {k : FlashChip} {b : Save}
    (h : Save.Commanded c kind p (.flash k) b) :
    ∃ ran seed ev fp, (ran = kind ∨ (kind = .readArray ∧ ran = .reset)) ∧
      b = .flash ((k.awaiting fp).command c seed ev ran (lo16 (c.flashWord kind p)).toNat) := by
  cases h with
  | other _ h => exact absurd rfl (h k)
  | flash k ran seed ev fp hran => exact ⟨ran, seed, ev, fp, hran, rfl⟩

/-- Two write pulses at the command register are one command (R87, R241). -/
theorem Cart.onWrite_command {c : Params} (hcmd : commandsApart c) {save : Save} (hreg : save.offRegister c)
    (rom : RomImage) (kind : FlashKind) (p : Half) (seed seed' : Nat) (ev ev' : List Event) :
    ∃ save', (((Cart.mk (some rom) save).onLatch c c.flashCmdAddr).onWrite c seed ev c.flashCmdAddr
        (hi16 (c.flashWord kind p))).onWrite c seed' ev' (c.flashCmdAddr + 2) (lo16 (c.flashWord kind p)) =
        ⟨some rom, save'⟩ ∧ Save.Commanded c kind p save save' := by
  cases save with
  | none | eep4k | eep16k => exact ⟨_, rfl, .other _ (by simp)⟩
  | sram img =>
    have hwin := hreg img rfl
    refine ⟨_, ?_, .other _ (by simp)⟩
    rw [Cart.onLatch, Cart.onWrite_sram_outside (by omega), Cart.onWrite_sram_outside (by omega)]
  | flash k =>
    obtain ⟨ran, hran, hof⟩ : ∃ ran, (ran = kind ∨ (kind = .readArray ∧ ran = .reset)) ∧
        Params.kindOf c (c.flashWord kind p) = some ran := by
      rcases Params.kindOf_flashWord hcmd kind p with h | ⟨h1, h2⟩
      · exact ⟨kind, .inl rfl, h⟩
      · exact ⟨.reset, .inr ⟨h1, rfl⟩, h2⟩
    refine ⟨_, ?_, .flash k ran seed' ev' (k.onLatch c c.flashCmdAddr).fp hran⟩
    have hhi : (k.onLatch c c.flashCmdAddr).onWrite c seed ev c.flashCmdAddr (hi16 (c.flashWord kind p)) =
        { k.onLatch c c.flashCmdAddr with cmdHi := some (hi16 (c.flashWord kind p)) } :=
      FlashChip.onWrite_register c seed ev _ _
    have hlo := FlashChip.onWrite_command (k := { k.onLatch c c.flashCmdAddr with
      cmdHi := some (hi16 (c.flashWord kind p)) }) rfl (by rw [hi16_append_lo16]; exact hof) seed' ev'
    simp only [Cart.onLatch, Cart.onWrite, hhi, hlo]
    rfl

section
variable {c : Params} {rom : RomImage} {save : Save} {s t : State}

/-- `send_command` against the reference cartridge (R87, R241). -/
theorem sendCommand_slot (hok : c.ok = true) (hcmd : commandsApart c) (hreg : save.offRegister c)
    (h : Slot c rom save s) (kind : FlashKind) (p : Half) :
    ∃ save', Slot c rom save' (sendCommand kind p s) ∧ Save.Commanded c kind p save save' := by
  obtain ⟨rfl, ⟨ca, hcart⟩, hstrobes⟩ := h
  have htop := (Params.ok_relations hok).command_top
  have haddr : (BitVec.ofNat 32 s.cfg.flashCmdAddr).toNat = s.cfg.flashCmdAddr := by
    rw [BitVec.toNat_ofNat, Nat.mod_eq_of_lt (by omega)]
  have haddr' : (BitVec.ofNat 32 s.cfg.flashCmdAddr + 2#32).toNat = s.cfg.flashCmdAddr + 2 := by
    rw [BitVec.ofNat_add_ofNat, BitVec.toNat_ofNat, Nat.mod_eq_of_lt (by omega)]
  have hlatch := latchAddress_cart hcart hstrobes (BitVec.ofNat 32 s.cfg.flashCmdAddr)
  obtain ⟨seed, ev, hhi⟩ := writeWord_cart hlatch (hi16 (s.cfg.flashWord kind p))
  obtain ⟨seed', ev', hlo⟩ := writeWord_cart hhi (lo16 (s.cfg.flashWord kind p))
  rw [(writeWord_keeps _ _).cfg, (latchAddress_keeps _ s).cfg, haddr, haddr'] at hlo
  obtain ⟨save', hsave, hcommanded⟩ := Cart.onWrite_command hcmd hreg rom kind p seed seed' ev ev'
  rw [hsave] at hlo
  exact ⟨save', (sendCommand_cycle kind p s).slot rfl hlo, hcommanded⟩

theorem sendCommand_steady (hok : c.ok = true) (hcmd : commandsApart c) {kind : FlashKind} (harm : kind ≠ .eraseMode)
    (hexe : kind ≠ .execute) (p : Half) (s : State) : Steady c s (sendCommand kind p s) := by
  intro rom save hreg hs
  obtain ⟨save', ht, hcommanded⟩ := sendCommand_slot hok hcmd hreg hs kind p
  exact ⟨save', ht, hcommanded.stays harm hexe⟩

theorem readStatus_steady (hok : c.ok = true) (hcmd : commandsApart c) (s : State) : Steady c s (readStatus s).2 :=
  (sendCommand_steady hok hcmd (by decide) (by decide) _ s).trans (memRead_steady _ _)

theorem pollReady_steady (hok : c.ok = true) (hcmd : commandsApart c) (left n : Nat) (s : State) :
    Steady c s (pollReady left n s).2 := by
  induction left generalizing n s with
  | zero => exact .refl c s
  | succ left ih =>
    have h := readStatus_steady hok hcmd s
    simp only [pollReady]
    split
    · exact h
    · split
      · exact h
      · exact ((h.trans (emit_steady _)).trans (emit_steady _)).trans (ih _ _)

theorem waitReady_steady (hok : c.ok = true) (hcmd : commandsApart c) (s : State) : Steady c s (waitReady s).2 :=
  pollReady_steady hok hcmd _ _ s

theorem flashReadChunks_steady (a l : Nat) (cs : List Nat) (s : State) :
    Steady c s (flashReadChunks a l cs s).2 := by
  induction cs generalizing s with
  | nil => exact .refl c s
  | cons k cs ih => exact (memRead_steady _ _).trans (ih _)

theorem flashRead_steady (hok : c.ok = true) (hcmd : commandsApart c) (a l : Nat) (s : State) :
    Steady c s (flashRead a l s).2 := by
  unfold flashRead
  split
  · exact .refl c s
  · exact (sendCommand_steady hok hcmd (by decide) (by decide) _ s).trans (flashReadChunks_steady _ _ _ _)

end

/-! ### Operations that store nothing, and the raw `EXECUTE` -/

/-- The operations of O53's first part: the raw commands but `EXECUTE`, the status operations, and the FlashRAM
read (R242-R248). -/
inductive ReadsFlash : Instr → Prop
  | reset : ReadsFlash .flashCommandReset
  | readArray : ReadsFlash .flashCommandReadArray
  | statusMode : ReadsFlash .flashCommandStatusMode
  | eraseMode : ReadsFlash .flashCommandEraseMode
  | program : ReadsFlash .flashCommandProgram
  | eraseSelect (p : Half) : ReadsFlash (.flashCommandEraseSelect p)
  | pageSelect (p : Half) : ReadsFlash (.flashCommandPageSelect p)
  | readStatus : ReadsFlash .flashReadStatus
  | waitReady : ReadsFlash .flashWaitReady
  | hasFlashram : ReadsFlash .hasFlashram
  | readBytes (a l : Word) : ReadsFlash (.readFlashramBytes a l)

section
variable {rom : RomImage} {save : Save} {s : State}

/-- Only `EXECUTE` stores, of the commands (R88). -/
theorem sendCommand_contents (hok : s.cfg.ok = true) (hcmd : commandsApart s.cfg) (hreg : save.offRegister s.cfg)
    (h : Slot s.cfg rom save s) {kind : FlashKind} (hexe : kind ≠ .execute) (p : Half) :
    sameContents s (sendCommand kind p s) := by
  obtain ⟨save', ht, hcommanded⟩ := sendCommand_slot hok hcmd hreg h kind p
  exact h.sameContents ht (hcommanded.image hexe)

theorem exec_readsFlash_contents (hok : s.cfg.ok = true) (hcmd : commandsApart s.cfg) (hreg : save.offRegister s.cfg)
    (h : Slot s.cfg rom save s) {i : Instr} (hi : ReadsFlash i) : Ends (exec i s) (sameContents s) := by
  have hcommand : ∀ {kind}, kind ≠ .execute → ∀ p,
      Ends (finish .ok 0#32 [] (sendCommand kind p s)) (sameContents s) := fun hexe p => .finish _ _ _ (sendCommand_contents hok hcmd hreg h hexe p)
  cases hi with
  | reset | readArray | statusMode | eraseMode | program => exact hcommand (by decide) _
  | eraseSelect p | pageSelect p => exact hcommand (by decide) p
  | readStatus => exact .finish _ _ _ ((readStatus_steady hok hcmd s).contents hreg h)
  | waitReady =>
    have hsame := (waitReady_steady hok hcmd s).contents hreg h
    show Ends (execFlashWaitReady s) _
    unfold execFlashWaitReady
    split
    · next hr => rw [hr] at hsame; exact .finish _ _ _ hsame
    · next hr => rw [hr] at hsame; exact .raise _ hsame
  | hasFlashram =>
    have hreset := fun s => sendCommand_steady hok hcmd (kind := .reset) (by decide) (by decide) 0#16 s
    exact .finish _ _ _ ((((hreset s).trans (readStatus_steady hok hcmd _)).trans (hreset _)).contents hreg h)
  | readBytes a l =>
    exact .ite (.raise _ ((Steady.refl s.cfg s).contents hreg h))
      (.finish _ _ _ ((flashRead_steady hok hcmd _ _ s).contents hreg h))

/-- A chip hears the command that is sent, but for a `READ_ARRAY` that has the word of `RESET` (R87, R240). -/
theorem sendCommand_chip {c : Params} {chip : FlashChip} (hok : c.ok = true) (hcmd : commandsApart c)
    (h : Slot c rom (.flash chip) s) {kind : FlashKind} (hkind : kind ≠ .readArray) (p : Half) :
    ∃ seed ev fp, Slot c rom (.flash ((chip.awaiting fp).command c seed ev kind (lo16 (c.flashWord kind p)).toNat))
      (sendCommand kind p s) := by
  obtain ⟨save', ht, hcommanded⟩ := sendCommand_slot hok hcmd (Save.offRegister_flash _ chip) h kind p
  obtain ⟨ran, seed, ev, fp, rfl | ⟨he, -⟩, rfl⟩ := hcommanded.of_flash
  · exact ⟨seed, ev, fp, ht⟩
  · exact absurd he hkind

/-- Settles O53: the commands and the bus reads store nothing, and `EXECUTE` stores by R88. -/
theorem flashReadsKeepContents : Obligations.FlashReadsKeepContents := by
  refine ⟨fun s t i rom save href hs hok hcmd hreg hi hexec => ?_,
    fun s rom chip href hs hcon hok hcmd hwf => ?_⟩
  · have hi' : ReadsFlash i := by
      simp only [List.mem_cons, List.not_mem_nil, or_false] at hi
      rcases hi with (rfl | rfl | rfl | rfl | rfl | rfl | rfl | rfl) | ⟨p, rfl⟩ | ⟨p, rfl⟩ | ⟨a, l, rfl⟩ <;>
        constructor
    obtain ⟨st, v, d, u, hu, rfl⟩ := (exec_readsFlash_contents hok hcmd hreg (href.slot hs) hi').next hexec
    exact hu
  · obtain ⟨seed, ev, fp, ht⟩ := sendCommand_chip hok hcmd (href.slot hs) (kind := .execute) (by decide) 0#16
    have hcyc := sendCommand_cycle .execute 0#16 s
    refine ⟨_, finish_next (hcyc.contention.trans hcon) _ _ _, endState_finished _ _ _ _, hcyc.keeps.rom,
      fun x => ?_⟩
    exact (ht.saveByte x).trans (FlashChip.command_execute_read _ _ _ _ (k := chip.awaiting fp) hwf x)

end
/-! ### Bursts of reads from the chip -/

/-- What the statements about the engine on the reference FlashRAM ask of the parameters. -/
structure Engine (c : Params) : Prop where
  ok : c.ok = true
  domains : c.Domains
  commands : commandsApart c
  layout : flashLayout c

/-- A part of the FlashRAM window is apart from the ROM region, and inside the address space (R9, R69). -/
theorem Engine.window {c : Params} (h : Engine c) {o n : Nat} (hn : o + n ≤ c.flashSpan) :
    apartFromRom c (c.flashBase + o) n ∧ c.flashBase + o + n ≤ 2 ^ 32 := by
  have hapart := h.layout.1
  have htop := (Params.ok_relations h.ok).flash_top
  unfold apartFromRom at hapart ⊢
  omega

theorem Cart.word_flash {c : Params} {ca : Nat} (h : apartFromRom c ca 2) (rom : RomImage) (k : FlashChip) :
    (Cart.mk (some rom) (.flash k)).word c ca = k.word c ca := by
  unfold apartFromRom at h
  simp only [Cart.word]
  rw [if_neg (by omega)]

section
variable {c : Params} {rom : RomImage}

/-- A burst of `n` reads of a chip whose word at each counter, and whose state after it, is known (R13, R65). -/
theorem readWords_chip {base n : Nat} {f : Nat → Byte} {C : Nat → FlashChip → Prop} {k : FlashChip} {s : State}
    (hcfg : s.cfg = c) (hcart : CartAt s ⟨some rom, .flash k⟩ (BitVec.ofNat 32 base)) (hs : settled s)
    (htop : base + 2 * n ≤ 2 ^ 32) (hrom : apartFromRom c base (2 * n)) (h0 : C 0 k)
    (hstep : ∀ i < n, ∀ k, C i k → k.word c (base + 2 * i) = some (be16 (f (2 * i)) (f (2 * i + 1))) ∧
      ∀ seed ev, C (i + 1) (k.afterRead c seed ev (base + 2 * i))) :
    (readWords n s).1 = (List.range (2 * n)).map f ∧
    ∃ k' ca', C n k' ∧ CartAt (readWords n s).2 ⟨some rom, .flash k'⟩ ca' := by
  induction n generalizing base f C k s with
  | zero => exact ⟨rfl, k, _, h0, hcart⟩
  | succ n ih =>
    subst hcfg
    have hca : (BitVec.ofNat 32 base).toNat = base := by
      rw [BitVec.toNat_ofNat, Nat.mod_eq_of_lt (by omega)]
    obtain ⟨hword, seed, ev, hnext⟩ := readWord_cart hcart hs
    obtain ⟨hf, hC⟩ := hstep 0 (by omega) k h0
    simp only [Nat.mul_zero, Nat.add_zero, Nat.zero_add] at hf hC
    rw [hca, Cart.word_flash (by unfold apartFromRom at hrom ⊢; omega), hf] at hword
    rw [hca, BitVec.ofNat_add_ofNat] at hnext
    obtain ⟨hbytes, hend⟩ := ih (f := fun i => f (i + 2)) (C := fun i => C (i + 1)) (readWord_keeps s).cfg hnext
      (readWord_settled hs) (by omega) (by unfold apartFromRom at hrom ⊢; omega) (hC seed ev)
      (fun i hi k hk => by
        have := hstep (i + 1) (by omega) k hk
        rwa [show base + 2 * (i + 1) = base + 2 + 2 * i by omega] at this)
    refine ⟨?_, hend⟩
    simp only [readWords, hbytes, hword, Option.getD_some, halfBytes_be16]
    rw [show 2 * (n + 1) = 2 + 2 * n by omega, List.range_add, List.map_append, List.map_map]
    simp [List.range_succ, Function.comp_def, Nat.add_comm 2]

/-- `MemRead` inside the FlashRAM window is such a burst after one latch (R13, R90). -/
theorem memRead_chip {o n : Nat} {f : Nat → Byte} {C : Nat → FlashChip → Prop} {k : FlashChip} {s : State}
    (he : Engine c) (h : Slot c rom (.flash k) s) (hn : 0 < n) (hspan : o + 2 * n ≤ c.flashSpan)
    (h0 : C 0 (k.onLatch c (c.flashBase + o)))
    (hstep : ∀ i < n, ∀ k, C i k →
      k.word c (c.flashBase + o + 2 * i) = some (be16 (f (2 * i)) (f (2 * i + 1))) ∧
      ∀ seed ev, C (i + 1) (k.afterRead c seed ev (c.flashBase + o + 2 * i))) :
    (memRead (c.flashBase + o) (2 * n) s).1 = (List.range (2 * n)).map f ∧
    ∃ k', C n k' ∧ Slot c rom (.flash k') (memRead (c.flashBase + o) (2 * n) s).2 := by
  obtain ⟨hapart, htop⟩ := he.window hspan
  obtain ⟨rfl, ⟨ca, hcart⟩, hstrobes⟩ := h
  have hca : (BitVec.ofNat 32 (s.cfg.flashBase + o)).toNat = s.cfg.flashBase + o := by
    rw [BitVec.toNat_ofNat, Nat.mod_eq_of_lt (by omega)]
  have hcyc := latchAddress_cycle (BitVec.ofNat 32 (s.cfg.flashBase + o)) s
  have hlatch := latchAddress_cart hcart hstrobes (BitVec.ofNat 32 (s.cfg.flashBase + o))
  rw [hca] at hlatch
  obtain ⟨hbytes, k', ca', hk', hend⟩ :=
    readWords_chip hcyc.keeps.cfg hlatch hcyc.settled htop hapart h0 hstep
  have e : 2 * n / 2 = n := by omega
  have hmem : memRead (s.cfg.flashBase + o) (2 * n) s =
      readWords n (latchAddress (BitVec.ofNat 32 (s.cfg.flashBase + o)) s) := by rw [memRead, e]
  refine ⟨hmem ▸ hbytes, k', hk', (memRead_cycle _ _ s).slot rfl (hmem ▸ hend)⟩

/-! ### Reading the array -/

/-- `MemRead` in array mode gives the array's bytes at twice the offset (R75, R90). -/
theorem memRead_array {o n : Nat} {k : FlashChip} {s : State} (he : Engine c) (h : Slot c rom (.flash k) s)
    (hmode : k.mode = .array) (hn : 0 < n) (hspan : o + 2 * n ≤ c.flashSpan) (hsize : 2 * o + 2 * n ≤ c.flashSize) :
    (memRead (c.flashBase + o) (2 * n) s).1 = imageBytes k.array (2 * o) (2 * n) := by
  have hlatch : k.onLatch c (c.flashBase + o) = { k with fp := some (2 * o) } := by
    have e : c.flashBase + o - c.flashBase = o := by omega
    rw [FlashChip.onLatch, e, if_pos ⟨by omega, by omega⟩]
  refine (memRead_chip (C := fun i k' => k' = { k with fp := some (2 * o + 2 * i) }) he h hn hspan hlatch ?_).1
  rintro i hi _ rfl
  have hin : 2 * o + 2 * i + 1 < c.flashSize := by omega
  refine ⟨?_, fun seed ev => ?_⟩
  · simp only [FlashChip.word, hmode, hin, if_true]
    rfl
  · simp only [FlashChip.afterRead, hmode, hin, if_true]
    rfl

/-! ### Reading the status -/

theorem firstNotAmong_spec {sigs ps : List (List Byte)} (h : ∃ p ∈ ps, p ∉ sigs) :
    firstNotAmong sigs ps ∈ ps ∧ firstNotAmong sigs ps ∉ sigs := by
  induction ps with
  | nil => simp at h
  | cons p ps ih =>
    simp only [firstNotAmong, List.contains_iff_mem]
    split
    · next hp =>
      obtain ⟨q, hq, hout⟩ := h
      rcases List.mem_cons.mp hq with rfl | hq
      · exact absurd hp hout
      · obtain ⟨hin, hout⟩ := ih ⟨q, hq, hout⟩
        exact ⟨List.mem_cons_of_mem _ hin, hout⟩
    · next hp => exact ⟨List.mem_cons_self, hp⟩

/-- A busy pattern has 8 bytes and is no idle signature: of four distinct candidates at least one is none of the
three (R89). -/
theorem busyPatternOf_spec (c : Params) {raw : List Byte} (h : raw.length = 8) :
    (busyPatternOf c raw).length = 8 ∧ busyPatternOf c raw ∉ c.idleSigs := by
  have hfour : ∃ p ∈ [List.replicate 7 0#8 ++ [0#8], List.replicate 7 0#8 ++ [1#8], List.replicate 7 0#8 ++ [2#8],
      List.replicate 7 0#8 ++ [3#8]], p ∉ c.idleSigs := by
    by_contra hall
    push Not at hall
    have hle := (List.subperm_of_subset (by decide) hall).length_le
    simp [Params.idleSigs] at hle
  obtain ⟨p, hp, hout⟩ := hfour
  obtain ⟨hin, hnot⟩ := firstNotAmong_spec (ps := raw :: _) ⟨p, List.mem_cons_of_mem raw hp, hout⟩
  refine ⟨?_, hnot⟩
  simp only [List.mem_cons, List.not_mem_nil, or_false] at hin
  unfold busyPatternOf
  rcases hin with e | e | e | e | e <;> rw [e]
  · exact h
  all_goals rfl

/-- A drawn busy pattern leaves a readable chip readable, whatever the chip showed before (R89). -/
theorem FlashChip.drawPattern_readable {c : Params} {k : FlashChip} (hid : k.idBlk.toList ∈ c.idleSigs)
    (hpat : ∀ p ∈ k.patScript, p.length = 8) (seed : Nat) (ev : List Event) :
    readableChip c (k.drawPattern c seed ev) := by
  have hstays := k.drawPattern_stays c seed ev
  refine ⟨hstays.idBlk ▸ hid, fun p hp => hpat p (hstays.patScript hp), fun _ => ?_⟩
  unfold FlashChip.drawPattern
  split
  · next p ps hp => exact busyPatternOf_spec c (hpat p (by simp [hp]))
  · exact busyPatternOf_spec c rfl

@[simp] theorem FlashChip.drawPattern_busy (c : Params) (seed : Nat) (ev : List Event) (k : FlashChip) :
    (k.drawPattern c seed ev).busy = k.busy := by
  unfold FlashChip.drawPattern
  split <;> rfl

/-- The response of a readable chip has 8 bytes, and is an idle signature where the chip is not busy only
(R89). -/
theorem readableChip.response {k : FlashChip} (h : readableChip c k) :
    k.response.length = 8 ∧ (k.response ∈ c.idleSigs ↔ k.busy = 0) := by
  obtain ⟨hid, -, hbusy⟩ := h
  unfold FlashChip.response
  split
  · next hz => simp [hz, hid]
  · next hz =>
    obtain ⟨hlen, hout⟩ := hbusy (by omega)
    simp [hz, hlen, hout]

/-- A chip during the `i`-th read cycle of a status response: as the latch left it, until the fourth cycle ends
the response and counts `BUSY` down (R89). -/
def FlashChip.answering (c : Params) (k0 : FlashChip) (i : Nat) (k : FlashChip) : Prop :=
  if i < 4 then k = k0 else k.busy = k0.busy - 1 ∧ readableChip c k

theorem FlashChip.word_status {k : FlashChip} (h : k.mode = .status) {i : Nat} (hi : i < 4) :
    k.word c (c.flashBase + 2 * i) =
      some (be16 (k.response.getD (2 * i) 0xFF#8) (k.response.getD (2 * i + 1) 0xFF#8)) := by
  have e : 2 * ((c.flashBase + 2 * i - c.flashBase) / 2) = 2 * i := by omega
  simp only [FlashChip.word, h, e]
  rw [if_pos ⟨by omega, by omega⟩]

/-- The fourth read cycle of a busy status response counts `BUSY` down and draws the next pattern (R89). -/
theorem FlashChip.afterRead_status {k : FlashChip} (h : k.mode = .status) (seed : Nat) (ev : List Event) (ca : Nat) :
    k.afterRead c seed ev ca = if c.flashBase + 6 ≤ ca ∧ ca < c.flashBase + 8 ∧ 0 < k.busy
      then { k with busy := k.busy - 1 }.drawPattern c seed ev else k := by
  rw [FlashChip.afterRead]
  split <;> simp_all

theorem FlashChip.afterRead_answering {k0 k : FlashChip} (h : k0.mode = .status) (hr : readableChip c k0) {i : Nat}
    (hi : i < 4) (hk : FlashChip.answering c k0 i k) (seed : Nat) (ev : List Event) :
    FlashChip.answering c k0 (i + 1) (k.afterRead c seed ev (c.flashBase + 2 * i)) := by
  unfold FlashChip.answering at hk ⊢
  rw [if_pos hi] at hk
  subst hk
  rw [FlashChip.afterRead_status h]
  by_cases hlast : i = 3
  · subst hlast
    rw [if_neg (by omega)]
    split
    · obtain ⟨hid, hpat, -⟩ := hr
      exact ⟨by simp, FlashChip.drawPattern_readable (k := { k with busy := k.busy - 1 }) hid hpat seed ev⟩
    · exact ⟨by omega, hr⟩
  · rw [if_pos (by omega), if_neg (by omega)]

/-- The status response of a readable chip (R89, R243). -/
theorem memRead_status {k : FlashChip} {s : State} (he : Engine c) (h : Slot c rom (.flash k) s)
    (hmode : k.mode = .status) (hr : readableChip c k) :
    (memRead c.flashBase c.flashStatusLen s).1 = k.response ∧
    ∃ k', (k'.busy = k.busy - 1 ∧ readableChip c k') ∧
      Slot c rom (.flash k') (memRead c.flashBase c.flashStatusLen s).2 := by
  have hspan : 0 + 2 * 4 ≤ c.flashSpan := by
    have := c.span_bounds.2.2.1
    rwa [he.domains.status] at this
  obtain ⟨hbytes, hend⟩ := memRead_chip (C := FlashChip.answering c (k.onLatch c (c.flashBase + 0)))
    (f := fun i => k.response.getD i 0xFF#8) he h (by omega) hspan rfl
    (fun i hi k' hk => ⟨by
      have e : k' = k.onLatch c (c.flashBase + 0) := by simpa [FlashChip.answering, hi] using hk
      subst e
      exact FlashChip.word_status (k := k.onLatch c (c.flashBase + 0)) hmode hi,
      FlashChip.afterRead_answering (k0 := k.onLatch c (c.flashBase + 0)) hmode hr hi hk⟩)
  rw [he.domains.status]
  refine ⟨hbytes.trans ?_, hend⟩
  refine List.ext_getElem (by simp [hr.response.1]) fun i h1 h2 => ?_
  simp [List.getD_eq_getElem?_getD, List.getElem?_eq_getElem h2]

/-- `read_status` of a readable chip (R89, R243). -/
theorem readStatus_chip {k : FlashChip} {s : State} (he : Engine c) (h : Slot c rom (.flash k) s)
    (hr : readableChip c k) :
    (readStatus s).1 = k.response ∧
    ∃ k', (k'.busy = k.busy - 1 ∧ readableChip c k') ∧ Slot c rom (.flash k') (readStatus s).2 := by
  obtain ⟨seed, ev, fp, hcmd⟩ := sendCommand_chip he.ok he.commands h (kind := .statusMode) (by decide) 0#16
  have := memRead_status he hcmd rfl hr
  rwa [readStatus, h.cfg]

/-- A readable chip becomes ready after `BUSY` more polls, if so many are left (R89, R244). -/
theorem pollReady_ready {left n : Nat} {k : FlashChip} {s : State} (he : Engine c) (h : Slot c rom (.flash k) s)
    (hr : readableChip c k) (hleft : k.busy < left) : (pollReady left n s).1 = some (n + k.busy) := by
  induction left generalizing n k s with
  | zero => omega
  | succ left ih =>
    obtain ⟨hresp, k', ⟨hbusy, hr'⟩, hslot⟩ := readStatus_chip he h hr
    have hidle := hr.response.2
    simp only [pollReady, hresp, h.cfg, List.contains_iff_mem]
    split
    · next hin => simp [hidle.mp hin]
    · next hout =>
      have hpos : k.busy ≠ 0 := fun hz => hout (hidle.mpr hz)
      rw [if_neg (by omega)]
      exact (ih ((hslot.emit _).emit _) hr' (by omega)).trans (congrArg some (by omega))

/-- `wait_ready` on a readable chip that is ready in time (R89, R244). -/
theorem waitReady_ready {k : FlashChip} {s : State} (he : Engine c) (h : Slot c rom (.flash k) s)
    (hr : readableChip c k) (hbusy : k.busy < c.flashPollMax) : (waitReady s).1 = some (k.busy + 1) := by
  rw [waitReady, h.cfg, pollReady_ready he h hr hbusy, Nat.add_comm]

end

/-- The last byte of a chip's ID block (R246). -/
theorem FlashChip.idBlk_last (k : FlashChip) : k.idBlk.toList.getD 7 0x00#8 = k.idBlk[7] := by
  simp [List.getD_eq_getElem?_getD]

/-- Settles O41: each operation stores nothing, and a readable chip answers by R89. -/
theorem flashStatusOnReference : Obligations.FlashStatusOnReference := by
  intro s rom chip href hs hcon hok hdom hcmd hlayout hr
  have he : Engine s.cfg := ⟨hok, Params.domains_facts hdom, hcmd, hlayout⟩
  have hslot := href.slot hs
  have hreg := Save.offRegister_flash s.cfg chip
  have hid : chip.busy = 0 → chip.response = chip.idBlk.toList := fun h => if_pos h
  refine ⟨fun hidle => ?_, fun hidle => ?_, fun hbusy => ?_⟩
  · obtain ⟨hresp, -⟩ := readStatus_chip he hslot hr
    refine ⟨_, finish_next ((readStatus_cycle s).contention.trans hcon) _ _ _, ?_,
      (readStatus_steady hok hcmd s).contents hreg hslot⟩
    rw [hresp, hid hidle]
    exact endState_finished _ _ _ _
  · have hreset := fun u => sendCommand_steady hok hcmd (kind := .reset) (by decide) (by decide) 0#16 u
    have hsteady := ((hreset s).trans (readStatus_steady hok hcmd _)).trans (hreset _)
    have hcyc := ((sendCommand_cycle .reset 0#16 s).trans (readStatus_cycle _)).trans (sendCommand_cycle .reset 0#16 _)
    obtain ⟨seed, ev, fp, hslot'⟩ := sendCommand_chip hok hcmd hslot (kind := .reset) (by decide) 0#16
    obtain ⟨hresp, -⟩ := readStatus_chip he hslot' hr
    have hdata : (readStatus (sendCommand .reset 0#16 s)).1 = chip.idBlk.toList := hresp.trans (hid hidle)
    refine ⟨_, finish_next (hcyc.contention.trans hcon) _ _ _, ?_, hsteady.contents hreg hslot⟩
    rw [hdata, FlashChip.idBlk_last]
    exact endState_finished _ _ _ _
  · have hready := waitReady_ready he hslot hr hbusy
    have hsame := (waitReady_steady hok hcmd s).contents hreg hslot
    have hcalm := ((pollReady_orderly s.cfg.flashPollMax 1 s).pins hs).contention
    refine ⟨endState .ok (reported (chip.busy + 1)) [] (waitReady s).2, ?_, endState_finished _ _ _ _, hsame⟩
    rw [show exec .flashWaitReady s = execFlashWaitReady s from rfl, execFlashWaitReady]
    cases hw : waitReady s with
    | mk ready t =>
      rw [hw] at hready
      cases hready
      exact finish_next ((congrArg (fun r => r.2.contention) hw).symm.trans (hcalm.trans hcon)) _ _ _

/-! ### What an `EXECUTE` leaves of the chip -/

/-- A chip whose next `EXECUTE` leaves it readable: its ID block is an idle signature, and its busy patterns have
8 bytes (R89). -/
def FlashChip.legible (c : Params) (k : FlashChip) : Prop :=
  k.idBlk.toList ∈ c.idleSigs ∧ ∀ p ∈ k.patScript, p.length = 8

theorem readableChip.legible {c : Params} {k : FlashChip} (h : readableChip c k) : k.legible c := ⟨h.1, h.2.1⟩

/-- The chip `k'` after operations on `k` with one `EXECUTE` among them: its bytes, and what later operations need
of it. -/
structure FlashChip.Wrote (c : Params) (k k' : FlashChip) (image : Nat → Byte) : Prop where
  bytes : ∀ x, k'.array.read x = image x
  array_wf : k'.array.wf = true
  pageBuf_wf : k.pageBuf.wf = true → k'.pageBuf.wf = true
  unarmed : k'.eraseArmed = false
  legible : k.legible c → k'.legible c
  draws : ∀ n, shortDraws c k (1 + n) → shortDraws c k' n

/-- The last `EXECUTE`'s draw lets a wait end ready (R89, R244). -/
def FlashChip.readyInTime (c : Params) (k k' : FlashChip) : Prop :=
  k.legible c → shortDraws c k 1 → readableChip c k' ∧ k'.busy < c.flashPollMax

section
variable {c : Params} {n : Nat} {k k' k'' : FlashChip} {image : Nat → Byte}

theorem FlashChip.Wrote.stays (h : k.Wrote c k' image) (g : k'.Stays k'') : k.Wrote c k'' image where
  bytes := fun x => g.array ▸ h.bytes x
  array_wf := g.array ▸ h.array_wf
  pageBuf_wf := fun hp => g.pageBuf ▸ h.pageBuf_wf hp
  unarmed := g.unarmed h.unarmed
  legible := fun hl => ⟨g.idBlk ▸ (h.legible hl).1, fun p hp => (h.legible hl).2 p (g.patScript hp)⟩
  draws := fun n hn => by
    have hd := h.draws n hn
    unfold shortDraws at hd ⊢
    rwa [g.busyScript]

/-- A draw of `BUSY` takes the next one of those known (R88). -/
theorem FlashChip.drawBusy_draws (h : shortDraws c k (n + 1)) (seed : Nat) (ev : List Event) :
    (k.drawBusy seed ev).busy < c.flashPollMax ∧ shortDraws c (k.drawBusy seed ev) n := by
  obtain ⟨hlen, hall⟩ := h
  unfold FlashChip.drawBusy
  cases hs : k.busyScript with
  | nil => simp [hs] at hlen
  | cons b bs =>
    rw [hs] at hlen hall
    exact ⟨hall b List.mem_cons_self, Nat.le_of_succ_le_succ hlen, fun x hx => hall x (List.mem_cons_of_mem b hx)⟩

@[simp] theorem FlashChip.drawBusy_idBlk (seed : Nat) (ev : List Event) (k : FlashChip) :
    (k.drawBusy seed ev).idBlk = k.idBlk := by unfold FlashChip.drawBusy; split <;> rfl

@[simp] theorem FlashChip.drawBusy_patScript (seed : Nat) (ev : List Event) (k : FlashChip) :
    (k.drawBusy seed ev).patScript = k.patScript := by unfold FlashChip.drawBusy; split <;> rfl

@[simp] theorem FlashChip.drawBusy_eraseArmed (seed : Nat) (ev : List Event) (k : FlashChip) :
    (k.drawBusy seed ev).eraseArmed = k.eraseArmed := by unfold FlashChip.drawBusy; split <;> rfl

/-- `EXECUTE` leaves the bytes of R88, and a chip that will be seen ready where its draw is short. -/
theorem FlashChip.execute_wrote (hwf : k.array.wf = true) (seed : Nat) (ev : List Event) (p : Nat) :
    k.Wrote c (k.command c seed ev .execute p) (executedByte c k) ∧
    k.readyInTime c (k.command c seed ev .execute p) := by
  obtain ⟨a, hexe⟩ : ∃ a, k.command c seed ev .execute p =
      ({ k with array := a, eraseArmed := false, eraseSel := none, pageSel := none }.drawBusy seed ev).drawPattern
        c seed ev := ⟨_, rfl⟩
  have hbytes := FlashChip.command_execute_read c seed ev p hwf
  have hwf' := FlashChip.command_array_wf c seed ev .execute p hwf
  rw [hexe] at hbytes hwf' ⊢
  generalize hk0 : ({ k with array := a, eraseArmed := false, eraseSel := none, pageSel := none } : FlashChip) = k0
    at hbytes hwf' ⊢
  have hstays := FlashChip.drawPattern_stays c seed ev (k0.drawBusy seed ev)
  have hlegible : k.legible c → (k0.drawBusy seed ev).legible c := by
    simp [FlashChip.legible, ← hk0]
  have hdraws : ∀ n, shortDraws c k (n + 1) → (k0.drawBusy seed ev).busy < c.flashPollMax ∧
      shortDraws c (k0.drawBusy seed ev) n := fun n hn =>
    FlashChip.drawBusy_draws (k := k0) (hk0 ▸ hn) seed ev
  refine ⟨⟨hbytes, hwf', ?_, hstays.unarmed (by simp [← hk0]), fun hl => ?_, fun n hn => ?_⟩, fun hl hn => ?_⟩
  · simp [← hk0]
  · obtain ⟨hid, hpat⟩ := hlegible hl
    exact ⟨hstays.idBlk ▸ hid, fun q hq => hpat q (hstays.patScript hq)⟩
  · have hd := (hdraws n (Nat.add_comm 1 n ▸ hn)).2
    unfold shortDraws at hd ⊢
    rwa [hstays.busyScript]
  · obtain ⟨hid, hpat⟩ := hlegible hl
    exact ⟨FlashChip.drawPattern_readable hid hpat seed ev, by simpa using (hdraws 0 hn).1⟩

/-- The chip before an `EXECUTE`, its block or page selected and its page buffer loaded. -/
structure FlashChip.Prepared (k k' : FlashChip) : Prop where
  array : k'.array = k.array
  pageBuf_wf : k.pageBuf.wf = true → k'.pageBuf.wf = true
  idBlk : k'.idBlk = k.idBlk
  patScript : k'.patScript = k.patScript
  busyScript : k'.busyScript = k.busyScript

theorem FlashChip.Prepared.execute (h : k.Prepared k') (hwf : k.array.wf = true)
    (himage : ∀ x, executedByte c k' x = image x) (seed : Nat) (ev : List Event) (p : Nat) :
    k.Wrote c (k'.command c seed ev .execute p) image ∧ k.readyInTime c (k'.command c seed ev .execute p) := by
  obtain ⟨hw, hr⟩ := FlashChip.execute_wrote (c := c) (k := k') (h.array ▸ hwf) seed ev p
  have hlegible : k.legible c → k'.legible c := by
    unfold FlashChip.legible
    rw [h.idBlk, h.patScript]
    exact id
  have hdraws : ∀ n, shortDraws c k n → shortDraws c k' n := by
    unfold shortDraws
    rw [h.busyScript]
    exact fun _ => id
  exact ⟨⟨fun x => (hw.bytes x).trans (himage x), hw.array_wf, hw.pageBuf_wf ∘ h.pageBuf_wf, hw.unarmed,
    hw.legible ∘ hlegible, fun n hn => hw.draws n (hdraws _ hn)⟩, fun hl hn => hr (hlegible hl) (hdraws 1 hn)⟩

end

/-! ### Waiting for the chip -/

section
variable {c : Params} {rom : RomImage} {k : FlashChip} {s : State}

theorem Steady.chip {t : State} (h : Steady c s t) (hs : Slot c rom (.flash k) s) :
    ∃ k', Slot c rom (.flash k') t ∧ k.Stays k' := by
  obtain ⟨save', ht, hstays⟩ := h (Save.offRegister_flash c k) hs
  obtain ⟨k', rfl, hk⟩ := hstays.of_flash
  exact ⟨k', ht, hk⟩

/-- An `EXECUTE` and a wait: the chip holds what the `EXECUTE` left, and the wait ends ready where the draw is
short (R88, R244). -/
theorem executeAndWait_chip {k' : FlashChip} {image : Nat → Byte} (he : Engine c) (h : Slot c rom (.flash k') s)
    (hprep : k.Prepared k') (hwf : k.array.wf = true) (himage : ∀ x, executedByte c k' x = image x) :
    (∃ k'', Slot c rom (.flash k'') (waitReady (sendCommand .execute 0#16 s)).2 ∧ k.Wrote c k'' image) ∧
    (k.legible c → shortDraws c k 1 → (waitReady (sendCommand .execute 0#16 s)).1.isSome = true) := by
  obtain ⟨seed, ev, fp, hexe⟩ := sendCommand_chip he.ok he.commands h (kind := .execute) (by decide) 0#16
  have hprep' : k.Prepared (k'.awaiting fp) :=
    ⟨hprep.array, hprep.pageBuf_wf, hprep.idBlk, hprep.patScript, hprep.busyScript⟩
  obtain ⟨hw, hr⟩ := hprep'.execute (c := c) hwf himage seed ev (lo16 (c.flashWord .execute 0#16)).toNat
  obtain ⟨k'', hslot, hstays⟩ := (waitReady_steady he.ok he.commands _).chip hexe
  refine ⟨⟨k'', hslot, hw.stays hstays⟩, fun hl hd => ?_⟩
  obtain ⟨hread, hbusy⟩ := hr hl hd
  rw [waitReady_ready he hexe hread hbusy]
  rfl

end

/-! ### Ending in `OK` or in a run-time cause -/

/-- The state in which an operation with a run-time cause ends (R14, R280). -/
def endOf (v : Word) (r : Option Cause × State) : State :=
  match r.1 with
  | none => endState .ok v [] r.2
  | some cause => endState cause.status cause.value [] r.2

section
variable (v : Word) (r : Option Cause × State)

@[simp] theorem endOf_env : (endOf v r).env = r.2.env := by
  unfold endOf
  split <;> rfl

@[simp] theorem endOf_blkBuf : (endOf v r).blkBuf = r.2.blkBuf := by
  unfold endOf
  split <;> rfl

theorem endOf_none {v : Word} {r : Option Cause × State} (h : r.1 = none) : finished (endOf v r) .ok v [] := by
  rw [endOf, h]
  exact endState_finished _ _ _ _

theorem endOf_some {v : Word} {r : Option Cause × State} {cause : Cause} (h : r.1 = some cause) :
    finished (endOf v r) cause.status cause.value [] := by
  rw [endOf, h]
  exact endState_finished _ _ _ _

/-- No run-time cause has the status `OK` (R282-R286). -/
theorem endOf_ok {v : Word} {r : Option Cause × State} (h : (endOf v r).result.status = .ok) : r.1 = none := by
  cases hr : r.1 with
  | none => rfl
  | some cause =>
    rw [(endOf_some hr).2] at h
    cases cause <;> cases h

/-- A body that ends in `OK` or in a run-time cause, and notes no contention (R280). -/
theorem ofCause_next {r : Option Cause × State} (hcon : r.2.contention = false) :
    (match r with
      | (none, s') => finish .ok v [] s'
      | (some cause, s') => raise cause s') = .next (endOf v r) :=
  match r, hcon with
  | (none, _), h => finish_next h _ _ _
  | (some cause, _), h => raise_next h cause

end

/-! ### Erasing a block -/

section
variable {c : Params} {rom : RomImage} {k : FlashChip} {s : State}

/-- The operand of a command that takes one is the low half of its word (R240). -/
theorem Engine.operand (he : Engine c) {kind : FlashKind} (hk : kind.takesOperand = true) {p : Nat}
    (hp : p < 65536) : (lo16 (c.flashWord kind (BitVec.ofNat 16 p))).toNat = p := by
  rw [Params.lo16_flashWord (he.domains.words kind), hk, if_pos rfl, BitVec.toNat_ofNat, Nat.mod_eq_of_lt hp]

/-- The first page of a block of the chip has an index of 16 bits, and selects that block (R88, R222, R252). -/
theorem Engine.firstPage (he : Engine c) {b : Nat} (hb : b < c.flashSize / c.flashBlock) :
    b * c.flashBlock / c.flashPage < 65536 ∧
    b * c.flashBlock / c.flashPage * c.flashPage / c.flashBlock = b := by
  have r := Params.ok_relations he.ok
  have hdvd : c.flashPage ∣ b * c.flashBlock :=
    Dvd.dvd.mul_left (Nat.dvd_of_mod_eq_zero r.block_page) b
  refine ⟨?_, by rw [Nat.div_mul_cancel hdvd, Nat.mul_div_cancel _ r.block]⟩
  have hlt : b * c.flashBlock < c.flashSize := by
    have := (Nat.lt_div_iff_mul_lt' (Nat.dvd_of_mod_eq_zero r.size_block) b).mp hb
    rwa [Nat.mul_comm]
  refine lt_of_lt_of_le ?_ r.pages
  have hsize : c.flashPage ∣ c.flashSize :=
    (Nat.dvd_of_mod_eq_zero r.block_page).trans (Nat.dvd_of_mod_eq_zero r.size_block)
  exact Nat.div_lt_div_of_lt_of_dvd hsize hlt

/-- The byte an erase of block `b` leaves at `x` (R88). -/
def FlashChip.erasedByte (c : Params) (b : Nat) (k : FlashChip) (x : Nat) : Byte :=
  if b * c.flashBlock ≤ x ∧ x < (b + 1) * c.flashBlock then 0xFF#8 else k.array.read x

/-- `erase_block` on the reference chip (R88, R252). -/
theorem eraseBlock_chip (he : Engine c) (h : Slot c rom (.flash k) s) (hwf : k.array.wf = true) {b : Nat}
    (hb : b < c.flashSize / c.flashBlock) :
    (∃ k', Slot c rom (.flash k') (eraseBlock b s).2 ∧ k.Wrote c k' (k.erasedByte c b)) ∧
    (k.legible c → shortDraws c k 1 → (eraseBlock b s).1 = none) := by
  obtain ⟨hp, hsel⟩ := he.firstPage hb
  obtain ⟨_, _, fp1, h1⟩ := sendCommand_chip he.ok he.commands h (kind := .eraseSelect) (by decide)
    (BitVec.ofNat 16 (b * c.flashBlock / c.flashPage))
  rw [he.operand rfl hp] at h1
  obtain ⟨_, _, fp2, h2⟩ := sendCommand_chip he.ok he.commands h1 (kind := .eraseMode) (by decide) 0#16
  obtain ⟨hend, hready⟩ := executeAndWait_chip (k := k) (image := k.erasedByte c b) he h2
    ⟨rfl, id, rfl, rfl, rfl⟩ hwf (fun x => by
      simp only [FlashChip.awaiting, FlashChip.command, hsel]
      rfl)
  simp only [eraseBlock, h.cfg]
  exact ⟨hend, fun hl hd => if_pos (hready hl hd)⟩

/-- Settles O45: the erase of R252 selects the block, arms it and executes, and the wait stores nothing. -/
theorem eraseOnReference : Obligations.EraseOnReference := by
  intro s b rom chip href hs hcon hok hdom hcmd hlayout hwf hb
  have he : Engine s.cfg := ⟨hok, Params.domains_facts hdom, hcmd, hlayout⟩
  obtain ⟨⟨k', hslot, hw⟩, hready⟩ := eraseBlock_chip he (href.slot hs) hwf hb
  have hcyc := eraseBlock_cycle b.toNat s
  refine ⟨endOf 0#32 (eraseBlock b.toNat s), (if_neg (Nat.not_le.mpr hb)).trans
    (ofCause_next _ (hcyc.contention.trans hcon)), ?_, fun x => ?_, fun hr hd => endOf_none (hready hr.legible hd)⟩
  · rw [endOf_env, hcyc.keeps.rom]
  · rw [endOf_env, hslot.saveByte, href.saveByte]
    exact hw.bytes x

end

/-! ### Loading the page buffer -/

section
variable {c : Params} {rom : RomImage} {k : FlashChip} {s : State}

/-- A page of the chip lies in its array, its bus cycles lie in the window, and its index has 16 bits (R9, R75). -/
theorem Engine.page_span (he : Engine c) {p : Nat} (hp : p < c.flashSize / c.flashPage) :
    p * c.flashPage + c.flashPage ≤ c.flashSize ∧ p * c.flashPage / 2 + c.flashPage ≤ c.flashSpan ∧
    p < 65536 := by
  have r := Params.ok_relations he.ok
  have hsize : p * c.flashPage + c.flashPage ≤ c.flashSize := by
    have := Nat.mul_le_of_le_div _ _ _ hp
    rwa [Nat.succ_mul] at this
  have hpage := r.page
  have heven := r.page_even
  have hspan := (c.span_bounds.2.2.2 (by omega)).2
  exact ⟨hsize, by omega, hp.trans_le r.pages⟩

/-- The chip with bytes loaded into its page buffer from an offset on (R91). -/
def FlashChip.loaded (o : Nat) (v : List Byte) (k : FlashChip) : FlashChip :=
  { k with pageBuf := k.pageBuf.writeRange o v }

/-- A word of a page load goes to its two bytes of the page buffer (R91). -/
theorem FlashChip.onWrite_load (he : Engine c) (hmode : k.mode = .load) {o : Nat} (ho : o + 2 ≤ c.flashPage)
    (w : Half) (seed : Nat) (ev : List Event) :
    k.onWrite c seed ev (c.flashBase + o) w = k.loaded o [hiByte w, loByte w] := by
  have hapart := he.layout.2
  have e : c.flashBase + o - c.flashBase = o := by omega
  rw [FlashChip.onWrite, if_neg (by omega), if_neg (by omega), if_pos ⟨hmode, by omega, by omega⟩, e]
  dsimp only
  rw [if_pos (by omega)]
  rfl

/-- A burst of write cycles inside the staging page loads its bytes (R91). -/
theorem writeWords_load (he : Engine c) (v : List Byte) {o : Nat} (hcfg : s.cfg = c) (hmode : k.mode = .load)
    (h : CartAt s ⟨some rom, .flash k⟩ (BitVec.ofNat 32 (c.flashBase + o))) (hv : v.length % 2 = 0)
    (ho : o + v.length ≤ c.flashPage) (htop : c.flashBase + c.flashPage ≤ 2 ^ 32) :
    ∃ ca, CartAt (writeWords v s) ⟨some rom, .flash (k.loaded o v)⟩ ca := by
  induction v, s using writeWords.induct generalizing k o with
  | case1 b0 b1 bs s ih =>
    subst hcfg
    simp only [List.length_cons] at hv ho
    obtain ⟨seed, ev, hn⟩ := writeWord_cart h (be16 b0 b1)
    have hca : (BitVec.ofNat 32 (s.cfg.flashBase + o)).toNat = s.cfg.flashBase + o := by
      rw [BitVec.toNat_ofNat, Nat.mod_eq_of_lt (by omega)]
    have hchip := FlashChip.onWrite_load he hmode (o := o) (by omega) (be16 b0 b1) seed ev
    rw [hiByte_be16, loByte_be16] at hchip
    have hload : (Cart.mk (some rom) (.flash k)).onWrite s.cfg seed ev (s.cfg.flashBase + o) (be16 b0 b1) =
        ⟨some rom, .flash (k.loaded o [b0, b1])⟩ := congrArg (fun k' => Cart.mk (some rom) (.flash k')) hchip
    rw [hca, hload, BitVec.ofNat_add_ofNat, Nat.add_assoc] at hn
    exact ih (k := k.loaded o [b0, b1]) (o := o + 2) (writeWord_keeps _ s).cfg hmode hn (by omega) (by omega)
  | case2 b s => simp at hv
  | case3 s => exact ⟨_, h⟩

/-- `MemWrite` of a page at the staging address (R250, R254). -/
theorem memWrite_load (he : Engine c) (h : Slot c rom (.flash k) s) (hmode : k.mode = .load) {d : List Byte}
    (hd : d.length = c.flashPage) (htop : c.flashBase + c.flashPage ≤ 2 ^ 32) :
    ∃ fp, Slot c rom (.flash { k.loaded 0 d with fp := fp }) (memWrite c.flashBase d s) := by
  have r := Params.ok_relations he.ok
  obtain ⟨hcfg, ⟨ca, hcart⟩, hstrobes⟩ := h
  have hcyc := latchAddress_cycle (BitVec.ofNat 32 c.flashBase) s
  have hlatch := latchAddress_cart hcart hstrobes (BitVec.ofNat 32 c.flashBase)
  obtain ⟨ca', hend⟩ := writeWords_load he (o := 0) d (k := k.onLatch s.cfg (BitVec.ofNat 32 c.flashBase).toNat)
    (hcyc.keeps.cfg.trans hcfg) hmode hlatch (hd ▸ r.page_even) (by omega) htop
  exact ⟨_, (memWrite_cycle _ _ s).slot hcfg hend⟩

/-! ### Programming a page -/

/-- The byte a program of page `p` with the data `d` leaves at `x` (R88). -/
def FlashChip.programmedByte (c : Params) (p : Nat) (d : List Byte) (k : FlashChip) (x : Nat) : Byte :=
  if p * c.flashPage ≤ x ∧ x < (p + 1) * c.flashPage
  then k.array.read x &&& d.getD (x - p * c.flashPage) 0xFF#8 else k.array.read x

/-- The page can take the data: `D AND old = D` (R254, R332). -/
def FlashChip.takes (c : Params) (p : Nat) (d : List Byte) (k : FlashChip) : Prop :=
  ∀ i, i < d.length → d.getD i 0xFF#8 &&& k.array.read (p * c.flashPage + i) = d.getD i 0xFF#8

/-- With no erase armed, `EXECUTE` programs the selected page (R88). -/
theorem executedByte_page {p : Nat} (harm : k.eraseArmed = false) (hsel : k.pageSel = some p) (x : Nat) :
    executedByte c k x =
      if p * c.flashPage ≤ x ∧ x < (p + 1) * c.flashPage ∧ x < c.flashSize
      then k.array.read x &&& k.pageBuf.read (x - p * c.flashPage) else k.array.read x := by
  rw [executedByte, harm, hsel]

/-- `READ_ARRAY`, or the `RESET` that has its word, puts the chip into array mode (R88, R240). -/
theorem sendCommand_readArray (he : Engine c) (h : Slot c rom (.flash k) s) (p : Half) :
    ∃ k', Slot c rom (.flash k') (sendCommand .readArray p s) ∧ k'.mode = .array ∧ k.Stays k' := by
  obtain ⟨save', ht, hcommanded⟩ :=
    sendCommand_slot he.ok he.commands (Save.offRegister_flash c k) h .readArray p
  obtain ⟨k', rfl, hstays⟩ := (hcommanded.stays (by decide) (by decide)).of_flash
  obtain ⟨ran, seed, ev, fp, rfl | ⟨-, rfl⟩, hk⟩ := hcommanded.of_flash
  · cases hk
    exact ⟨_, ht, rfl, hstays⟩
  · cases hk
    exact ⟨_, ht, rfl, hstays⟩

/-- The bytes of an image are the given ones where each is. -/
theorem imageBytes_eq_iff {m : Memory} {a : Nat} {d : List Byte} :
    imageBytes m a d.length = d ↔ ∀ i, i < d.length → m.read (a + i) = d.getD i 0xFF#8 := by
  constructor
  · intro h i hi
    have := congrArg (fun l => l.getD i 0xFF#8) h
    simpa [imageBytes, List.getD_eq_getElem?_getD, hi] using this
  · intro h
    refine List.ext_getElem (by simp [imageBytes]) fun i _ hi => ?_
    simpa [imageBytes, List.getD_eq_getElem?_getD, hi] using h i hi

/-- With the page selected and its data loaded, `EXECUTE` will leave old AND new in the page (R88, R91). -/
theorem executedByte_loaded {k' : FlashChip} {p : Nat} {d : List Byte} (harray : k'.array = k.array)
    (hload : k'.pageBuf = k.pageBuf.writeRange 0 d) (harm : k'.eraseArmed = false) (hsel : k'.pageSel = some p)
    (hbuf : k.pageBuf.wf = true) (hd : d.length = c.flashPage)
    (hsize : p * c.flashPage + c.flashPage ≤ c.flashSize) (x : Nat) :
    executedByte c k' x = k.programmedByte c p d x := by
  rw [executedByte_page harm hsel, FlashChip.programmedByte, harray, hload, Memory.read_writeRange hbuf,
    Nat.add_one_mul]
  by_cases hx : p * c.flashPage ≤ x ∧ x < p * c.flashPage + c.flashPage
  · rw [if_pos (by omega), if_pos hx, if_pos (by omega)]
    rfl
  · rw [if_neg (by omega), if_neg hx]

/-- `program_page` up to its `EXECUTE`: the chip is prepared to program the page (R254). -/
theorem programPrepared_chip (he : Engine c) (h : Slot c rom (.flash k) s) (harm : k.eraseArmed = false)
    (hbuf : k.pageBuf.wf = true) {p : Nat} (hp : p < c.flashSize / c.flashPage) {d : List Byte}
    (hd : d.length = c.flashPage) :
    ∃ k', Slot c rom (.flash k') (sendCommand .pageSelect (BitVec.ofNat 16 p)
        (memWrite c.flashBase d (sendCommand .program 0#16 s))) ∧
      k.Prepared k' ∧ ∀ x, executedByte c k' x = k.programmedByte c p d x := by
  obtain ⟨hsize, hspan, hindex⟩ := he.page_span hp
  have hin := (he.window (o := 0) (n := c.flashPage) (by omega)).2
  obtain ⟨seed, ev, fp, hprogram⟩ := sendCommand_chip he.ok he.commands h (kind := .program) (by decide) 0#16
  obtain ⟨fp', hload⟩ := memWrite_load he hprogram rfl hd hin
  obtain ⟨seed', ev', fp'', hselect⟩ := sendCommand_chip he.ok he.commands hload (kind := .pageSelect) (by decide)
    (BitVec.ofNat 16 p)
  rw [he.operand rfl hindex] at hselect
  exact ⟨_, hselect, ⟨rfl, fun hb => Memory.wf_writeRange hb 0 d, rfl, rfl, rfl⟩,
    executedByte_loaded rfl rfl harm rfl hbuf hd hsize⟩

/-- The page read back in array mode (R254). -/
theorem readBack_chip (he : Engine c) (h : Slot c rom (.flash k) s) {p : Nat} (hp : p < c.flashSize / c.flashPage) :
    (memRead (c.flashBase + p * c.flashPage / 2) c.flashPage (sendCommand .readArray 0#16 s)).1 =
      imageBytes k.array (p * c.flashPage) c.flashPage ∧
    ∃ k', Slot c rom (.flash k')
      (memRead (c.flashBase + p * c.flashPage / 2) c.flashPage (sendCommand .readArray 0#16 s)).2 ∧ k.Stays k' := by
  have r := Params.ok_relations he.ok
  obtain ⟨hsize, hspan, -⟩ := he.page_span hp
  obtain ⟨k1, h1, hmode, hstays⟩ := sendCommand_readArray he h 0#16
  obtain ⟨k2, h2, hstays'⟩ := (memRead_steady (c.flashBase + p * c.flashPage / 2) c.flashPage).chip h1
  refine ⟨?_, k2, h2, hstays.trans hstays'⟩
  have hpage := r.page
  obtain ⟨n, hn⟩ := Nat.dvd_of_mod_eq_zero r.page_even
  have hhalf : 2 * (p * c.flashPage / 2) = p * c.flashPage :=
    Nat.mul_div_cancel' (Dvd.dvd.mul_left (Nat.dvd_of_mod_eq_zero r.page_even) p)
  have key := memRead_array (o := p * c.flashPage / 2) (n := n) he h1 hmode (by omega) (by omega) (by omega)
  rwa [hhalf, hstays.array, ← hn] at key

/-- What a page holds after its program is its data where the page could take them (R254, R332). -/
theorem FlashChip.Wrote.takes {k' : FlashChip} {p : Nat} {d : List Byte}
    (h : k.Wrote c k' (k.programmedByte c p d)) (hd : d.length = c.flashPage) :
    imageBytes k'.array (p * c.flashPage) c.flashPage = d ↔ k.takes c p d := by
  rw [← hd, imageBytes_eq_iff]
  refine forall₂_congr fun i hi => ?_
  have e : p * d.length + i - p * d.length = i := by omega
  rw [h.bytes, FlashChip.programmedByte, ← hd, e, Nat.add_one_mul, if_pos (by omega), BitVec.and_comm]

/-- `program_page` on the reference chip (R88, R254). -/
theorem programPage_chip (he : Engine c) (h : Slot c rom (.flash k) s) (hwf : k.array.wf = true)
    (harm : k.eraseArmed = false) (hbuf : k.pageBuf.wf = true) {p : Nat} (hp : p < c.flashSize / c.flashPage)
    {d : List Byte} (hd : d.length = c.flashPage) :
    (∃ k', Slot c rom (.flash k') (programPage p d s).2 ∧ k.Wrote c k' (k.programmedByte c p d)) ∧
    (k.legible c → shortDraws c k 1 →
      (k.takes c p d → (programPage p d s).1 = none) ∧
      (¬ k.takes c p d → (programPage p d s).1 = some (.verifyFail p))) := by
  obtain ⟨k1, h1, hprep, himage⟩ := programPrepared_chip he h harm hbuf hp hd
  obtain ⟨⟨k2, h2, hw⟩, hready⟩ := executeAndWait_chip he h1 hprep hwf himage
  obtain ⟨hback, k3, h3, hstays⟩ := readBack_chip he h2 hp
  simp only [programPage, h.cfg]
  constructor
  · split
    · exact ⟨k3, h3, hw.stays hstays⟩
    · exact ⟨k2, h2, hw⟩
  · intro hl hs
    rw [if_pos (hready hl hs), hback]
    exact ⟨fun ht => if_pos ((hw.takes hd).mpr ht), fun ht => if_neg (ht ∘ (hw.takes hd).mp)⟩

end

/-- Settles O47: the page program of R254 loads, selects and executes; the wait and the read-back store nothing,
and the read-back equals the data where the page can take them. -/
theorem programPageOnReference : Obligations.ProgramPageOnReference := by
  intro s p d rom chip href hs hcon hok hdom hcmd hlayout hwf hbuf harm hd hp
  have he : Engine s.cfg := ⟨hok, Params.domains_facts hdom, hcmd, hlayout⟩
  obtain ⟨⟨k', hslot, hw⟩, hverdict⟩ := programPage_chip he (href.slot hs) hwf harm hbuf hp hd
  have hcyc := programPage_cycle p.toNat d s
  refine ⟨endOf 0#32 (programPage p.toNat d s), ((if_neg (not_not.mpr hd)).trans (if_neg (Nat.not_le.mpr hp))).trans
    (ofCause_next _ (hcyc.contention.trans hcon)), ?_, fun x => ?_, fun hr hdraw => ?_⟩
  · rw [endOf_env, hcyc.keeps.rom]
  · rw [endOf_env, hslot.saveByte, href.saveByte]
    exact hw.bytes x
  · obtain ⟨htakes, hfails⟩ := hverdict hr.legible hdraw
    split
    · next h => exact endOf_none (htakes h)
    · next h =>
      have := endOf_some (v := 0#32) (hfails h)
      rwa [Cause.value, reported_toNat] at this

/-! ### Programming a block -/

section
variable {c : Params} {rom : RomImage} {k : FlashChip} {s : State}

/-- The pages of a block fill it, and those of a block of the chip are pages of the chip (R8, R9, R222). -/
theorem Engine.page_of_block (he : Engine c) {b q : Nat} (hb : b < c.flashSize / c.flashBlock)
    (hq : q < c.pagesPerBlock) : b * c.pagesPerBlock + q < c.flashSize / c.flashPage := by
  have r := Params.ok_relations he.ok
  obtain ⟨pages, hpages⟩ := Nat.dvd_of_mod_eq_zero r.block_page
  obtain ⟨blocks, hblocks⟩ := Nat.dvd_of_mod_eq_zero r.size_block
  have hper : c.pagesPerBlock = pages := by rw [Params.pagesPerBlock, hpages, Nat.mul_div_cancel_left _ r.page]
  have hall : c.flashSize / c.flashBlock = blocks := by rw [hblocks, Nat.mul_div_cancel_left _ r.block]
  rw [hper] at hq ⊢
  rw [hall] at hb
  rw [hblocks, hpages, Nat.mul_assoc, Nat.mul_div_cancel_left _ r.page]
  calc b * pages + q < (b + 1) * pages := by rw [Nat.add_one_mul]; omega
    _ ≤ blocks * pages := Nat.mul_le_mul_right _ hb
    _ = pages * blocks := Nat.mul_comm _ _

theorem Engine.pages_fill (he : Engine c) : c.pagesPerBlock * c.flashPage = c.flashBlock :=
  Nat.div_mul_cancel (Nat.dvd_of_mod_eq_zero (Params.ok_relations he.ok).block_page)

/-- The byte that the programming of the pages `qs` of block `b` from the image `buf` leaves at `x` (R256). -/
def FlashChip.pagesByte (c : Params) (b : Nat) (buf : Memory) (qs : List Nat) (k : FlashChip) (x : Nat) : Byte :=
  if ∃ q ∈ qs, x / c.flashPage = b * c.pagesPerBlock + q
  then k.array.read x &&& buf.read (x - b * c.flashBlock) else k.array.read x

/-- The pages `qs` of block `b` can take the image. -/
def FlashChip.takesPages (c : Params) (b : Nat) (buf : Memory) (qs : List Nat) (k : FlashChip) : Prop :=
  ∀ x, (∃ q ∈ qs, x / c.flashPage = b * c.pagesPerBlock + q) →
    buf.read (x - b * c.flashBlock) &&& k.array.read x = buf.read (x - b * c.flashBlock)

theorem Memory.getD_readRange (m : Memory) (a n i : Nat) (hi : i < n) :
    (m.readRange a n).getD i 0xFF#8 = m.read (a + i) := by
  simp [Memory.readRange_eq_map, List.getD_eq_getElem?_getD, hi]

/-- Where a page of a block begins (R222). -/
theorem Engine.page_start (he : Engine c) (b q : Nat) :
    (b * c.pagesPerBlock + q) * c.flashPage = b * c.flashBlock + q * c.flashPage := by
  rw [Nat.add_mul, Nat.mul_assoc, he.pages_fill]

/-- The program of one page of the image, by the page that each byte lies in. -/
theorem Engine.programmedByte_page (he : Engine c) (b q : Nat) (buf : Memory) (x : Nat) :
    k.programmedByte c (b * c.pagesPerBlock + q) (buf.readRange (q * c.flashPage) c.flashPage) x =
      k.pagesByte c b buf [q] x := by
  have hpage := (Params.ok_relations he.ok).page
  have hstart := he.page_start b q
  have hin : (b * c.pagesPerBlock + q) * c.flashPage ≤ x ∧ x < (b * c.pagesPerBlock + q + 1) * c.flashPage ↔
      ∃ q' ∈ [q], x / c.flashPage = b * c.pagesPerBlock + q' := by
    simp only [List.mem_singleton, exists_eq_left]
    rw [Nat.div_eq_iff hpage, Nat.add_one_mul]
    omega
  unfold FlashChip.programmedByte FlashChip.pagesByte
  refine ite_congr (propext hin) (fun hx => ?_) (fun _ => rfl)
  obtain ⟨hlo, hhi⟩ := hin.mpr hx
  rw [Nat.add_one_mul] at hhi
  rw [Memory.getD_readRange _ _ _ _ (by omega)]
  congr 2
  omega

/-- One more page before the others. -/
theorem FlashChip.pagesByte_cons {k' : FlashChip} {b q : Nat} {buf : Memory}
    (hk : ∀ x, k'.array.read x = k.pagesByte c b buf [q] x) (qs : List Nat) (x : Nat) :
    k'.pagesByte c b buf qs x = k.pagesByte c b buf (q :: qs) x := by
  simp only [FlashChip.pagesByte, hk, List.mem_cons, List.not_mem_nil, or_false, exists_eq_left, exists_eq_or_imp]
  by_cases hq : x / c.flashPage = b * c.pagesPerBlock + q
  · have htwice : ∀ v w : Byte, v &&& w &&& w = v &&& w := fun v w => by rw [BitVec.and_assoc, BitVec.and_self]
    simp [hq, htwice]
  · simp [hq]

/-- The first page can take its data. -/
theorem FlashChip.takesPages.head (he : Engine c) {b q : Nat} {buf : Memory} {qs : List Nat}
    (h : k.takesPages c b buf (q :: qs)) :
    k.takes c (b * c.pagesPerBlock + q) (buf.readRange (q * c.flashPage) c.flashPage) := by
  intro i hi
  rw [Memory.readRange_length] at hi
  have hstart := he.page_start b q
  have hx : ((b * c.pagesPerBlock + q) * c.flashPage + i) / c.flashPage = b * c.pagesPerBlock + q := by
    rw [Nat.div_eq_iff (by omega)]
    omega
  have key := h _ ⟨q, List.mem_cons_self, hx⟩
  rw [show (b * c.pagesPerBlock + q) * c.flashPage + i - b * c.flashBlock = q * c.flashPage + i by omega] at key
  rwa [Memory.getD_readRange _ _ _ _ hi]

/-- Once a page is programmed, the others can still take theirs. -/
theorem FlashChip.takesPages.tail {k' : FlashChip} {b q : Nat} {buf : Memory} {qs : List Nat}
    (h : k.takesPages c b buf (q :: qs)) (hk : ∀ x, k'.array.read x = k.pagesByte c b buf [q] x) :
    k'.takesPages c b buf qs := by
  rintro x ⟨q', hq', hx⟩
  have key := h x ⟨q', List.mem_cons_of_mem q hq', hx⟩
  rw [hk, FlashChip.pagesByte]
  split
  · rw [← BitVec.and_assoc, key, BitVec.and_self]
  · exact key

theorem shortDraws.mono {m n : Nat} (h : shortDraws c k n) (hmn : m ≤ n) : shortDraws c k m :=
  ⟨hmn.trans h.1, h.2⟩

/-- The page loop of R256 on the reference chip: ended `OK`, the pages hold old AND new; it ends so where the chip is
ready in time and the pages can take the image. -/
theorem programPages_chip (he : Engine c) (h : Slot c rom (.flash k) s) (hwf : k.array.wf = true)
    (harm : k.eraseArmed = false) (hbuf : k.pageBuf.wf = true) {b : Nat} (hb : b < c.flashSize / c.flashBlock)
    (buf : Memory) (qs : List Nat) (hqs : ∀ q ∈ qs, q < c.pagesPerBlock) :
    ((programPages b buf qs s).1 = none → ∃ k', Slot c rom (.flash k') (programPages b buf qs s).2 ∧
      ∀ x, k'.array.read x = k.pagesByte c b buf qs x) ∧
    (k.legible c → shortDraws c k qs.length → k.takesPages c b buf qs → (programPages b buf qs s).1 = none) := by
  induction qs generalizing k s with
  | nil => exact ⟨fun _ => ⟨k, h, fun x => by simp [FlashChip.pagesByte]⟩, fun _ _ _ => rfl⟩
  | cons q qs ih =>
    have hq := he.page_of_block hb (hqs q List.mem_cons_self)
    obtain ⟨⟨k', hslot, hw⟩, hverdict⟩ := programPage_chip he h hwf harm hbuf hq
      (d := buf.readRange (q * c.flashPage) c.flashPage) (by simp)
    have hbytes := fun x => (hw.bytes x).trans (he.programmedByte_page b q buf x)
    simp only [programPages, h.cfg]
    cases hr : programPage (b * c.pagesPerBlock + q) (buf.readRange (q * c.flashPage) c.flashPage) s with
    | mk r t =>
      rw [hr] at hslot hverdict
      obtain ⟨himage, hnone⟩ := ih hslot hw.array_wf hw.unarmed (hw.pageBuf_wf hbuf)
        fun q' hq' => hqs q' (List.mem_cons_of_mem q hq')
      have hfirst : k.legible c → shortDraws c k (q :: qs).length → k.takesPages c b buf (q :: qs) → r = none :=
        fun hl hd ht => (hverdict hl (hd.mono (by simp))).1 (ht.head he)
      cases r with
      | some cause =>
        exact ⟨fun e => (Option.some_ne_none cause e).elim, hfirst⟩
      | none =>
        refine ⟨fun e => ?_, fun hl hd ht => ?_⟩
        · obtain ⟨k'', hend, hbytes'⟩ := himage e
          exact ⟨k'', hend, fun x => (hbytes' x).trans (FlashChip.pagesByte_cons hbytes qs x)⟩
        · rw [List.length_cons, Nat.add_comm] at hd
          exact hnone (hw.legible hl) (hw.draws _ hd) (ht.tail hbytes)

/-! ### Erasing and programming a block -/

/-- The bytes of a block lie in its pages. -/
theorem Engine.mem_pages (he : Engine c) (b x : Nat) :
    (∃ q ∈ List.range c.pagesPerBlock, x / c.flashPage = b * c.pagesPerBlock + q) ↔
      b * c.flashBlock ≤ x ∧ x < (b + 1) * c.flashBlock := by
  have hpage := (Params.ok_relations he.ok).page
  have hlo := Nat.le_div_iff_mul_le (x := b * c.pagesPerBlock) (y := x) hpage
  have hhi := Nat.div_lt_iff_lt_mul (x := x) (y := (b + 1) * c.pagesPerBlock) hpage
  rw [Nat.mul_assoc, he.pages_fill] at hlo hhi
  rw [← hlo, ← hhi, Nat.add_one_mul]
  simp only [List.mem_range]
  constructor
  · rintro ⟨q, hq, e⟩
    omega
  · rintro ⟨h1, h2⟩
    exact ⟨x / c.flashPage - b * c.pagesPerBlock, by omega, by omega⟩

/-- The commit of a block on the reference chip (R262): ended `OK`, the block holds the block buffer and every other
byte is as before; it ends so where the chip is ready in time. -/
theorem eraseAndProgram_chip (he : Engine c) (h : Slot c rom (.flash k) s) (hwf : k.array.wf = true)
    (hbuf : k.pageBuf.wf = true) {b : Nat} (hb : b < c.flashSize / c.flashBlock) :
    ((eraseAndProgram b s).1 = none → ∃ k', Slot c rom (.flash k') (eraseAndProgram b s).2 ∧
      ∀ x, k'.array.read x = if b * c.flashBlock ≤ x ∧ x < (b + 1) * c.flashBlock
        then s.blkBuf.read (x - b * c.flashBlock) else k.array.read x) ∧
    (k.legible c → shortDraws c k (1 + c.pagesPerBlock) → (eraseAndProgram b s).1 = none) := by
  obtain ⟨⟨k', hslot, hw⟩, hverdict⟩ := eraseBlock_chip he h hwf hb
  have hkeeps := (eraseBlock_cycle b s).keeps
  simp only [eraseAndProgram]
  cases hr : eraseBlock b s with
  | mk r t =>
    rw [hr] at hslot hverdict hkeeps
    have hcfg : t.cfg = c := hslot.cfg
    have hblk : t.blkBuf = s.blkBuf := hkeeps.blkBuf
    obtain ⟨himage, hnone⟩ := programPages_chip he hslot hw.array_wf hw.unarmed (hw.pageBuf_wf hbuf) hb s.blkBuf
      (List.range c.pagesPerBlock) (fun q => List.mem_range.mp)
    have hfirst : k.legible c → shortDraws c k (1 + c.pagesPerBlock) → r = none :=
      fun hl hd => hverdict hl (hd.mono (by omega))
    have hones : ∀ v : Byte, 0xFF#8 &&& v = v := fun v => BitVec.allOnes_and
    cases r with
    | some cause => exact ⟨fun e => (Option.some_ne_none cause e).elim, hfirst⟩
    | none =>
      simp only [programBlock, hcfg, hblk]
      refine ⟨fun e => ?_, fun hl hd => hnone (hw.legible hl) ?_ fun x hx => ?_⟩
      · obtain ⟨k'', hend, hbytes⟩ := himage e
        refine ⟨k'', hend, fun x => ?_⟩
        rw [hbytes, FlashChip.pagesByte, hw.bytes, FlashChip.erasedByte]
        by_cases hx : b * c.flashBlock ≤ x ∧ x < (b + 1) * c.flashBlock
        · rw [if_pos ((he.mem_pages b x).mpr hx), if_pos hx, if_pos hx, hones]
        · rw [if_neg (mt (he.mem_pages b x).mp hx), if_neg hx, if_neg hx]
      · rw [List.length_range]
        exact hw.draws _ hd
      · rw [hw.bytes, FlashChip.erasedByte, if_pos ((he.mem_pages b x).mp hx), BitVec.and_comm, hones]

end

/-! ### The sector that completes its block -/

/-- The bitmap after a sector (R262). -/
theorem receiveSector_fsBitmap (n : Nat) (d : List Byte) (s : State) :
    (receiveSector n d s).fsBitmap =
      (if s.fsActive = true ∧ s.fsBlock.toNat = n / s.cfg.sectorsPerBlock then s.fsBitmap
        else List.replicate s.cfg.sectorsPerBlock false).set (n % s.cfg.sectorsPerBlock) true := by
  simp only [receiveSector, openStream, sectorBlock, sectorSlot, Bool.and_eq_true, beq_iff_eq]
  split <;> rfl

theorem all_set_iff (bits : List Bool) : bits.all id = true ↔ false ∉ bits := by
  simp only [List.all_eq_true, id_eq]
  exact ⟨fun h hf => absurd (h false hf) (by decide), fun h b hb => by
    cases b with
    | true => rfl
    | false => exact absurd hb h⟩

/-- The state that a commit starts from: the sector received, its stream closed (R262). -/
theorem closedStream_eq (n : Nat) (d : List Byte) (s : State) :
    (dropStream (receiveSector n d s)).env = s.env ∧ (dropStream (receiveSector n d s)).contention = s.contention ∧
    (dropStream (receiveSector n d s)).blkBuf =
      s.blkBuf.writeRange (s.cfg.flashSector * (n % s.cfg.sectorsPerBlock)) d := by
  rw [receiveSector_eq]
  exact ⟨rfl, rfl, rfl⟩

theorem Slot.closedStream {c : Params} {rom : RomImage} {save : Save} {s : State} (h : Slot c rom save s) (n : Nat)
    (d : List Byte) : Slot c rom save (dropStream (receiveSector n d s)) := by
  obtain ⟨hcfg, ⟨ca, hcart⟩, hstrobes⟩ := h
  rw [receiveSector_eq]
  exact ⟨hcfg, ⟨ca, hcart.body, hcart.ca, hcart.rst, hcart.wrap⟩, hstrobes⟩

/-- Settles O60: the commit erases the block and programs its pages from the block buffer, each page of an erased
block taking its data. -/
theorem sectorCommitOnReference : Obligations.SectorCommitOnReference := by
  intro s n d rom chip href hs hcon hok hdom hcmd hlayout hwf hbuf hd hn hfull
  have he : Engine s.cfg := ⟨hok, Params.domains_facts hdom, hcmd, hlayout⟩
  have hb := sectorBlock_lt hok hn
  obtain ⟨henv, hcalm, hblk⟩ := closedStream_eq n.toNat d s
  obtain ⟨hcommit, hready⟩ := eraseAndProgram_chip he ((href.slot hs).closedStream n.toNat d) hwf hbuf hb
  have hcyc := eraseAndProgram_cycle (sectorBlock s.cfg n.toNat) (dropStream (receiveSector n.toNat d s))
  have hbits : (receiveSector n.toNat d s).fsBitmap.all id = true := by
    rw [all_set_iff, receiveSector_fsBitmap]
    exact hfull
  refine ⟨endOf 1#32 (eraseAndProgram (sectorBlock s.cfg n.toNat) (dropStream (receiveSector n.toNat d s))),
    ((if_neg (not_not.mpr hd)).trans ((if_neg (Nat.not_le.mpr hn)).trans (if_pos hbits))).trans
      (ofCause_next _ (hcyc.contention.trans (hcalm.trans hcon))), ?_, ?_, fun hres x => ?_,
    fun hr hdraw => endOf_none (hready hr.legible hdraw)⟩
  · rw [endOf_env, hcyc.keeps.rom, henv]
  · rw [endOf_blkBuf, hcyc.keeps.blkBuf, hblk]
  · obtain ⟨k', hslot, hbytes⟩ := hcommit (endOf_ok hres)
    rw [endOf_env, endOf_blkBuf, hcyc.keeps.blkBuf, hslot.saveByte, href.saveByte]
    exact hbytes x

end Sys2Proof.Machine

/-! SUPPORT. Command records against instructions (spec/30_encoding.md R101-R112): what an instruction's record
holds, what a decoded record gives, and what a step makes of either. -/

namespace Sys2Proof

/-! ### The fields of a written record (R101, R102) -/

/-- The opcode an instruction is encoded with (R104, R111). -/
def Instr.opcode : Instr → Opcode
  | .busInit => .busInit
  | .setDirection _ => .setDirection
  | .latchAddress _ => .latchAddress
  | .readWord => .readWord
  | .writeWord _ => .writeWord
  | .assertReset _ => .assertReset
  | .readRomBytes _ _ => .readRomBytes
  | .detectRomSize => .detectRomSize
  | .hasSram => .hasSram
  | .readSramBytes _ _ => .readSramBytes
  | .writeSramBytes _ _ _ => .writeSramBytes
  | .eepromSize => .eepromSize
  | .readEepromBlock _ => .readEepromBlock
  | .writeEepromBlock _ _ => .writeEepromBlock
  | .readEepromBytes _ _ => .readEepromBytes
  | .writeAndVerifyEepromBytes _ _ _ => .writeAndVerifyEepromBytes
  | .flashReadStatus => .flashReadStatus
  | .flashWaitReady => .flashWaitReady
  | .hasFlashram => .hasFlashram
  | .readFlashramBytes _ _ => .readFlashramBytes
  | .flashEraseBlock _ => .flashEraseBlock
  | .flashProgramPage _ _ => .flashProgramPage
  | .writeFlashramBytes _ _ _ => .writeFlashramBytes
  | .writeFlashramSector _ _ => .writeFlashramSector
  | .flashCommand _ _ | .flashCommandReset | .flashCommandReadArray | .flashCommandStatusMode
  | .flashCommandEraseSelect _ | .flashCommandEraseMode | .flashCommandProgram | .flashCommandPageSelect _
  | .flashCommandExecute => .flashCommand

/-- An instruction's record is written from its opcode and the fields of a command word. -/
theorem Instr.record_eq_recordOf (i : Instr) :
    ∃ k f w, i.record = recordOf i.opcode k f w i.record.a i.record.l i.record.d := by
  cases i <;> exact ⟨_, _, _, rfl⟩

theorem encode_length (i : Instr) : (encode i).length = 12 + i.record.d.length := Record.toBytes_length i.record

/-- The data of a well-formed instruction has the length its record's check asks for (R106). -/
theorem length_of_wellFormed {c : Params} {i : Instr} (h : i.wellFormed c = true) :
    i.record.d.length = i.opcode.dataLength c i.record.l := by
  cases i with
  | writeSramBytes a l d => exact beq_iff_eq.mp h
  | writeEepromBlock b d => exact beq_iff_eq.mp h
  | writeAndVerifyEepromBytes a l d => exact beq_iff_eq.mp h
  | flashProgramPage p d => exact beq_iff_eq.mp h
  | writeFlashramBytes a l d => exact beq_iff_eq.mp h
  | writeFlashramSector n d => exact beq_iff_eq.mp h
  | _ => rfl

/-! ### FLASH_COMMAND and its kinds (R111) -/

/-- A field `K` that names no kind is left to the raw form. -/
theorem flashCommandOf_raw {k : BitVec 4} (h : 8 ≤ k.toNat) (w : Half) : flashCommandOf k w = .flashCommand k w := by
  have hnone : FlashKind.ofK k = none := List.getElem?_eq_none h
  rw [flashCommandOf, hnone]

/-- The raw form is left only the fields `K` that name no kind. -/
theorem flashCommandOf_wellFormed (c : Params) (k : BitVec 4) (w : Half) :
    (flashCommandOf k w).wellFormed c = true := by
  unfold flashCommandOf
  split
  · next hnone => exact decide_eq_true (List.getElem?_eq_none_iff.mp hnone)
  all_goals rfl

theorem flashCommandOf_opcode (k : BitVec 4) (w : Half) : (flashCommandOf k w).opcode = .flashCommand := by
  unfold flashCommandOf
  split <;> rfl

theorem build_flashCommand (k : BitVec 4) (w : Half) :
    Opcode.flashCommand.build (recordOf .flashCommand (k := k) (w := w)) = flashCommandOf k w :=
  congrArg₂ flashCommandOf (commandWord_k _ _ _ _) (commandWord_w _ _ _ _)

/-! ### Encoding, then decoding -/

/-- The operands of a well-formed instruction are read back from its record (R105, R111). -/
theorem build_record_of_wellFormed {c : Params} {i : Instr} (h : i.wellFormed c = true) :
    i.opcode.build i.record = i := by
  cases i with
  | setDirection out => exact congrArg Instr.setDirection (commandWord_f _ _ _ _)
  | writeWord data => exact congrArg Instr.writeWord (commandWord_w _ _ _ _)
  | assertReset active => exact congrArg Instr.assertReset (commandWord_f _ _ _ _)
  | flashCommand k p => exact (build_flashCommand k p).trans (flashCommandOf_raw (of_decide_eq_true h) p)
  | flashCommandReset => exact build_flashCommand 0#4 0#16
  | flashCommandReadArray => exact build_flashCommand 1#4 0#16
  | flashCommandStatusMode => exact build_flashCommand 2#4 0#16
  | flashCommandEraseSelect p => exact build_flashCommand 3#4 p
  | flashCommandEraseMode => exact build_flashCommand 4#4 0#16
  | flashCommandProgram => exact build_flashCommand 5#4 0#16
  | flashCommandPageSelect p => exact build_flashCommand 6#4 p
  | flashCommandExecute => exact build_flashCommand 7#4 0#16
  | _ => rfl

/-- Settles O1: the record passes the checks of R287, and its fields are the operands it was written with. -/
theorem encodingRoundTrip : Obligations.EncodingRoundTrip := by
  intro c i h
  obtain ⟨k, f, w, hrecord⟩ := i.record_eq_recordOf
  have hdecode := decode_recordOf c i.opcode k f w i.record.a i.record.l i.record.d (length_of_wellFormed h)
  rwa [← hrecord, build_record_of_wellFormed h] at hdecode

/-- Bytes that are a well-formed instruction's record decode to it. -/
theorem decode_of_encode_eq {c : Params} {i : Instr} {bytes : List Byte} (h : encode i = bytes)
    (hi : i.wellFormed c = true) : decode c bytes = .ok i :=
  h ▸ encodingRoundTrip c i hi

/-- Settles O2: each is the record of the instruction named. -/
theorem decodedRecordsAreRight : Obligations.DecodedRecordsAreRight :=
  ⟨decode_of_encode_eq rfl rfl, decode_of_encode_eq rfl rfl, decode_of_encode_eq rfl rfl,
    decode_of_encode_eq rfl rfl, decode_of_encode_eq rfl rfl, decode_of_encode_eq rfl rfl,
    decode_of_encode_eq rfl rfl, decode_of_encode_eq rfl rfl⟩

/-! ### Decoding, then encoding -/

/-- A record has 12 header bytes before its data (R101, R112). -/
theorem Record.length_of_ofBytes {bytes : List Byte} {r : Record} (h : Record.ofBytes bytes = some r) :
    bytes.length = 12 + r.d.length := by
  unfold Record.ofBytes at h
  split at h
  · cases h
    simp only [List.length_cons]
    omega
  · cases h

/-- What the decoder accepts: a record with an assigned opcode that passes checks 2 and 3 of R287. -/
theorem decode_eq_ok_iff {c : Params} {bytes : List Byte} {i : Instr} :
    decode c bytes = .ok i ↔ ∃ r op, Record.ofBytes bytes = some r ∧ Opcode.ofByte r.op = some op ∧
      r.reserved = 0#3 ∧ r.d.length = op.dataLength c r.l ∧ op.build r = i := by
  unfold decode decodeRecord
  cases Record.ofBytes bytes with
  | none => simp
  | some r =>
    cases hop : Opcode.ofByte r.op with
    | none => simp [hop]
    | some op =>
      by_cases hres : r.reserved = 0#3 <;> by_cases hlen : r.d.length = op.dataLength c r.l <;>
        simp [hop, hres, hlen]

theorem opcode_build (op : Opcode) (r : Record) : (op.build r).opcode = op := by
  cases op with
  | flashCommand => exact flashCommandOf_opcode r.k r.w
  | _ => rfl

theorem wellFormed_build {c : Params} {op : Opcode} {r : Record} (h : r.d.length = op.dataLength c r.l) :
    (op.build r).wellFormed c = true := by
  cases op with
  | flashCommand => exact flashCommandOf_wellFormed c r.k r.w
  | writeSramBytes => exact beq_iff_eq.mpr h
  | writeEepromBlock => exact beq_iff_eq.mpr h
  | writeAndVerifyEepromBytes => exact beq_iff_eq.mpr h
  | flashProgramPage => exact beq_iff_eq.mpr h
  | writeFlashramBytes => exact beq_iff_eq.mpr h
  | writeFlashramSector => exact beq_iff_eq.mpr h
  | _ => rfl

/-- An opcode whose data length is the operand `L` keeps that operand (R105, R106). -/
theorem dataLength_build (c : Params) (op : Opcode) (r : Record) :
    op.dataLength c (op.build r).record.l = op.dataLength c r.l := by
  cases op <;> rfl

/-- Settles O3: check 3 of R287 is the length that well-formedness asks for. -/
theorem decodedIsWellFormed : Obligations.DecodedIsWellFormed := by
  intro c bytes i hdecode
  obtain ⟨r, op, hbytes, -, -, hlen, rfl⟩ := decode_eq_ok_iff.mp hdecode
  have hwf : (op.build r).wellFormed c = true := wellFormed_build hlen
  refine ⟨hwf, ?_⟩
  calc (encode (op.build r)).length
      = 12 + (op.build r).record.d.length := encode_length _
    _ = 12 + op.dataLength c (op.build r).record.l := by rw [length_of_wellFormed hwf, opcode_build]
    _ = 12 + r.d.length := by rw [dataLength_build, hlen]
    _ = bytes.length := (Record.length_of_ofBytes hbytes).symm

/-! ### Unassigned opcodes (R110) -/

/-- An opcode is found at its own code only. -/
theorem Opcode.code_of_ofByte {b : Byte} {op : Opcode} (h : Opcode.ofByte b = some op) : op.code = b := by
  have hfound := List.find?_some h
  exact beq_iff_eq.mp hfound

/-- The `OP` values that R110 lists. -/
def UnassignedOp (n : Nat) : Prop :=
  n = 0x00 ∨ (0x07 ≤ n ∧ n ≤ 0x0F) ∨ (0x12 ≤ n ∧ n ≤ 0x1F) ∨ (0x23 ≤ n ∧ n ≤ 0x2F) ∨ (0x35 ≤ n ∧ n ≤ 0x3F) ∨
    0x49 ≤ n

/-- No opcode of R104 has such a code. -/
theorem Opcode.code_assigned (op : Opcode) : ¬ UnassignedOp op.code.toNat := by
  unfold UnassignedOp
  cases op <;> decide

theorem Opcode.ofByte_unassigned {b : Byte} (h : UnassignedOp b.toNat) : Opcode.ofByte b = none := by
  cases hop : Opcode.ofByte b with
  | none => rfl
  | some op =>
    rw [← Opcode.code_of_ofByte hop] at h
    exact absurd h op.code_assigned

/-- Check 1 of R287 comes first: nothing else of the record is looked at. -/
theorem decode_illegalOp {bytes : List Byte} {r : Record} (c : Params) (hbytes : Record.ofBytes bytes = some r)
    (hop : Opcode.ofByte r.op = none) : decode c bytes = .error .illegalOp := by
  simp [decode, decodeRecord, hbytes, hop]

end Sys2Proof

namespace Sys2Proof.Machine

/-! ### What a step makes of a record -/

section Records
variable {s : State} {bytes : List Byte} {rest : List HostMove}

/-- An idle block runs what it decodes; as the first record, `BUS_INIT` only (R100, R339). -/
theorem fetchRecord_run {i : Instr} (hidle : s.opState = .idle) (hdecode : decode s.cfg bytes = .ok i)
    (hl : s.launched = true ∨ i = .busInit) : fetchRecord bytes rest s = .run i (acceptRecord rest s) := by
  simp [fetchRecord, hidle, hdecode, hl]

/-- In a launched run a failed check of R287 finishes the record with its cause. -/
theorem fetchRecord_rejected {e : Reject} {cause : Cause} (hidle : s.opState = .idle)
    (hdecode : decode s.cfg bytes = .error e) (hcause : rejectCause e = some cause) (hl : s.launched = true) :
    fetchRecord bytes rest s = .rejected cause (acceptRecord rest s) := by
  simp [fetchRecord, hidle, hdecode, hcause, hl]

/-- The step at a record is what the sequencer makes of that record. -/
theorem step_issue (hc : s.contention = false) (hok : s.cfg.ok = true) (h : s.inputs = .issue bytes :: rest) :
    step s = (fetchRecord bytes rest s).outcome s := by
  rw [step_eq_outcome hc hok, fetch, h]

end Records

/-- Settles O4: check 1 of R287 fails, and raises `ILLEGAL_OP` in the state that has accepted the record. -/
theorem unassignedOpcodeIsIllegal : Obligations.UnassignedOpcodeIsIllegal := by
  intro s bytes rest r hc hok hidle hl hmove hbytes hop
  have hdecode := decode_illegalOp s.cfg hbytes (Opcode.ofByte_unassigned hop)
  refine ⟨endState .illegalOp 0#32 [] (acceptRecord rest s), ?_, rfl⟩
  rw [step_issue hc hok hmove, fetchRecord_rejected hidle hdecode rfl hl]
  exact raise_next (s := acceptRecord rest s) hc .illegalOp

/-- Settles O5: the record passes the decode checks, so the sequencer accepts it. -/
theorem stepRunsDecodedInstruction : Obligations.StepRunsDecodedInstruction := by
  intro s bytes rest i hc hok hidle hmove hdecode hl
  rw [step_issue hc hok hmove, fetchRecord_run hidle hdecode hl]
  rfl

end Sys2Proof.Machine

/-! SUPPORT. What a bus cycle makes of the counter and of the cartridge's contents, whatever the environment
(spec/20_memory.md R64-R66, R85, R95), and the family `40_bus_primitives.md` settled from it. -/

namespace Sys2Proof.Machine

/-! ### Contents of the cartridge, whatever the strobes were -/

theorem sameContents.refl (s : State) : sameContents s s := ⟨rfl, fun _ => rfl⟩

theorem sameContents.trans {s t u : State} (h : sameContents s t) (k : sameContents t u) : sameContents s u :=
  ⟨k.1.trans h.1, fun a => (k.2 a).trans (h.2 a)⟩

theorem sameContents.endState {s t : State} (h : sameContents s t) (st : Status) (v : Word) (d : List Byte) :
    sameContents s (endState st v d t) := h

/-- Only the rising edge of `WR` stores (R85). -/
theorem ctrl_sameContents {line : Line} (h : line ≠ .wr) (level : Level) (s : State) :
    sameContents s (ctrl line level s) :=
  ⟨Env.onCtrl_rom .., Env.onCtrl_saveByte _ _ _ _ _ _ _ _ (fun e => h e.1) _⟩

/-- Raising `WR` stores nothing where no write pulse is under way (R65, R85). -/
theorem ctrlWrHigh_sameContents {s : State} (h : noPulse .wr s) : sameContents s (ctrl .wr 1#1 s) := by
  refine ⟨Env.onCtrl_rom .., Env.onCtrl_saveByte _ _ _ _ _ _ _ _ ?_ _⟩
  rintro ⟨-, hlow, -⟩
  rw [State.seenLevel_high h] at hlow
  exact absurd hlow (by decide)

theorem sample_sameContents (s : State) : sameContents s (sample s).2 := by
  refine ⟨Env.afterSample_rom _, fun a => ?_⟩
  rw [sample_env]
  unfold Env.afterSample
  split
  · next hbody => simp [Env.saveByte, hbody]
  · rfl
  · rfl

/-- A read cycle moves `RD` alone, so it stores nothing even with `WR` low (R134). -/
theorem readWord_sameContents (s : State) : sameContents s (readWord s).2 := by
  have hfall : sameContents s (delay .tAccess (ctrl .rd 0#1 s)) := ctrl_sameContents (by decide) 0#1 s
  exact (hfall.trans (sample_sameContents _)).trans (ctrl_sameContents (by decide) 1#1 _)

/-! ### Raised strobes without a pulse -/

/-- Raising a line starts no pulse on any line (R65). -/
theorem noPulse.ctrlHigh {line : Line} {s : State} (h : noPulse line s) (l : Line) :
    noPulse line (ctrl l 1#1 s) := by
  by_cases e : l = line
  · right
    simp [Event.levelOf, e]
  · have hlevel : (ctrl l 1#1 s).level line = s.level line := by
      cases line with
      | rst => rfl
      | wr | rd | aleh | alel => exact if_neg e
    unfold noPulse
    rwa [hlevel, ctrl_events, lastLevel_cons, Event.levelOf, if_neg e]

/-- From `s` to `t` a cartridge out of reset has seen nothing, and no pulse is under way in `t`. -/
structure Unseen (s t : State) : Prop where
  env : t.env = s.env
  rst : t.rstAsserted = false
  wr : noPulse .wr t
  rd : noPulse .rd t

/-- Raising a line of a cartridge out of reset, with no pulse under way, does nothing to it (R64, R65). -/
theorem Unseen.ctrlHigh {s t : State} (h : Unseen s t) (line : Line) : Unseen s (ctrl line 1#1 t) := by
  obtain ⟨henv, hrst, hw, hr⟩ := h
  refine ⟨?_, hrst, hw.ctrlHigh line, hr.ctrlHigh line⟩
  have hwr : t.seenLevel .wr 1#1 = 1#1 := State.seenLevel_high hw
  have hrd : t.seenLevel .rd 1#1 = 1#1 := State.seenLevel_high hr
  rw [← henv]
  cases line with
  | wr => simp [Env.onCtrl, hrst, hwr]
  | rd => simp [Env.onCtrl, hrst, hrd]
  | aleh | alel | rst => simp [Env.onCtrl, hrst]

/-! ### The counter after a cycle -/

/-- The falling edge of `ALEH` captures the half that an output bus drives (R64). -/
theorem captureHigh_ca {s : State} (v : Half) (hrst : s.rstAsserted = false) (hale : s.aleh = 1#1)
    (hdir : s.gpioDir = 0xFFFF#16) (hseen : lastLevel .aleh s.events = some 1#1) :
    (ctrl .aleh 0#1 (delay .tSetup (drive v s))).env.ca = v ++ lo16 s.env.ca := by
  rw [alehFall_env (delay .tSetup (drive v s)) hrst hale hdir (by simpa [Event.levelOf] using hseen)]
  rfl

/-- The falling edge of `ALEL` captures the other half (R64). -/
theorem captureLow_ca {s : State} (v : Half) (hrst : s.rstAsserted = false) (hale : s.alel = 1#1)
    (hdir : s.gpioDir = 0xFFFF#16) (hseen : lastLevel .alel s.events = some 1#1) :
    (ctrl .alel 0#1 (delay .tSetup (drive v s))).env.ca = hi16 s.env.ca ++ v := by
  rw [alelFall_env (delay .tSetup (drive v s)) hrst hale hdir (by simpa [Event.levelOf] using hseen)]
  rfl

/-- A latch cycle captures both halves, whatever the strobes were before it (R64, R133). -/
theorem latchAddress_ca (a : Word) {s : State} (hrst : s.rstAsserted = false) : (latchAddress a s).env.ca = a := by
  rw [latchAddress, setDir_env, delay_env, captureLow_ca, delay_env, captureHigh_ca, hi16_append, hi16_append_lo16]
  all_goals simp [Event.levelOf, hrst]

theorem Env.afterSample_ca (e : Env) : e.afterSample.ca = e.ca := by
  unfold Env.afterSample
  split <;> rfl

/-- Lowering `RD` makes no rising edge, so the cartridge does not see it (R65). -/
theorem rdFall_env {s : State} (hrst : s.rstAsserted = false) : (ctrl .rd 0#1 s).env = s.env := by
  simp [Env.onCtrl, hrst]

/-- The rising edge of `RD` ends a read pulse, and the counter advances (R65). -/
theorem rdRise_ca {s : State} (hrst : s.rstAsserted = false) (hrd : s.rd = 0#1)
    (hseen : lastLevel .rd s.events = some 0#1) :
    (ctrl .rd 1#1 s).env.ca = advanceCounter s.cfg.autoincWrap s.env.ca := by
  have e : s.seenLevel .rd 1#1 = 0#1 :=
    (State.seenLevel_set (hseen.trans (congrArg some hrd.symm)) _).trans hrd
  simp [Env.onCtrl, hrst, e]

/-- A read cycle advances the counter once, on any bus (R65, R66, R134). -/
theorem readWord_ca {s : State} (hrst : s.rstAsserted = false) :
    (readWord s).2.env.ca = advanceCounter s.cfg.autoincWrap s.env.ca := by
  rw [readWord, delay_env, rdRise_ca, sample_env, Env.afterSample_ca, delay_env, rdFall_env hrst, sample_cfg,
    delay_cfg, ctrl_cfg]
  all_goals simp [Event.levelOf, hrst]

/-- A write cycle advances the counter once (R65, R66, R135). -/
theorem writeWord_ca (w : Half) {s : State} (hrst : s.rstAsserted = false) :
    (writeWord w s).env.ca = advanceCounter s.cfg.autoincWrap s.env.ca := by
  obtain ⟨ev, henv⟩ := writeWord_env w s hrst
  rw [henv]

/-- One advance and `n` more are `n + 1` (R65). -/
theorem counter_succ (ca : Word) (n : Nat) :
    ca + 2#32 + BitVec.ofNat 32 (2 * n) = ca + BitVec.ofNat 32 (2 * (n + 1)) := by
  rw [Nat.mul_succ, BitVec.add_assoc, Nat.add_comm, BitVec.ofNat_add]

theorem readWords_ca (n : Nat) {s : State} (hrst : s.rstAsserted = false) (hwrap : s.cfg.autoincWrap = none) :
    (readWords n s).2.env.ca = s.env.ca + BitVec.ofNat 32 (2 * n) := by
  induction n generalizing s with
  | zero => simp [readWords]
  | succ n ih =>
    have k := readWord_keeps s
    calc (readWords (n + 1) s).2.env.ca
        = (readWords n (readWord s).2).2.env.ca := rfl
      _ = (readWord s).2.env.ca + BitVec.ofNat 32 (2 * n) := ih (k.rstAsserted.trans hrst) (by rw [k.cfg, hwrap])
      _ = s.env.ca + 2#32 + BitVec.ofNat 32 (2 * n) := by rw [readWord_ca hrst, hwrap]; rfl
      _ = _ := counter_succ _ _

/-- Each two bytes make one write cycle; an odd last byte makes none (R13). -/
theorem writeWords_ca (v : List Byte) {s : State} (hrst : s.rstAsserted = false)
    (hwrap : s.cfg.autoincWrap = none) :
    (writeWords v s).env.ca = s.env.ca + BitVec.ofNat 32 (2 * (wordsOfBytes v).length) := by
  induction v, s using writeWords.induct with
  | case1 b0 b1 bs s ih =>
    have k := writeWord_keeps (be16 b0 b1) s
    calc (writeWords (b0 :: b1 :: bs) s).env.ca
        = (writeWords bs (writeWord (be16 b0 b1) s)).env.ca := rfl
      _ = (writeWord (be16 b0 b1) s).env.ca + BitVec.ofNat 32 (2 * (wordsOfBytes bs).length) :=
          ih (k.rstAsserted.trans hrst) (by rw [k.cfg, hwrap])
      _ = s.env.ca + 2#32 + BitVec.ofNat 32 (2 * (wordsOfBytes bs).length) := by
          rw [writeWord_ca _ hrst, hwrap]; rfl
      _ = _ := counter_succ _ _
  | case2 b s => simp [writeWords, wordsOfBytes]
  | case3 s => simp [writeWords, wordsOfBytes]

theorem wordsOfBytes_length (v : List Byte) : (wordsOfBytes v).length = v.length / 2 := by
  induction v using wordsOfBytes.induct with
  | case1 b0 b1 bs ih =>
    simp only [wordsOfBytes, List.length_cons, ih]
    omega
  | case2 b => simp [wordsOfBytes]
  | case3 => rfl

/-- Settles O16: the latch sets the counter, and a burst is an induction on its cycles. -/
theorem burstMovesCounter : Obligations.BurstMovesCounter := by
  constructor
  · intro s a n hrst hwrap
    have k := latchAddress_keeps a s
    rw [readWords_ca n (k.rstAsserted.trans hrst) (by rw [k.cfg, hwrap]), latchAddress_ca a hrst]
  · intro s a n v hrst hwrap hlen
    have k := latchAddress_keeps a s
    have hwords : (wordsOfBytes v).length = n := by
      rw [wordsOfBytes_length, hlen, Nat.mul_div_cancel_left n (by decide)]
    rw [writeWords_ca v (k.rstAsserted.trans hrst) (by rw [k.cfg, hwrap]), latchAddress_ca a hrst, hwords]

/-! ### The issued operations -/

/-- Settles O11: a latch cycle settles the bus, whatever the pins were. -/
theorem latchAddressRuns : Obligations.LatchAddressRuns := by
  intro s a hcon
  have c := latchAddress_cycle a s
  have hcon' := c.contention.trans hcon
  obtain ⟨-, -, -, -, -, hout⟩ := latchAddress_released a s
  exact ⟨_, finish_next hcon' .ok 0#32 [], endState_finished _ _ _ _, latchAddress_trace a s, c.settled, hout,
    c.keeps.sameBlock c.joy hcon' _ _ _, latchAddress_ca a,
    fun hwr => (latchAddress_reads a s hwr).2.endState _ _ _⟩

/-- A read cycle leaves `RD` high and moves no other pin (R134). -/
theorem readWord_pins_unchanged (s : State) :
    (readWord s).2.rd = 1#1 ∧ (readWord s).2.gpioDir = s.gpioDir ∧ (readWord s).2.gpioOut = s.gpioOut ∧
    (readWord s).2.gpioPull = s.gpioPull ∧ (readWord s).2.wr = s.wr ∧ (readWord s).2.aleh = s.aleh ∧
    (readWord s).2.alel = s.alel ∧ (readWord s).2.joy = s.joy := by
  simp [readWord]

/-- On an input bus a read cycle notes no contention (R29, R134). -/
theorem readWord_input_contention {s : State} (hdir : s.gpioDir = 0x0000#16) :
    (readWord s).2.contention = s.contention := by
  simp [readWord, hdir]

/-- Settles O12: the entry check decides, and a read cycle on an input bus notes no contention. -/
theorem readWordRuns : Obligations.ReadWordRuns := by
  constructor
  · intro s hcon hdir
    obtain ⟨hrd, hdir', hout, hpull, hwr, haleh, halel, hjoy⟩ := readWord_pins_unchanged s
    have hc := (readWord_input_contention hdir).trans hcon
    have hexec : exec .readWord s = finish .ok ((readWord s).1.zeroExtend 32) [] (readWord s).2 :=
      if_neg (not_not.mpr hdir)
    exact ⟨_, (readWord s).1, hexec.trans (finish_next hc _ _ _), endState_finished _ _ _ _, readWord_trace s,
      hrd, hdir', hout, hpull, hwr, haleh, halel, (readWord_keeps s).sameBlock hjoy hc _ _ _,
      (readWord_sameContents s).endState _ _ _, readWord_ca⟩
  · intro s hcon hdir
    have hexec : exec .readWord s = raise (.misuse .busState) s := if_pos hdir
    exact ⟨_, hexec.trans (raise_next hcon _), rfl⟩

/-- Settles O13: a write cycle releases the bus, and with `RD` high at entry notes no contention. -/
theorem writeWordRuns : Obligations.WriteWordRuns := by
  intro s w hcon hrd
  obtain ⟨hrel, hc, haleh, halel, hjoy, hout⟩ := writeWord_pins w s hrd
  exact ⟨_, finish_next (hc.trans hcon) .ok 0#32 [], endState_finished _ _ _ _, writeWord_trace w s, hrel, hout,
    haleh, halel, (writeWord_keeps w s).sameBlock hjoy (hc.trans hcon) _ _ _, writeWord_ca w⟩

/-- An output bus that is driven low reads low (R29, R132). -/
theorem setDir_output_adLevel (s : State) : (setDir true s).adLevel = 0x0000#16 := driven_level _ _

/-- Settles O10: one event and the direction's own pins; with `RD` high an output bus notes no contention. -/
theorem setDirectionRuns : Obligations.SetDirectionRuns := by
  intro s out hcon hrd
  have hc : (setDir out s).contention = false := by
    cases out with
    | false => simp [hcon]
    | true =>
      obtain ⟨-, -, hc⟩ := setDir_output_pins (hrd rfl)
      exact hc.trans hcon
  have htrace : (setDir out s).trace = s.trace ++ [.dir out] := trace_of_events rfl
  have hlow : out = true → (setDir out s).adLevel = 0x0000#16 := by
    rintro rfl
    exact setDir_output_adLevel s
  exact ⟨_, finish_next hc .ok 0#32 [], endState_finished _ _ _ _, htrace, rfl, rfl, rfl, hlow,
    rfl, rfl, rfl, rfl, (setDir_keeps out s).sameBlock rfl hc _ _ _, rfl⟩

/-! ### BUS_INIT (R131) -/

theorem busInitBody_trace (s : State) :
    (busInitBody s).trace = s.trace ++
      ([.ctrl .wr 1#1, .ctrl .rd 1#1, .ctrl .aleh 1#1, .ctrl .alel 1#1, .dir false] : List Event) := by
  simp [State.trace, busInitBody]

theorem busInitBody_gpioOut (s : State) : (busInitBody s).gpioOut = s.gpioOut := by simp [busInitBody]

/-- Of its four strobes only `WR` could store (R85, R131). -/
theorem busInitBody_sameContents {s : State} (h : noPulse .wr s) : sameContents s (busInitBody s) :=
  (((ctrlWrHigh_sameContents h).trans (ctrl_sameContents (line := .rd) (by decide) 1#1 _)).trans
    (ctrl_sameContents (line := .aleh) (by decide) 1#1 _)).trans
    (ctrl_sameContents (line := .alel) (by decide) 1#1 _)

/-- With no pulse under way `BUS_INIT` sends a cartridge out of reset nothing (R131). -/
theorem busInitBody_env {s : State} (hw : noPulse .wr s) (hr : noPulse .rd s) (hrst : s.rstAsserted = false) :
    (busInitBody s).env = s.env := by
  have h : Unseen s s := ⟨rfl, hrst, hw, hr⟩
  exact ((((h.ctrlHigh .wr).ctrlHigh .rd).ctrlHigh .aleh).ctrlHigh .alel).env

/-- Settles O9: the body sets every pin, and each strobe it raises ends no pulse that is not under way. -/
theorem busInitRuns : Obligations.BusInitRuns := by
  intro s hcon
  obtain ⟨hrel, hjoy, haleh, halel, hc⟩ := busInitBody_pins s
  have k := busInitBody_keeps s
  exact ⟨_, (execBusInit_eq s).trans (finish_next (hc.trans hcon) _ _ _), endState_finished _ _ _ _,
    busInitBody_trace s, hrel, haleh, halel, hjoy, busInitBody_gpioOut s, k.rstAsserted, k.eepSize,
    ⟨k.cfg, k.inputs, k.launched, hc.trans hcon⟩,
    ⟨k.fsActive, k.fsBlock, k.fsBitmap, fun a => by rw [endState_blkBuf, k.blkBuf]⟩,
    fun hw => (busInitBody_sameContents hw).endState _ _ _, busInitBody_env⟩

/-! ### ASSERT_RESET (R136) -/

/-- The pins and the environment after `ASSERT_RESET` (R136), before its result is written. -/
def assertResetBody (active : Bool) (s : State) : State :=
  delay (if active then .tRstAssert else .tRstRelease) (ctrl .rst (resetPin s.cfg active) (setReset active s))

theorem execAssertReset_eq (active : Bool) (s : State) :
    execAssertReset active s = finish .ok 0#32 [] (assertResetBody active s) := rfl

theorem assertResetBody_trace (active : Bool) (s : State) :
    (assertResetBody active s).trace = s.trace ++
      ([.ctrl .rst (resetPin s.cfg active), .delay (if active then .tRstAssert else .tRstRelease)] :
        List Event) := by
  simp [State.trace, assertResetBody]

/-- The reset line is no strobe: no other pin moves (R136). -/
theorem assertResetBody_pins (active : Bool) (s : State) :
    (assertResetBody active s).rstAsserted = active ∧ sameBus s (assertResetBody active s) ∧
    (assertResetBody active s).joy = s.joy := by
  simp [assertResetBody, sameBus]

theorem assertResetBody_sameRun (active : Bool) {s : State} (hcon : s.contention = false) :
    sameRun s (assertResetBody active s) := by
  simp [assertResetBody, sameRun, hcon, line_beq]

theorem assertResetBody_registers (active : Bool) (s : State) :
    (assertResetBody active s).eepSize = s.eepSize ∧ sameStream s (assertResetBody active s) := by
  simp [assertResetBody, sameStream]

/-- The cartridge is held in reset up to the line's event where it was, and at it where it now is (R95, R136). -/
theorem assertResetBody_env (active : Bool) (s : State) :
    (assertResetBody active s).env =
      if active then (setReset active s).env.heldInReset s.events else (setReset active s).env := by
  cases active with
  | true => simp [assertResetBody, Env.onCtrl]
  | false => simp [assertResetBody, Env.onCtrl]

theorem setReset_sameContents (active : Bool) (s : State) : sameContents s (setReset active s) := by
  unfold sameContents
  rw [setReset_env]
  split
  · exact ⟨Env.heldInReset_rom _ _, Env.heldInReset_saveByte _ _⟩
  · exact sameContents.refl s

theorem assertResetBody_sameContents (active : Bool) (s : State) : sameContents s (assertResetBody active s) :=
  (setReset_sameContents active s).trans (ctrl_sameContents (line := .rst) (by decide) (resetPin s.cfg active) _)

/-- A FlashRAM chip held in reset is in array mode (R95). -/
theorem Env.heldInReset_mode (ev : List Event) (e : Env) {k : Cart} {chip : FlashChip}
    (hk : (e.heldInReset ev).body = .cartridge k) (hsave : k.save = .flash chip) : chip.mode = .array := by
  obtain ⟨ca, seed, body⟩ := e
  cases body with
  | oracle ws rs => exact EnvBody.noConfusion hk
  | cartridge k0 =>
    obtain ⟨rom, save⟩ := k0
    injection hk with hk
    subst hk
    cases save with
    | flash c0 =>
      injection hsave with hsave
      rw [← hsave]
    | none | sram _ | eep4k _ | eep16k _ => exact Save.noConfusion hsave

/-- A cartridge that the line holds or has held in reset was in it last (R95). -/
theorem assertResetBody_heldInReset {active : Bool} {s : State} (h : active = true ∨ s.rstAsserted = true) :
    ∃ e ev, (assertResetBody active s).env = Env.heldInReset ev e := by
  rw [assertResetBody_env]
  cases active with
  | true => exact ⟨_, _, rfl⟩
  | false =>
    have hrst : s.rstAsserted = true := h.resolve_left (by decide)
    exact ⟨s.env, s.events, by simp [hrst]⟩

/-- Settles O15: only the reset line moves, and the cartridge is in its reset state where the line is or was
asserted. -/
theorem assertResetRuns : Obligations.AssertResetRuns := by
  intro s active hcon
  obtain ⟨hrst, hbus, hjoy⟩ := assertResetBody_pins active s
  obtain ⟨heep, hstream⟩ := assertResetBody_registers active s
  have hrun := assertResetBody_sameRun active hcon
  have ⟨_, _, _, hc⟩ := hrun
  refine ⟨_, (execAssertReset_eq active s).trans (finish_next hc _ _ _), endState_finished _ _ _ _,
    assertResetBody_trace active s, hrst, hbus, hjoy, heep, hrun, hstream,
    (assertResetBody_sameContents active s).endState _ _ _, ?_, ?_⟩
  · intro h k chip hbody hsave
    obtain ⟨e, ev, henv⟩ := assertResetBody_heldInReset h
    rw [endState_env, henv] at hbody
    exact Env.heldInReset_mode ev e hbody hsave
  · rintro rfl hreleased
    rw [endState_env, assertResetBody_env]
    simp [hreleased]

/-! ### Numbers of events (R138) -/

/-- An operation's end appends no event (R280). -/
theorem finish_events {st : Status} {v : Word} {d : List Byte} {s t : State} (h : finish st v d s = .next t) :
    t.events = s.events := by
  have hend : Ends (finish st v d s) (· = s) := .finish _ _ _ rfl
  obtain ⟨st', v', d', u, rfl, rfl⟩ := hend.next h
  rfl

/-- The trace lists the events the other way round (R40). -/
theorem events_length_of_trace {s t : State} {es : List Event} (h : t.trace = s.trace ++ es) :
    t.events.length = s.events.length + es.length := by
  simpa [State.trace] using congrArg List.length h

theorem flatMap_readTrace_length (ws : List Half) : (ws.flatMap readTrace).length = 5 * ws.length := by
  simp [List.length_flatMap, readTrace, Nat.mul_comm]

theorem flatMap_writeTrace_length (ws : List Half) : (ws.flatMap writeTrace).length = 6 * ws.length := by
  simp [List.length_flatMap, writeTrace, Nat.mul_comm]

theorem burstRead_length (addr : Nat) (ws : List Half) : (burstRead addr ws).length = 14 + 5 * ws.length := by
  rw [burstRead, List.length_append, flatMap_readTrace_length]
  rfl

theorem burstWrite_length (addr : Nat) (ws : List Half) : (burstWrite addr ws).length = 14 + 6 * ws.length := by
  rw [burstWrite, List.length_append, flatMap_writeTrace_length]
  rfl

/-- Settles O17: each count is the length of the trace that the operation appends. -/
theorem busEventCounts : Obligations.BusEventCounts := by
  refine ⟨fun _ _ => rfl, fun _ => rfl, fun _ _ => rfl, fun active s t h => ?_, fun s t h => ?_,
    fun out s t h => ?_, fun a n s => ?_, fun a v s => ?_⟩
  · rw [finish_events ((execAssertReset_eq active s).symm.trans h)]
    exact events_length_of_trace (assertResetBody_trace active s)
  · rw [finish_events ((execBusInit_eq s).symm.trans h)]
    exact events_length_of_trace (busInitBody_trace s)
  · have hevents : t.events = (setDir out s).events := finish_events h
    rw [hevents, setDir_events, List.length_cons]
  · obtain ⟨ws, hlen, -, htrace⟩ := memRead_spec a n s
    rw [events_length_of_trace htrace, burstRead_length, hlen]
  · rw [events_length_of_trace (memWrite_trace a v s), burstWrite_length, wordsOfBytes_length]

end Sys2Proof.Machine

/-! SUPPORT. The ROM reader (spec/41_rom_reader.md R150-R154): the checks of `READ_ROM_BYTES` as one equation, what
the probe loop of `DETECT_ROM_SIZE` emits, keeps and finds, and the family settled from it. -/

namespace Sys2Proof.Machine

/-! ### Reads that may make no bus cycle -/

/-- What an operation keeps that makes bus cycles or none: the block's state, the serial line, and no contention
noted. -/
structure Undisturbed (s t : State) : Prop where
  keeps : Keeps s t
  joy : t.joy = s.joy
  contention : t.contention = s.contention

theorem Undisturbed.refl (s : State) : Undisturbed s s := ⟨Keeps.refl s, rfl, rfl⟩

theorem Undisturbed.trans {s t u : State} (h : Undisturbed s t) (k : Undisturbed t u) : Undisturbed s u :=
  ⟨h.keeps.trans k.keeps, k.joy.trans h.joy, k.contention.trans h.contention⟩

theorem Cycle.undisturbed {s t : State} (h : Cycle s t) : Undisturbed s t := ⟨h.keeps, h.joy, h.contention⟩

theorem romRead_zero (a : Nat) (s : State) : romRead a 0 s = ([], s) := if_pos rfl

theorem romRead_undisturbed (a l : Nat) (s : State) : Undisturbed s (romRead a l s).2 := by
  by_cases hl : l = 0
  · rw [hl, romRead_zero]
    exact .refl s
  · exact (romRead_cycle a l hl s).undisturbed

theorem romRead_settles (a l : Nat) (s : State) : Settles s (romRead a l s).2 := by
  by_cases hl : l = 0
  · rw [hl, romRead_zero]
    exact .refl s
  · exact fun _ => romRead_cycle a l hl s

theorem romRead_gpioOut (a : Nat) {l : Nat} (hl : l ≠ 0) (s : State) :
    (romRead a l s).2.gpioOut = lo16 (BitVec.ofNat 32 (s.cfg.romBase + a)) := by
  rw [romRead, if_neg hl]
  exact memRead_gpioOut _ l s

/-! ### Events that leave `WR` high (R154) -/

/-- The operation has appended events, none of which lowers `WR`. -/
def AppendsNoWrite (s t : State) : Prop := ∃ es, t.trace = s.trace ++ es ∧ .ctrl .wr 0#1 ∉ es

theorem AppendsNoWrite.refl (s : State) : AppendsNoWrite s s := ⟨[], (List.append_nil _).symm, List.not_mem_nil⟩

theorem AppendsNoWrite.trans {s t u : State} (h : AppendsNoWrite s t) (k : AppendsNoWrite t u) :
    AppendsNoWrite s u := by
  obtain ⟨es, hes, hno⟩ := h
  obtain ⟨fs, hfs, hno'⟩ := k
  exact ⟨es ++ fs, by rw [hfs, hes, List.append_assoc], by simp [hno, hno']⟩

theorem burstRead_noWrite (addr : Nat) (ws : List Half) : .ctrl .wr 0#1 ∉ burstRead addr ws := by
  simp [burstRead, latchTrace, readTrace]

theorem romRead_noWrite (a l : Nat) (s : State) : AppendsNoWrite s (romRead a l s).2 := by
  by_cases hl : l = 0
  · rw [hl, romRead_zero]
    exact .refl s
  · obtain ⟨ws, -, -, htrace⟩ := memRead_spec (s.cfg.romBase + a) l s
    rw [romRead, if_neg hl]
    exact ⟨_, htrace, burstRead_noWrite _ ws⟩

/-! ### READ_ROM_BYTES (R150) -/

/-- The checks of R150 in their order, and the read. -/
theorem exec_readRomBytes (a l : Word) (s : State) :
    exec (.readRomBytes a l) s =
      if l.toNat % 2 ≠ 0 then raise (.misuse .oddLen) s
      else if a.toNat % 2 ≠ 0 then raise (.misuse .oddAddr) s
      else if s.cfg.romSpace < a.toNat + l.toNat ∨ 2 ^ 32 < a.toNat + l.toNat then raise (.misuse .range) s
      else finish .ok 0#32 (romRead a.toNat l.toNat s).1 (romRead a.toNat l.toNat s).2 := by
  show execReadRomBytes a l s = _
  simp only [execReadRomBytes, outOfRange, Bool.or_eq_true, decide_eq_true_eq]

/-- Refused or not, `READ_ROM_BYTES` lowers `WR` in no event (R154, log 28). -/
theorem execReadRomBytes_noWrite (a l : Word) (s : State) : Ends (exec (.readRomBytes a l) s) (AppendsNoWrite s) := by
  rw [exec_readRomBytes]
  exact .ite (.raise _ (.refl s)) (.ite (.raise _ (.refl s)) (.ite (.raise _ (.refl s))
    (.finish _ _ _ (romRead_noWrite _ _ s))))

/-- Settles O18: the checks decide, and an accepted range is one burst. -/
theorem readRomBytesRuns : Obligations.ReadRomBytesRuns := by
  intro s a l hcon
  simp only [exec_readRomBytes]
  split_ifs with hodd hoff hrange hzero
  · exact ⟨_, raise_next hcon _, rfl⟩
  · exact ⟨_, raise_next hcon _, rfl⟩
  · exact ⟨_, raise_next hcon _, rfl⟩
  · rw [hzero, romRead_zero]
    exact ⟨_, finish_next hcon _ _ _, rfl⟩
  · obtain ⟨ws, hlen, hbytes, htrace⟩ := romRead_spec a.toNat l.toNat (not_not.mp hodd) s
    have hcyc := romRead_cycle a.toNat l.toNat hzero s
    have hcon' := hcyc.contention.trans hcon
    have hws : ws ≠ [] := by
      rintro rfl
      simp only [List.length_nil] at hlen
      omega
    rw [romTrace, if_neg hws] at htrace
    exact ⟨_, ws, finish_next hcon' _ _ _, ⟨rfl, by rw [hbytes, endState_result]⟩, hlen, htrace, hcyc.settled,
      romRead_gpioOut _ hzero s, hcyc.keeps.sameBlock hcyc.joy hcon' _ _ _,
      fun hwr => (romRead_reads _ _ s hwr).2.endState _ _ _⟩

/-! ### The probe loop (R152) -/

/-- A relation that every read of a fingerprint's length establishes holds across the loop. -/
theorem probeMirrors_closed {R : State → State → Prop} (hrefl : ∀ s, R s s)
    (htrans : ∀ {s t u}, R s t → R t u → R s u) (hread : ∀ a l s, R s (romRead a l s).2)
    (fp : List Byte) (ks : List Nat) (s : State) : R s (probeMirrors fp ks s).2 := by
  induction ks generalizing s with
  | nil => exact hrefl s
  | cons k ks ih =>
    rw [probeMirrors]
    split
    · exact hread _ _ s
    · exact htrans (hread _ _ s) (ih _)

/-- Such a relation holds across the whole size detection. -/
theorem detectRom_closed {R : State → State → Prop} (hrefl : ∀ s, R s s)
    (htrans : ∀ {s t u}, R s t → R t u → R s u) (hread : ∀ a l s, R s (romRead a l s).2) (s : State) :
    R s (detectRom s).2 :=
  htrans (hread _ _ s) (probeMirrors_closed hrefl htrans hread _ _ _)

theorem detectRom_undisturbed (s : State) : Undisturbed s (detectRom s).2 :=
  detectRom_closed .refl .trans romRead_undisturbed s

theorem detectRom_reads (s : State) : Reads s (detectRom s).2 := detectRom_closed .refl .trans romRead_reads s

theorem detectRom_noWrite (s : State) : AppendsNoWrite s (detectRom s).2 :=
  detectRom_closed .refl .trans romRead_noWrite s

/-- A fingerprint of some bytes makes at least its own bus cycle, which settles the bus. -/
theorem detectRom_settled {s : State} (h : 0 < s.cfg.romFpLen) : settled (detectRom s).2 :=
  ((romRead_cycle 0 s.cfg.romFpLen (by omega) s).then
    (probeMirrors_closed Settles.refl Settles.trans romRead_settles _ _ _)).settled

/-- The events of probes that sampled the given words, at the boundaries from `i` on. -/
def probeTrace (c : Params) (i : Nat) (probes : List (List Half)) : List Event :=
  (probes.zipIdx i).flatMap (fun x => romTrace c (x.2 * c.romProbeStep) x.1)

theorem probeTrace_cons (c : Params) (i : Nat) (p : List Half) (ps : List (List Half)) :
    probeTrace c i (p :: ps) = romTrace c (i * c.romProbeStep) p ++ probeTrace c (i + 1) ps := by
  simp [probeTrace]

/-- The loop over `n` boundaries from `i` on: probes that differ from the fingerprint, then one that is equal and
gives the size, or none and the size is the ROM space (R152). -/
theorem probeMirrors_spec (fp : List Byte) (i n : Nat) {s : State} (hfp : s.cfg.romFpLen % 2 = 0) :
    ∃ misses : List (List Half), (∀ p ∈ misses, p.length = s.cfg.romFpLen / 2 ∧ bytesOfWords p ≠ fp) ∧
      ((∃ hit : List Half, hit.length = s.cfg.romFpLen / 2 ∧ bytesOfWords hit = fp ∧ misses.length < n ∧
          (probeMirrors fp (List.range' i n) s).1 = (i + misses.length) * s.cfg.romProbeStep ∧
          (probeMirrors fp (List.range' i n) s).2.trace = s.trace ++ probeTrace s.cfg i (misses ++ [hit])) ∨
       (misses.length = n ∧ (probeMirrors fp (List.range' i n) s).1 = s.cfg.romSpace ∧
          (probeMirrors fp (List.range' i n) s).2.trace = s.trace ++ probeTrace s.cfg i misses)) := by
  induction n generalizing i s with
  | zero => exact ⟨[], by simp, .inr ⟨rfl, rfl, (List.append_nil _).symm⟩⟩
  | succ n ih =>
    obtain ⟨p, hlen, hbytes, htrace⟩ := romRead_spec (i * s.cfg.romProbeStep) s.cfg.romFpLen hfp s
    have hcfg := (romRead_keeps (i * s.cfg.romProbeStep) s.cfg.romFpLen s).cfg
    rw [List.range'_succ, probeMirrors]
    by_cases heq : bytesOfWords p = fp
    · rw [if_pos (hbytes.trans heq)]
      refine ⟨[], by simp, .inl ⟨p, hlen, heq, Nat.succ_pos n, rfl, ?_⟩⟩
      rw [htrace, List.nil_append, probeTrace_cons]
      simp [probeTrace]
    · rw [if_neg (hbytes ▸ heq)]
      obtain ⟨misses, hmisses, hends⟩ :=
        ih (i + 1) (s := (romRead (i * s.cfg.romProbeStep) s.cfg.romFpLen s).2) (by rw [hcfg]; exact hfp)
      rw [hcfg, htrace] at hends
      rw [hcfg] at hmisses
      refine ⟨p :: misses, by simpa using ⟨⟨hlen, heq⟩, hmisses⟩, ?_⟩
      simp only [List.cons_append, probeTrace_cons, List.length_cons, ← List.append_assoc]
      rcases hends with ⟨hit, hhit, hfound, hlt, hsize, hevents⟩ | ⟨hall, hsize, hevents⟩
      · exact .inl ⟨hit, hhit, hfound, by omega, by rw [hsize]; congr 1; omega, hevents⟩
      · exact .inr ⟨by omega, hsize, hevents⟩

/-- `DETECT_ROM_SIZE` from a bus without contention ends in its size (R152). -/
theorem exec_detectRomSize {s : State} (hcon : s.contention = false) :
    exec .detectRomSize s = .next (endState .ok (reported (detectRom s).1) [] (detectRom s).2) :=
  finish_next ((detectRom_undisturbed s).contention.trans hcon) _ _ _

/-- The fingerprint's words, and the loop's probes over all boundaries below the ROM space (R152). -/
theorem detectRom_spec {s : State} (hfp : s.cfg.romFpLen % 2 = 0) :
    ∃ fp : List Half, ∃ misses : List (List Half), fp.length = s.cfg.romFpLen / 2 ∧
      (∀ p ∈ misses, p.length = s.cfg.romFpLen / 2 ∧ bytesOfWords p ≠ bytesOfWords fp) ∧
      ((∃ hit : List Half, hit.length = s.cfg.romFpLen / 2 ∧ bytesOfWords hit = bytesOfWords fp ∧
          misses.length < s.cfg.romSpace / s.cfg.romProbeStep - 1 ∧
          (detectRom s).1 = (1 + misses.length) * s.cfg.romProbeStep ∧
          (detectRom s).2.trace = s.trace ++ romTrace s.cfg 0 fp ++ probeTrace s.cfg 1 (misses ++ [hit])) ∨
       (misses.length = s.cfg.romSpace / s.cfg.romProbeStep - 1 ∧ (detectRom s).1 = s.cfg.romSpace ∧
          (detectRom s).2.trace = s.trace ++ romTrace s.cfg 0 fp ++ probeTrace s.cfg 1 misses)) := by
  obtain ⟨fp, hlen, hbytes, htrace⟩ := romRead_spec 0 s.cfg.romFpLen hfp s
  have hcfg := (romRead_keeps 0 s.cfg.romFpLen s).cfg
  have hloop := probeMirrors_spec (bytesOfWords fp) 1 (s.cfg.romSpace / s.cfg.romProbeStep - 1)
    (s := (romRead 0 s.cfg.romFpLen s).2) (by rw [hcfg]; exact hfp)
  rw [hcfg, htrace] at hloop
  obtain ⟨misses, hmisses, hends⟩ := hloop
  refine ⟨fp, misses, hlen, hmisses, ?_⟩
  rw [detectRom, hbytes]
  exact hends

/-- Settles O20: the fingerprint's read and the loop's probes, with the frame of ROM reads. -/
theorem detectRomSizeRuns : Obligations.DetectRomSizeRuns := by
  intro s hcon hok
  have hframe := detectRom_undisturbed s
  have hblock := hframe.keeps.sameBlock hframe.joy (hframe.contention.trans hcon) .ok (reported (detectRom s).1) []
  have hcontents : s.wr = 1#1 → sameContents s (detectRom s).2 := fun hwr => (detectRom_reads s hwr).2
  obtain ⟨fp, misses, hfplen, hmisses, hends⟩ := detectRom_spec (Params.ok_relations hok).fp_even
  have hlens : ∀ p ∈ misses, p.length = s.cfg.romFpLen / 2 := fun p hp => (hmisses p hp).1
  have hdiffer : ∀ p ∈ misses, bytesOfWords p ≠ bytesOfWords fp := fun p hp => (hmisses p hp).2
  rcases hends with ⟨hit, hhit, hfound, hlt, hsize, htrace⟩ | ⟨hall, hsize, htrace⟩
  · refine ⟨_, (detectRom s).1, fp, misses ++ [hit], exec_detectRomSize hcon, endState_finished _ _ _ _, hfplen, ?_,
      htrace, by rwa [List.dropLast_concat], .inl ⟨?_, ?_, hit, List.getLast?_concat, hfound⟩,
      detectRom_settled, hblock, hcontents⟩
    · simpa [or_imp, forall_and] using ⟨hlens, hhit⟩
    · rw [List.length_append, List.length_singleton]
      omega
    · rw [hsize, List.length_append, List.length_singleton, Nat.add_comm]
  · exact ⟨_, (detectRom s).1, fp, misses, exec_detectRomSize hcon, endState_finished _ _ _ _, hfplen, hlens, htrace,
      fun p hp => hdiffer p (List.mem_of_mem_dropLast hp), .inr ⟨hall, hsize, hdiffer⟩, detectRom_settled, hblock,
      hcontents⟩

/-! ### On the reference cartridge (R151, R153) -/

/-- The `l` bytes of a ROM from an offset on, mirrored (R68, R83). -/
def romBytes (rom : RomImage) (a l : Nat) : List Byte := (List.range l).map (fun i => romByte rom (a + i))

theorem romBytes_eq_iff {rom : RomImage} {a b l : Nat} :
    romBytes rom a l = romBytes rom b l ↔ ∀ i < l, romByte rom (a + i) = romByte rom (b + i) := by
  simp only [romBytes, List.map_inj_left, List.mem_range]

section
variable {c : Params} {rom : RomImage} {save : Save} {s : State}

/-- A ROM read inside the ROM space gives the ROM's bytes, and its ROM stays in the slot (R151). -/
theorem romRead_slot {a l : Nat} (hok : c.ok = true) (h : Slot c rom save s) (hl : l % 2 = 0)
    (hal : a + l ≤ c.romSpace) :
    (romRead a l s).1 = romBytes rom a l ∧ ∃ save', Slot c rom save' (romRead a l s).2 := by
  obtain ⟨rfl, ⟨ca, hcart⟩, hstrobes⟩ := h
  have htop := (Params.ok_relations hok).rom_top
  have hspan := s.cfg.span_bounds.1
  obtain ⟨hbytes, ⟨rom', save'⟩, ca', hrom, hcart'⟩ := romRead_rom rfl hcart hstrobes a l hl hal (by omega)
  obtain rfl : rom' = some rom := hrom
  have hhigh : strobesHigh (romRead a l s).2 := by
    by_cases h0 : l = 0
    · rwa [h0, romRead_zero]
    · exact settled_strobesHigh (romRead_cycle a l h0 s).settled
  exact ⟨hbytes, save', (romRead_keeps a l s).cfg, ⟨ca', hcart'⟩, hhigh⟩

/-- An even range inside the ROM space answers `OK` with the ROM's bytes, and the ROM can be read again (R151). -/
theorem readRomBytes_slot {a l : Word} (hok : c.ok = true) (h : Slot c rom save s) (hcon : s.contention = false)
    (hl : l.toNat % 2 = 0) (ha : a.toNat % 2 = 0) (hal : a.toNat + l.toNat ≤ c.romSpace) :
    ∃ t save', exec (.readRomBytes a l) s = .next t ∧ finished t .ok 0#32 (romBytes rom a.toNat l.toNat) ∧
      sameContents s t ∧ Slot c rom save' t ∧ t.contention = false := by
  obtain ⟨hbytes, save', hcfg, ⟨ca, hcart⟩, hstrobes⟩ := romRead_slot hok h hl hal
  have htop := (Params.ok_relations hok).rom_top
  have hspan := c.span_bounds.1
  have hcon' := (romRead_undisturbed a.toNat l.toNat s).contention.trans hcon
  have hin : ¬ (s.cfg.romSpace < a.toNat + l.toNat ∨ 2 ^ 32 < a.toNat + l.toNat) := by
    rw [h.cfg]
    omega
  rw [exec_readRomBytes, if_neg (not_not.mpr hl), if_neg (not_not.mpr ha), if_neg hin, hbytes]
  exact ⟨_, save', finish_next hcon' _ _ _, endState_finished _ _ _ _,
    (romRead_reads _ _ s h.strobes.1).2.endState _ _ _,
    ⟨hcfg, ⟨ca, hcart.body, hcart.ca, hcart.rst, hcart.wrap⟩, hstrobes⟩, hcon'⟩

/-- Whether the ROM carries a copy of its first bytes at boundary `k` (R152). -/
def mirrorsAt (c : Params) (rom : RomImage) (k : Nat) : Bool :=
  romBytes rom (k * c.romProbeStep) c.romFpLen == romBytes rom 0 c.romFpLen

theorem mirrorsAt_iff {k : Nat} :
    mirrorsAt c rom k = true ↔ ∀ i < c.romFpLen, romByte rom (k * c.romProbeStep + i) = romByte rom i := by
  rw [mirrorsAt, beq_iff_eq, romBytes_eq_iff]
  simp only [Nat.zero_add]

theorem not_mirrorsAt {k : Nat}
    (h : ∃ i, i < c.romFpLen ∧ romByte rom (k * c.romProbeStep + i) ≠ romByte rom i) :
    mirrorsAt c rom k = false := by
  obtain ⟨i, hi, hne⟩ := h
  exact Bool.eq_false_iff.mpr fun hk => hne (mirrorsAt_iff.mp hk i hi)

/-- The loop finds the first boundary probed with a copy, or the ROM space where there is none (R152). -/
theorem probeMirrors_slot (hok : c.ok = true) (h : Slot c rom save s) {ks : List Nat}
    (hks : ∀ k ∈ ks, k * c.romProbeStep + c.romFpLen ≤ c.romSpace) :
    (probeMirrors (romBytes rom 0 c.romFpLen) ks s).1 =
      ((ks.find? (mirrorsAt c rom)).map (· * c.romProbeStep)).getD c.romSpace := by
  induction ks generalizing s save with
  | nil => exact congrArg Params.romSpace h.cfg
  | cons k ks ih =>
    obtain ⟨hk, hks⟩ := List.forall_mem_cons.mp hks
    obtain ⟨hbytes, save', hslot⟩ := romRead_slot hok h (Params.ok_relations hok).fp_even hk
    simp only [probeMirrors, h.cfg, hbytes]
    cases hm : mirrorsAt c rom k with
    | true =>
      rw [if_pos (beq_iff_eq.mp hm), List.find?_cons_of_pos hm]
      rfl
    | false =>
      rw [if_neg (beq_eq_false_iff_ne.mp hm), List.find?_cons_of_neg (by simp [hm])]
      exact ih hslot hks

/-- Each boundary probed is one step or more below the end of the ROM space. -/
theorem mem_probeSteps (hok : c.ok = true) {k : Nat} :
    k ∈ probeSteps c ↔ 1 ≤ k ∧ k * c.romProbeStep + c.romProbeStep ≤ c.romSpace := by
  have hstep := (Params.ok_relations hok).step
  have hle : k + 1 ≤ c.romSpace / c.romProbeStep ↔ (k + 1) * c.romProbeStep ≤ c.romSpace :=
    Nat.le_div_iff_mul_le hstep
  rw [Nat.add_one_mul] at hle
  rw [← hle, probeSteps, List.mem_range'_1]
  omega

/-- A boundary below the end of the ROM space leaves a whole step to it, since the space is a whole number of
steps (R9). -/
theorem boundary_step (hok : c.ok = true) {k : Nat} (hk : k * c.romProbeStep < c.romSpace) :
    k * c.romProbeStep + c.romProbeStep ≤ c.romSpace := by
  obtain ⟨n, hn⟩ := Nat.dvd_of_mod_eq_zero (Params.ok_relations hok).space_step
  rw [hn, Nat.mul_comm k] at hk
  rw [hn, Nat.mul_comm k, ← Nat.mul_add_one]
  exact Nat.mul_le_mul_left _ (Nat.lt_of_mul_lt_mul_left hk)

/-- `DETECT_ROM_SIZE` on the reference cartridge: the first boundary with a copy, or the ROM space (R152, R153). -/
theorem detectRom_slot (hok : c.ok = true) (h : Slot c rom save s) (hsize : rom.sized c = true)
    (hfp : c.romFpLen ≤ c.romProbeStep) :
    (detectRom s).1 = (((probeSteps c).find? (mirrorsAt c rom)).map (· * c.romProbeStep)).getD c.romSpace := by
  have hpos : 0 < c.romSpace := by
    simp only [RomImage.sized, Bool.and_eq_true, decide_eq_true_eq] at hsize
    omega
  have hfirst := boundary_step hok (k := 0) (by omega)
  obtain ⟨hbytes, save', hslot⟩ := romRead_slot hok h (a := 0) (Params.ok_relations hok).fp_even (by omega)
  simp only [detectRom, h.cfg, hbytes]
  refine probeMirrors_slot hok hslot fun k hk => ?_
  obtain ⟨-, hk⟩ := (mem_probeSteps hok).mp hk
  omega

end

theorem refCart.sized {s : State} {rom : RomImage} {save : Save} {wrap : Option Nat} (h : refCart s wrap rom save) :
    rom.sized s.cfg = true := by
  obtain ⟨⟨hbody, -, hsized⟩, -⟩ := h
  simpa [Env.romSized, Env.rom, hbody] using hsized

/-- Settles O19: the burst's bytes are the ROM's, mirrored. -/
theorem readRomBytesOnReference : Obligations.ReadRomBytesOnReference := by
  intro s a l rom save href hs hcon hok hl ha hal
  obtain ⟨t, -, hexec, hfin, hsame, -⟩ := readRomBytes_slot hok (href.slot hs) hcon hl ha hal
  exact ⟨t, hexec, hfin, hsame⟩

/-- Settles O22: no event of a ROM read lowers `WR`, and what one read leaves, the next reads alike. -/
theorem romReadsAreRepeatable : Obligations.RomReadsAreRepeatable := by
  constructor
  · intro s t i hi hexec
    have hends : Ends (exec i s) (AppendsNoWrite s) := by
      rcases hi with ⟨a, l, rfl⟩ | rfl
      · exact execReadRomBytes_noWrite a l s
      · exact .finish _ _ _ (detectRom_noWrite s)
    obtain ⟨st, v, d, u, hu, rfl⟩ := hends.next hexec
    exact hu
  · intro s a l rom save href hs hcon hok hl ha hal
    obtain ⟨t, save', hexec, ⟨-, hres⟩, hsame, hslot, hcon'⟩ := readRomBytes_slot hok (href.slot hs) hcon hl ha hal
    obtain ⟨u, -, hexec', ⟨-, hres'⟩, hsame', -⟩ := readRomBytes_slot hok hslot hcon' hl ha hal
    exact ⟨t, u, hexec, hexec', hres'.trans hres.symm, hsame.trans hsame'⟩

/-- Settles O21: the first boundary with a copy is the one given, or there is none. -/
theorem detectRomSizeFindsMirror : Obligations.DetectRomSizeFindsMirror := by
  intro s rom save href hs hcon hok hfp
  have hsize := detectRom_slot hok (href.slot hs) href.sized hfp
  have hanswer : ∀ size, (detectRom s).1 = size → ∃ t, exec .detectRomSize s = .next t ∧
      finished t .ok (reported size) [] ∧ sameContents s t := by
    rintro _ rfl
    exact ⟨_, exec_detectRomSize hcon, endState_finished _ _ _ _, (detectRom_reads s hs.1).2.endState _ _ _⟩
  refine ⟨fun k hk hlt hrepeats hearlier => hanswer _ ?_, fun hnone => hanswer _ ?_⟩
  · have hcopy : mirrorsAt s.cfg rom k = true := mirrorsAt_iff.mpr fun i _ => by rw [Nat.add_comm, hrepeats]
    have hmem : k ∈ probeSteps s.cfg := (mem_probeSteps hok).mpr ⟨hk, boundary_step hok hlt⟩
    have hfind : (probeSteps s.cfg).find? (mirrorsAt s.cfg rom) = some k :=
      List.find?_range'_eq_some.mpr ⟨hcopy, hmem, fun j h1 hj => by rw [not_mirrorsAt (hearlier j h1 hj)]; rfl⟩
    rw [hsize, hfind]
    rfl
  · have hfind : (probeSteps s.cfg).find? (mirrorsAt s.cfg rom) = none := by
      refine List.find?_eq_none.mpr fun j hj => ?_
      obtain ⟨h1, hle⟩ := (mem_probeSteps hok).mp hj
      have hstep := (Params.ok_relations hok).step
      simp [not_mirrorsAt (hnone j h1 (by omega))]
    rw [hsize, hfind]
    rfl

end Sys2Proof.Machine

/-! SUPPORT. The SRAM controller (spec/42_sram.md R170-R176): the word cover and its pieces, the presence test, and
the byte ranges, for every environment and on the reference cartridge, and the family settled from them. -/

namespace Sys2Proof.Machine

/-! ### The word cover (R171) -/

theorem coverStart_even (a : Nat) : coverStart a % 2 = 0 := by
  rw [coverStart]
  omega

theorem coverStart_add (a : Nat) : coverStart a + a % 2 = a := Nat.sub_add_cancel (Nat.mod_le a 2)

theorem coverEnd_even (a l : Nat) : coverEnd a l % 2 = 0 := by
  rw [coverEnd]
  omega

/-- The cover has the partial end words' own bytes beside those of the range. -/
theorem coverStart_length (a l : Nat) : coverStart a + (a % 2 + l + (a + l) % 2) = coverEnd a l := by
  have hstart := coverStart_add a
  rw [coverEnd]
  omega

theorem coverStart_lt_coverEnd (a : Nat) {l : Nat} (hl : l ≠ 0) : coverStart a < coverEnd a l := by
  have hlength := coverStart_length a l
  omega

/-- An even size holds the cover of each range that it holds. -/
theorem coverEnd_le {size a l : Nat} (hsize : size % 2 = 0) (h : a + l ≤ size) : coverEnd a l ≤ size := by
  rw [coverEnd]
  omega

theorem coverEnd_sub_even (a l : Nat) : (coverEnd a l - coverStart a) % 2 = 0 := by
  have hstart := coverStart_even a
  have hend := coverEnd_even a l
  omega

/-! ### The pieces (R170) -/

/-- A piece of a range that ends at `e`: not empty, of whole words, and between two neighbouring multiples of the
burst. -/
structure IsPiece (burst e : Nat) (x : Nat × Nat) : Prop where
  lt : x.1 < x.2
  start_even : x.1 % 2 = 0
  end_even : x.2 % 2 = 0
  within : x.1 / burst = (x.2 - 1) / burst
  cut : x.2 % burst = 0 ∨ x.2 = e

/-- The pieces follow one another without gap from an address to `e`. -/
inductive Tiles (burst e : Nat) : Nat → List (Nat × Nat) → Prop
  | nil : Tiles burst e e []
  | cons {p q : Nat} {ps : List (Nat × Nat)} (piece : IsPiece burst e (p, q)) (rest : Tiles burst e q ps) :
      Tiles burst e p ((p, q) :: ps)

section
variable {burst e p : Nat} {ps : List (Nat × Nat)}

theorem Tiles.le (h : Tiles burst e p ps) : p ≤ e := by
  induction h with
  | nil => exact Nat.le_refl e
  | cons piece _ ih => exact piece.lt.le.trans ih

theorem Tiles.isPiece (h : Tiles burst e p ps) : ∀ x ∈ ps, IsPiece burst e x := by
  induction h with
  | nil => exact fun _ hx => absurd hx List.not_mem_nil
  | cons piece _ ih => exact List.forall_mem_cons.mpr ⟨piece, ih⟩

theorem Tiles.range' (h : Tiles burst e p ps) :
    ps.flatMap (fun x => List.range' x.1 (x.2 - x.1)) = List.range' p (e - p) := by
  induction h with
  | nil => simp
  | @cons p q ps piece rest ih =>
    have hlt : p < q := piece.lt
    have hle := rest.le
    have hjoin := List.range'_append_1 (s := p) (m := q - p) (n := e - q)
    have hq : p + (q - p) = q := by omega
    have hn : q - p + (e - q) = e - p := by omega
    rw [hq, hn] at hjoin
    rw [List.flatMap_cons, ih, hjoin]

/-- The first cut after `p` ends a piece (R170). -/
theorem nextCut_isPiece (hburst : 0 < burst) (heven : burst % 2 = 0) (hp : p % 2 = 0) (he : e % 2 = 0)
    (hlt : p < e) : IsPiece burst e (p, nextCut burst p e) := by
  have hstart : p / burst * burst ≤ p := Nat.div_mul_le_self p burst
  have hbelow : p < (p / burst + 1) * burst := by
    rw [Nat.mul_comm]
    exact Nat.lt_mul_div_succ p hburst
  have hmultiple : (p / burst + 1) * burst % 2 = 0 := by rw [Nat.mul_mod, heven, Nat.mul_zero, Nat.zero_mod]
  rw [nextCut, if_neg hburst.ne']
  exact
    { lt := lt_min hlt hbelow
      start_even := hp
      end_even := by dsimp only; omega
      within := (Nat.div_eq_of_lt_le (by dsimp only; omega) (by dsimp only; omega)).symm
      cut := (min_choice e _).symm.imp_left fun h => (congrArg (· % burst) h).trans (Nat.mul_mod_left _ burst) }

/-- Fuel for one byte a piece is enough. -/
theorem burstPiecesFuel_tiles (hburst : 0 < burst) (heven : burst % 2 = 0) (he : e % 2 = 0) (fuel : Nat) :
    ∀ {p : Nat}, p % 2 = 0 → p ≤ e → e ≤ p + fuel → Tiles burst e p (burstPiecesFuel burst e fuel p) := by
  induction fuel with
  | zero =>
    intro p _ hle hfuel
    obtain rfl : p = e := Nat.le_antisymm hle hfuel
    exact .nil
  | succ fuel ih =>
    intro p hp hle hfuel
    rw [burstPiecesFuel]
    split
    · next hlt =>
      have piece := nextCut_isPiece hburst heven hp he hlt
      have hnext : nextCut burst p e ≤ e := by
        rw [nextCut, if_neg hburst.ne']
        exact Nat.min_le_left _ _
      have hlt' : p < nextCut burst p e := piece.lt
      exact .cons piece (ih piece.end_even hnext (by omega))
    · next hge =>
      obtain rfl : p = e := by omega
      exact .nil

theorem burstPieces_tiles {o n : Nat} (hburst : 0 < burst) (heven : burst % 2 = 0) (ho : o % 2 = 0)
    (hn : n % 2 = 0) : Tiles burst (o + n) o (burstPieces burst o n) :=
  burstPiecesFuel_tiles hburst heven (by omega) n ho (Nat.le_add_right o n) (Nat.le_refl _)

/-- A single word is one piece: an even burst does not cut it. -/
theorem Tiles.word {o : Nat} (h : Tiles burst (o + 2) o ps) : ps = [(o, o + 2)] := by
  generalize he : o + 2 = e at h
  cases h with
  | nil => omega
  | @cons _ q ps piece rest =>
    obtain ⟨hlt, hstart, hend, -, -⟩ := piece
    dsimp only at hlt hstart hend
    have hle := rest.le
    obtain rfl : q = e := by omega
    cases rest with
    | nil => rfl
    | cons piece rest =>
      have hlt' := piece.lt
      have hle' := rest.le
      dsimp only at hlt'
      omega

theorem burstPieces_ne_nil (burst o : Nat) {n : Nat} (hn : n ≠ 0) : burstPieces burst o n ≠ [] := by
  obtain ⟨m, rfl⟩ := Nat.exists_eq_succ_of_ne_zero hn
  rw [burstPieces, burstPiecesFuel, if_pos (by omega)]
  exact List.cons_ne_nil _ _

end

/-- Settles O27: the cover by arithmetic, its pieces by the tiling. -/
theorem burstPiecesTileTheCover : Obligations.BurstPiecesTileTheCover := by
  constructor
  · intro size a l hl hsize h
    have hlength := coverStart_length a l
    have hstart := coverStart_add a
    exact ⟨coverStart_even a, coverEnd_even a l, by omega, by omega, coverEnd_le hsize h⟩
  · intro burst o n hburst heven ho hn
    have htiles := burstPieces_tiles hburst heven ho hn
    refine ⟨by rw [htiles.range', Nat.add_sub_cancel_left], fun x hx => ?_⟩
    obtain ⟨hlt, hstart, hend, hwithin, hcut⟩ := htiles.isPiece x hx
    exact ⟨hlt, hstart, hend, hwithin, hcut⟩

/-! ### Words probed (R172) -/

theorem peek_trace (addr : Nat) (s : State) :
    (peek addr s).2.trace = s.trace ++ burstRead addr [(peek addr s).1] := by simp [peek, burstRead]

theorem poke_trace (addr : Nat) (w : Half) (s : State) :
    (poke addr w s).trace = s.trace ++ burstWrite addr [w] := by simp [poke, burstWrite]

theorem peek_reads (addr : Nat) (s : State) : Reads s (peek addr s).2 :=
  (latchAddress_reads _ s).trans (readWord_reads _)

/-- The probe's own four accesses to the word at `p` (R172): its word, the word read back after the sentinel is
written, and the state in which it has been written again. -/
def probeWord (p : Nat) (sentinel : Half) (s : State) : Half × Half × State :=
  let orig := peek p s
  let back := peek p (poke p sentinel orig.2)
  (orig.1, back.1, poke p orig.1 back.2)

theorem probeWord_trace (p : Nat) (sentinel : Half) (s : State) :
    (probeWord p sentinel s).2.2.trace = s.trace ++ burstRead p [(probeWord p sentinel s).1] ++
      burstWrite p [sentinel] ++ burstRead p [(probeWord p sentinel s).2.1] ++
      burstWrite p [(probeWord p sentinel s).1] := by
  simp only [probeWord, poke_trace, peek_trace]

/-- Where the base word is all-ones the probe ends with it (R172). -/
theorem sramProbe_absent {s : State} (h : (peek s.cfg.sramBase s).1 = 0xFFFF#16) :
    sramProbe s = (false, (peek s.cfg.sramBase s).2) := if_pos h

/-- Where it is not, the probe word decides (R172). -/
theorem sramProbe_present {s : State} (h : (peek s.cfg.sramBase s).1 ≠ 0xFFFF#16) :
    sramProbe s =
      let r := probeWord (s.cfg.sramBase + s.cfg.sramProbeOffset) s.cfg.sramSentinel (peek s.cfg.sramBase s).2
      (r.2.1 == s.cfg.sramSentinel, r.2.2) := if_neg h

theorem exec_hasSram {s : State} (hcon : s.contention = false) :
    exec .hasSram s =
      .next (endState .ok (if (sramProbe s).1 then 1#32 else 0#32) [] (sramProbe s).2) :=
  finish_next ((sramProbe_cycle s).contention.trans hcon) _ _ _

/-- Settles O23: the base word decides whether the probe word is tried; the frame is that of the whole probe. -/
theorem hasSramRuns : Obligations.HasSramRuns := by
  intro s hcon
  have hcyc := sramProbe_cycle s
  refine ⟨_, (peek s.cfg.sramBase s).1, exec_hasSram hcon, hcyc.settled,
    hcyc.keeps.sameBlock hcyc.joy (hcyc.contention.trans hcon) _ _ _, hcyc.keeps.rom, ?_⟩
  split
  · next habsent =>
    simp only [sramProbe_absent habsent, Bool.false_eq_true, if_false, endState_trace]
    exact ⟨endState_finished _ _ _ _, peek_trace _ s, fun hwr => (peek_reads _ s hwr).2.endState _ _ _⟩
  · next hpresent =>
    have htrace := probeWord_trace (s.cfg.sramBase + s.cfg.sramProbeOffset) s.cfg.sramSentinel
      (peek s.cfg.sramBase s).2
    rw [peek_trace] at htrace
    rw [sramProbe_present hpresent]
    generalize probeWord _ _ _ = r at htrace ⊢
    exact ⟨r.1, r.2.1, by simp [finished], htrace⟩

/-! ### Words of a cartridge without a FlashRAM chip -/

theorem be16_hiByte_loByte (w : Half) : be16 (hiByte w) (loByte w) = w := by
  simp only [be16, hiByte, loByte]
  ext i hi
  simp only [BitVec.getElem_append, BitVec.getElem_extractLsb']
  split
  · simp [BitVec.getLsbD_eq_getElem hi]
  · next h =>
    have h8 : 8 + (i - 8) = i := by omega
    simp [h8, BitVec.getLsbD_eq_getElem hi]

/-- A save medium without a chip's registers is left as it is by operations that store nothing. -/
theorem Save.Stays.eq_of_noChip {a b : Save} (h : a.Stays b) (ha : ∀ k, a ≠ .flash k) : b = a := by
  cases h with
  | same => rfl
  | flash => exact absurd rfl (ha _)

section
variable {c : Params} {rom : RomImage} {save : Save} {img : Memory} {s : State}

/-- A probe read samples the word at its address, or all-ones where nothing drives (R82). -/
theorem peek_slot (h : Slot c rom save s) (hchip : ∀ k, save ≠ .flash k) {addr : Nat} (haddr : addr < 2 ^ 32) :
    (peek addr s).1 = ((Cart.mk (some rom) save).word c addr).getD 0xFFFF#16 ∧
    Slot c rom save (peek addr s).2 := by
  obtain ⟨rfl, ⟨ca, hcart⟩, hstrobes⟩ := h
  have hcyc := latchAddress_cycle (BitVec.ofNat 32 addr) s
  have hlatch := latchAddress_cart hcart hstrobes (BitVec.ofNat 32 addr)
  obtain ⟨save1, h1, hstays1⟩ := Cart.onLatch_stays s.cfg (BitVec.ofNat 32 addr).toNat rom save
  rw [h1, hstays1.eq_of_noChip hchip] at hlatch
  obtain ⟨hword, seed, ev, hread⟩ := readWord_cart hlatch hcyc.settled
  obtain ⟨save2, h2, hstays2⟩ := Cart.afterRead_stays (latchAddress (BitVec.ofNat 32 addr) s).cfg seed ev
    (BitVec.ofNat 32 addr).toNat rom save
  rw [h2, hstays2.eq_of_noChip hchip] at hread
  rw [hcyc.keeps.cfg, BitVec.toNat_ofNat, Nat.mod_eq_of_lt haddr] at hword
  exact ⟨hword, (peek_cycle addr s).slot rfl hread⟩

/-- A probe read inside the SRAM window (R84). -/
theorem peek_sram (hok : c.ok = true) (hapart : apartFromRom c c.sramBase c.sramSize)
    (h : Slot c rom (.sram img) s) {o : Nat} (ho : o + 2 ≤ c.sramSize) :
    (peek (c.sramBase + o) s).1 = be16 (img.read o) (img.read (o + 1)) ∧
    Slot c rom (.sram img) (peek (c.sramBase + o) s).2 := by
  have htop := (Params.ok_relations hok).sram_top
  obtain ⟨hword, hslot⟩ := peek_slot h (fun _ => Save.noConfusion) (addr := c.sramBase + o) (by omega)
  rw [Cart.word_sram rfl (by omega) (by omega) hapart, Nat.add_sub_cancel_left] at hword
  exact ⟨hword, hslot⟩

/-- A write cycle after a latch is a `MemWrite` of one word (R13). -/
theorem poke_eq_memWrite (addr : Nat) (w : Half) (s : State) : poke addr w s = memWrite addr (halfBytes w) s := by
  simp [poke, memWrite, halfBytes, writeWords, be16_hiByte_loByte]

/-- A probe write inside the SRAM window (R84). -/
theorem poke_sram (hok : c.ok = true) (h : Slot c rom (.sram img) s) {o : Nat} (ho : o + 2 ≤ c.sramSize) (w : Half) :
    Slot c rom (.sram (img.writeRange o (halfBytes w))) (poke (c.sramBase + o) w s) := by
  obtain ⟨rfl, ⟨ca, hcart⟩, hstrobes⟩ := h
  obtain ⟨ca', hwrite⟩ := memWrite_sram (halfBytes w) o hcart hstrobes (by simp) ho
    (Params.ok_relations hok).sram_top
  rw [← poke_eq_memWrite] at hwrite
  exact (poke_cycle _ w s).slot rfl hwrite

/-- The bytes after a word is stored. -/
theorem Memory.read_writeWord (hwf : img.wf = true) (o : Nat) (w : Half) (x : Nat) :
    (img.writeRange o (halfBytes w)).read x =
      if x = o + 1 then loByte w else if x = o then hiByte w else img.read x := by
  simp only [halfBytes, Memory.writeRange, Memory.read_write_wf (Memory.wf_write hwf _ _), Memory.read_write_wf hwf]

/-- A word stored reads back. -/
theorem Memory.word_writeWord (hwf : img.wf = true) (o : Nat) (w : Half) :
    be16 ((img.writeRange o (halfBytes w)).read o) ((img.writeRange o (halfBytes w)).read (o + 1)) = w := by
  rw [Memory.read_writeWord hwf, Memory.read_writeWord hwf, if_neg (by omega), if_pos rfl, if_pos rfl,
    be16_hiByte_loByte]

/-- A word stored where its first bytes are put back afterwards changes nothing (R173). -/
theorem Memory.read_restored (hwf : img.wf = true) (o : Nat) (w : Half) (x : Nat) :
    ((img.writeRange o (halfBytes w)).writeRange o (halfBytes (be16 (img.read o) (img.read (o + 1))))).read x =
      img.read x := by
  rw [Memory.read_writeWord (Memory.wf_writeRange hwf _ _), Memory.read_writeWord hwf, hiByte_be16, loByte_be16]
  split_ifs with h1 h0
  · rw [h1]
  · rw [h0]
  · rfl

/-- The four accesses on an SRAM: the sentinel comes back, and every byte is as before (R173). -/
theorem probeWord_sram (hok : c.ok = true) (hapart : apartFromRom c c.sramBase c.sramSize) (hwf : img.wf = true)
    (h : Slot c rom (.sram img) s) {o : Nat} (ho : o + 2 ≤ c.sramSize) (w : Half) :
    (probeWord (c.sramBase + o) w s).2.1 = w ∧ sameContents s (probeWord (c.sramBase + o) w s).2.2 := by
  obtain ⟨horig, h1⟩ := peek_sram hok hapart h ho
  have h2 := poke_sram hok h1 ho w
  obtain ⟨hback, h3⟩ := peek_sram hok hapart h2 ho
  have h4 := poke_sram hok h3 ho (be16 (img.read o) (img.read (o + 1)))
  rw [Memory.word_writeWord hwf] at hback
  simp only [probeWord, horig]
  refine ⟨hback, h4.rom_eq.trans h.rom_eq.symm, fun x => ?_⟩
  rw [h4.saveByte, h.saveByte]
  exact Memory.read_restored hwf o w x

/-- No medium answers at the SRAM window (R82). -/
theorem Cart.word_none {save : Save} (h : save = .none ∨ (∃ img, save = .eep4k img) ∨ ∃ img, save = .eep16k img)
    {ca : Nat} (hca : ¬ (c.romBase ≤ ca ∧ ca < c.romBase + c.romSpace)) :
    (Cart.mk (some rom) save).word c ca = none := by
  rcases h with rfl | ⟨img, rfl⟩ | ⟨img, rfl⟩ <;> simp only [Cart.word, hca, if_false]

end

/-! ### An empty slot (R82) -/

/-- The slot is empty and the reset line released; the save medium that the model keeps beside the missing ROM has
this image. -/
def EmptyHolding (img : Memory) (s : State) : Prop :=
  (∃ save, s.env.body = .cartridge ⟨none, save⟩ ∧ save.image = img) ∧ s.rstAsserted = false

theorem emptySlot.holding {s : State} (h : emptySlot s) : ∃ img, EmptyHolding img s := by
  obtain ⟨⟨save, hbody⟩, hrst⟩ := h
  exact ⟨_, ⟨save, hbody, rfl⟩, hrst⟩

section
variable {img : Memory} {s t : State}

theorem EmptyHolding.contents (h : EmptyHolding img s) (k : EmptyHolding img t) : sameContents s t := by
  obtain ⟨⟨save, hbody, himg⟩, -⟩ := h
  obtain ⟨⟨save', hbody', himg'⟩, -⟩ := k
  exact ⟨by simp [Env.rom, hbody, hbody'], fun a => by simp [Env.saveByte, hbody, hbody', himg, himg']⟩

/-- A device that keeps its bytes leaves the slot empty. -/
theorem Env.mapCart_empty {e : Env} {save : Save} (h : e.body = .cartridge ⟨none, save⟩) {f : Cart → Cart}
    (hrom : ∀ k, (f k).rom = k.rom) (himg : (f ⟨none, save⟩).save.image = save.image) :
    ∃ save', (e.mapCart f).body = .cartridge ⟨none, save'⟩ ∧ save'.image = save.image := by
  obtain ⟨⟨rom', save'⟩, hcart⟩ : ∃ k, f ⟨none, save⟩ = k := ⟨_, rfl⟩
  obtain rfl : rom' = none := (congrArg Cart.rom hcart).symm.trans (hrom _)
  rw [hcart] at himg
  exact ⟨save', by rw [Env.mapCart, h, ← hcart], himg⟩

/-- No control event puts a cartridge into the slot, and a write pulse finds nothing to store in. -/
theorem ctrl_empty (h : EmptyHolding img s) (line : Line) (level : Level) :
    EmptyHolding img (ctrl line level s) := by
  obtain ⟨⟨save, hbody, rfl⟩, hrst⟩ := h
  refine ⟨?_, hrst⟩
  simp only [ctrl_env, Env.onCtrl, hrst, Bool.false_eq_true, if_false]
  cases line with
  | wr =>
    dsimp only
    split
    · exact Env.mapCart_empty hbody (Cart.onWrite_rom _ _ _ _ _) rfl
    · exact ⟨save, hbody, rfl⟩
  | rd =>
    dsimp only
    split
    · exact Env.mapCart_empty hbody (Cart.afterRead_rom _ _ _ _) (Cart.afterRead_image _ _ _ _ _)
    · exact ⟨save, hbody, rfl⟩
  | aleh =>
    dsimp only
    split <;> exact ⟨save, hbody, rfl⟩
  | alel =>
    dsimp only
    split
    · exact Env.mapCart_empty hbody (Cart.onLatch_rom _ _) (Cart.onLatch_image _ _ _)
    · exact ⟨save, hbody, rfl⟩
  | rst => exact ⟨save, hbody, rfl⟩

theorem latchAddress_empty (h : EmptyHolding img s) (a : Word) : EmptyHolding img (latchAddress a s) := by
  have hraised : EmptyHolding img (delay .tSetup (drive (hi16 a) (setDir true (ctrl .alel 1#1
    (ctrl .aleh 1#1 (ctrl .rd 1#1 (ctrl .wr 1#1 s))))))) :=
    ctrl_empty (ctrl_empty (ctrl_empty (ctrl_empty h .wr 1#1) .rd 1#1) .aleh 1#1) .alel 1#1
  have hhigh : EmptyHolding img (delay .tSetup (drive (lo16 a) (delay .tHold (ctrl .aleh 0#1 _)))) :=
    ctrl_empty hraised .aleh 0#1
  exact ctrl_empty hhigh .alel 0#1

/-- On a released bus nothing drives, so a read cycle samples all-ones. -/
theorem readWord_empty (h : EmptyHolding img s) (hs : settled s) : (readWord s).1 = 0xFFFF#16 := by
  obtain ⟨⟨save, hbody, -⟩, hrst⟩ := h
  obtain ⟨⟨hdir, hpull, -, -⟩, -, -⟩ := hs
  have hword : (readWord s).1 = ((Cart.mk none save).word s.cfg s.env.ca.toNat).getD s.adLevel := by
    have henv : (delay .tAccess (ctrl .rd 0#1 s)).env = s.env := rdFall_env hrst
    have hlevel : (delay .tAccess (ctrl .rd 0#1 s)).adLevel = s.adLevel := by
      simp [State.adLevel, State.undrivenLevel, hpull]
    show State.sampleWord _ = _
    rw [State.sampleWord, henv, hlevel, Env.sampleWord, hbody]
    simp [hrst]
  rw [hword, State.adLevel, hdir, released_level, State.undrivenLevel, if_pos hpull]
  rfl

/-- A probe read of an empty slot. -/
theorem peek_empty (h : EmptyHolding img s) (addr : Nat) :
    (peek addr s).1 = 0xFFFF#16 ∧ sameContents s (peek addr s).2 := by
  have hlatch := latchAddress_empty h (BitVec.ofNat 32 addr)
  exact ⟨readWord_empty hlatch (latchAddress_cycle _ s).settled,
    (h.contents hlatch).trans (readWord_sameContents _)⟩

end

/-- Where the base word is all-ones `HAS_SRAM` answers 0 after that one read (R172). -/
theorem hasSram_absent {s : State} (hcon : s.contention = false) (hbase : (peek s.cfg.sramBase s).1 = 0xFFFF#16)
    (hsame : sameContents s (peek s.cfg.sramBase s).2) :
    ∃ t, exec .hasSram s = .next t ∧ finished t .ok 0#32 [] ∧
      t.trace = s.trace ++ burstRead s.cfg.sramBase [0xFFFF#16] ∧ sameContents s t := by
  have htrace := peek_trace s.cfg.sramBase s
  rw [hbase] at htrace
  refine ⟨_, exec_hasSram hcon, ?_⟩
  simp only [sramProbe_absent hbase, Bool.false_eq_true, if_false, endState_trace]
  exact ⟨endState_finished _ _ _ _, htrace, hsame.endState _ _ _⟩

/-- Settles O24: the reference cartridge's word at the base decides, and on an SRAM the sentinel comes back and is
undone. -/
theorem hasSramOnReference : Obligations.HasSramOnReference := by
  refine ⟨fun s rom save href hs hcon hok hapart => ⟨?_, fun hsave => ?_⟩, fun s hempty hcon => ?_⟩
  · rintro img rfl hwf
    have r := Params.ok_relations hok
    have hslot := href.slot hs
    have hbelow := r.probe_below
    have hprobe := r.probe_even
    have heven := r.sram_even
    obtain ⟨hbase, hslot'⟩ := peek_sram hok hapart hslot (o := 0) (by omega)
    rw [Nat.add_zero, Nat.zero_add] at hbase
    rw [Nat.add_zero] at hslot'
    have hsame := hslot.sameContents hslot' rfl
    split
    · next hones => exact hasSram_absent hcon (hbase.trans hones) hsame
    · next hones =>
      obtain ⟨hback, hsame'⟩ := probeWord_sram hok hapart hwf hslot' (o := s.cfg.sramProbeOffset) (by omega)
        s.cfg.sramSentinel
      refine ⟨_, exec_hasSram hcon, ?_⟩
      rw [sramProbe_present (hbase ▸ hones)]
      exact ⟨⟨rfl, by simp [hback]⟩, (hsame.trans hsame').endState _ _ _⟩
  · have hslot := href.slot hs
    have htop := (Params.ok_relations hok).sram_top
    have hbelow := (Params.ok_relations hok).probe_below
    have hchip : ∀ k, save ≠ .flash k := by
      rcases hsave with rfl | ⟨img, rfl⟩ | ⟨img, rfl⟩ <;> exact fun _ => Save.noConfusion
    obtain ⟨hbase, hslot'⟩ := peek_slot hslot hchip (addr := s.cfg.sramBase) (by omega)
    rw [Cart.word_none hsave (by unfold apartFromRom at hapart; omega)] at hbase
    exact hasSram_absent hcon hbase (hslot.sameContents hslot' rfl)
  · obtain ⟨img, hholding⟩ := hempty.holding
    obtain ⟨hbase, hsame⟩ := peek_empty hholding s.cfg.sramBase
    exact hasSram_absent hcon hbase hsame

/-! ### The checks of the byte ranges (R174, R175) -/

/-- A medium of at most 2^32 bytes refuses the ranges past its end, and no other (R9, R10). -/
theorem outOfRange_iff {size : Nat} (h : size ≤ 2 ^ 32) (a l : Word) :
    outOfRange size a l = true ↔ size < a.toNat + l.toNat := by
  simp only [outOfRange, Bool.or_eq_true, decide_eq_true_eq]
  omega

theorem sramSize_le {c : Params} (hok : c.ok = true) : c.sramSize ≤ 2 ^ 32 := by
  have htop := (Params.ok_relations hok).sram_top
  omega

/-- The check of R174, and the read. -/
theorem exec_readSramBytes {s : State} (hok : s.cfg.ok = true) (a l : Word) :
    exec (.readSramBytes a l) s =
      if s.cfg.sramSize < a.toNat + l.toNat then raise (.misuse .range) s
      else finish .ok 0#32 (sramRead a.toNat l.toNat s).1 (sramRead a.toNat l.toNat s).2 := by
  show execReadSramBytes a l s = _
  simp only [execReadSramBytes, outOfRange_iff (sramSize_le hok)]

/-- The checks of R175 in their order, and the write. -/
theorem exec_writeSramBytes {s : State} (hok : s.cfg.ok = true) (a l : Word) (d : List Byte) :
    exec (.writeSramBytes a l d) s =
      if d.length ≠ l.toNat then raise (.misuse .bufLen) s
      else if s.cfg.sramSize < a.toNat + l.toNat then raise (.misuse .range) s
      else finish .ok 0#32 [] (sramWrite a.toNat l.toNat d s) := by
  show execWriteSramBytes a l d s = _
  simp only [execWriteSramBytes, outOfRange_iff (sramSize_le hok)]

theorem sramRead_zero (a : Nat) (s : State) : sramRead a 0 s = ([], s) := if_pos rfl

theorem sramWrite_zero (a : Nat) (d : List Byte) (s : State) : sramWrite a 0 d s = s := if_pos rfl

/-- A range that is not empty is read through its cover (R174). -/
theorem sramRead_cover (a : Nat) {l : Nat} (hl : l ≠ 0) (s : State) :
    sramRead a l s =
      (slice (sramReadWords (coverStart a) (coverEnd a l - coverStart a) s).1 (a - coverStart a)
        (a - coverStart a + l),
       (sramReadWords (coverStart a) (coverEnd a l - coverStart a) s).2) := if_neg hl

/-- A range that is not empty is written through its cover (R175). -/
theorem sramWrite_cover (a : Nat) {l : Nat} (hl : l ≠ 0) (d : List Byte) (s : State) :
    sramWrite a l d s =
      sramWriteWords (coverStart a) ((sramHead a s).1 ++ d ++ (sramTail a l (sramHead a s).2).1)
        (sramTail a l (sramHead a s).2).2 := if_neg hl

/-! ### READ_SRAM_BYTES (R174) -/

theorem slice_length (bs : List Byte) {i j : Nat} (hj : j ≤ bs.length) : (slice bs i j).length = j - i := by
  rw [slice, List.length_take, List.length_drop]
  omega

theorem memRead_length (addr n : Nat) (s : State) : (memRead addr n s).1.length = 2 * (n / 2) := by
  obtain ⟨ws, hlen, hbytes, -⟩ := memRead_spec addr n s
  rw [hbytes, bytesOfWords_length, hlen]

theorem sramReadPieces_length {burst e p : Nat} {ps : List (Nat × Nat)} (h : Tiles burst e p ps) (s : State) :
    (sramReadPieces ps s).1.length = e - p := by
  induction h generalizing s with
  | nil => simp [sramReadPieces]
  | @cons p q ps piece rest ih =>
    obtain ⟨hlt, hstart, hend, -, -⟩ := piece
    dsimp only at hlt hstart hend
    have hle := rest.le
    rw [sramReadPieces, List.length_append, memRead_length, ih]
    omega

theorem sramReadWords_length {s : State} (hd : s.cfg.Domains) {o n : Nat} (ho : o % 2 = 0) (hn : n % 2 = 0) :
    (sramReadWords o n s).1.length = n := by
  rw [sramReadWords, sramReadPieces_length (burstPieces_tiles hd.burst hd.burst_even ho hn), Nat.add_sub_cancel_left]

theorem sramReadWords_cycle (o : Nat) {n : Nat} (hn : n ≠ 0) (s : State) : Cycle s (sramReadWords o n s).2 :=
  sramReadPieces_cycle _ (burstPieces_ne_nil _ o hn) s

/-- Settles O25: the check decides, and the pieces of the cover hold the range. -/
theorem readSramBytesRuns : Obligations.ReadSramBytesRuns := by
  intro s a l hcon hok hdom
  have hd := Params.domains_facts hdom
  simp only [exec_readSramBytes hok]
  split_ifs with hrange hzero
  · exact ⟨_, raise_next hcon _, rfl⟩
  · rw [hzero, sramRead_zero]
    exact ⟨_, finish_next hcon _ _ _, rfl⟩
  · have hcover := coverStart_lt_coverEnd a.toNat hzero
    have hlength := coverStart_length a.toNat l.toNat
    have hstart := coverStart_add a.toNat
    have hcyc := sramReadWords_cycle (coverStart a.toNat) (n := coverEnd a.toNat l.toNat - coverStart a.toNat)
      (by omega) s
    have hcon' := hcyc.contention.trans hcon
    have hbuf := sramReadWords_length hd (coverStart_even a.toNat) (coverEnd_sub_even a.toNat l.toNat)
    obtain ⟨wss, hcount, hwords, hbytes, htrace⟩ := sramReadPieces_spec
      (burstPieces s.cfg.sramBurst (coverStart a.toNat) (coverEnd a.toNat l.toNat - coverStart a.toNat)) s
    rw [sramRead_cover _ hzero]
    refine ⟨_, wss, _, finish_next hcon' _ _ _, endState_finished _ _ _ _, by rw [← hbytes]; rfl,
      (slice_length _ (by omega)).trans (Nat.add_sub_cancel_left _ _), ⟨hcount, hwords, htrace⟩, hcyc.settled,
      hcyc.keeps.sameBlock hcyc.joy hcon' _ _ _, fun hwr => (sramReadPieces_reads _ s hwr).2.endState _ _ _⟩

/-! ### WRITE_SRAM_BYTES (R175) -/

theorem sramReadPieces_undisturbed (ps : List (Nat × Nat)) (s : State) : Undisturbed s (sramReadPieces ps s).2 := by
  cases ps with
  | nil => exact .refl s
  | cons p ps => exact (sramReadPieces_cycle (p :: ps) (List.cons_ne_nil _ _) s).undisturbed

/-- An odd start leaves the first byte of its word to keep (R175). -/
theorem sramHead_odd {a : Nat} (h : a % 2 = 1) (s : State) :
    sramHead a s = (slice (sramReadWords (coverStart a) 2 s).1 0 1, (sramReadWords (coverStart a) 2 s).2) := if_pos h

theorem sramHead_even {a : Nat} (h : a % 2 = 0) (s : State) : sramHead a s = ([], s) := if_neg (by omega)

/-- An odd end leaves the second byte of its word to keep (R175). -/
theorem sramTail_odd {a l : Nat} (h : (a + l) % 2 = 1) (s : State) :
    sramTail a l s =
      (slice (sramReadWords (coverEnd a l - 2) 2 s).1 1 2, (sramReadWords (coverEnd a l - 2) 2 s).2) := if_pos h

theorem sramTail_even {a l : Nat} (h : (a + l) % 2 = 0) (s : State) : sramTail a l s = ([], s) := if_neg (by omega)

theorem sramHead_undisturbed (a : Nat) (s : State) : Undisturbed s (sramHead a s).2 := by
  rcases Nat.mod_two_eq_zero_or_one a with h | h
  · rw [sramHead_even h]
    exact .refl s
  · rw [sramHead_odd h]
    exact sramReadPieces_undisturbed _ s

theorem sramTail_undisturbed (a l : Nat) (s : State) : Undisturbed s (sramTail a l s).2 := by
  rcases Nat.mod_two_eq_zero_or_one (a + l) with h | h
  · rw [sramTail_even h]
    exact .refl s
  · rw [sramTail_odd h]
    exact sramReadPieces_undisturbed _ s

/-- A merge read is one burst of one word (R175). -/
theorem sramReadWord_spec {s : State} (hd : s.cfg.Domains) {o : Nat} (ho : o % 2 = 0) :
    ∃ w : Half, (sramReadWords o 2 s).1 = halfBytes w ∧
      (sramReadWords o 2 s).2.trace = s.trace ++ burstRead (s.cfg.sramBase + o) [w] := by
  obtain ⟨ws, hlen, hbytes, htrace⟩ := memRead_spec (s.cfg.sramBase + o) 2 s
  obtain ⟨w, rfl⟩ := List.length_eq_one_iff.mp hlen
  have hpieces := (burstPieces_tiles hd.burst hd.burst_even ho (n := 2) rfl).word
  refine ⟨w, ?_, ?_⟩
  · simp [sramReadWords, hpieces, sramReadPieces, hbytes, bytesOfWords]
  · simp [sramReadWords, hpieces, sramReadPieces, htrace]

/-- The head word is read where the start is odd, and its first byte kept (R175). -/
theorem sramHead_spec {s : State} (hd : s.cfg.Domains) (a : Nat) :
    ∃ ws : List Half, ws.length = a % 2 ∧ (sramHead a s).1 = ws.map hiByte ∧
      (sramHead a s).2.trace =
        s.trace ++ ws.flatMap (fun w => burstRead (s.cfg.sramBase + coverStart a) [w]) := by
  rcases Nat.mod_two_eq_zero_or_one a with h | h
  · rw [sramHead_even h]
    exact ⟨[], h.symm, rfl, (List.append_nil _).symm⟩
  · obtain ⟨w, hbytes, htrace⟩ := sramReadWord_spec hd (coverStart_even a)
    rw [sramHead_odd h, hbytes]
    exact ⟨[w], h.symm, rfl, by simpa using htrace⟩

/-- The tail word is read where the end is odd, and its second byte kept (R175). -/
theorem sramTail_spec {s : State} (hd : s.cfg.Domains) (a l : Nat) :
    ∃ ws : List Half, ws.length = (a + l) % 2 ∧ (sramTail a l s).1 = ws.map loByte ∧
      (sramTail a l s).2.trace =
        s.trace ++ ws.flatMap (fun w => burstRead (s.cfg.sramBase + (coverEnd a l - 2)) [w]) := by
  rcases Nat.mod_two_eq_zero_or_one (a + l) with h | h
  · rw [sramTail_even h]
    exact ⟨[], h.symm, rfl, (List.append_nil _).symm⟩
  · have hend := coverEnd_even a l
    obtain ⟨w, hbytes, htrace⟩ := sramReadWord_spec hd (o := coverEnd a l - 2) (by omega)
    rw [sramTail_odd h, hbytes]
    exact ⟨[w], h.symm, rfl, by simpa using htrace⟩

theorem sramWriteWords_trace (o : Nat) (v : List Byte) (s : State) :
    (sramWriteWords o v s).trace =
      s.trace ++ writePieces s.cfg.sramBase o v (burstPieces s.cfg.sramBurst o v.length) :=
  sramWritePieces_trace o v _ s

theorem sramWriteWords_cycle (o : Nat) {v : List Byte} (hv : v.length ≠ 0) (s : State) :
    Cycle s (sramWriteWords o v s) :=
  sramWritePieces_cycle o v _ (burstPieces_ne_nil _ o hv) s

/-- A cycle after reads that may have made none is a cycle from where they began. -/
theorem Undisturbed.cycle {s t u : State} (h : Undisturbed s t) (k : Cycle t u) : Cycle s u :=
  ⟨h.keeps.trans k.keeps, k.joy.trans h.joy, k.contention.trans h.contention, k.settled⟩

/-- Settles O26: the checks decide; the kept bytes and the data have the cover's length, so its pieces are those of
the bytes written. -/
theorem writeSramBytesRuns : Obligations.WriteSramBytesRuns := by
  intro s a l d hcon hok hdom
  have hd := Params.domains_facts hdom
  simp only [exec_writeSramBytes hok]
  split_ifs with hbuf hrange hzero
  · exact ⟨_, raise_next hcon _, rfl⟩
  · exact ⟨_, raise_next hcon _, rfl⟩
  · rw [hzero, sramWrite_zero]
    exact ⟨_, finish_next hcon _ _ _, rfl⟩
  · have hhead := sramHead_undisturbed a.toNat s
    have hreads := hhead.trans (sramTail_undisturbed a.toNat l.toNat _)
    obtain ⟨head, hheadlen, hheadbytes, hheadtrace⟩ := sramHead_spec hd a.toNat
    obtain ⟨tail, htaillen, htailbytes, htailtrace⟩ :=
      sramTail_spec (s := (sramHead a.toNat s).2) (hhead.keeps.cfg ▸ hd) a.toNat l.toNat
    have hcover := coverStart_length a.toNat l.toNat
    have hlen : (head.map hiByte ++ d ++ tail.map loByte).length =
        coverEnd a.toNat l.toNat - coverStart a.toNat := by
      simp only [List.length_append, List.length_map]
      omega
    have hlt := coverStart_lt_coverEnd a.toNat hzero
    have hcyc := hreads.cycle (sramWriteWords_cycle (coverStart a.toNat)
      (v := head.map hiByte ++ d ++ tail.map loByte) (by omega) _)
    have hcon' := hcyc.contention.trans hcon
    rw [sramWrite_cover _ hzero, hheadbytes, htailbytes]
    refine ⟨_, head, tail, finish_next hcon' _ _ _, endState_finished _ _ _ _, hheadlen, htaillen, ?_, hcyc.settled,
      hcyc.keeps.sameBlock hcyc.joy hcon' _ _ _, hcyc.keeps.rom⟩
    rw [endState_trace, sramWriteWords_trace, hlen, hreads.keeps.cfg, htailtrace, hhead.keeps.cfg, hheadtrace]

/-! ### Runs of bytes of an image -/

@[simp] theorem imageBytes_length (m : Memory) (a n : Nat) : (imageBytes m a n).length = n := by simp [imageBytes]

theorem imageBytes_append (m : Memory) (a i j : Nat) :
    imageBytes m a (i + j) = imageBytes m a i ++ imageBytes m (a + i) j := by
  simp [imageBytes, List.range_add, Nat.add_assoc]

theorem getD_imageBytes (m : Memory) (a : Nat) {i n : Nat} (hi : i < n) :
    (imageBytes m a n).getD i Memory.blank = m.read (a + i) := by
  simp [imageBytes, List.getD_eq_getElem?_getD, hi]

theorem slice_imageBytes (m : Memory) (o : Nat) {i n k : Nat} (h : i + n ≤ k) :
    slice (imageBytes m o k) i (i + n) = imageBytes m (o + i) n := by
  obtain ⟨r, rfl⟩ := Nat.exists_eq_add_of_le h
  rw [Nat.add_assoc, imageBytes_append, imageBytes_append, slice, Nat.add_sub_cancel_left,
    List.drop_left' (imageBytes_length m o i), List.take_left' (imageBytes_length m (o + i) n)]

theorem slice_append_drop (bs : List Byte) {i j : Nat} (h : i ≤ j) : slice bs i j ++ bs.drop j = bs.drop i := by
  have hdrop : bs.drop j = (bs.drop i).drop (j - i) := by rw [List.drop_drop, Nat.add_sub_cancel' h]
  rw [slice, hdrop, List.take_append_drop]

/-- New bytes between bytes that the image already held: only they change (R175). -/
theorem Memory.read_merged {img : Memory} (hwf : img.wf = true) (o k n : Nat) (d : List Byte) (x : Nat) :
    (img.writeRange o (imageBytes img o k ++ d ++ imageBytes img (o + k + d.length) n)).read x =
      if o + k ≤ x ∧ x < o + k + d.length then d.getD (x - (o + k)) Memory.blank else img.read x := by
  have hhead := Memory.wf_writeRange hwf o (imageBytes img o k)
  rw [Memory.writeRange_append, Memory.writeRange_append, List.length_append, imageBytes_length, ← Nat.add_assoc,
    Memory.read_writeRange (Memory.wf_writeRange hhead _ _), Memory.read_writeRange hhead, Memory.read_writeRange hwf,
    imageBytes_length, imageBytes_length]
  by_cases htail : o + k + d.length ≤ x ∧ x < o + k + d.length + n
  · rw [if_pos htail, if_neg (by omega), getD_imageBytes img _ (by omega), Nat.add_sub_cancel' htail.1]
  · rw [if_neg htail]
    by_cases hkept : o ≤ x ∧ x < o + k
    · rw [if_pos hkept, getD_imageBytes img o (by omega), Nat.add_sub_cancel' hkept.1]
    · rw [if_neg hkept]

/-! ### Byte ranges of the reference SRAM (R176) -/

section
variable {c : Params} {rom : RomImage} {img : Memory} {s : State}

theorem Slot.endState {save : Save} (h : Slot c rom save s) (st : Status) (v : Word) (d : List Byte) :
    Slot c rom save (endState st v d s) := by
  obtain ⟨hcfg, ⟨ca, hbody, hca, hrst, hwrap⟩, hstrobes⟩ := h
  exact ⟨hcfg, ⟨ca, hbody, hca, hrst, hwrap⟩, hstrobes⟩

/-- A `MemRead` inside the SRAM (R84). -/
theorem memRead_slot (hok : c.ok = true) (hapart : apartFromRom c c.sramBase c.sramSize)
    (h : Slot c rom (.sram img) s) {o n : Nat} (hn : n % 2 = 0) (ho : o + n ≤ c.sramSize) :
    (memRead (c.sramBase + o) n s).1 = imageBytes img o n ∧
    Slot c rom (.sram img) (memRead (c.sramBase + o) n s).2 := by
  obtain ⟨rfl, ⟨ca, hcart⟩, hstrobes⟩ := h
  obtain ⟨hbytes, ca', hcart'⟩ := memRead_sram n o hcart hstrobes hn ho (Params.ok_relations hok).sram_top hapart
  exact ⟨hbytes, (memRead_cycle _ n s).slot rfl hcart'⟩

/-- A `MemWrite` inside the SRAM (R84). -/
theorem memWrite_slot (hok : c.ok = true) (h : Slot c rom (.sram img) s) {o : Nat} {v : List Byte}
    (hv : v.length % 2 = 0) (ho : o + v.length ≤ c.sramSize) :
    Slot c rom (.sram (img.writeRange o v)) (memWrite (c.sramBase + o) v s) := by
  obtain ⟨rfl, ⟨ca, hcart⟩, hstrobes⟩ := h
  obtain ⟨ca', hcart'⟩ := memWrite_sram v o hcart hstrobes hv ho (Params.ok_relations hok).sram_top
  exact (memWrite_cycle _ v s).slot rfl hcart'

/-- The pieces of a range give its bytes (R84, R170). -/
theorem sramReadPieces_slot (hok : c.ok = true) (hapart : apartFromRom c c.sramBase c.sramSize) {burst e p : Nat}
    {ps : List (Nat × Nat)} (ht : Tiles burst e p ps) (he : e ≤ c.sramSize) (h : Slot c rom (.sram img) s) :
    (sramReadPieces ps s).1 = imageBytes img p (e - p) ∧ Slot c rom (.sram img) (sramReadPieces ps s).2 := by
  induction ht generalizing s with
  | nil => exact ⟨by rw [Nat.sub_self]; rfl, h⟩
  | @cons p q ps piece rest ih =>
    obtain ⟨hlt, hstart, hend, -, -⟩ := piece
    dsimp only at hlt hstart hend
    have hle := rest.le
    obtain ⟨hbytes, hslot⟩ := memRead_slot hok hapart h (o := p) (n := q - p) (by omega) (by omega)
    obtain ⟨hbytes', hslot'⟩ := ih hslot
    have hsum : e - p = q - p + (e - q) := by omega
    have hq : p + (q - p) = q := by omega
    rw [sramReadPieces, h.cfg, hbytes, hbytes', hsum, imageBytes_append, hq]
    exact ⟨rfl, hslot'⟩

/-- The pieces of a range store its bytes (R84, R170). -/
theorem sramWritePieces_slot (hok : c.ok = true) {burst e o p : Nat} {v : List Byte} {ps : List (Nat × Nat)}
    (ht : Tiles burst e p ps) (he : e ≤ c.sramSize) (hv : o + v.length = e) (hp : o ≤ p)
    (h : Slot c rom (.sram img) s) :
    Slot c rom (.sram (img.writeRange p (v.drop (p - o)))) (sramWritePieces o v ps s) := by
  induction ht generalizing s img with
  | nil =>
    rw [← hv, Nat.add_sub_cancel_left, List.drop_length]
    exact h
  | @cons p q ps piece rest ih =>
    obtain ⟨hlt, hstart, hend, -, -⟩ := piece
    dsimp only at hlt hstart hend
    have hle := rest.le
    have hlen : (slice v (p - o) (q - o)).length = q - p := by
      rw [slice_length v (by omega)]
      omega
    have hslot := memWrite_slot hok h (o := p) (v := slice v (p - o) (q - o)) (by omega) (by omega)
    have hq : p + (slice v (p - o) (q - o)).length = q := by omega
    rw [sramWritePieces, h.cfg, ← slice_append_drop v (i := p - o) (j := q - o) (by omega),
      Memory.writeRange_append, hq]
    exact ih (by omega) hslot

/-- `sram_read_words` inside the SRAM (R84, R170). -/
theorem sramReadWords_slot (hok : c.ok = true) (hd : c.Domains) (hapart : apartFromRom c c.sramBase c.sramSize)
    (h : Slot c rom (.sram img) s) {o n : Nat} (ho : o % 2 = 0) (hn : n % 2 = 0) (hle : o + n ≤ c.sramSize) :
    (sramReadWords o n s).1 = imageBytes img o n ∧ Slot c rom (.sram img) (sramReadWords o n s).2 := by
  have key := sramReadPieces_slot hok hapart (burstPieces_tiles hd.burst hd.burst_even ho hn) hle h
  rw [sramReadWords, h.cfg]
  rwa [Nat.add_sub_cancel_left] at key

/-- `sram_write_words` inside the SRAM (R84, R170). -/
theorem sramWriteWords_slot (hok : c.ok = true) (hd : c.Domains) (h : Slot c rom (.sram img) s) {o : Nat}
    {v : List Byte} (ho : o % 2 = 0) (hv : v.length % 2 = 0) (hle : o + v.length ≤ c.sramSize) :
    Slot c rom (.sram (img.writeRange o v)) (sramWriteWords o v s) := by
  have key := sramWritePieces_slot hok (burstPieces_tiles hd.burst hd.burst_even ho hv) hle rfl (Nat.le_refl o) h
  rw [sramWriteWords, h.cfg]
  rwa [Nat.sub_self, List.drop_zero] at key

/-- The byte kept of the head word is the one before the range (R175). -/
theorem sramHead_slot (hok : c.ok = true) (hd : c.Domains) (hapart : apartFromRom c c.sramBase c.sramSize)
    (h : Slot c rom (.sram img) s) {a : Nat} (ha : a < c.sramSize) :
    (sramHead a s).1 = imageBytes img (coverStart a) (a % 2) ∧ Slot c rom (.sram img) (sramHead a s).2 := by
  have heven := (Params.ok_relations hok).sram_even
  have hstart := coverStart_add a
  rcases Nat.mod_two_eq_zero_or_one a with hmod | hmod
  · rw [sramHead_even hmod, hmod]
    exact ⟨rfl, h⟩
  · obtain ⟨hbytes, hslot⟩ := sramReadWords_slot hok hd hapart h (coverStart_even a) (n := 2) rfl (by omega)
    have hslice := slice_imageBytes img (coverStart a) (i := 0) (n := 1) (k := 2) (by decide)
    rw [sramHead_odd hmod, hbytes, hmod]
    exact ⟨hslice, hslot⟩

/-- The byte kept of the tail word is the one after the range (R175). -/
theorem sramTail_slot (hok : c.ok = true) (hd : c.Domains) (hapart : apartFromRom c c.sramBase c.sramSize)
    (h : Slot c rom (.sram img) s) {a l : Nat} (hal : a + l ≤ c.sramSize) :
    (sramTail a l s).1 = imageBytes img (a + l) ((a + l) % 2) ∧ Slot c rom (.sram img) (sramTail a l s).2 := by
  have hle := coverEnd_le (Params.ok_relations hok).sram_even hal
  rcases Nat.mod_two_eq_zero_or_one (a + l) with hmod | hmod
  · rw [sramTail_even hmod, hmod]
    exact ⟨rfl, h⟩
  · have hend : coverEnd a l = a + l + 1 := by rw [coverEnd, hmod]
    obtain ⟨hbytes, hslot⟩ := sramReadWords_slot hok hd hapart h (o := coverEnd a l - 2) (n := 2) (by omega) rfl
      (by omega)
    have hslice := slice_imageBytes img (coverEnd a l - 2) (i := 1) (n := 1) (k := 2) (by decide)
    have hbyte : coverEnd a l - 2 + 1 = a + l := by omega
    rw [hbyte] at hslice
    rw [sramTail_odd hmod, hbytes, hmod]
    exact ⟨hslice, hslot⟩

/-- A range inside the SRAM gives its bytes (R174). -/
theorem sramRead_slot (hok : c.ok = true) (hd : c.Domains) (hapart : apartFromRom c c.sramBase c.sramSize)
    (h : Slot c rom (.sram img) s) {a l : Nat} (hal : a + l ≤ c.sramSize) :
    (sramRead a l s).1 = imageBytes img a l ∧ Slot c rom (.sram img) (sramRead a l s).2 := by
  by_cases hzero : l = 0
  · rw [hzero, sramRead_zero]
    exact ⟨rfl, h⟩
  · have hle := coverEnd_le (Params.ok_relations hok).sram_even hal
    have hlength := coverStart_length a l
    have hstart := coverStart_add a
    have hin : coverStart a + (a - coverStart a) = a := by omega
    obtain ⟨hbytes, hslot⟩ := sramReadWords_slot hok hd hapart h (coverStart_even a) (coverEnd_sub_even a l)
      (by omega)
    rw [sramRead_cover a hzero, hbytes, slice_imageBytes img _ (by omega), hin]
    exact ⟨rfl, hslot⟩

/-- A range inside the SRAM takes its bytes, and every other byte is as before (R175, R176). -/
theorem sramWrite_slot (hok : c.ok = true) (hd : c.Domains) (hapart : apartFromRom c c.sramBase c.sramSize)
    (hwf : img.wf = true) (h : Slot c rom (.sram img) s) {a : Nat} {d : List Byte} (hal : a + d.length ≤ c.sramSize) :
    ∃ img', Slot c rom (.sram img') (sramWrite a d.length d s) ∧
      ∀ x, img'.read x = if a ≤ x ∧ x < a + d.length then d.getD (x - a) Memory.blank else img.read x := by
  by_cases hzero : d.length = 0
  · rw [hzero, sramWrite_zero]
    exact ⟨img, h, fun x => (if_neg (by omega)).symm⟩
  · have hle := coverEnd_le (Params.ok_relations hok).sram_even hal
    have hlength := coverStart_length a d.length
    have hstart := coverStart_add a
    obtain ⟨hhead, hslot⟩ := sramHead_slot hok hd hapart h (a := a) (by omega)
    obtain ⟨htail, hslot'⟩ := sramTail_slot hok hd hapart hslot hal
    have hmerged := Memory.read_merged hwf (coverStart a) (a % 2) ((a + d.length) % 2) d
    rw [hstart] at hmerged
    have hcover := coverEnd_sub_even a d.length
    have hwrite := sramWriteWords_slot hok hd hslot' (coverStart_even a)
      (v := imageBytes img (coverStart a) (a % 2) ++ d ++ imageBytes img (a + d.length) ((a + d.length) % 2))
      (by simp only [List.length_append, imageBytes_length]; omega)
      (by simp only [List.length_append, imageBytes_length]; omega)
    rw [sramWrite_cover a hzero, hhead, htail]
    exact ⟨_, hwrite, hmerged⟩

end

/-- Settles O28: the write leaves the data between the bytes kept, and the read gives the image's bytes. -/
theorem sramReadsBackWhatWasWritten : Obligations.SramReadsBackWhatWasWritten := by
  intro s a l d rom img href hs hcon hok hdom hwf hapart hlen hal
  have hd := Params.domains_facts hdom
  obtain ⟨img', hwrite, hbytes⟩ := sramWrite_slot hok hd hapart hwf (href.slot hs) (hlen ▸ hal)
  rw [hlen] at hwrite hbytes
  have hcon' := ((sramWrite_orderly a.toNat l.toNat d s).pins hs).contention.trans hcon
  have hslot := hwrite.endState .ok 0#32 []
  obtain ⟨hread, hslot'⟩ := sramRead_slot hok hd hapart hslot hal
  have hcon'' := ((sramRead_orderly a.toNat l.toNat _).pins hslot.strobes).contention.trans hcon'
  have hdata : imageBytes img' a.toNat l.toNat = d := by
    rw [← hlen, imageBytes_eq_iff]
    intro i hi
    rw [hbytes, if_pos (by omega), Nat.add_sub_cancel_left]
    rfl
  have hexec : exec (.writeSramBytes a l d) s = .next (endState .ok 0#32 [] (sramWrite a.toNat l.toNat d s)) := by
    rw [exec_writeSramBytes hok, if_neg (not_not.mpr hlen), if_neg (by omega)]
    exact finish_next hcon' _ _ _
  have hexec' := exec_readSramBytes (hslot.cfg ▸ hok) a l
  rw [hslot.cfg, if_neg (by omega), hread, hdata, finish_next hcon''] at hexec'
  exact ⟨_, _, hexec, rfl, fun x => by rw [hslot.saveByte, href.saveByte]; exact hbytes x,
    hslot.rom_eq.trans (href.slot hs).rom_eq.symm, hexec', endState_finished _ _ _ _,
    (hslot.sameContents hslot' rfl).endState _ _ _⟩

end Sys2Proof.Machine

/-! SUPPORT. The EEPROM sequencer (spec/43_eeprom.md R190-R201): the units a range straddles, the serial transactions
of the block loops, for every environment and on the reference cartridge, and the family settled from them. -/

namespace Sys2Proof.Machine

/-! ### Runs of bytes cut at ascending places -/

theorem slice_self (bs : List Byte) (i : Nat) : slice bs i i = [] := by
  rw [slice, Nat.sub_self, List.take_zero]

theorem slice_append_slice (bs : List Byte) {i j k : Nat} (hij : i ≤ j) (hjk : j ≤ k) :
    slice bs i j ++ slice bs j k = slice bs i k := by
  have hlen : k - i = j - i + (k - j) := by omega
  simp only [slice]
  rw [hlen, List.take_add, List.drop_drop, Nat.add_sub_cancel' hij]

theorem flatMap_slice {p : Nat → Nat} (hp : Monotone p) (bs : List Byte) (b n : Nat) :
    (List.range' b n).flatMap (fun i => slice bs (p i) (p (i + 1))) = slice bs (p b) (p (b + n)) := by
  induction n generalizing b with
  | zero => exact (slice_self bs _).symm
  | succ n ih =>
    rw [List.range'_succ, List.flatMap_cons, ih, slice_append_slice bs (hp (by omega)) (hp (by omega)),
      Nat.add_right_comm, Nat.add_assoc]

theorem getD_slice (bs : List Byte) {i j k : Nat} (h : i + k < j) (v : Byte) :
    (slice bs i j).getD k v = bs.getD (i + k) v := by
  have hk : k < j - i := by omega
  simp [slice, List.getD_eq_getElem?_getD, hk]

/-! ### Straddled units (R197) -/

section
variable {u a l b : Nat}

theorem first_unit_le_last (u a : Nat) (hl : 0 < l) : a / u ≤ (a + l - 1) / u := Nat.div_le_div_right (by omega)

theorem mem_unitsOf_between (hl : 0 < l) : b ∈ unitsOf u a l ↔ a / u ≤ b ∧ b ≤ (a + l - 1) / u := by
  have horder := first_unit_le_last u a hl
  rw [unitsOf, List.mem_range'_1]
  omega

theorem unitsOf_ne_nil (u a : Nat) (hl : 0 < l) : unitsOf u a l ≠ [] :=
  List.ne_nil_of_mem ((mem_unitsOf_between hl).mpr ⟨Nat.le_refl _, first_unit_le_last u a hl⟩)

/-- The straddled units are those that meet the range. -/
theorem mem_unitsOf (hu : 0 < u) (hl : 0 < l) : b ∈ unitsOf u a l ↔ u * b < a + l ∧ a < u * b + u := by
  have hfirst : a / u < b + 1 ↔ a < (b + 1) * u := Nat.div_lt_iff_lt_mul hu
  have hlast : b ≤ (a + l - 1) / u ↔ b * u ≤ a + l - 1 := Nat.le_div_iff_mul_le hu
  rw [Nat.add_mul, Nat.one_mul, Nat.mul_comm] at hfirst
  rw [Nat.mul_comm] at hlast
  rw [mem_unitsOf_between hl]
  omega

/-- The straddled units of a range inside `n` units are among them. -/
theorem unitsOf_below {n : Nat} (hu : 0 < u) (hl : 0 < l) (h : a + l ≤ u * n) : ∀ b ∈ unitsOf u a l, b < n :=
  fun _ hb => Nat.lt_of_mul_lt_mul_left (((mem_unitsOf hu hl).mp hb).1.trans_le h)

theorem unit_div_eq (hu : 0 < u) (b x : Nat) : x / u = b ↔ u * b ≤ x ∧ x < u * b + u := by
  rw [Nat.div_eq_iff hu, Nat.mul_comm]
  omega

/-- A byte of the range lies in a straddled unit. -/
theorem div_mem_unitsOf (hu : 0 < u) {x : Nat} (hx : a ≤ x ∧ x < a + l) : x / u ∈ unitsOf u a l := by
  have hat := (unit_div_eq hu _ x).mp rfl
  exact (mem_unitsOf hu (by omega)).mpr (by omega)

/-- A straddled unit has a part of the range, which ends where the unit or the range does. -/
theorem unit_slice (hu : 0 < u) (hl : 0 < l) (hb : b ∈ unitsOf u a l) :
    u * b + unitLo u a b = max a (u * b) ∧ u * b + unitHi u a l b = min (a + l) (u * b + u) ∧
    unitLo u a b < unitHi u a l b ∧ unitHi u a l b ≤ u := by
  obtain ⟨hlo, hhi⟩ := (mem_unitsOf hu hl).mp hb
  rw [unitLo, unitHi]
  omega

/-- How much of the data lies below unit `b`. -/
def unitCut (u a l b : Nat) : Nat := min l (u * b - a)

theorem unitCut_mono (u a l : Nat) : Monotone (unitCut u a l) := by
  intro i j hij
  have hmul : u * i ≤ u * j := Nat.mul_le_mul_left u hij
  simp only [unitCut]
  omega

theorem unitData_eq_slice (hu : 0 < u) (hl : 0 < l) (hb : b ∈ unitsOf u a l) (d : List Byte) :
    unitData u a l d b = slice d (unitCut u a l b) (unitCut u a l (b + 1)) := by
  obtain ⟨hlo, hhi⟩ := (mem_unitsOf hu hl).mp hb
  obtain ⟨hstart, hend, -, -⟩ := unit_slice hu hl hb
  have hcut : u * b + unitLo u a b - a = unitCut u a l b := by rw [unitCut]; omega
  have hcut' : u * b + unitHi u a l b - a = unitCut u a l (b + 1) := by rw [unitCut, Nat.mul_add_one]; omega
  rw [unitData, hcut, hcut']

theorem unitData_length (hu : 0 < u) (hl : 0 < l) (hb : b ∈ unitsOf u a l) {d : List Byte} (hd : d.length = l) :
    (unitData u a l d b).length = unitHi u a l b - unitLo u a b := by
  obtain ⟨hstart, hend, -, -⟩ := unit_slice hu hl hb
  rw [unitData, slice_length d (by omega)]
  omega

/-- The parts of the units, in order, are the data. -/
theorem flatMap_unitData (hu : 0 < u) (hl : 0 < l) {d : List Byte} (hd : d.length = l) :
    (unitsOf u a l).flatMap (unitData u a l d) = d := by
  have horder := first_unit_le_last u a hl
  have hfirst : unitCut u a l (a / u) = 0 := by
    have hdiv := Nat.mul_div_le a u
    rw [unitCut]
    omega
  have hlast : unitCut u a l (a / u + ((a + l - 1) / u + 1 - a / u)) = l := by
    have hdiv := Nat.lt_mul_div_succ (a + l - 1) hu
    rw [Nat.add_sub_cancel' (by omega), unitCut]
    omega
  rw [List.flatMap_congr (fun b hb => unitData_eq_slice hu hl hb d), unitsOf, flatMap_slice (unitCut_mono u a l),
    hfirst, hlast, ← hd]
  exact List.take_length

/-- The slices of the units together have the length of the range. -/
theorem sum_unit_slices (hu : 0 < u) (hl : 0 < l) :
    ((unitsOf u a l).map (fun b => unitHi u a l b - unitLo u a b)).sum = l := by
  have hzeros : (List.replicate l Memory.blank).length = l := List.length_replicate
  rw [List.map_congr_left (fun b hb => (unitData_length hu hl hb hzeros).symm), ← List.length_flatMap,
    flatMap_unitData hu hl hzeros, hzeros]

end

/-- Settles O34: each straddled unit meets the range, and the parts join at the unit boundaries. -/
theorem straddledUnitsCoverTheRange : Obligations.StraddledUnitsCoverTheRange := by
  intro u a l d hu hl hd
  refine ⟨fun b => mem_unitsOf_between hl, fun b hb => ?_, flatMap_unitData hu hl hd⟩
  obtain ⟨-, -, hlt, hle⟩ := unit_slice hu hl hb
  exact ⟨rfl, rfl, hlt, hle, rfl⟩

/-! ### What a serial operation leaves (R190) -/

/-- The frame of an operation whose body is transactions. -/
theorem Serial.frame {s t : State} (h : Serial s t) (hcon : s.contention = false) (hjoy : t.joy = 1#1)
    (st : Status) (v : Word) (d : List Byte) : serialFrame s (endState st v d t) :=
  ⟨h.pins, hjoy, ⟨h.keeps.cfg, h.keeps.inputs, h.keeps.launched, h.contention.trans hcon⟩,
    ⟨h.keeps.fsActive, h.keeps.fsBlock, h.keeps.fsBitmap, fun a => congrArg (·.read a) h.keeps.blkBuf⟩,
    h.keeps.rstAsserted⟩

/-- A frame that stores nothing in either EEPROM changes nothing that the cartridge holds. -/
theorem joyXfer_sameContents {s : State} {tx : List Byte}
    (h : ∀ type n img, (eepromAnswer s.cfg type n img tx).2 = img) (len : Nat) :
    sameContents s (joyXfer tx len s).2 := by
  refine ⟨(joyXfer_keeps tx len s).rom, fun x => ?_⟩
  rw [joyXfer_env]
  obtain ⟨ca, seed, body⟩ := s.env
  cases body with
  | oracle ws replies => cases replies <;> rfl
  | cartridge k =>
    obtain ⟨rom, save⟩ := k
    cases rom with
    | none => rfl
    | some rom => cases save <;> simp [Env.joy, Cart.joy, Env.saveByte, Save.image, h]

/-- The info frame stores nothing (R94). -/
theorem eepromAnswer_info_stores_nothing (c : Params) (type : Byte) (n : Nat) (img : Memory) (cmd : Byte) :
    (eepromAnswer c type n img [cmd]).2 = img := by
  simp only [eepromAnswer]
  split <;> rfl

/-- A frame with no data stores nothing, whatever its command (R94). -/
theorem eepromAnswer_read_stores_nothing (c : Params) (type : Byte) (n : Nat) (img : Memory) (cmd i : Byte) :
    (eepromAnswer c type n img [cmd, i]).2 = img := by
  simp only [eepromAnswer]
  split_ifs <;> rfl

theorem eepReadBlock_sameContents (b : Nat) (s : State) : sameContents s (eepReadBlock b s).2 :=
  joyXfer_sameContents (fun type n img => eepromAnswer_read_stores_nothing s.cfg type n img _ _) _

/-! ### EEPROM_SIZE (R194) -/

/-- The three bytes of an info answer, and the size that the second means. -/
theorem sizeOfInfo_some (c : Params) (idHi type status : Byte) :
    sizeOfInfo c (some [idHi, type, status]) =
      if type = c.joyType16k then c.eeprom16kSize else if type = c.joyType4k then c.eeprom4kSize else 0 := by
  simp [sizeOfInfo]

/-- The state with a size recorded (R43). -/
def recordSize (size : Word) (s : State) : State := { s with eepSize := size }

section
variable {s t : State} (size : Word)

theorem recordSize_contention (h : t.contention = false) : (recordSize size t).contention = false := h

/-- A serial operation's frame says nothing of the recorded size. -/
theorem recordSize_frame {st : Status} {v : Word} {d : List Byte} (h : serialFrame s (endState st v d t)) :
    serialFrame s (endState st v d (recordSize size t)) := h

end

/-- The transaction, with the size recorded and reported. -/
theorem exec_eepromSize {s : State} (hcon : s.contention = false) :
    exec .eepromSize s =
      .next (endState .ok (reported (sizeOfInfo s.cfg (joyXfer [s.cfg.joyCmdInfo] 3 s).1)) []
        (recordSize (reported (sizeOfInfo s.cfg (joyXfer [s.cfg.joyCmdInfo] 3 s).1))
          (joyXfer [s.cfg.joyCmdInfo] 3 s).2)) :=
  finish_next (recordSize_contention _ ((joyXfer_serial _ 3 s).contention.trans hcon)) _ _ _

/-- Settles O29: the one transaction, and what its answer means. -/
theorem eepromSizeRuns : Obligations.EepromSizeRuns := by
  intro s hcon
  obtain ⟨htrace, hjoy, hlen⟩ := joyXfer_spec [s.cfg.joyCmdInfo] 3 s
  have hframe := (joyXfer_serial [s.cfg.joyCmdInfo] 3 s).frame hcon hjoy
  have hsame : sameContents s (joyXfer [s.cfg.joyCmdInfo] 3 s).2 :=
    joyXfer_sameContents (fun type n img => eepromAnswer_info_stores_nothing s.cfg type n img _) 3
  refine ⟨_, (joyXfer [s.cfg.joyCmdInfo] 3 s).1, _, exec_eepromSize hcon, endState_finished _ _ _ _, htrace, rfl, ?_,
    recordSize_frame _ (hframe _ _ _), hsame⟩
  cases hrx : (joyXfer [s.cfg.joyCmdInfo] 3 s).1 with
  | none => exact .inl ⟨rfl, rfl⟩
  | some bs =>
    obtain ⟨idHi, type, status, rfl⟩ := List.length_eq_three.mp (hlen bs hrx)
    exact .inr ⟨idHi, type, status, rfl, sizeOfInfo_some s.cfg idHi type status⟩

/-! ### Single blocks (R195, R196) -/

/-- The state in which a reading operation ends: with the bytes read, or `ABSENT` (R195, R198). -/
def readEnd (r : Option (List Byte) × State) : State :=
  match r.1 with
  | none => endState .absent 0#32 [] r.2
  | some bs => endState .ok 0#32 bs r.2

theorem readEnd_none {r : Option (List Byte) × State} (h : r.1 = none) : readEnd r = endState .absent 0#32 [] r.2 := by
  rw [readEnd, h]

theorem readEnd_some {r : Option (List Byte) × State} {bs : List Byte} (h : r.1 = some bs) :
    readEnd r = endState .ok 0#32 bs r.2 := by
  rw [readEnd, h]

/-- Whichever way it ends, only the result differs. -/
theorem readEnd_eq_endState (r : Option (List Byte) × State) : ∃ st d, readEnd r = endState st 0#32 d r.2 := by
  cases h : r.1 with
  | none => exact ⟨_, _, readEnd_none h⟩
  | some bs => exact ⟨_, _, readEnd_some h⟩

/-- The frame of a reading operation whose body is `r`. -/
theorem readEnd_frame {s : State} {r : Option (List Byte) × State} (h : Serial s r.2) (hcon : s.contention = false)
    (hjoy : r.2.joy = 1#1) (hsame : sameContents s r.2) :
    (readEnd r).trace = r.2.trace ∧ serialFrame s (readEnd r) ∧ (readEnd r).eepSize = s.eepSize ∧
    sameContents s (readEnd r) := by
  obtain ⟨st, d, hend⟩ := readEnd_eq_endState r
  rw [hend]
  exact ⟨rfl, h.frame hcon hjoy _ _ _, h.keeps.eepSize, hsame⟩

/-- The check of R195, and the transaction. -/
theorem exec_readEepromBlock {s : State} (hcon : s.contention = false) (i : Word) :
    exec (.readEepromBlock i) s =
      if i.toNat < s.eepSize.toNat / s.cfg.eepromBlock then .next (readEnd (eepReadBlock i.toNat s))
      else raise (.misuse .range) s := by
  show execReadEepromBlock i s = _
  have hcon' := (eepReadBlock_serial i.toNat s).contention.trans hcon
  rw [execReadEepromBlock]
  split_ifs with hout hin hin
  · omega
  · rfl
  · split
    · next hr => rw [hr] at hcon' ⊢; exact raise_next hcon' _
    · next hr => rw [hr] at hcon' ⊢; exact finish_next hcon' _ _ _
  · omega

/-- Settles O30: the one transaction, and its answer as the result. -/
theorem readEepromBlockRuns : Obligations.ReadEepromBlockRuns := by
  intro s i hcon _
  simp only [exec_readEepromBlock hcon]
  split_ifs with hrange
  · obtain ⟨htrace, hframe, heep, hsame⟩ := readEnd_frame (eepReadBlock_serial i.toNat s) hcon rfl
      (eepReadBlock_sameContents i.toNat s)
    refine ⟨_, (eepReadBlock i.toNat s).1, rfl, htrace.trans (eepReadBlock_trace i.toNat s), ?_, hframe, heep, hsame⟩
    cases hrx : (eepReadBlock i.toNat s).1 with
    | none => exact .inl ⟨rfl, readEnd_none hrx ▸ endState_finished _ _ _ _⟩
    | some bs =>
      exact .inr ⟨bs, rfl, eepReadBlock_length i.toNat s bs hrx, readEnd_some hrx ▸ endState_finished _ _ _ _⟩
  · exact ⟨_, raise_next hcon _, rfl⟩

/-- What a block write ends in: whether an answer came is all that counts (R196). -/
def writeStatus : Bool → Status
  | true => .ok
  | false => .absent

/-- The checks of R196 in their order, and the transaction. -/
theorem exec_writeEepromBlock {s : State} (hcon : s.contention = false) (i : Word) (d : List Byte) :
    exec (.writeEepromBlock i d) s =
      if d.length ≠ s.cfg.eepromBlock then raise (.misuse .bufLen) s
      else if i.toNat < s.eepSize.toNat / s.cfg.eepromBlock then
        .next (endState (writeStatus (eepWriteBlock i.toNat d s).1) 0#32 [] (eepWriteBlock i.toNat d s).2)
      else raise (.misuse .range) s := by
  show execWriteEepromBlock i d s = _
  have hcon' := (eepWriteBlock_serial i.toNat d s).contention.trans hcon
  rw [execWriteEepromBlock]
  refine if_congr Iff.rfl rfl ?_
  split_ifs with hout hin hin
  · omega
  · rfl
  · split
    · next hr => rw [hr] at hcon' ⊢; exact raise_next hcon' _
    · next hr => rw [hr] at hcon' ⊢; exact finish_next hcon' _ _ _
  · omega

/-- Settles O31: the checks decide; then any answer of one byte will do. -/
theorem writeEepromBlockRuns : Obligations.WriteEepromBlockRuns := by
  intro s i d hcon
  simp only [exec_writeEepromBlock hcon]
  split_ifs with hbuf hrange
  · exact ⟨_, raise_next hcon _, rfl⟩
  · have hser := eepWriteBlock_serial i.toNat d s
    obtain ⟨rx, hlen, hflag, htrace⟩ := eepWriteBlock_spec i.toNat d s
    refine ⟨_, rx, rfl, htrace, ?_, hser.frame hcon rfl _ _ _, hser.keeps.eepSize, hser.keeps.rom⟩
    rw [hflag]
    cases rx with
    | none => exact .inl ⟨rfl, endState_finished _ _ _ _⟩
    | some bs =>
      obtain ⟨b, rfl⟩ := List.length_eq_one_iff.mp (hlen bs rfl)
      exact .inr ⟨⟨b, rfl⟩, endState_finished _ _ _ _⟩
  · exact ⟨_, raise_next hcon _, rfl⟩

/-! ### READ_EEPROM_BYTES (R198) -/

section
variable {a l b : Nat} {bs : List Nat} {s : State}

/-- The first block without an answer ends the loop (R198). -/
theorem eepReadBlocks_absent (h : (eepReadBlock b s).1 = none) :
    eepReadBlocks a l (b :: bs) s = (none, (eepReadBlock b s).2) := by
  rw [eepReadBlocks]
  cases hr : eepReadBlock b s with
  | mk rx t =>
    rw [hr] at h
    obtain rfl : rx = none := h
    rfl

/-- A block that answers gives its slice, and the loop goes on (R198). -/
theorem eepReadBlocks_answered {blk : List Byte} (h : (eepReadBlock b s).1 = some blk) :
    eepReadBlocks a l (b :: bs) s =
      ((eepReadBlocks a l bs (eepReadBlock b s).2).1.map
        (slice blk (unitLo s.cfg.eepromBlock a b) (unitHi s.cfg.eepromBlock a l b) ++ ·),
       (eepReadBlocks a l bs (eepReadBlock b s).2).2) := by
  rw [eepReadBlocks]
  cases hr : eepReadBlock b s with
  | mk rx t =>
    rw [hr] at h
    obtain rfl : rx = some blk := h
    rfl

end

theorem eepReadBlocks_sameContents (a l : Nat) (bs : List Nat) (s : State) :
    sameContents s (eepReadBlocks a l bs s).2 := by
  induction bs generalizing s with
  | nil => exact .refl s
  | cons b bs ih =>
    have hblock := eepReadBlock_sameContents b s
    cases hr : (eepReadBlock b s).1 with
    | none => rwa [eepReadBlocks_absent hr]
    | some blk =>
      rw [eepReadBlocks_answered hr]
      exact hblock.trans (ih _)

/-- The line is released after the loop, where it was before or there was a block to read (R190). -/
theorem eepReadBlocks_joy (a l : Nat) {bs : List Nat} {s : State} (h : s.joy = 1#1 ∨ bs ≠ []) :
    (eepReadBlocks a l bs s).2.joy = 1#1 := by
  induction bs generalizing s with
  | nil => exact h.resolve_right (absurd rfl)
  | cons b bs ih =>
    cases hr : (eepReadBlock b s).1 with
    | none =>
      rw [eepReadBlocks_absent hr]
      rfl
    | some blk =>
      rw [eepReadBlocks_answered hr]
      exact ih (.inl rfl)

/-- The part of a block's answer that lies in the range (R198). -/
def answerSlice (u a l : Nat) (x : Nat × Option (List Byte)) : List Byte :=
  slice (x.2.getD []) (unitLo u a x.1) (unitHi u a l x.1)

/-- How the answers to the reads of the blocks make the outcome of R198's loop: the first without one ends it, and
the slices of whole blocks are the data. -/
def readOutcome (u a l : Nat) (bs : List Nat) (rxs : List (Option (List Byte))) : Option (List Byte) → Prop
  | none => rxs.length ≤ bs.length ∧ rxs.getLast? = some none ∧ ∀ rx ∈ rxs.dropLast, rx ≠ none
  | some data => rxs.length = bs.length ∧ (∀ rx ∈ rxs, ∃ blk, rx = some blk ∧ blk.length = u) ∧
      data = (bs.zip rxs).flatMap (answerSlice u a l)

theorem readOutcome_cons {u a l : Nat} {bs : List Nat} {rxs : List (Option (List Byte))} {out : Option (List Byte)}
    (h : readOutcome u a l bs rxs out) (b : Nat) {blk : List Byte} (hlen : blk.length = u) :
    readOutcome u a l (b :: bs) (some blk :: rxs) (out.map (slice blk (unitLo u a b) (unitHi u a l b) ++ ·)) := by
  cases out with
  | none =>
    obtain ⟨hcount, hlast, hbefore⟩ := h
    obtain ⟨rx, rest, rfl⟩ := List.exists_cons_of_ne_nil (l := rxs) (by rintro rfl; cases hlast)
    refine ⟨Nat.succ_le_succ hcount, hlast, ?_⟩
    rw [List.dropLast_cons_cons]
    exact List.forall_mem_cons.mpr ⟨Option.some_ne_none blk, hbefore⟩
  | some data =>
    obtain ⟨hcount, hanswers, rfl⟩ := h
    exact ⟨congrArg (· + 1) hcount, List.forall_mem_cons.mpr ⟨⟨blk, rfl, hlen⟩, hanswers⟩, rfl⟩

/-- The block loop of R198: its transactions, and what their answers make. -/
theorem eepReadBlocks_run (a l : Nat) (bs : List Nat) (s : State) :
    ∃ rxs, (eepReadBlocks a l bs s).2.trace = s.trace ++ (bs.zip rxs).map (fun x => eepReadEvent s.cfg x.1 x.2) ∧
      readOutcome s.cfg.eepromBlock a l bs rxs (eepReadBlocks a l bs s).1 := by
  induction bs generalizing s with
  | nil => exact ⟨[], (List.append_nil _).symm, rfl, fun _ h => absurd h List.not_mem_nil, rfl⟩
  | cons b bs ih =>
    have htrace := eepReadBlock_trace b s
    cases hr : (eepReadBlock b s).1 with
    | none =>
      rw [eepReadBlocks_absent hr, htrace, hr]
      exact ⟨[none], by simp, Nat.succ_le_succ (Nat.zero_le _), rfl, fun _ h => absurd h List.not_mem_nil⟩
    | some blk =>
      obtain ⟨rxs, hrest, hout⟩ := ih (eepReadBlock b s).2
      rw [htrace, hr, (eepReadBlock_serial b s).keeps.cfg] at hrest
      rw [(eepReadBlock_serial b s).keeps.cfg] at hout
      rw [eepReadBlocks_answered hr]
      exact ⟨some blk :: rxs, by simp [hrest], readOutcome_cons hout b (eepReadBlock_length b s blk hr)⟩

/-- The data of a range are as long as the range. -/
theorem readOutcome_length {u a l : Nat} {rxs : List (Option (List Byte))} {data : List Byte} (hu : 0 < u) (hl : 0 < l)
    (h : readOutcome u a l (unitsOf u a l) rxs (some data)) : data.length = l := by
  obtain ⟨hcount, hanswers, rfl⟩ := h
  have hslice : ∀ x ∈ (unitsOf u a l).zip rxs, (answerSlice u a l x).length = unitHi u a l x.1 - unitLo u a x.1 := by
    rintro ⟨b, rx⟩ hx
    obtain ⟨hb, hrx⟩ := List.of_mem_zip hx
    obtain ⟨blk, rfl, hlen⟩ := hanswers rx hrx
    obtain ⟨-, -, -, hle⟩ := unit_slice hu hl hb
    exact slice_length blk (hlen ▸ hle)
  have hunits : ((unitsOf u a l).zip rxs).map Prod.fst = unitsOf u a l := List.map_fst_zip hcount.ge
  have hsum := sum_unit_slices (a := a) hu hl
  rw [← hunits, List.map_map] at hsum
  rw [List.length_flatMap, List.map_congr_left hslice]
  exact hsum

/-- The recorded size is a `u32`, so no range inside it passes 2^32 (R10, R43). -/
theorem outOfRange_eepSize (s : State) (a l : Word) :
    outOfRange s.eepSize.toNat a l = true ↔ s.eepSize.toNat < a.toNat + l.toNat :=
  outOfRange_iff s.eepSize.isLt.le a l

/-- The checks of R198 in their order, and the loop. -/
theorem exec_readEepromBytes {s : State} (hcon : s.contention = false) (a l : Word) :
    exec (.readEepromBytes a l) s =
      if s.eepSize.toNat < a.toNat + l.toNat then raise (.misuse .range) s
      else if l.toNat = 0 then finish .ok 0#32 [] s
      else .next (readEnd
        (eepReadBlocks a.toNat l.toNat (unitsOf s.cfg.eepromBlock a.toNat l.toNat) s)) := by
  show execReadEepromBytes a l s = _
  have hser := eepReadBlocks_serial a.toNat l.toNat (unitsOf s.cfg.eepromBlock a.toNat l.toNat) s
  have hcon' := hser.contention.trans hcon
  rw [execReadEepromBytes]
  refine if_congr (outOfRange_eepSize s a l) rfl (if_congr Iff.rfl rfl ?_)
  split
  · next hr => rw [hr] at hcon' ⊢; exact raise_next hcon' _
  · next hr => rw [hr] at hcon' ⊢; exact finish_next hcon' _ _ _

/-- Settles O33: the checks decide; then the loop's answers are the data, or end it `ABSENT`. -/
theorem readEepromBytesRuns : Obligations.ReadEepromBytesRuns := by
  intro s a l hcon _ hdom
  have hu := (Params.domains_facts hdom).eeprom
  simp only [exec_readEepromBytes hcon]
  split_ifs with hrange hzero
  · exact ⟨_, raise_next hcon _, rfl⟩
  · exact ⟨_, finish_next hcon _ _ _, rfl⟩
  · have hl : 0 < l.toNat := Nat.pos_of_ne_zero hzero
    have hunits := unitsOf_ne_nil s.cfg.eepromBlock a.toNat hl
    obtain ⟨rxs, htrace, hout⟩ := eepReadBlocks_run a.toNat l.toNat (unitsOf s.cfg.eepromBlock a.toNat l.toNat) s
    obtain ⟨hend, hframe, heep, hsame⟩ := readEnd_frame (eepReadBlocks_serial a.toNat l.toNat _ s) hcon
      (eepReadBlocks_joy a.toNat l.toNat (.inr hunits)) (eepReadBlocks_sameContents a.toNat l.toNat _ s)
    refine ⟨_, rxs, rfl, ?_, hframe, heep, hsame⟩
    cases hr : (eepReadBlocks a.toNat l.toNat (unitsOf s.cfg.eepromBlock a.toNat l.toNat) s).1 with
    | none =>
      rw [hr] at hout
      obtain ⟨hcount, hlast, hbefore⟩ := hout
      exact ⟨hcount, hend.trans htrace, .inl ⟨hlast, hbefore, readEnd_none hr ▸ endState_finished _ _ _ _⟩⟩
    | some data =>
      rw [hr] at hout
      have hlen := readOutcome_length hu hl hout
      obtain ⟨hcount, hanswers, hdata⟩ := hout
      exact ⟨hcount.le, hend.trans htrace,
        .inr ⟨hcount, hanswers, data, readEnd_some hr ▸ endState_finished _ _ _ _, hlen, hdata⟩⟩

/-! ### WRITE_AND_VERIFY_EEPROM_BYTES (R199) -/

section
variable {a l b : Nat} {d old : List Byte} {bs : List Nat} {s : State}

/-- A block whose first read has no answer ends the loop (R199). -/
theorem eepWriteBlocks_absent (h : (eepReadBlock b s).1 = none) :
    eepWriteBlocks a l d (b :: bs) s = (some .absent, (eepReadBlock b s).2) := by
  rw [eepWriteBlocks]
  cases hr : eepReadBlock b s with
  | mk rx t =>
    rw [hr] at h
    obtain rfl : rx = none := h
    rfl

/-- The attempts of R199 on block `b`, after its first read from `s` has given `old`. -/
def blockAttempts (a l : Nat) (d : List Byte) (b : Nat) (old : List Byte) (s : State) : Bool × State :=
  eepAttempts b (mergeUnit s.cfg.eepromBlock a l d b old) (1 + s.cfg.eepromMaxRetries) (eepReadBlock b s).2

/-- A block that does not verify is the failing one (R199). -/
theorem eepWriteBlocks_failed (h : (eepReadBlock b s).1 = some old) (hok : (blockAttempts a l d b old s).1 = false) :
    eepWriteBlocks a l d (b :: bs) s = (some (.verifyFail b), (blockAttempts a l d b old s).2) := by
  rw [blockAttempts] at hok ⊢
  rw [eepWriteBlocks]
  cases hr : eepReadBlock b s with
  | mk rx t =>
    rw [hr] at h hok
    obtain rfl : rx = some old := h
    dsimp only at hok ⊢
    split
    · next ha => rw [ha]
    · next ha => rw [ha] at hok; cases hok

/-- After a block that verifies the loop goes on (R199). -/
theorem eepWriteBlocks_verified (h : (eepReadBlock b s).1 = some old)
    (hok : (blockAttempts a l d b old s).1 = true) :
    eepWriteBlocks a l d (b :: bs) s = eepWriteBlocks a l d bs (blockAttempts a l d b old s).2 := by
  rw [blockAttempts] at hok ⊢
  rw [eepWriteBlocks]
  cases hr : eepReadBlock b s with
  | mk rx t =>
    rw [hr] at h hok
    obtain rfl : rx = some old := h
    dsimp only at hok ⊢
    split
    · next ha => rw [ha] at hok; cases hok
    · next ha => rw [ha]

end

theorem eepAttempts_joy (b : Nat) (merged : List Byte) (n : Nat) {s : State} (h : s.joy = 1#1) :
    (eepAttempts b merged n s).2.joy = 1#1 := by
  induction n generalizing s with
  | zero => exact h
  | succ n ih =>
    rw [eepAttempts]
    split
    · rfl
    · exact ih rfl

/-- The line is released after the loop, where it was before or there was a block to write (R190). -/
theorem eepWriteBlocks_joy (a l : Nat) (d : List Byte) {bs : List Nat} {s : State} (h : s.joy = 1#1 ∨ bs ≠ []) :
    (eepWriteBlocks a l d bs s).2.joy = 1#1 := by
  induction bs generalizing s with
  | nil => exact h.resolve_right (absurd rfl)
  | cons b bs ih =>
    cases hr : (eepReadBlock b s).1 with
    | none =>
      rw [eepWriteBlocks_absent hr]
      rfl
    | some old =>
      have hjoy : (blockAttempts a l d b old s).2.joy = 1#1 := eepAttempts_joy _ _ _ rfl
      cases hok : (blockAttempts a l d b old s).1 with
      | false => rwa [eepWriteBlocks_failed hr hok]
      | true =>
        rw [eepWriteBlocks_verified hr hok]
        exact ih (.inl hjoy)

/-- Whichever way it ends, only the result differs. -/
theorem endOf_eq_endState (v : Word) (r : Option Cause × State) : ∃ st w d, endOf v r = endState st w d r.2 := by
  rw [endOf]
  split <;> exact ⟨_, _, _, rfl⟩

theorem endOf_endedWith (v : Word) (r : Option Cause × State) : endedWith (endOf v r) v r.1 := by
  cases h : r.1 with
  | none => exact endOf_none h
  | some cause => exact endOf_some h

/-- The checks of R199 in their order, and the loop. -/
theorem exec_writeAndVerifyEepromBytes {s : State} (hcon : s.contention = false) (a l : Word) (d : List Byte) :
    exec (.writeAndVerifyEepromBytes a l d) s =
      if d.length ≠ l.toNat then raise (.misuse .bufLen) s
      else if s.eepSize.toNat < a.toNat + l.toNat then raise (.misuse .range) s
      else if l.toNat = 0 then finish .ok 0#32 [] s
      else .next (endOf 0#32
        (eepWriteBlocks a.toNat l.toNat d (unitsOf s.cfg.eepromBlock a.toNat l.toNat) s)) :=
  if_congr Iff.rfl rfl (if_congr (outOfRange_eepSize s a l) rfl (if_congr Iff.rfl rfl
    (ofCause_next 0#32 ((eepWriteBlocks_serial a.toNat l.toNat d _ s).contention.trans hcon))))

/-- Settles O35: the checks decide; then the loop makes its transactions and its end is the operation's. -/
theorem writeAndVerifyEepromBytesRuns : Obligations.WriteAndVerifyEepromBytesRuns := by
  intro s a l d hcon
  simp only [exec_writeAndVerifyEepromBytes hcon]
  split_ifs with hbuf hrange hzero
  · exact ⟨_, raise_next hcon _, rfl⟩
  · exact ⟨_, raise_next hcon _, rfl⟩
  · exact ⟨_, finish_next hcon _ _ _, rfl⟩
  · have hunits := unitsOf_ne_nil s.cfg.eepromBlock a.toNat (Nat.pos_of_ne_zero hzero)
    have hser := eepWriteBlocks_serial a.toNat l.toNat d (unitsOf s.cfg.eepromBlock a.toNat l.toNat) s
    have hjoy := eepWriteBlocks_joy a.toNat l.toNat d (s := s) (.inr hunits)
    obtain ⟨es, htrace, hrun⟩ :=
      eepWriteBlocks_run a.toNat l.toNat d (unitsOf s.cfg.eepromBlock a.toNat l.toNat) s
    refine ⟨_, es, _, rfl, endOf_endedWith _ _, hrun, ?_⟩
    obtain ⟨st, v, bytes, hend⟩ := endOf_eq_endState 0#32
      (eepWriteBlocks a.toNat l.toNat d (unitsOf s.cfg.eepromBlock a.toNat l.toNat) s)
    rw [hend]
    exact ⟨htrace, hser.frame hcon hjoy _ _ _, hser.keeps.eepSize, hser.keeps.rom⟩

/-! ### The reference EEPROM (R94, R200) -/

/-- The slot holds a reference EEPROM of `n` blocks, out of reset, with the given ROM and contents. -/
structure EepromSlot (c : Params) (rom : RomImage) (n : Nat) (type : Byte) (img : Memory) (s : State) : Prop where
  cfg : s.cfg = c
  device : ∃ wrap save, refCart s wrap rom save ∧ EepromAt c save img n type

/-- Either device answers a frame by R94 and stays the same device. -/
theorem EepromAt.joy {c : Params} {save : Save} {img : Memory} {n : Nat} {type : Byte} (h : EepromAt c save img n type)
    (rom : RomImage) (tx : List Byte) :
    ∃ save', EepromAt c save' (eepromAnswer c type n img tx).2 n type ∧
      Cart.joy c tx { rom := some rom, save := save } =
        ((eepromAnswer c type n img tx).1, { rom := some rom, save := save' }) := by
  cases h with
  | eep4k => exact ⟨_, .eep4k _, rfl⟩
  | eep16k => exact ⟨_, .eep16k _, rfl⟩

section
variable {c : Params} {rom : RomImage} {n : Nat} {type : Byte} {img : Memory} {s : State}

theorem EepromSlot.endState (h : EepromSlot c rom n type img s) (st : Status) (v : Word) (d : List Byte) :
    EepromSlot c rom n type img (endState st v d s) := by
  obtain ⟨hcfg, hdevice⟩ := h
  exact ⟨hcfg, hdevice⟩

theorem EepromSlot.saveByte (h : EepromSlot c rom n type img s) (x : Nat) : s.env.saveByte x = img.read x := by
  obtain ⟨-, wrap, save, href, he⟩ := h
  rw [href.saveByte]
  cases he <;> rfl

/-- A transaction is answered by R94, and leaves the device with what R94 has it store. -/
theorem joyXfer_slot (h : EepromSlot c rom n type img s) (tx : List Byte) (len : Nat) :
    (joyXfer tx len s).1 = receive len (eepromAnswer c type n img tx).1 ∧
    EepromSlot c rom n type (eepromAnswer c type n img tx).2 (joyXfer tx len s).2 := by
  have hk := joyXfer_keeps tx len s
  obtain ⟨rfl, wrap, save, ⟨⟨hbody, hwrap, hsized⟩, hrst⟩, he⟩ := h
  obtain ⟨save', he', hjoy⟩ := he.joy rom tx
  have hans : s.env.joy s.cfg s.events tx =
      ((eepromAnswer s.cfg type n img tx).1, { s.env with body := .cartridge { rom := some rom, save := save' } }) := by
    simp [Env.joy, hbody, hjoy]
  refine ⟨by rw [joyXfer_reply, hans], hk.cfg, wrap, save', ⟨⟨?_, hwrap, ?_⟩, hrst⟩, he'⟩
  · rw [joyXfer_env, hans]
  · rw [Env.romSized_of_rom hk.rom]
    exact hsized

theorem receive_whole {bs : List Byte} {len : Nat} (h : bs.length = len) : receive len (some bs) = some bs := by
  subst h
  simp [receive]

/-- A block of the device gives its bytes (R94, R195). -/
theorem eepReadBlock_slot (h : EepromSlot c rom n type img s) {b : Nat} (hb : b < n) (hn : n ≤ 256) :
    (eepReadBlock b s).1 = some (imageBytes img (c.eepromBlock * b) c.eepromBlock) ∧
    EepromSlot c rom n type img (eepReadBlock b s).2 := by
  obtain ⟨hrx, hslot⟩ := joyXfer_slot h [c.joyCmdRead, frameIndex b] c.eepromBlock
  rw [eepromAnswer_read c type img hb (hb.trans_le hn)] at hrx hslot
  rw [receive_whole (Memory.readRange_length _ _ _), Memory.readRange_eq_map] at hrx
  rw [eepReadBlock, h.cfg]
  exact ⟨hrx, hslot⟩

/-- A block of the device takes its bytes, and answers (R94, R196). -/
theorem eepWriteBlock_slot (h : EepromSlot c rom n type img s) {b : Nat} (hb : b < n) (hn : n ≤ 256)
    {d : List Byte} (hd : d.length = c.eepromBlock) (hu : 0 < c.eepromBlock) :
    (eepWriteBlock b d s).1 = true ∧
    EepromSlot c rom n type (img.writeRange (c.eepromBlock * b) d) (eepWriteBlock b d s).2 := by
  obtain ⟨hrx, hslot⟩ := joyXfer_slot h (c.joyCmdWrite :: frameIndex b :: d) 1
  rw [eepromAnswer_write c type img hb (hb.trans_le hn) hd hu] at hrx hslot
  rw [eepWriteBlock, h.cfg]
  exact ⟨by rw [hrx]; rfl, hslot⟩

/-- What was written to a range reads back (R94). -/
theorem imageBytes_writeRange (hwf : img.wf = true) (a : Nat) (d : List Byte) :
    imageBytes (img.writeRange a d) a d.length = d := by
  rw [imageBytes_eq_iff]
  intro i hi
  rw [Memory.read_writeRange hwf, if_pos (by omega), Nat.add_sub_cancel_left]
  rfl

/-- The first attempt on a block of the device verifies (R94, R199). -/
theorem eepAttempts_slot (h : EepromSlot c rom n type img s) (hwf : img.wf = true) {b : Nat} (hb : b < n) (hn : n ≤ 256)
    {d : List Byte} (hd : d.length = c.eepromBlock) (hu : 0 < c.eepromBlock) (tries : Nat) :
    (eepAttempts b d (tries + 1) s).1 = true ∧
    EepromSlot c rom n type (img.writeRange (c.eepromBlock * b) d) (eepAttempts b d (tries + 1) s).2 := by
  obtain ⟨hack, hwritten⟩ := eepWriteBlock_slot h hb hn hd hu
  obtain ⟨hback, hslot⟩ := eepReadBlock_slot hwritten hb hn
  have hbytes := imageBytes_writeRange hwf (c.eepromBlock * b) d
  rw [hd] at hbytes
  rw [hbytes] at hback
  have hverified : ((eepWriteBlock b d s).1 && (eepReadBlock b (eepWriteBlock b d s).2).1 == some d) = true := by
    simp [hack, hback]
  rw [eepAttempts, if_pos hverified]
  exact ⟨rfl, hslot⟩

/-- The loop of R198 on blocks of the device gives their bytes in the range. -/
theorem eepReadBlocks_slot (hn : n ≤ 256) (a l : Nat) {bs : List Nat} (hbs : ∀ b ∈ bs, b < n)
    (h : EepromSlot c rom n type img s) :
    (eepReadBlocks a l bs s).1 =
      some (bs.flatMap (fun b => slice (imageBytes img (c.eepromBlock * b) c.eepromBlock) (unitLo c.eepromBlock a b)
        (unitHi c.eepromBlock a l b))) ∧
    EepromSlot c rom n type img (eepReadBlocks a l bs s).2 := by
  induction bs generalizing s with
  | nil => exact ⟨rfl, h⟩
  | cons b bs ih =>
    obtain ⟨hb, hrest⟩ := List.forall_mem_cons.mp hbs
    obtain ⟨hr, hslot⟩ := eepReadBlock_slot h hb hn
    obtain ⟨hdata, hslot'⟩ := ih hrest hslot
    rw [eepReadBlocks_answered hr, hdata, h.cfg]
    exact ⟨rfl, hslot'⟩

end

/-! ### Merged blocks (R199) -/

section
variable {u a l b : Nat} {img : Memory} {d : List Byte}

/-- The slice of a unit of an image is a run of its bytes. -/
theorem slice_unit (hu : 0 < u) (hl : 0 < l) (hb : b ∈ unitsOf u a l) (img : Memory) :
    slice (imageBytes img (u * b) u) (unitLo u a b) (unitHi u a l b) =
      imageBytes img (max a (u * b)) (unitHi u a l b - unitLo u a b) := by
  obtain ⟨hstart, -, hlt, hle⟩ := unit_slice hu hl hb
  have hlen : unitHi u a l b = unitLo u a b + (unitHi u a l b - unitLo u a b) := by omega
  rw [hlen, slice_imageBytes img (u * b) (by omega), hstart, Nat.add_sub_cancel_left]

/-- A merged block is whole: the bytes kept and the caller's bytes (R199). -/
theorem mergeUnit_image (hu : 0 < u) (hl : 0 < l) (hb : b ∈ unitsOf u a l) (hd : d.length = l) (img : Memory) :
    mergeUnit u a l d b (imageBytes img (u * b) u) =
      imageBytes img (u * b) (unitLo u a b) ++ unitData u a l d b ++
        imageBytes img (u * b + unitLo u a b + (unitData u a l d b).length) (u - unitHi u a l b) := by
  obtain ⟨hstart, hend, hlt, hle⟩ := unit_slice hu hl hb
  have hhead := slice_imageBytes img (u * b) (i := 0) (n := unitLo u a b) (k := u) (by omega)
  have htail := slice_imageBytes img (u * b) (i := unitHi u a l b) (n := u - unitHi u a l b) (k := u) (by omega)
  have hlen := unitData_length hu hl hb hd
  have hrest : u * b + unitLo u a b + (unitData u a l d b).length = u * b + unitHi u a l b := by omega
  rw [Nat.zero_add, Nat.add_zero] at hhead
  rw [Nat.add_sub_cancel' hle] at htail
  rw [mergeUnit, hhead, htail, hrest]

theorem mergeUnit_length (hu : 0 < u) (hl : 0 < l) (hb : b ∈ unitsOf u a l) (hd : d.length = l) (img : Memory) :
    (mergeUnit u a l d b (imageBytes img (u * b) u)).length = u := by
  obtain ⟨-, -, hlt, hle⟩ := unit_slice hu hl hb
  have hlen := unitData_length hu hl hb hd
  rw [mergeUnit_image hu hl hb hd, List.length_append, List.length_append, imageBytes_length, imageBytes_length]
  omega

/-- Of a merged block stored over the old one, the caller's bytes change and no other (R199). -/
theorem read_mergeUnit (hwf : img.wf = true) (hu : 0 < u) (hl : 0 < l) (hb : b ∈ unitsOf u a l)
    (hd : d.length = l) (x : Nat) :
    (img.writeRange (u * b) (mergeUnit u a l d b (imageBytes img (u * b) u))).read x =
      if (a ≤ x ∧ x < a + l) ∧ x / u = b then d.getD (x - a) Memory.blank else img.read x := by
  obtain ⟨hstart, hend, hlt, hle⟩ := unit_slice hu hl hb
  have hlen := unitData_length hu hl hb hd
  have hin : u * b + unitLo u a b ≤ x ∧ x < u * b + unitLo u a b + (unitData u a l d b).length ↔
      (a ≤ x ∧ x < a + l) ∧ x / u = b := by
    rw [unit_div_eq hu]
    omega
  rw [mergeUnit_image hu hl hb hd, Memory.read_merged hwf]
  refine if_ctx_congr hin (fun hx => ?_) (fun _ => rfl)
  have hx' := hin.mpr hx
  rw [unitData, getD_slice d (by omega)]
  congr 1
  omega

end

section
variable {c : Params} {rom : RomImage} {n : Nat} {type : Byte} {img : Memory} {s : State}

/-- The loop of R199 on blocks of the device verifies each at once, and stores the caller's bytes in them. -/
theorem eepWriteBlocks_slot (hn : n ≤ 256) (hu : 0 < c.eepromBlock) {a l : Nat} {d : List Byte} (hl : 0 < l)
    (hd : d.length = l) {bs : List Nat} (hbs : ∀ b ∈ bs, b < n ∧ b ∈ unitsOf c.eepromBlock a l)
    (hwf : img.wf = true) (h : EepromSlot c rom n type img s) :
    (eepWriteBlocks a l d bs s).1 = none ∧
    ∃ img', EepromSlot c rom n type img' (eepWriteBlocks a l d bs s).2 ∧
      ∀ x, img'.read x =
        if (a ≤ x ∧ x < a + l) ∧ x / c.eepromBlock ∈ bs then d.getD (x - a) Memory.blank else img.read x := by
  induction bs generalizing s img with
  | nil => exact ⟨rfl, img, h, fun x => (if_neg (fun hx => List.not_mem_nil hx.2)).symm⟩
  | cons b bs ih =>
    obtain ⟨⟨hb, hmem⟩, hrest⟩ := List.forall_mem_cons.mp hbs
    obtain ⟨hr, hslot⟩ := eepReadBlock_slot h hb hn
    have hlen := mergeUnit_length hu hl hmem hd img
    obtain ⟨hok, hslot'⟩ := eepAttempts_slot hslot hwf hb hn hlen hu c.eepromMaxRetries
    have hattempts : blockAttempts a l d b (imageBytes img (c.eepromBlock * b) c.eepromBlock) s =
        eepAttempts b (mergeUnit c.eepromBlock a l d b (imageBytes img (c.eepromBlock * b) c.eepromBlock))
          (c.eepromMaxRetries + 1) (eepReadBlock b s).2 := by
      rw [blockAttempts, h.cfg, Nat.add_comm]
    rw [← hattempts] at hok hslot'
    obtain ⟨hend, img', hslot'', hread⟩ := ih hrest (Memory.wf_writeRange hwf _ _) hslot'
    rw [eepWriteBlocks_verified hr hok]
    refine ⟨hend, img', hslot'', fun x => ?_⟩
    rw [hread, read_mergeUnit hwf hu hl hmem hd, ← ite_or]
    refine if_congr ?_ rfl rfl
    rw [List.mem_cons]
    tauto

end

/-! ### Byte ranges of the reference EEPROM (R200) -/

/-- The slices of the straddled units of an image are the bytes of the range. -/
theorem flatMap_slice_unit {u a l : Nat} (hu : 0 < u) (hl : 0 < l) (img : Memory) :
    (unitsOf u a l).flatMap (fun b => slice (imageBytes img (u * b) u) (unitLo u a b) (unitHi u a l b)) =
      imageBytes img a l := by
  have hparts : ∀ b ∈ unitsOf u a l, slice (imageBytes img (u * b) u) (unitLo u a b) (unitHi u a l b) =
      unitData u a l (imageBytes img a l) b := by
    intro b hb
    obtain ⟨hstart, hend, hlt, hle⟩ := unit_slice hu hl hb
    have hpart := slice_imageBytes img a (i := u * b + unitLo u a b - a) (n := unitHi u a l b - unitLo u a b) (k := l)
      (by omega)
    have hstop : u * b + unitLo u a b - a + (unitHi u a l b - unitLo u a b) = u * b + unitHi u a l b - a := by omega
    have hfrom : a + (u * b + unitLo u a b - a) = max a (u * b) := by omega
    rw [hstop, hfrom] at hpart
    rw [slice_unit hu hl hb, unitData, hpart]
  rw [List.flatMap_congr hparts, flatMap_unitData hu hl (imageBytes_length img a l)]

section
variable {c : Params} {rom : RomImage} {n : Nat} {type : Byte} {img : Memory} {s : State} {a l : Word}

/-- A range inside the device gives its bytes (R198, R200). -/
theorem readEepromBytes_slot (h : EepromSlot c rom n type img s) (hn : n ≤ 256) (hu : 0 < c.eepromBlock)
    (hcon : s.contention = false) (hsize : s.eepSize.toNat = c.eepromBlock * n)
    (hal : a.toNat + l.toNat ≤ s.eepSize.toNat) :
    ∃ t, exec (.readEepromBytes a l) s = .next t ∧ finished t .ok 0#32 (imageBytes img a.toNat l.toNat) ∧
      sameContents s t := by
  rw [exec_readEepromBytes hcon, if_neg (by omega), h.cfg]
  by_cases hzero : l.toNat = 0
  · rw [if_pos hzero, hzero]
    exact ⟨_, finish_next hcon _ _ _, endState_finished _ _ _ _, .refl s⟩
  · have hl : 0 < l.toNat := Nat.pos_of_ne_zero hzero
    obtain ⟨hdata, -⟩ := eepReadBlocks_slot hn a.toNat l.toNat (unitsOf_below hu hl (hsize ▸ hal)) h
    rw [flatMap_slice_unit hu hl] at hdata
    rw [if_neg hzero, readEnd_some hdata]
    exact ⟨_, rfl, endState_finished _ _ _ _, (eepReadBlocks_sameContents _ _ _ s).endState _ _ _⟩

/-- A range inside the device takes its bytes, and every other byte is as before (R199, R200). -/
theorem writeAndVerifyEepromBytes_slot (h : EepromSlot c rom n type img s) (hn : n ≤ 256) (hu : 0 < c.eepromBlock)
    (hwf : img.wf = true) (hcon : s.contention = false) (hsize : s.eepSize.toNat = c.eepromBlock * n)
    (hal : a.toNat + l.toNat ≤ s.eepSize.toNat) {d : List Byte} (hd : d.length = l.toNat) :
    ∃ t img', exec (.writeAndVerifyEepromBytes a l d) s = .next t ∧ finished t .ok 0#32 [] ∧
      EepromSlot c rom n type img' t ∧ t.contention = false ∧ t.eepSize = s.eepSize ∧ t.env.rom = s.env.rom ∧
      ∀ x, img'.read x =
        if a.toNat ≤ x ∧ x < a.toNat + l.toNat then d.getD (x - a.toNat) Memory.blank else img.read x := by
  rw [exec_writeAndVerifyEepromBytes hcon, if_neg (not_not.mpr hd), if_neg (by omega), h.cfg]
  by_cases hzero : l.toNat = 0
  · rw [if_pos hzero]
    exact ⟨_, img, finish_next hcon _ _ _, endState_finished _ _ _ _, h.endState _ _ _, hcon, rfl, rfl,
      fun x => (if_neg (by omega)).symm⟩
  · have hl : 0 < l.toNat := Nat.pos_of_ne_zero hzero
    have hbelow := unitsOf_below hu hl (hsize ▸ hal)
    have hser := eepWriteBlocks_serial a.toNat l.toNat d (unitsOf c.eepromBlock a.toNat l.toNat) s
    obtain ⟨hend, img', hslot, hread⟩ := eepWriteBlocks_slot hn hu hl hd
      (fun b hb => ⟨hbelow b hb, hb⟩) hwf h
    rw [if_neg hzero, endOf, hend]
    refine ⟨_, img', rfl, endState_finished _ _ _ _, hslot.endState _ _ _, hser.contention.trans hcon,
      hser.keeps.eepSize, hser.keeps.rom, fun x => ?_⟩
    rw [hread]
    exact if_congr (and_iff_left_of_imp (div_mem_unitsOf hu)) rfl rfl

end

/-- Settles O36: the write leaves the data in the range of the image, and the read gives the image's bytes. -/
theorem eepromSpliceKeepsOtherBytes : Obligations.EepromSpliceKeepsOtherBytes := by
  intro s a l d rom save img wrap href hsave hwf hcon _ hdom hlen hal
  have hd := Params.domains_facts hdom
  obtain ⟨n, type, he, hsize⟩ :
      ∃ n type, EepromAt s.cfg save img n type ∧ s.eepSize.toNat = s.cfg.eepromBlock * n := by
    rcases hsave with ⟨rfl, hsize, hblocks⟩ | ⟨rfl, hsize, hblocks⟩
    · exact ⟨_, _, .eep4k img, hsize.trans (Nat.mul_div_cancel' (Nat.dvd_of_mod_eq_zero hblocks)).symm⟩
    · exact ⟨_, _, .eep16k img, hsize.trans (Nat.mul_div_cancel' (Nat.dvd_of_mod_eq_zero hblocks)).symm⟩
  have hn := he.blocks_le hd
  have hslot : EepromSlot s.cfg rom n type img s := ⟨rfl, wrap, save, href, he⟩
  obtain ⟨t, img', hwrite, hdone, hslot', hcon', heep, hrom, hbytes⟩ :=
    writeAndVerifyEepromBytes_slot hslot hn hd.eeprom hwf hcon hsize hal hlen
  obtain ⟨u, hread, hback, hsame⟩ := readEepromBytes_slot (a := a) (l := l) hslot' hn hd.eeprom hcon'
    (by rw [heep, hsize]) (by rw [heep]; exact hal)
  have hdata : imageBytes img' a.toNat l.toNat = d := by
    rw [← hlen, imageBytes_eq_iff]
    intro i hi
    rw [hbytes, if_pos (by omega), Nat.add_sub_cancel_left]
    rfl
  rw [hdata] at hback
  exact ⟨t, u, hwrite, hdone, hrom, fun x => by rw [hslot'.saveByte, hbytes, hslot.saveByte]; rfl, hread, hback, hsame⟩

end Sys2Proof.Machine

/-! SUPPORT. The FlashRAM engine (spec/44_flashram.md R240-R263): the checks of each operation as one equation, what
it leaves, and the family settled from the runs of its bodies. -/

namespace Sys2Proof.Machine

/-! ### What an operation that makes bus cycles leaves (R37, R39) -/

section
variable {s t : State} {r : Option Cause × State}

/-- The frame of an operation whose body latched an address. -/
theorem Cycle.frame (h : Cycle s t) (hcon : s.contention = false) (st : Status) (v : Word) (d : List Byte) :
    Machine.settled (endState st v d t) ∧ sameBlock s (endState st v d t) ∧ (endState st v d t).env.rom = s.env.rom :=
  ⟨h.settled, h.keeps.sameBlock h.joy (h.contention.trans hcon) st v d, h.keeps.rom⟩

@[simp] theorem endOf_trace (v : Word) (r : Option Cause × State) : (endOf v r).trace = r.2.trace := by
  obtain ⟨st, w, d, hend⟩ := endOf_eq_endState v r
  rw [hend, endState_trace]

@[simp] theorem endOf_contention (v : Word) (r : Option Cause × State) :
    (endOf v r).contention = r.2.contention := by
  obtain ⟨st, w, d, hend⟩ := endOf_eq_endState v r
  rw [hend, endState_contention]

/-- The same frame where the body may end in a run-time cause. -/
theorem Cycle.frameOf (h : Cycle s r.2) (hcon : s.contention = false) (v : Word) :
    Machine.settled (endOf v r) ∧ sameBlock s (endOf v r) ∧ (endOf v r).env.rom = s.env.rom := by
  obtain ⟨st, w, d, hend⟩ := endOf_eq_endState v r
  rw [hend]
  exact h.frame hcon st w d

end

/-! ### FLASH_COMMAND (R240-R242) -/

theorem FlashKind.takesOperand_iff (k : FlashKind) :
    k.takesOperand = true ↔ k = .eraseSelect ∨ k = .pageSelect := by
  cases k <;> decide

theorem Params.flashWord_eq (c : Params) (k : FlashKind) (p : Half) :
    c.flashWord k p = c.flashCmd k ||| (if k = .eraseSelect ∨ k = .pageSelect then p.zeroExtend 32 else 0#32) := by
  rw [Params.flashWord]
  exact congrArg _ (if_congr (FlashKind.takesOperand_iff k) rfl rfl)

/-- The eight kinds fill `K` of 0 to 7 (R111). -/
theorem FlashKind.ofK_unassigned {k : BitVec 4} (h : 8 ≤ k.toNat) : FlashKind.ofK k = none :=
  List.getElem?_eq_none h

theorem exec_flashCommand_unassigned {k : BitVec 4} (h : 8 ≤ k.toNat) (p : Half) (s : State) :
    exec (.flashCommand k p) s = raise (.misuse .badOperand) s := by
  show execFlashCommand k p s = _
  rw [execFlashCommand, FlashKind.ofK_unassigned h]

/-- Settles O37: every instruction of a kind is `send_command` of that kind, and `send_command` has its trace and its
frame. -/
theorem flashCommandsRun : Obligations.FlashCommandsRun := by
  refine fun s p hcon => ⟨fun x hx => ?_, fun k hk => ?_⟩
  · have hsend : exec x.1 s = finish .ok 0#32 [] (sendCommand x.2 p s) := by
      simp only [List.mem_cons, List.not_mem_nil, or_false] at hx
      rcases hx with rfl | rfl | rfl | rfl | rfl | rfl | rfl | rfl | rfl | rfl | rfl | rfl | rfl | rfl | rfl | rfl <;>
        rfl
    have hcyc := sendCommand_cycle x.2 p s
    obtain ⟨hset, hsame, hrom⟩ := hcyc.frame hcon .ok 0#32 []
    refine ⟨_, hsend.trans (finish_next (hcyc.contention.trans hcon) _ _ _), endState_finished _ _ _ _, ?_, hset,
      sendCommand_gpioOut x.2 p s, hsame, hrom⟩
    rw [← Params.flashWord_eq]
    exact sendCommand_trace x.2 p s
  · exact ⟨_, (exec_flashCommand_unassigned hk p s).trans (raise_next hcon _), rfl⟩

/-! ### Reading the status, and waiting (R243, R244) -/

/-- Settles O38: the response is one burst after the command. -/
theorem flashReadStatusRuns : Obligations.FlashReadStatusRuns := by
  intro s hcon
  obtain ⟨ws, hlen, hbytes, htrace⟩ := readStatus_spec s
  have hcyc := readStatus_cycle s
  refine ⟨_, ws, finish_next (hcyc.contention.trans hcon) _ _ _, ?_, hlen, ?_, hcyc.frame hcon _ _ _⟩
  · rw [← hbytes]
    exact endState_finished _ _ _ _
  · rw [endState_trace, htrace, statusTrace, List.append_assoc]

/-- A poll loop that makes a poll leaves the bus settled (R37). -/
theorem pollReady_cycle {left : Nat} (h : 0 < left) (n : Nat) (s : State) : Cycle s (pollReady left n s).2 := by
  obtain ⟨left, rfl⟩ := Nat.exists_eq_add_of_le' h
  have hcyc := readStatus_cycle s
  simp only [pollReady]
  split_ifs
  · exact hcyc
  · exact hcyc
  · exact ((hcyc.then (sleep_settles _ _)).then (yieldPoint_settles _)).then (pollReady_settles _ _ _)

theorem waitReady_cycle {s : State} (h : 1 ≤ s.cfg.flashPollMax) : Cycle s (waitReady s).2 := pollReady_cycle h 1 s

/-- The state in which `FLASH_WAIT_READY` ends: with the polls used, or with `TIMEOUT` (R244). -/
def waitEnd (c : Params) (w : Option Nat × State) : State :=
  match w.1 with
  | some n => endState .ok (reported n) [] w.2
  | none => endState .timeout (reported c.flashPollMax) [] w.2

theorem waitEnd_some {c : Params} {w : Option Nat × State} {n : Nat} (h : w.1 = some n) :
    waitEnd c w = endState .ok (reported n) [] w.2 := by rw [waitEnd, h]

theorem waitEnd_none {c : Params} {w : Option Nat × State} (h : w.1 = none) :
    waitEnd c w = endState .timeout (reported c.flashPollMax) [] w.2 := by rw [waitEnd, h]

/-- Whichever way the wait ends, only the result differs. -/
theorem waitEnd_eq_endState (c : Params) (w : Option Nat × State) :
    ∃ st v, waitEnd c w = endState st v [] w.2 := by
  cases h : w.1 with
  | some n => exact ⟨_, _, waitEnd_some h⟩
  | none => exact ⟨_, _, waitEnd_none h⟩

theorem exec_flashWaitReady {s : State} (hcon : (waitReady s).2.contention = false) :
    exec .flashWaitReady s = .next (waitEnd s.cfg (waitReady s)) := by
  show execFlashWaitReady s = _
  rw [execFlashWaitReady]
  split
  · next hw => rw [hw] at hcon ⊢; exact finish_next hcon _ _ _
  · next hw => rw [hw] at hcon ⊢; exact raise_next hcon _

/-- Settles O39: the loop runs as R244 says, and how it ended is the result. -/
theorem flashWaitReadyRuns : Obligations.FlashWaitReadyRuns := by
  intro s hcon hok
  have hpolls := (Params.ok_relations hok).polls
  have hcyc := waitReady_cycle hpolls
  obtain ⟨es, htrace, polls, hlen, hends, rfl⟩ := waitReady_run s hpolls
  obtain ⟨st, v, hend⟩ := waitEnd_eq_endState s.cfg (waitReady s)
  refine ⟨_, (waitReady s).1, polls, exec_flashWaitReady (hcyc.contention.trans hcon), hends, hlen,
    by rw [hend, endState_trace, htrace], fun n hn => ?_, fun hn => ?_, hend ▸ hcyc.frame hcon st v []⟩
  · rw [waitEnd_some hn]
    exact endState_finished _ _ _ _
  · rw [waitEnd_none hn]
    exact endState_finished _ _ _ _

/-! ### HAS_FLASHRAM (R246) -/

theorem presenceValue_eq (present : Bool) (id : Byte) :
    presenceValue present id = BitVec.ofNat 32 ((if present = true then 256 else 0) + id.toNat) := by
  apply BitVec.eq_of_toNat_eq
  cases present <;> simp [presenceValue]

/-- Settles O40: a `RESET` before the status read and one after it; byte 7 of the eight decides. -/
theorem hasFlashramRuns : Obligations.HasFlashramRuns := by
  intro s hcon hok hdom
  have hstatus := (Params.domains_facts hdom).status
  have hreset := sendCommand_cycle .reset 0#16 s
  obtain ⟨ws, hlen, hbytes, htrace⟩ := readStatus_spec (sendCommand .reset 0#16 s)
  have hread := hreset.trans (readStatus_cycle _)
  have hcyc := hread.trans (sendCommand_cycle .reset 0#16 _)
  rw [hreset.keeps.cfg] at hlen htrace
  have hseven : 7 < (bytesOfWords ws).length := by
    rw [bytesOfWords_length]
    omega
  have hid : (bytesOfWords ws).getD 7 0x00#8 = (bytesOfWords ws)[7] := by
    rw [List.getD_eq_getElem?_getD, List.getElem?_eq_getElem hseven, Option.getD_some]
  refine ⟨_, ws, (bytesOfWords ws)[7], finish_next (hcyc.contention.trans hcon) _ _ _, by omega,
    List.getElem?_eq_getElem hseven, ?_, ?_, hcyc.frame hcon _ _ _⟩
  · rw [hbytes, hid, presenceValue_eq]
    simp only [List.contains_iff_mem]
    exact endState_finished _ _ _ _
  · rw [endState_trace, sendCommand_trace, hread.keeps.cfg, htrace, sendCommand_trace]

/-! ### READ_FLASHRAM_BYTES (R248) -/

/-- The check of R248, and the read. -/
theorem exec_readFlashramBytes (a l : Word) (s : State) :
    exec (.readFlashramBytes a l) s =
      if s.cfg.flashSize < a.toNat + l.toNat ∨ 2 ^ 32 < a.toNat + l.toNat then raise (.misuse .range) s
      else finish .ok 0#32 (flashRead a.toNat l.toNat s).1 (flashRead a.toNat l.toNat s).2 := by
  show execReadFlashramBytes a l s = _
  simp only [execReadFlashramBytes, outOfRange, Bool.or_eq_true, decide_eq_true_eq]

theorem flashRead_zero (a : Nat) (s : State) : flashRead a 0 s = ([], s) := if_pos rfl

/-- The chunks give their slices: as many bytes as the slices have (R248). -/
theorem flashReadChunks_length (a l : Nat) {cs : List Nat} {s : State} (heven : s.cfg.flashChunk % 2 = 0)
    (hcs : ∀ b ∈ cs, unitHi s.cfg.flashChunk a l b ≤ s.cfg.flashChunk) :
    (flashReadChunks a l cs s).1.length =
      (cs.map (fun b => unitHi s.cfg.flashChunk a l b - unitLo s.cfg.flashChunk a b)).sum := by
  induction cs generalizing s with
  | nil => rfl
  | cons b cs ih =>
    obtain ⟨hb, hrest⟩ := List.forall_mem_cons.mp hcs
    have hcfg := (memRead_keeps (s.cfg.flashBase + b * s.cfg.flashChunk / 2) s.cfg.flashChunk s).cfg
    rw [← hcfg] at heven hrest
    have hlen := memRead_length (s.cfg.flashBase + b * s.cfg.flashChunk / 2) s.cfg.flashChunk s
    rw [flashReadChunks, List.length_append, slice_length _ (by rw [hcfg] at heven; omega), ih heven hrest, hcfg,
      List.map_cons, List.sum_cons]

theorem flashRead_length {s : State} (hok : s.cfg.ok = true) (a : Nat) {l : Nat} (hl : 0 < l) :
    (flashRead a l s).1.length = l := by
  have r := Params.ok_relations hok
  have hcfg := (sendCommand_cycle .readArray 0#16 s).keeps.cfg
  have hin : ∀ b ∈ unitsOf s.cfg.flashChunk a l, unitHi s.cfg.flashChunk a l b ≤ s.cfg.flashChunk := fun b hb => by
    obtain ⟨-, -, -, hle⟩ := unit_slice r.chunk hl hb
    exact hle
  have heven := r.chunk_even
  have hsum := sum_unit_slices r.chunk hl (a := a)
  rw [← hcfg] at hin heven hsum
  rw [flashRead, if_neg hl.ne', ← hcfg, flashReadChunks_length a l heven hin, hsum]

/-- Settles O42: the check decides, and the chunks of an accepted range hold its bytes. -/
theorem readFlashramBytesRuns : Obligations.ReadFlashramBytesRuns := by
  intro s a l hcon hok
  simp only [exec_readFlashramBytes]
  split_ifs with hrange hzero
  · exact ⟨_, raise_next hcon _, rfl⟩
  · rw [hzero, flashRead_zero]
    exact ⟨_, finish_next hcon _ _ _, rfl⟩
  · have hcyc := flashRead_cycle a.toNat l.toNat hzero s
    obtain ⟨es, htrace, hrun⟩ := flashRead_run a.toNat l.toNat s
    exact ⟨_, es, _, finish_next (hcyc.contention.trans hcon) _ _ _, endState_finished _ _ _ _,
      flashRead_length hok _ (Nat.pos_of_ne_zero hzero), hrun, htrace, hcyc.frame hcon _ _ _⟩

/-! ### FLASH_ERASE_BLOCK and FLASH_PROGRAM_PAGE (R252, R254) -/

/-- The check of R252, and the erase. -/
theorem exec_flashEraseBlock {s : State} (hcon : s.contention = false) (b : Word) :
    exec (.flashEraseBlock b) s =
      if s.cfg.flashSize / s.cfg.flashBlock ≤ b.toNat then raise (.misuse .range) s
      else .next (endOf 0#32 (eraseBlock b.toNat s)) :=
  if_congr Iff.rfl rfl (ofCause_next 0#32 ((eraseBlock_cycle b.toNat s).contention.trans hcon))

/-- Settles O44: the check decides, and the erase runs as R252 says. -/
theorem flashEraseBlockRuns : Obligations.FlashEraseBlockRuns := by
  intro s b hcon hok
  simp only [exec_flashEraseBlock hcon]
  split_ifs with hrange
  · exact ⟨_, raise_next hcon _, rfl⟩
  · obtain ⟨es, htrace, hrun⟩ := eraseBlock_run b.toNat s (Params.ok_relations hok).polls
    exact ⟨_, es, _, rfl, endOf_endedWith _ _, hrun, (endOf_trace _ _).trans htrace,
      (eraseBlock_cycle b.toNat s).frameOf hcon 0#32⟩

/-- The checks of R254 in their order, and the page program. -/
theorem exec_flashProgramPage {s : State} (hcon : s.contention = false) (p : Word) (d : List Byte) :
    exec (.flashProgramPage p d) s =
      if d.length ≠ s.cfg.flashPage then raise (.misuse .bufLen) s
      else if s.cfg.flashSize / s.cfg.flashPage ≤ p.toNat then raise (.misuse .range) s
      else .next (endOf 0#32 (programPage p.toNat d s)) :=
  if_congr Iff.rfl rfl (if_congr Iff.rfl rfl
    (ofCause_next 0#32 ((programPage_cycle p.toNat d s).contention.trans hcon)))

/-- Settles O46: the checks decide, and the page program runs as R254 says. -/
theorem flashProgramPageRuns : Obligations.FlashProgramPageRuns := by
  intro s p d hcon hok
  simp only [exec_flashProgramPage hcon]
  split_ifs with hbuf hrange
  · exact ⟨_, raise_next hcon _, rfl⟩
  · exact ⟨_, raise_next hcon _, rfl⟩
  · obtain ⟨es, htrace, hrun⟩ := programPage_run p.toNat d s (Params.ok_relations hok).polls
    exact ⟨_, es, _, rfl, endOf_endedWith _ _, hrun, (endOf_trace _ _).trans htrace,
      (programPage_cycle p.toNat d s).frameOf hcon 0#32⟩

/-! ### WRITE_FLASHRAM_BYTES (R258) -/

/-- The body of R258 leaves what a cycle leaves, the block buffer aside. -/
theorem writeFlashram_cycle {s : State} (hok : s.cfg.ok = true) (a : Nat) {l : Nat} (hl : 0 < l) (d : List Byte) :
    Cycle (dropStream s)
      { (flashWriteBlocks a l d (unitsOf s.cfg.flashBlock a l) (dropStream s)).2 with blkBuf := s.blkBuf } :=
  flashWriteBlocks_cycle a l d _ (unitsOf_ne_nil _ a hl) (dropStream s) (Params.ok_relations hok).block.ne'

/-- The checks of R258 in their order, and the block loop with no stream in flight. -/
theorem exec_writeFlashramBytes {s : State} (hcon : s.contention = false) (hok : s.cfg.ok = true) (a l : Word)
    (d : List Byte) :
    exec (.writeFlashramBytes a l d) s =
      if d.length ≠ l.toNat then raise (.misuse .bufLen) s
      else if s.cfg.flashSize < a.toNat + l.toNat ∨ 2 ^ 32 < a.toNat + l.toNat then raise (.misuse .range) s
      else if l.toNat = 0 then finish .ok 0#32 [] s
      else .next (endOf 0#32 (flashWriteBlocks a.toNat l.toNat d (unitsOf s.cfg.flashBlock a.toNat l.toNat)
        (dropStream s))) := by
  show execWriteFlashramBytes a l d s = _
  have hrange : outOfRange s.cfg.flashSize a l = true ↔
      s.cfg.flashSize < a.toNat + l.toNat ∨ 2 ^ 32 < a.toNat + l.toNat := by
    simp only [outOfRange, Bool.or_eq_true, decide_eq_true_eq]
  refine if_congr Iff.rfl rfl (if_congr hrange rfl ?_)
  split_ifs with hzero
  · rfl
  · exact ofCause_next 0#32 ((writeFlashram_cycle hok a.toNat (Nat.pos_of_ne_zero hzero) d).contention.trans hcon)

/-- Settles O48: the checks decide; then no stream is left, and the block loop runs as R258 says. -/
theorem writeFlashramBytesRuns : Obligations.WriteFlashramBytesRuns := by
  intro s a l d hcon hok
  simp only [exec_writeFlashramBytes hcon hok]
  split_ifs with hbuf hrange hzero
  · exact ⟨_, raise_next hcon _, rfl⟩
  · exact ⟨_, raise_next hcon _, rfl⟩
  · exact ⟨_, finish_next hcon _ _ _, rfl⟩
  · have r := Params.ok_relations hok
    obtain ⟨hkeeps, hjoy, hcon', hset⟩ := writeFlashram_cycle hok a.toNat (Nat.pos_of_ne_zero hzero) d
    obtain ⟨es, htrace, hrun⟩ := flashWriteBlocks_run a.toNat l.toNat d (unitsOf s.cfg.flashBlock a.toNat l.toNat)
      (dropStream s) r.block.ne' r.polls
    refine ⟨_, es, _, rfl, endOf_endedWith _ _, by rwa [endOf_blkBuf], (endOf_trace _ _).trans htrace, ?_⟩
    obtain ⟨st, v, bytes, hend⟩ := endOf_eq_endState 0#32
      (flashWriteBlocks a.toNat l.toNat d (unitsOf s.cfg.flashBlock a.toNat l.toNat) (dropStream s))
    rw [hend]
    exact ⟨hkeeps.fsActive, hkeeps.fsBitmap, hkeeps.fsBlock, hset, hjoy, hkeeps.rstAsserted, hkeeps.eepSize,
      ⟨hkeeps.cfg, hkeeps.inputs, hkeeps.launched, hcon'.trans hcon⟩, hkeeps.rom⟩

/-! ### WRITE_FLASHRAM_SECTOR (R260, R262) -/

/-- The stream that a sector goes to is active and of its block (R262). -/
theorem openStream_block (blk : Nat) (s : State) :
    (openStream blk s).fsActive = true ∧ (openStream blk s).fsBlock = BitVec.ofNat 32 blk := by
  unfold openStream
  split_ifs with hopen
  · simp only [Bool.and_eq_true, beq_iff_eq] at hopen
    obtain ⟨hactive, hblock⟩ := hopen
    exact ⟨hactive, by rw [← hblock, BitVec.ofNat_toNat, BitVec.setWidth_eq]⟩
  · exact ⟨rfl, rfl⟩

/-- The state that a commit starts from: the sector stored, its stream closed (R262). -/
def closeStream (n : Nat) (d : List Byte) (s : State) : State :=
  { s with
    fsActive := false
    fsBlock := BitVec.ofNat 32 (sectorBlock s.cfg n)
    fsBitmap := List.replicate s.cfg.sectorsPerBlock false
    blkBuf := s.blkBuf.writeRange (s.cfg.flashSector * sectorSlot s.cfg n) d }

theorem closeStream_eq (n : Nat) (d : List Byte) (s : State) :
    dropStream (receiveSector n d s) = closeStream n d s := by
  have hblock : (receiveSector n d s).fsBlock = BitVec.ofNat 32 (sectorBlock s.cfg n) :=
    (openStream_block (sectorBlock s.cfg n) s).2
  rw [receiveSector_eq, hblock]
  rfl

/-- The checks of R262 in their order, and what the sector does to its block. -/
theorem exec_writeFlashramSector {s : State} (hcon : s.contention = false) (n : Word) (d : List Byte) :
    exec (.writeFlashramSector n d) s =
      if d.length ≠ s.cfg.flashSector then raise (.misuse .bufLen) s
      else if s.cfg.flashSize / s.cfg.flashSector ≤ n.toNat then raise (.misuse .range) s
      else if false ∉ (receiveSector n.toNat d s).fsBitmap then
        .next (endOf 1#32 (eraseAndProgram (sectorBlock s.cfg n.toNat) (closeStream n.toNat d s)))
      else finish .ok 0#32 [] (receiveSector n.toNat d s) := by
  have hcon' := (eraseAndProgram_cycle (sectorBlock s.cfg n.toNat) (closeStream n.toNat d s)).contention.trans hcon
  rw [← closeStream_eq] at hcon' ⊢
  exact if_congr Iff.rfl rfl (if_congr Iff.rfl rfl (if_congr (all_set_iff _) (ofCause_next 1#32 hcon') rfl))

/-- Settles O50: the sector goes to its slot of the block buffer, its bit to the bitmap of its block's stream. -/
theorem sectorIsBuffered : Obligations.SectorIsBuffered := by
  intro s n d bits hcon _ hwf hd hn hbits hopen
  have hbitmap := (receiveSector_fsBitmap n.toNat d s).trans hbits.symm
  obtain ⟨hactive, hblock⟩ := openStream_block (sectorBlock s.cfg n.toNat) s
  have heq := receiveSector_eq n.toNat d s
  have hcon' : (receiveSector n.toNat d s).contention = false := by rwa [heq]
  refine ⟨endState .ok 0#32 [] (receiveSector n.toNat d s), ?_, endState_finished _ _ _ _, ?_, hactive, hblock,
    hbitmap, fun x => ?_, ?_⟩
  · rw [exec_writeFlashramSector hcon, if_neg (not_not.mpr hd), if_neg (Nat.not_le.mpr hn), hbitmap,
      if_neg (not_not.mpr hopen)]
    exact finish_next hcon' _ _ _
  · rw [heq]
    rfl
  · rw [heq, ← hd]
    exact Memory.read_writeRange hwf _ d x
  · rw [heq]
    exact ⟨⟨⟨rfl, rfl, rfl, rfl, rfl, rfl, rfl⟩, rfl, rfl⟩, rfl, ⟨rfl, rfl, rfl, hcon⟩, rfl⟩

/-- Settles O51: the checks decide; then the stream is closed, and the commit runs as R262 says. -/
theorem lastSectorCommits : Obligations.LastSectorCommits := by
  intro s n d bits hcon hok hbits
  have hbitmap := (receiveSector_fsBitmap n.toNat d s).trans hbits.symm
  simp only [exec_writeFlashramSector hcon, hbitmap]
  split_ifs with hbuf hrange hopen
  · exact ⟨_, raise_next hcon _, rfl⟩
  · exact ⟨_, raise_next hcon _, rfl⟩
  · exact fun hfull => absurd hopen hfull
  · intro _
    obtain ⟨hkeeps, hjoy, hcon', hset⟩ := eraseAndProgram_cycle (sectorBlock s.cfg n.toNat) (closeStream n.toNat d s)
    obtain ⟨es, htrace, hrun⟩ := eraseAndProgram_run (sectorBlock s.cfg n.toNat) (closeStream n.toNat d s)
      (Params.ok_relations hok).polls
    have hblk := hkeeps.blkBuf
    refine ⟨_, es, _, rfl, endOf_endedWith _ _, ?_, (endOf_trace _ _).trans htrace, (endOf_blkBuf _ _).trans hblk, ?_⟩
    · rw [endOf_blkBuf, hblk]
      exact hrun
    · obtain ⟨st, v, bytes, hend⟩ := endOf_eq_endState 1#32
        (eraseAndProgram (sectorBlock s.cfg n.toNat) (closeStream n.toNat d s))
      rw [hend]
      exact ⟨hkeeps.fsActive, hkeeps.fsBitmap, hkeeps.fsBlock, hset, hjoy, hkeeps.rstAsserted, hkeeps.eepSize,
        ⟨hkeeps.cfg, hkeeps.inputs, hkeeps.launched, hcon'.trans hcon⟩, hkeeps.rom⟩

/-! ### Numbers of events (R241, R263) -/

theorem commandTrace_length (c : Params) (k : FlashKind) (p : Half) : (commandTrace c k p).length = 26 :=
  burstWrite_length c.flashCmdAddr _

theorem statusTrace_length {c : Params} (hd : c.Domains) {ws : List Half} (hws : ws.length = c.flashStatusLen / 2) :
    (statusTrace c ws).length = 60 := by
  rw [statusTrace, List.length_append, commandTrace_length, burstRead_length, hws, hd.status]

/-- Sixty events a poll, and a sleep and a yield between two (R244). -/
theorem pollTrace_length {c : Params} (hd : c.Domains) {polls : List (List Half)}
    (hpolls : ∀ ws ∈ polls, ws.length = c.flashStatusLen / 2) :
    (pollTrace c polls).length = 60 * polls.length + 2 * (polls.length - 1) := by
  induction polls with
  | nil => rfl
  | cons ws polls ih =>
    obtain ⟨hws, hrest⟩ := List.forall_mem_cons.mp hpolls
    cases polls with
    | nil => exact statusTrace_length hd hws
    | cons ws' polls =>
      rw [pollTrace, List.length_append, List.length_append, statusTrace_length hd hws, ih hrest]
      · simp only [List.length_cons, List.length_nil]
        omega
      · simp

/-- A wait that ended ready took some number of polls within the bound (R244). -/
theorem waitRun_length {c : Params} (hd : c.Domains) {es : List Event} {n : Nat} (h : waitRun c es (some n)) :
    1 ≤ n ∧ n ≤ c.flashPollMax ∧ es.length = 60 * n + 2 * (n - 1) := by
  obtain ⟨polls, hlen, ⟨-, rfl, hpos, hmax, -⟩, rfl⟩ := h
  exact ⟨hpos, hmax, pollTrace_length hd hlen⟩

/-- A page program that did not time out waited until the chip was ready, and read the page back (R254). -/
theorem pageRun_length {c : Params} (hd : c.Domains) {p : Nat} {d : List Byte} {es : List Event}
    {verdict : Option Cause} (h : pageRun c p d es verdict) (hv : verdict ≠ some (.timeout c.flashPollMax)) :
    ∃ n, 1 ≤ n ∧ n ≤ c.flashPollMax ∧ es.length =
      26 + (14 + 6 * (d.length / 2)) + 26 + 26 + (60 * n + 2 * (n - 1)) + 26 + (14 + 5 * (c.flashPage / 2)) := by
  obtain ⟨we, ready, back, hwait, rfl, ⟨-, -, htime⟩ | ⟨hready, ws, hws, rfl, -⟩⟩ := h
  · exact absurd htime hv
  · obtain ⟨n, rfl⟩ := Option.ne_none_iff_exists'.mp hready
    obtain ⟨hpos, hmax, hlen⟩ := waitRun_length hd hwait
    refine ⟨n, hpos, hmax, ?_⟩
    simp only [List.length_append, commandTrace_length, burstWrite_length, burstRead_length, wordsOfBytes_length, hlen,
      hws]
    omega

/-- Settles O52: each count is the length of the trace that the body appends. -/
theorem flashEventCounts : Obligations.FlashEventCounts := by
  refine ⟨fun k p s => ?_, fun s _ hdom => ?_, fun s n hok hdom hready => ?_, fun s p d hok hdom hpage hlen hv => ?_⟩
  · rw [events_length_of_trace (sendCommand_trace k p s), commandTrace_length]
  · obtain ⟨ws, hws, -, htrace⟩ := readStatus_spec s
    rw [events_length_of_trace htrace, statusTrace_length (Params.domains_facts hdom) hws]
  · obtain ⟨es, htrace, hrun⟩ := waitReady_run s (Params.ok_relations hok).polls
    rw [hready] at hrun
    obtain ⟨-, -, hcount⟩ := waitRun_length (Params.domains_facts hdom) hrun
    rw [events_length_of_trace htrace, hcount]
  · obtain ⟨es, htrace, hrun⟩ := programPage_run p d s (Params.ok_relations hok).polls
    obtain ⟨n, hpos, hmax, hcount⟩ := pageRun_length (Params.domains_facts hdom) hrun hv
    rw [hlen, hpage] at hcount
    exact ⟨n, hpos, hmax, (events_length_of_trace htrace).trans (congrArg _ hcount)⟩

/-! ### Reading the array on the reference FlashRAM (R249) -/

/-- What reads of the array ask of the parameters: no domain. -/
structure ReadsArray (c : Params) : Prop where
  ok : c.ok = true
  commands : commandsApart c
  layout : flashLayout c

theorem Engine.readsArray {c : Params} (he : Engine c) : ReadsArray c := ⟨he.ok, he.commands, he.layout⟩

section
variable {c : Params} {rom : RomImage} {k : FlashChip} {s : State}

/-- `READ_ARRAY` is heard as itself or as the `RESET` that has its word, and either way leaves array mode and stores
nothing (R88, R240). -/
theorem ReadsArray.enters_arrayMode (hr : ReadsArray c) (h : Slot c rom (.flash k) s) (p : Half) :
    ∃ k', Slot c rom (.flash k') (sendCommand .readArray p s) ∧ k'.mode = .array ∧ k.Stays k' := by
  obtain ⟨save', hslot, hcommanded⟩ :=
    sendCommand_slot hr.ok hr.commands (Save.offRegister_flash c k) h .readArray p
  obtain ⟨k', rfl, hstays⟩ := (hcommanded.stays (by decide) (by decide)).of_flash
  refine ⟨k', hslot, ?_, hstays⟩
  obtain ⟨ran, seed, ev, fp, rfl | ⟨-, rfl⟩, hk⟩ := hcommanded.of_flash
  · cases hk
    rfl
  · cases hk
    rfl

/-- The chip in array mode, its pointer `i` words past an offset in the array (R90). -/
def FlashChip.pointsAt (o i : Nat) (k : FlashChip) : FlashChip := { k with fp := some (o + 2 * i) }

theorem Cart.onLatch_pointsAt {o : Nat} (ho : 2 * o < c.flashSize) :
    (Cart.mk (some rom) (.flash k)).onLatch c (c.flashBase + o) = ⟨some rom, .flash (k.pointsAt (2 * o) 0)⟩ := by
  simp only [Cart.onLatch, FlashChip.onLatch, Nat.add_sub_cancel_left]
  rw [if_pos ⟨Nat.le_add_right _ _, ho⟩]
  rfl

theorem FlashChip.word_pointsAt (hmode : k.mode = .array) {o i : Nat} (hin : o + 2 * i + 1 < c.flashSize) (ca : Nat) :
    (k.pointsAt o i).word c ca = some (be16 (k.array.read (o + 2 * i)) (k.array.read (o + (2 * i + 1)))) := by
  simp only [FlashChip.word, FlashChip.pointsAt, hmode, hin, if_true]
  rfl

theorem FlashChip.afterRead_pointsAt (hmode : k.mode = .array) {o i : Nat} (hin : o + 2 * i + 1 < c.flashSize)
    (seed : Nat) (ev : List Event) (ca : Nat) :
    (k.pointsAt o i).afterRead c seed ev ca = k.pointsAt o (i + 1) := by
  simp only [FlashChip.afterRead, FlashChip.pointsAt, hmode, hin, if_true]
  rfl

/-- A burst in array mode gives the bytes at twice its offset, and moves nothing but the chip's pointer (R75, R90). -/
theorem ReadsArray.memRead_bytes (hr : ReadsArray c) (h : Slot c rom (.flash k) s) (hmode : k.mode = .array) {o n : Nat}
    (hn : 0 < n) (hspan : o + 2 * n ≤ c.flashSpan) (hsize : 2 * o + 2 * n ≤ c.flashSize) :
    (memRead (c.flashBase + o) (2 * n) s).1 = imageBytes k.array (2 * o) (2 * n) ∧
    Slot c rom (.flash (k.pointsAt (2 * o) n)) (memRead (c.flashBase + o) (2 * n) s).2 := by
  obtain ⟨rfl, ⟨ca, hcart⟩, hstrobes⟩ := h
  have htop := (Params.ok_relations hr.ok).flash_top
  have hapart : apartFromRom s.cfg (s.cfg.flashBase + o) (2 * n) := by
    have hwindow := hr.layout.1
    unfold apartFromRom at hwindow ⊢
    omega
  have hcyc := latchAddress_cycle (BitVec.ofNat 32 (s.cfg.flashBase + o)) s
  have hca : (BitVec.ofNat 32 (s.cfg.flashBase + o)).toNat = s.cfg.flashBase + o :=
    Nat.mod_eq_of_lt (by omega)
  have hlatch := latchAddress_cart hcart hstrobes (BitVec.ofNat 32 (s.cfg.flashBase + o))
  rw [hca, Cart.onLatch_pointsAt (by omega)] at hlatch
  have hwords : memRead (s.cfg.flashBase + o) (2 * n) s =
      readWords n (latchAddress (BitVec.ofNat 32 (s.cfg.flashBase + o)) s) := by
    rw [memRead, Nat.mul_div_cancel_left n two_pos]
  obtain ⟨hbytes, k', ca', rfl, hend⟩ := readWords_chip (C := fun i k' => k' = k.pointsAt (2 * o) i)
    (f := fun i => k.array.read (2 * o + i)) hcyc.keeps.cfg hlatch hcyc.settled (by omega) hapart rfl
    (by
      rintro i hi _ rfl
      exact ⟨FlashChip.word_pointsAt hmode (by omega) _,
        fun seed ev => FlashChip.afterRead_pointsAt hmode (by omega) seed ev _⟩)
  exact ⟨hwords ▸ hbytes, (memRead_cycle _ (2 * n) s).slot rfl (hwords ▸ hend)⟩

/-- A chunk of the chip lies in its array, and its bus cycles in the window (R9, R75, R248). -/
theorem ReadsArray.chunk_span (hr : ReadsArray c) {b : Nat} (hb : b < c.flashSize / c.flashChunk) :
    2 * (b * c.flashChunk / 2) = c.flashChunk * b ∧ c.flashChunk * b + c.flashChunk ≤ c.flashSize ∧
    b * c.flashChunk / 2 + c.flashChunk ≤ c.flashSpan := by
  have r := Params.ok_relations hr.ok
  have heven : 2 * (b * c.flashChunk / 2) = c.flashChunk * b := by
    rw [Nat.mul_comm c.flashChunk b]
    exact Nat.mul_div_cancel' (Dvd.dvd.mul_left (Nat.dvd_of_mod_eq_zero r.chunk_even) b)
  have hsize : c.flashChunk * b + c.flashChunk ≤ c.flashSize := by
    rw [← Nat.mul_add_one, Nat.mul_comm]
    exact Nat.mul_le_of_le_div _ _ _ hb
  have hchunk := r.chunk
  obtain ⟨-, -, -, hwindow⟩ := c.span_bounds
  obtain ⟨hspan, -⟩ := hwindow (by omega)
  have hparity := r.chunk_even
  exact ⟨heven, hsize, by omega⟩

/-- The chunk loop in array mode gives the slices of the image (R248). -/
theorem flashReadChunks_array (hr : ReadsArray c) (a l : Nat) {cs : List Nat}
    (hcs : ∀ b ∈ cs, b < c.flashSize / c.flashChunk) (h : Slot c rom (.flash k) s) (hmode : k.mode = .array) :
    (flashReadChunks a l cs s).1 = cs.flatMap (fun b => slice (imageBytes k.array (c.flashChunk * b) c.flashChunk)
      (unitLo c.flashChunk a b) (unitHi c.flashChunk a l b)) := by
  induction cs generalizing s k with
  | nil => rfl
  | cons b cs ih =>
    obtain ⟨hb, hrest⟩ := List.forall_mem_cons.mp hcs
    obtain ⟨hstart, hsize, hspan⟩ := hr.chunk_span hb
    have r := Params.ok_relations hr.ok
    obtain ⟨n, hn⟩ := Nat.dvd_of_mod_eq_zero r.chunk_even
    have hpos := r.chunk
    obtain ⟨hbytes, hslot⟩ := hr.memRead_bytes h hmode (o := b * c.flashChunk / 2) (n := n) (by omega) (by omega)
      (by omega)
    rw [hstart, ← hn] at hbytes
    rw [← hn] at hslot
    rw [flashReadChunks, h.cfg, List.flatMap_cons, hbytes, ih hrest hslot hmode]
    rfl

/-- `flash_read` of a range of the chip gives the bytes of the array (R249). -/
theorem flashRead_array (hr : ReadsArray c) (h : Slot c rom (.flash k) s) (a : Nat) {l : Nat} (hl : 0 < l)
    (hsize : a + l ≤ c.flashSize) : (flashRead a l s).1 = imageBytes k.array a l := by
  have r := Params.ok_relations hr.ok
  have hchunks : c.flashChunk ∣ c.flashSize :=
    (Nat.dvd_of_mod_eq_zero r.block_chunk).trans (Nat.dvd_of_mod_eq_zero r.size_block)
  have hbelow := unitsOf_below (n := c.flashSize / c.flashChunk) r.chunk hl
    (by rwa [Nat.mul_div_cancel' hchunks])
  obtain ⟨k', hslot, hmode, hstays⟩ := hr.enters_arrayMode h 0#16
  rw [flashRead, if_neg hl.ne', h.cfg, flashReadChunks_array hr a l hbelow hslot hmode,
    flatMap_slice_unit r.chunk hl, hstays.array]

/-- A range inside the chip gives its bytes, and no byte changes (R248, R249). -/
theorem readFlashramBytes_slot (hr : ReadsArray c) (h : Slot c rom (.flash k) s) (hcon : s.contention = false)
    {a l : Word} (hsize : a.toNat + l.toNat ≤ c.flashSize) (htop : a.toNat + l.toNat ≤ 2 ^ 32) :
    ∃ t, exec (.readFlashramBytes a l) s = .next t ∧ finished t .ok 0#32 (imageBytes k.array a.toNat l.toNat) ∧
      sameContents s t := by
  have hsame := (flashRead_steady hr.ok hr.commands a.toNat l.toNat s).contents (Save.offRegister_flash c k) h
  rw [exec_readFlashramBytes, h.cfg, if_neg (by omega)]
  by_cases hzero : l.toNat = 0
  · rw [hzero, flashRead_zero]
    exact ⟨_, finish_next hcon _ _ _, endState_finished _ _ _ _, .refl s⟩
  · have hcon' := (flashRead_cycle a.toNat l.toNat hzero s).contention.trans hcon
    rw [← flashRead_array hr h a.toNat (Nat.pos_of_ne_zero hzero) hsize]
    exact ⟨_, finish_next hcon' _ _ _, endState_finished _ _ _ _, hsame.endState _ _ _⟩

end

/-- Settles O43: the chunks read in array mode hold the array's bytes, and reads store nothing. -/
theorem readFlashramBytesOnReference : Obligations.ReadFlashramBytesOnReference := by
  intro s a l rom chip href hs hcon hok hcmd hlayout hsize htop
  exact readFlashramBytes_slot ⟨hok, hcmd, hlayout⟩ (href.slot hs) hcon hsize htop

/-! ### Writing a range on the reference FlashRAM (R259) -/

/-- What the chip carries over operations with at most `m` EXECUTEs: canonical memories, no armed erase, readable
answers, and all but `m` of its known `BUSY` draws. -/
structure FlashChip.Carries (c : Params) (m : Nat) (k k' : FlashChip) : Prop where
  array_wf : k'.array.wf = true
  pageBuf_wf : k.pageBuf.wf = true → k'.pageBuf.wf = true
  unarmed : k'.eraseArmed = false
  legible : k.legible c → k'.legible c
  draws : ∀ n, shortDraws c k (m + n) → shortDraws c k' n

section
variable {c : Params} {rom : RomImage} {k k' k'' : FlashChip} {s : State} {m n : Nat}

theorem FlashChip.Carries.refl (hwf : k.array.wf = true) (harm : k.eraseArmed = false) : k.Carries c 0 k :=
  ⟨hwf, id, harm, id, fun n h => by rwa [Nat.zero_add] at h⟩

theorem FlashChip.Carries.trans (h : k.Carries c m k') (g : k'.Carries c n k'') : k.Carries c (m + n) k'' :=
  ⟨g.array_wf, g.pageBuf_wf ∘ h.pageBuf_wf, g.unarmed, g.legible ∘ h.legible,
    fun i hi => g.draws i (h.draws (n + i) (Nat.add_assoc m n i ▸ hi))⟩

theorem FlashChip.Carries.mono (h : k.Carries c m k') (hmn : m ≤ n) : k.Carries c n k' :=
  ⟨h.array_wf, h.pageBuf_wf, h.unarmed, h.legible, fun _ hi => h.draws _ (hi.mono (Nat.add_le_add_right hmn _))⟩

theorem FlashChip.Wrote.carries {image : Nat → Byte} (h : k.Wrote c k' image) : k.Carries c 1 k' :=
  ⟨h.array_wf, h.pageBuf_wf, h.unarmed, h.legible, h.draws⟩

theorem FlashChip.Stays.legible (h : k.Stays k') (hl : k.legible c) : k'.legible c := by
  obtain ⟨hid, hpat⟩ := hl
  exact ⟨h.idBlk ▸ hid, fun p hp => hpat p (h.patScript hp)⟩

theorem FlashChip.Stays.draws (h : k.Stays k') (hd : shortDraws c k n) : shortDraws c k' n := by
  unfold shortDraws at hd ⊢
  rwa [h.busyScript]

/-- Operations that store nothing, before some that do. -/
theorem FlashChip.Stays.carries (h : k.Stays k') (g : k'.Carries c m k'') : k.Carries c m k'' :=
  ⟨g.array_wf, fun hp => g.pageBuf_wf (h.pageBuf ▸ hp), g.unarmed, fun hl => g.legible (h.legible hl),
    fun n hd => g.draws n (h.draws hd)⟩

/-- The slot holds one chip. -/
theorem Slot.chip_unique (h : Slot c rom (.flash k) s) (h' : Slot c rom (.flash k') s) : k = k' := by
  obtain ⟨-, ⟨ca, hcart⟩, -⟩ := h
  obtain ⟨-, ⟨ca', hcart'⟩, -⟩ := h'
  have hbody := hcart.body.symm.trans hcart'.body
  cases hbody
  rfl

/-- The page loop of R256 makes at most one EXECUTE a page. -/
theorem programPages_carries (he : Engine c) (h : Slot c rom (.flash k) s) (hwf : k.array.wf = true)
    (harm : k.eraseArmed = false) (hbuf : k.pageBuf.wf = true) {b : Nat} (hb : b < c.flashSize / c.flashBlock)
    (buf : Memory) {qs : List Nat} (hqs : ∀ q ∈ qs, q < c.pagesPerBlock) :
    ∃ k', Slot c rom (.flash k') (programPages b buf qs s).2 ∧ k.Carries c qs.length k' := by
  induction qs generalizing k s with
  | nil => exact ⟨k, h, .refl hwf harm⟩
  | cons q qs ih =>
    obtain ⟨hq, hrest⟩ := List.forall_mem_cons.mp hqs
    obtain ⟨⟨k1, hslot, hw⟩, -⟩ := programPage_chip he h hwf harm hbuf (he.page_of_block hb hq)
      (d := buf.readRange (q * c.flashPage) c.flashPage) (Memory.readRange_length _ _ _)
    rw [programPages, h.cfg]
    split
    · next hr =>
      rw [hr] at hslot
      obtain ⟨k2, hslot', hcarries⟩ := ih hslot hw.array_wf hw.unarmed (hw.pageBuf_wf hbuf) hrest
      exact ⟨k2, hslot', (hw.carries.trans hcarries).mono (Nat.add_comm 1 qs.length).le⟩
    · next hr =>
      rw [hr] at hslot
      exact ⟨k1, hslot, hw.carries.mono (Nat.le_add_left 1 qs.length)⟩

/-- An erase and a page loop: one EXECUTE, and one a page (R256, R262). -/
theorem eraseAndProgram_carries (he : Engine c) (h : Slot c rom (.flash k) s) (hwf : k.array.wf = true)
    (hbuf : k.pageBuf.wf = true) {b : Nat} (hb : b < c.flashSize / c.flashBlock) :
    ∃ k', Slot c rom (.flash k') (eraseAndProgram b s).2 ∧ k.Carries c (1 + c.pagesPerBlock) k' := by
  obtain ⟨⟨k1, hslot, hw⟩, -⟩ := eraseBlock_chip he h hwf hb
  rw [eraseAndProgram]
  split
  · next hr =>
    rw [hr] at hslot
    exact ⟨k1, hslot, hw.carries.mono (Nat.le_add_right 1 _)⟩
  · next t hr =>
    rw [hr] at hslot
    have hcfg : t.cfg = c := hslot.cfg
    obtain ⟨k2, hslot', hcarries⟩ := programPages_carries he hslot hw.array_wf hw.unarmed (hw.pageBuf_wf hbuf) hb
      t.blkBuf (qs := List.range c.pagesPerBlock) (fun q => List.mem_range.mp)
    rw [programBlock, hcfg]
    rw [List.length_range] at hcarries
    exact ⟨k2, hslot', hw.carries.trans hcarries⟩

/-- The image that R258 assembles: the old bytes of the block, the caller's in their place. -/
theorem read_splicedImage (hok : c.ok = true) {a l b : Nat} (hl : 0 < l) (hb : b ∈ unitsOf c.flashBlock a l)
    {d : List Byte} (hd : d.length = l) (img : Memory) {x : Nat} (hx : x / c.flashBlock = b) :
    (splicedImage c a l d b (imageBytes img (b * c.flashBlock) c.flashBlock)).read (x - b * c.flashBlock) =
      if a ≤ x ∧ x < a + l then d.getD (x - a) Memory.blank else img.read x := by
  have hblock := (Params.ok_relations hok).block
  obtain ⟨hstart, hend, hlt, hle⟩ := unit_slice hblock hl hb
  have hlen := unitData_length hblock hl hb hd
  have hin := (unit_div_eq hblock b x).mp hx
  rw [Nat.mul_comm b]
  rw [splicedImage, Memory.read_writeRange (Memory.wf_ofBytes 0 _), Memory.read_ofBytes, hlen, imageBytes_length]
  by_cases hrange : a ≤ x ∧ x < a + l
  · rw [if_pos (by omega), if_pos hrange, unitData, getD_slice d (by omega)]
    congr 1
    omega
  · rw [if_neg (by omega), if_neg hrange, if_pos (by omega), Nat.sub_zero, getD_imageBytes img _ (by omega)]
    congr 1
    omega

/-- The bytes after the blocks `bs` of a range are written (R259). -/
def FlashChip.splicedByte (c : Params) (a l : Nat) (d : List Byte) (bs : List Nat) (k : FlashChip) (x : Nat) : Byte :=
  if (a ≤ x ∧ x < a + l) ∧ x / c.flashBlock ∈ bs then d.getD (x - a) Memory.blank else k.array.read x

theorem FlashChip.splicedByte_singleton (a l : Nat) (d : List Byte) (b : Nat) (k : FlashChip) (x : Nat) :
    k.splicedByte c a l d [b] x =
      if x / c.flashBlock = b then (if a ≤ x ∧ x < a + l then d.getD (x - a) Memory.blank else k.array.read x)
      else k.array.read x := by
  simp only [FlashChip.splicedByte, List.mem_singleton]
  split_ifs <;> tauto

/-- One more block before the others. -/
theorem FlashChip.splicedByte_cons {a l b : Nat} {d : List Byte}
    (hk : ∀ x, k'.array.read x = k.splicedByte c a l d [b] x) (bs : List Nat) (x : Nat) :
    k'.splicedByte c a l d bs x = k.splicedByte c a l d (b :: bs) x := by
  simp only [FlashChip.splicedByte, hk, List.mem_cons, List.not_mem_nil, or_false]
  split_ifs <;> tauto

theorem Slot.withBuf {save : Save} (h : Slot c rom save s) (buf : Memory) :
    Slot c rom save { s with blkBuf := buf } := by
  obtain ⟨hcfg, ⟨ca, hcart⟩, hstrobes⟩ := h
  exact ⟨hcfg, ⟨ca, hcart.body, hcart.ca, hcart.rst, hcart.wrap⟩, hstrobes⟩

/-- Steps 1 and 2 of R258 on the reference chip: the buffer takes the spliced image, and the chip stays. -/
theorem assembleBlock_chip (he : Engine c) (h : Slot c rom (.flash k) s) (a l : Nat) (d : List Byte) {b : Nat}
    (hb : b < c.flashSize / c.flashBlock) :
    (assembleBlock a l d b s).blkBuf =
      splicedImage c a l d b (imageBytes k.array (b * c.flashBlock) c.flashBlock) ∧
    ∃ k', Slot c rom (.flash k') (assembleBlock a l d b s) ∧ k.Stays k' := by
  have r := Params.ok_relations he.ok
  have hsize : b * c.flashBlock + c.flashBlock ≤ c.flashSize := by
    rw [← Nat.add_one_mul]
    exact Nat.mul_le_of_le_div _ _ _ hb
  have hread := flashRead_array he.readsArray h (b * c.flashBlock) r.block hsize
  obtain ⟨k', hslot, hstays⟩ :=
    (flashRead_steady he.ok he.commands (b * c.flashBlock) c.flashBlock s).chip h
  rw [assembleBlock, h.cfg, hread]
  exact ⟨rfl, k', hslot.withBuf _, hstays⟩

/-- One block of R258 on the reference chip: read, spliced, erased and programmed. -/
theorem writeBlock_chip (he : Engine c) (h : Slot c rom (.flash k) s) (hwf : k.array.wf = true)
    (hbuf : k.pageBuf.wf = true) {a l : Nat} (hl : 0 < l) {d : List Byte} (hd : d.length = l) {b : Nat}
    (hb : b < c.flashSize / c.flashBlock) (hmem : b ∈ unitsOf c.flashBlock a l) :
    (∃ k', Slot c rom (.flash k') (eraseAndProgram b (assembleBlock a l d b s)).2 ∧
      k.Carries c (1 + c.pagesPerBlock) k' ∧
      ((eraseAndProgram b (assembleBlock a l d b s)).1 = none →
        ∀ x, k'.array.read x = k.splicedByte c a l d [b] x)) ∧
    (k.legible c → shortDraws c k (1 + c.pagesPerBlock) →
      (eraseAndProgram b (assembleBlock a l d b s)).1 = none) := by
  have hblock := (Params.ok_relations he.ok).block
  obtain ⟨himage, k1, hslot, hstays⟩ := assembleBlock_chip he h a l d hb
  have hwf1 : k1.array.wf = true := hstays.array ▸ hwf
  have hbuf1 : k1.pageBuf.wf = true := hstays.pageBuf ▸ hbuf
  obtain ⟨k2, hslot2, hcarries⟩ := eraseAndProgram_carries he hslot hwf1 hbuf1 hb
  obtain ⟨hbytes, hready⟩ := eraseAndProgram_chip he hslot hwf1 hbuf1 hb
  refine ⟨⟨k2, hslot2, hstays.carries hcarries, fun hok x => ?_⟩,
    fun hl hd => hready (hstays.legible hl) (hstays.draws hd)⟩
  obtain ⟨k3, hslot3, hread⟩ := hbytes hok
  rw [hslot2.chip_unique hslot3, hread, himage, hstays.array, FlashChip.splicedByte_singleton]
  have hin : b * c.flashBlock ≤ x ∧ x < (b + 1) * c.flashBlock ↔ x / c.flashBlock = b := by
    rw [unit_div_eq hblock, Nat.add_one_mul, Nat.mul_comm b]
  exact if_ctx_congr hin (fun hx => read_splicedImage he.ok hl hmem hd k.array hx) (fun _ => rfl)

/-- The block loop of R258 on the reference chip: ended `OK`, the range holds the data and every other byte is as
before; it ends so where every `BUSY` draw is below the bound. -/
theorem flashWriteBlocks_chip (he : Engine c) (h : Slot c rom (.flash k) s) (hwf : k.array.wf = true)
    (hbuf : k.pageBuf.wf = true) {a l : Nat} (hl : 0 < l) {d : List Byte} (hd : d.length = l) {bs : List Nat}
    (hbs : ∀ b ∈ bs, b < c.flashSize / c.flashBlock ∧ b ∈ unitsOf c.flashBlock a l) :
    ((flashWriteBlocks a l d bs s).1 = none → ∃ k', Slot c rom (.flash k') (flashWriteBlocks a l d bs s).2 ∧
      ∀ x, k'.array.read x = k.splicedByte c a l d bs x) ∧
    (k.legible c → shortDraws c k (bs.length * (1 + c.pagesPerBlock)) →
      (flashWriteBlocks a l d bs s).1 = none) := by
  induction bs generalizing k s with
  | nil => exact ⟨fun _ => ⟨k, h, fun x => (if_neg (fun hx => List.not_mem_nil hx.2)).symm⟩, fun _ _ => rfl⟩
  | cons b bs ih =>
    obtain ⟨⟨hb, hmem⟩, hrest⟩ := List.forall_mem_cons.mp hbs
    obtain ⟨⟨k1, hslot, hcarries, hbytes⟩, hready⟩ := writeBlock_chip he h hwf hbuf hl hd hb hmem
    have hdraws : (b :: bs).length * (1 + c.pagesPerBlock) =
        (1 + c.pagesPerBlock) + bs.length * (1 + c.pagesPerBlock) := by
      rw [List.length_cons, Nat.add_one_mul, Nat.add_comm]
    rw [flashWriteBlocks, hdraws]
    cases hr : eraseAndProgram b (assembleBlock a l d b s) with
    | mk r t =>
      rw [hr] at hslot hbytes hready
      obtain ⟨hend, hnone⟩ := ih hslot hcarries.array_wf (hcarries.pageBuf_wf hbuf) hrest
      cases r with
      | some cause =>
        exact ⟨fun e => (Option.some_ne_none cause e).elim,
          fun hlegible hshort => hready hlegible (hshort.mono (Nat.le_add_right _ _))⟩
      | none =>
        refine ⟨fun e => ?_, fun hlegible hshort => hnone (hcarries.legible hlegible) (hcarries.draws _ hshort)⟩
        obtain ⟨k2, hslot2, hread⟩ := hend e
        exact ⟨k2, hslot2, fun x => (hread x).trans (FlashChip.splicedByte_cons (hbytes rfl) bs x)⟩

theorem Slot.dropStream {save : Save} (h : Slot c rom save s) : Slot c rom save (dropStream s) := by
  obtain ⟨hcfg, ⟨ca, hcart⟩, hstrobes⟩ := h
  exact ⟨hcfg, ⟨ca, hcart.body, hcart.ca, hcart.rst, hcart.wrap⟩, hstrobes⟩

theorem Slot.endOf {save : Save} {r : Option Cause × State} (h : Slot c rom save r.2) (v : Word) :
    Slot c rom save (endOf v r) := by
  obtain ⟨st, w, d, hend⟩ := endOf_eq_endState v r
  rw [hend]
  exact h.endState st w d

/-- Data that stand in the array are what a read of their range returns (R259). -/
theorem readFlashramBytes_data (hr : ReadsArray c) (h : Slot c rom (.flash k) s) (hcon : s.contention = false)
    {a l : Word} (hsize : a.toNat + l.toNat ≤ c.flashSize) (htop : a.toNat + l.toNat ≤ 2 ^ 32) {d : List Byte}
    (hd : d.length = l.toNat) (hbytes : ∀ i, i < d.length → k.array.read (a.toNat + i) = d.getD i 0xFF#8) :
    ∃ t, exec (.readFlashramBytes a l) s = .next t ∧ finished t .ok 0#32 d := by
  obtain ⟨t, hread, hdone, -⟩ := readFlashramBytes_slot hr h hcon hsize htop
  rw [← hd, imageBytes_eq_iff.mpr hbytes] at hdone
  exact ⟨t, hread, hdone⟩

end

/-- Settles O49: each block of the chip that the range straddles is written whole, with the caller's bytes in place of
the old ones; the read of the range then gives the bytes of the array. -/
theorem flashWriteKeepsOtherBytes : Obligations.FlashWriteKeepsOtherBytes := by
  intro s a l d rom chip href hs hcon hok hdom hcmd hlayout hwf hbuf hd hsize htop
  have he : Engine s.cfg := ⟨hok, Params.domains_facts hdom, hcmd, hlayout⟩
  have hslot := href.slot hs
  rw [exec_writeFlashramBytes hcon hok, if_neg (not_not.mpr hd), if_neg (by omega)]
  split_ifs with hzero
  · refine ⟨_, finish_next hcon _ _ _, rfl, fun _ => ⟨fun x => ?_, ?_⟩, fun _ _ => endState_finished _ _ _ _⟩
    · rw [if_neg (by omega), endState_env]
    · exact readFlashramBytes_data he.readsArray (hslot.endState _ _ _) hcon hsize htop hd (by omega)
  · have r := Params.ok_relations hok
    have hl : 0 < l.toNat := Nat.pos_of_ne_zero hzero
    have hbelow := unitsOf_below (n := s.cfg.flashSize / s.cfg.flashBlock) r.block hl
      (by rwa [Nat.mul_div_cancel' (Nat.dvd_of_mod_eq_zero r.size_block)])
    have hcyc := writeFlashram_cycle hok a.toNat hl d
    obtain ⟨hwrote, hready⟩ := flashWriteBlocks_chip he hslot.dropStream hwf hbuf hl hd
      (fun b hb => ⟨hbelow b hb, hb⟩)
    refine ⟨_, rfl, ?_, fun hres => ?_, fun hr hdraws => endOf_none (hready hr.legible hdraws)⟩
    · rw [endOf_env]
      exact hcyc.keeps.rom
    · obtain ⟨k', hslot', hbytes⟩ := hwrote (endOf_ok hres)
      have himage : ∀ x, k'.array.read x =
          if a.toNat ≤ x ∧ x < a.toNat + l.toNat then d.getD (x - a.toNat) 0xFF#8 else chip.array.read x :=
        fun x => (hbytes x).trans (if_congr (and_iff_left_of_imp (div_mem_unitsOf r.block)) rfl rfl)
      have hcon' : (endOf 0#32 _).contention = false := (endOf_contention _ _).trans (hcyc.contention.trans hcon)
      refine ⟨fun x => ?_, readFlashramBytes_data he.readsArray (hslot'.endOf _) hcon' hsize htop hd fun i hi => ?_⟩
      · rw [(hslot'.endOf _).saveByte, href.saveByte]
        exact himage x
      · rw [himage, if_pos (by omega), Nat.add_sub_cancel_left]

end Sys2Proof.Machine

/-! SUPPORT. The decode checks, the end of every operation and the steps that run none (spec/60_exceptions.md
R280-R300; spec/70_reset_and_hazards.md R311, R338, R339), and the family `60_exceptions.md` settled from it. -/

namespace Sys2Proof.Machine

/-! ### Bytes that are no record (R101) -/

theorem ofBytes_eq_none_iff {bytes : List Byte} : Record.ofBytes bytes = none ↔ bytes.length < 12 := by
  unfold Record.ofBytes
  split
  · simp
  · next hshort =>
    refine iff_of_true rfl (Nat.lt_of_not_le fun hlong => ?_)
    refine hshort bytes[0] bytes[1] bytes[2] bytes[3] bytes[4] bytes[5] bytes[6] bytes[7] bytes[8] bytes[9] bytes[10]
      bytes[11] (bytes.drop 12) ?_
    simp only [List.getElem_cons_drop, List.drop_zero]

/-- Bytes too few for a header fail before any check of R287. -/
theorem decode_short {bytes : List Byte} (h : bytes.length < 12) (c : Params) :
    decode c bytes = .error .shortRecord := by
  rw [decode, ofBytes_eq_none_iff.mpr h]

theorem ofBytes_of_whole {bytes : List Byte} (h : 12 ≤ bytes.length) : ∃ r, Record.ofBytes bytes = some r :=
  Option.ne_none_iff_exists'.mp fun e => absurd (ofBytes_eq_none_iff.mp e) (Nat.not_lt.mpr h)

/-- A record with a whole header is rejected for a cause (R287). -/
theorem rejectCause_of_whole {c : Params} {bytes : List Byte} {e : Reject} (hlen : 12 ≤ bytes.length)
    (h : decode c bytes = .error e) : ∃ cause, rejectCause e = some cause := by
  obtain ⟨r, hbytes⟩ := ofBytes_of_whole hlen
  rw [decode, hbytes] at h
  dsimp only [decodeRecord] at h
  split at h
  · cases h; exact ⟨_, rfl⟩
  · split at h
    · cases h; exact ⟨_, rfl⟩
    · split at h
      · cases h; exact ⟨_, rfl⟩
      · cases h

/-! ### Records that have no move (R300, R339) -/

section
variable {s : State} {bytes : List Byte} {rest : List HostMove}

theorem fetchRecord_busy (h : s.opState = .busy) : fetchRecord bytes rest s = .stop .commandWhileBusy := if_pos h

theorem fetchRecord_short (hidle : s.opState = .idle) (h : bytes.length < 12) :
    fetchRecord bytes rest s = .stop .shortRecord := by
  simp [fetchRecord, hidle, decode_short h, rejectCause]

/-- Whatever the decoder makes of it, a run's first record that is not `BUS_INIT` has no move (R339). -/
theorem fetchRecord_first (hidle : s.opState = .idle) (hl : s.launched = false) (hlen : 12 ≤ bytes.length)
    (h : decode s.cfg bytes ≠ .ok .busInit) : fetchRecord bytes rest s = .stop .firstNotBusInit := by
  cases hdecode : decode s.cfg bytes with
  | ok i =>
    have hi : i ≠ .busInit := fun e => h (hdecode.trans (congrArg _ e))
    simp [fetchRecord, hidle, hdecode, hl, hi]
  | error e =>
    obtain ⟨cause, hcause⟩ := rejectCause_of_whole hlen hdecode
    simp [fetchRecord, hidle, hdecode, hcause, hl]

end

/-! ### The inserted cartridge (R86, R95, R297) -/

theorem Env.mapCart_ca (f : Cart → Cart) (e : Env) : (e.mapCart f).ca = e.ca := by
  unfold Env.mapCart
  split <;> rfl

theorem Env.mapCart_oracle {e : Env} {ws : List Half} {rs : List (Option (List Byte))} (h : e.body = .oracle ws rs)
    (f : Cart → Cart) : e.mapCart f = e := by
  rw [Env.mapCart, h]

theorem Env.mapCart_cartridge {f : Cart → Cart} {e : Env} {k : Cart} (h : (e.mapCart f).body = .cartridge k) :
    ∃ k', e.body = .cartridge k' ∧ k = f k' := by
  unfold Env.mapCart at h
  split at h
  · next hbody => rw [hbody] at h; cases h
  · next k' hbody => cases h; exact ⟨k', hbody, rfl⟩

/-- A chip in a cartridge just powered on is at its power-on values (R86). -/
theorem Cart.powerOn_flash {k : Cart} {chip : FlashChip} (h : k.powerOn.save = .flash chip) :
    ∃ chip', chip = FlashChip.powerOn chip' := by
  unfold Cart.powerOn at h
  split at h
  · cases h; exact ⟨_, rfl⟩
  all_goals next hsave => rw [hsave] at h; cases h

/-- The reset line takes a chip to array mode and leaves its selections (R95). -/
theorem Cart.inReset_flash {fp : Option Nat} {k : Cart} {chip : FlashChip}
    (h : (k.inReset fp).save = .flash chip) :
    ∃ chip', k.save = .flash chip' ∧ chip = { chip' with mode := .array, fp := fp } := by
  unfold Cart.inReset at h
  split at h
  · next chip' hsave => cases h; exact ⟨chip', hsave, rfl⟩
  all_goals next hsave => rw [hsave] at h; cases h

/-- What R86 says of a chip at power-on. -/
def FlashChip.fresh (k : FlashChip) : Prop :=
  k.eraseSel = none ∧ k.eraseArmed = false ∧ k.pageSel = none ∧ k.busy = 0 ∧ k.cmdHi = none

theorem FlashChip.powerOn_fresh (k : FlashChip) : k.powerOn.fresh := ⟨rfl, rfl, rfl, rfl, rfl⟩

theorem Env.inserted_ca (ev : List Event) (e : Env) : (e.inserted false ev).ca = e.ca :=
  Env.mapCart_ca Cart.powerOn e

theorem Env.inserted_oracle {e : Env} {ws : List Half} {rs : List (Option (List Byte))} (h : e.body = .oracle ws rs)
    (rst : Bool) (ev : List Event) : (e.inserted rst ev).body = e.body := by
  simp only [Env.inserted, Env.heldInReset, Env.mapCart_oracle h]
  split <;> rfl

/-- The chip of the inserted cartridge is fresh, and in array mode where the reset line is asserted (R86, R95). -/
theorem Env.inserted_chip {rst : Bool} {ev : List Event} {e : Env} {k : Cart} {chip : FlashChip}
    (hk : (e.inserted rst ev).body = .cartridge k) (hchip : k.save = .flash chip) :
    chip.fresh ∧ (rst = true → chip.mode = .array) := by
  cases rst with
  | false =>
    obtain ⟨k', -, rfl⟩ := Env.mapCart_cartridge (e := e) hk
    obtain ⟨chip', rfl⟩ := Cart.powerOn_flash hchip
    exact ⟨chip'.powerOn_fresh, fun h => absurd h (by decide)⟩
  | true =>
    obtain ⟨k', hbody, rfl⟩ := Env.mapCart_cartridge (e := e.mapCart Cart.powerOn) hk
    obtain ⟨k'', -, rfl⟩ := Env.mapCart_cartridge hbody
    obtain ⟨chip', hsave, rfl⟩ := Cart.inReset_flash hchip
    obtain ⟨chip'', rfl⟩ := Cart.powerOn_flash hsave
    exact ⟨chip''.powerOn_fresh, fun _ => rfl⟩

/-! ### Steps that run no operation (R297, R300, R311) -/

theorem step_faulted {s : State} (h : s.contention = true) : step s = .fault .busContention := if_pos h

theorem step_illFormed {s : State} (hc : s.contention = false) (h : s.cfg.ok = false) :
    step s = .refused .illFormedConfig := by
  simp [step, hc, h]

theorem step_noMove {s : State} (hc : s.contention = false) (hok : s.cfg.ok = true) (h : s.inputs = []) :
    step s = .next s := by
  rw [step_eq_outcome hc hok, fetch, h]
  rfl

theorem step_change {s : State} {env : Env} {rest : List HostMove} (hc : s.contention = false)
    (hok : s.cfg.ok = true) (h : s.inputs = .changeCartridge env :: rest) :
    step s = .next (cartridgeChanged env rest s) := by
  rw [step_eq_outcome hc hok, fetch, h]
  rfl

/-- Settles O6: the sequencer decides before any operation, and a cartridge change is an insertion. -/
theorem stepsWithoutAnOperation : Obligations.StepsWithoutAnOperation := by
  refine ⟨fun s => step_faulted, fun s => step_illFormed, ?_, fun s => step_noMove, ?_⟩
  · intro s bytes rest hc hok hmove
    simp only [step_issue hc hok hmove]
    refine ⟨fun hbusy => ?_, fun hidle hshort => ?_, fun hidle hl hlen hfirst => ?_⟩
    · rw [fetchRecord_busy hbusy]
      rfl
    · rw [fetchRecord_short hidle hshort]
      rfl
    · rw [fetchRecord_first hidle hl hlen hfirst]
      rfl
  · intro s env rest hc hok hmove
    refine ⟨env.inserted s.rstAsserted s.events, step_change hc hok hmove, Env.inserted_rom _ _ _,
      Env.inserted_saveByte _ _ _, fun hrst => ?_, fun ws rs hbody => Env.inserted_oracle hbody _ _,
      fun k chip hk hchip => ?_⟩
    · rw [hrst]
      exact Env.inserted_ca _ _
    · obtain ⟨⟨hsel, harmed, hpage, hbusy, hcmd⟩, hmode⟩ := Env.inserted_chip hk hchip
      exact ⟨hsel, harmed, hpage, hbusy, hcmd, hmode⟩

/-! ### The decode checks of R287 -/

/-- Checks 4 to 8 of R287, as an operation makes them once its record is decoded: each opcode has its own. -/
def ownCheck (c : Params) (eep : Word) (dir : Half) (r : Record) : Opcode → Option Cause
  | .flashCommand => if 7 < r.k.toNat then some (.misuse .badOperand) else none
  | .readRomBytes =>
    if r.l.toNat % 2 = 1 then some (.misuse .oddLen)
    else if r.a.toNat % 2 = 1 then some (.misuse .oddAddr)
    else if rangeFails c eep r .readRomBytes then some (.misuse .range)
    else none
  | .readWord => if dir ≠ 0x0000#16 then some (.misuse .busState) else none
  | op => if rangeFails c eep r op then some (.misuse .range) else none

section
variable {c : Params} {eep : Word} {dir : Half} {r : Record} {op : Opcode}

/-- What the first failing check of a list reports. -/
def firstOf (checks : List (Bool × Cause)) : Option Cause :=
  (checks.find? (fun check => check.1)).map (fun check => check.2)

theorem firstOf_cons (b : Bool) (cause : Cause) (checks : List (Bool × Cause)) :
    firstOf ((b, cause) :: checks) = if b then some cause else firstOf checks := by
  cases b <;> rfl

theorem firstOf_nil : firstOf [] = none := rfl

theorem firstFailingCheck_assigned (h : Opcode.ofByte r.op = some op) :
    firstFailingCheck c eep dir r = firstOf (checksOf c eep dir r op) := by
  rw [firstFailingCheck, h]
  rfl

theorem firstFailingCheck_unassigned (h : Opcode.ofByte r.op = none) :
    firstFailingCheck c eep dir r = some .illegalOp := by
  rw [firstFailingCheck, h]

theorem firstFailingCheck_reserved (h : Opcode.ofByte r.op = some op) (hres : r.reserved ≠ 0#3) :
    firstFailingCheck c eep dir r = some (.misuse .badOperand) := by
  rw [firstFailingCheck_assigned h, checksOf, firstOf_cons, if_pos (bne_iff_ne.mpr hres)]

theorem firstFailingCheck_dataLength (h : Opcode.ofByte r.op = some op) (hres : r.reserved = 0#3)
    (hlen : r.d.length ≠ op.dataLength c r.l) : firstFailingCheck c eep dir r = some (.misuse .bufLen) := by
  rw [firstFailingCheck_assigned h, checksOf, firstOf_cons, if_neg (by simp [hres]), firstOf_cons,
    if_pos (bne_iff_ne.mpr hlen)]

/-- Past checks 1 to 3, the operation's own check decides. -/
theorem firstFailingCheck_decoded (h : Opcode.ofByte r.op = some op) (hres : r.reserved = 0#3)
    (hlen : r.d.length = op.dataLength c r.l) : firstFailingCheck c eep dir r = ownCheck c eep dir r op := by
  rw [firstFailingCheck_assigned h, checksOf, firstOf_cons, if_neg (by simp [hres]), firstOf_cons,
    if_neg (by simp [hlen])]
  cases op <;> simp [firstOf_cons, firstOf_nil, ownCheck, rangeFails]

/-! ### The reasons of R289's table -/

theorem badOperand_mem_reasonsOf (op : Opcode) : .badOperand ∈ reasonsOf op := by cases op <;> decide

theorem bufLen_mem_reasonsOf (op : Opcode) : .bufLen ∈ reasonsOf op := by cases op <;> decide

/-- An opcode with a range check lists `RANGE`. -/
theorem range_mem_reasonsOf (h : rangeFails c eep r op = true) : .range ∈ reasonsOf op := by
  cases op <;> simp_all [rangeFails, reasonsOf]

/-- A failing check of an assigned opcode is a `MISUSE` for a reason of its row (R287, R289). -/
theorem reason_of_failingCheck {cause : Cause} (h : Opcode.ofByte r.op = some op)
    (hfails : firstFailingCheck c eep dir r = some cause) : ∃ reason ∈ reasonsOf op, cause = .misuse reason := by
  rw [firstFailingCheck_assigned h, firstOf, Option.map_eq_some_iff] at hfails
  obtain ⟨check, hfound, rfl⟩ := hfails
  have hfails : check.1 = true := List.find?_some hfound
  have hmem := List.mem_of_find?_eq_some hfound
  simp only [checksOf, List.mem_cons, List.not_mem_nil, or_false] at hmem
  rcases hmem with rfl | rfl | rfl | rfl | rfl | rfl | rfl
  · exact ⟨_, badOperand_mem_reasonsOf op, rfl⟩
  · exact ⟨_, bufLen_mem_reasonsOf op, rfl⟩
  · exact ⟨_, badOperand_mem_reasonsOf op, rfl⟩
  · obtain ⟨rfl, -⟩ : op = .readRomBytes ∧ _ := by simpa using hfails
    exact ⟨.oddLen, by decide, rfl⟩
  · obtain ⟨rfl, -⟩ : op = .readRomBytes ∧ _ := by simpa using hfails
    exact ⟨.oddAddr, by decide, rfl⟩
  · exact ⟨_, range_mem_reasonsOf hfails, rfl⟩
  · obtain ⟨rfl, -⟩ : op = .readWord ∧ _ := by simpa using hfails
    exact ⟨.busState, by decide, rfl⟩

end

/-! ### How an operation that has passed its checks ends (R289) -/

/-- The statuses of R289's table for an operation that has passed its checks. -/
def runStatus (op : Opcode) : Status → Prop
  | .ok => True
  | .absent => mayBeAbsent op = true
  | .verifyFail => mayFailVerify op = true
  | .timeout => mayTimeOut op = true
  | .misuse => False
  | .illegalOp => False

/-- R289's table allows such a status, whatever the value. -/
theorem statusAllowed_of_runStatus {op : Opcode} {res : Result} (h : runStatus op res.status) :
    statusAllowed op res := by
  unfold statusAllowed
  cases hs : res.status <;> rw [hs] at h
  case misuse => exact h.elim
  all_goals exact h

/-- The outcome is that of an operation which ends with a status of its opcode's row. -/
def EndsWith (op : Opcode) (o : Outcome) : Prop := ∃ st v d t, o = finish st v d t ∧ runStatus op st

/-- The cause that ends a body, if one does, is of the opcode's row. -/
def Blames (op : Opcode) (verdict : Option Cause) : Prop :=
  ∀ cause, verdict = some cause → runStatus op cause.status

/-- How an operation whose checks report `check` ends: a failing check decides alone, in the state it found; with
none failing the end has a status of the opcode's row. -/
def Obeys (s : State) (op : Opcode) (o : Outcome) : Option Cause → Prop
  | some cause => o = raise cause s
  | none => EndsWith op o

/-- The next state of a finished operation holds the result it wrote (R30, R280). -/
theorem result_of_finish {st : Status} {v : Word} {d : List Byte} {s t : State} (h : finish st v d s = .next t) :
    t.result = { status := st, value := v, data := d } := by
  rw [finish, conclude] at h
  split at h
  · cases h
  · cases h; rfl

section
variable {op : Opcode} {s t : State} {o o' : Outcome}

theorem EndsWith.ok (v : Word) (d : List Byte) (t : State) : EndsWith op (finish .ok v d t) :=
  ⟨.ok, v, d, t, rfl, trivial⟩

theorem EndsWith.raise {cause : Cause} (h : runStatus op cause.status) : EndsWith op (raise cause t) :=
  ⟨cause.status, cause.value, [], t, rfl, h⟩

theorem EndsWith.ite {p : Prop} [Decidable p] (h : EndsWith op o) (h' : EndsWith op o') :
    EndsWith op (if p then o else o') := by
  split
  · exact h
  · exact h'

/-- A body that ends in `OK` or in a run-time cause. -/
theorem EndsWith.ofCause (v : Word) (r : Option Cause × State) : Blames op r.1 →
    EndsWith op (match r with
      | (none, s') => Machine.finish .ok v [] s'
      | (some cause, s') => Machine.raise cause s') :=
  match r with
  | (none, _) => fun _ => .ok _ _ _
  | (some cause, _) => fun h => .raise (h cause rfl)

theorem EndsWith.result (h : EndsWith op o) (ho : o = .next t) : runStatus op t.result.status := by
  obtain ⟨st, v, d, u, rfl, hst⟩ := h
  rwa [result_of_finish ho]

/-- A check that the operation makes at entry, and the checks after it. -/
theorem Obeys.guard {p q : Prop} [Decidable p] [Decidable q] {cause : Cause} {check : Option Cause} (h : p ↔ q)
    (hrest : Obeys s op o check) :
    Obeys s op (if p then Machine.raise cause s else o) (if q then some cause else check) := by
  by_cases hp : p
  · rw [if_pos hp, if_pos (h.mp hp)]
    rfl
  · rw [if_neg hp, if_neg (mt h.mpr hp)]
    exact hrest

/-- A check the decoder has made before. -/
theorem Obeys.passed {p : Prop} [Decidable p] {o' : Outcome} {check : Option Cause} (h : ¬ p)
    (hrest : Obeys s op o check) : Obeys s op (if p then o' else o) check := by
  rwa [if_neg h]

end

/-! ### The causes of the loops -/

section
variable {op : Opcode}

theorem Blames.none : Blames op none := fun _ h => absurd h (by simp)

theorem Blames.some {cause : Cause} (h : runStatus op cause.status) : Blames op (some cause) := by
  rintro _ ⟨⟩
  exact h

theorem eepWriteBlocks_blames (habsent : mayBeAbsent op = true) (hverify : mayFailVerify op = true) (a l : Nat)
    (d : List Byte) (bs : List Nat) (s : State) : Blames op (eepWriteBlocks a l d bs s).1 := by
  induction bs generalizing s with
  | nil => exact .none
  | cons b bs ih =>
    cases hr : (eepReadBlock b s).1 with
    | none =>
      rw [eepWriteBlocks_absent hr]
      exact .some habsent
    | some old =>
      cases hok : (blockAttempts a l d b old s).1 with
      | false =>
        rw [eepWriteBlocks_failed hr hok]
        exact .some hverify
      | true =>
        rw [eepWriteBlocks_verified hr hok]
        exact ih _

theorem eraseBlock_blames (htimeout : mayTimeOut op = true) (b : Nat) (s : State) : Blames op (eraseBlock b s).1 := by
  simp only [eraseBlock]
  split
  · exact .none
  · exact .some htimeout

theorem programPage_blames (htimeout : mayTimeOut op = true) (hverify : mayFailVerify op = true) (p : Nat)
    (d : List Byte) (s : State) : Blames op (programPage p d s).1 := by
  simp only [programPage]
  split
  · dsimp only
    split
    · exact .none
    · exact .some hverify
  · exact .some htimeout

theorem programPages_blames (htimeout : mayTimeOut op = true) (hverify : mayFailVerify op = true) (b : Nat)
    (buf : Memory) (qs : List Nat) (s : State) : Blames op (programPages b buf qs s).1 := by
  induction qs generalizing s with
  | nil => exact .none
  | cons q qs ih =>
    have h := programPage_blames htimeout hverify (b * s.cfg.pagesPerBlock + q)
      (buf.readRange (q * s.cfg.flashPage) s.cfg.flashPage) s
    rw [programPages]
    split
    · exact ih _
    · next hr => rw [hr] at h; exact h

theorem eraseAndProgram_blames (htimeout : mayTimeOut op = true) (hverify : mayFailVerify op = true) (b : Nat)
    (s : State) : Blames op (eraseAndProgram b s).1 := by
  have h := eraseBlock_blames htimeout b s
  rw [eraseAndProgram]
  split
  · next hr => rw [hr] at h; exact h
  · exact programPages_blames htimeout hverify _ _ _ _

theorem flashWriteBlocks_blames (htimeout : mayTimeOut op = true) (hverify : mayFailVerify op = true) (a l : Nat)
    (d : List Byte) (bs : List Nat) (s : State) : Blames op (flashWriteBlocks a l d bs s).1 := by
  induction bs generalizing s with
  | nil => exact .none
  | cons b bs ih =>
    have h := eraseAndProgram_blames htimeout hverify b (assembleBlock a l d b s)
    rw [flashWriteBlocks]
    split
    · next hr => rw [hr] at h; exact h
    · exact ih _

end

/-! ### Every operation obeys its checks -/

section
variable {s : State} {r : Record}

theorem romSpace_le {c : Params} (hok : c.ok = true) : c.romSpace ≤ 2 ^ 32 := by
  have htop := (Params.ok_relations hok).rom_top
  obtain ⟨hspan, -⟩ := c.span_bounds
  omega

theorem execReadWord_obeys :
    Obeys s .readWord (execReadWord s) (ownCheck s.cfg s.eepSize s.gpioDir r .readWord) :=
  .guard Iff.rfl (.ok _ _ _)

theorem execReadRomBytes_obeys (hok : s.cfg.ok = true) :
    Obeys s .readRomBytes (execReadRomBytes r.a r.l s)
      (ownCheck s.cfg s.eepSize s.gpioDir r .readRomBytes) :=
  .guard Nat.mod_two_ne_zero (.guard Nat.mod_two_ne_zero
    (.guard ((outOfRange_iff (romSpace_le hok) r.a r.l).trans decide_eq_true_iff.symm) (.ok _ _ _)))

theorem execReadSramBytes_obeys (hok : s.cfg.ok = true) :
    Obeys s .readSramBytes (execReadSramBytes r.a r.l s)
      (ownCheck s.cfg s.eepSize s.gpioDir r .readSramBytes) :=
  .guard ((outOfRange_iff (sramSize_le hok) r.a r.l).trans decide_eq_true_iff.symm) (.ok _ _ _)

theorem execWriteSramBytes_obeys (hok : s.cfg.ok = true) (hlen : r.d.length = r.l.toNat) :
    Obeys s .writeSramBytes (execWriteSramBytes r.a r.l r.d s)
      (ownCheck s.cfg s.eepSize s.gpioDir r .writeSramBytes) :=
  .passed (not_not.mpr hlen)
    (.guard ((outOfRange_iff (sramSize_le hok) r.a r.l).trans decide_eq_true_iff.symm) (.ok _ _ _))

theorem execReadEepromBlock_obeys :
    Obeys s .readEepromBlock (execReadEepromBlock r.a s)
      (ownCheck s.cfg s.eepSize s.gpioDir r .readEepromBlock) := by
  refine .guard decide_eq_true_iff.symm ?_
  split
  · exact .raise rfl
  · exact .ok _ _ _

theorem execWriteEepromBlock_obeys (hlen : r.d.length = s.cfg.eepromBlock) :
    Obeys s .writeEepromBlock (execWriteEepromBlock r.a r.d s)
      (ownCheck s.cfg s.eepSize s.gpioDir r .writeEepromBlock) := by
  refine .passed (not_not.mpr hlen) (.guard decide_eq_true_iff.symm ?_)
  split
  · exact .raise rfl
  · exact .ok _ _ _

theorem execReadEepromBytes_obeys :
    Obeys s .readEepromBytes (execReadEepromBytes r.a r.l s)
      (ownCheck s.cfg s.eepSize s.gpioDir r .readEepromBytes) := by
  refine .guard ((outOfRange_eepSize s r.a r.l).trans decide_eq_true_iff.symm) (.ite (.ok _ _ _) ?_)
  split
  · exact .raise rfl
  · exact .ok _ _ _

theorem execWriteAndVerifyEepromBytes_obeys (hlen : r.d.length = r.l.toNat) :
    Obeys s .writeAndVerifyEepromBytes (execWriteAndVerifyEepromBytes r.a r.l r.d s)
      (ownCheck s.cfg s.eepSize s.gpioDir r .writeAndVerifyEepromBytes) :=
  .passed (not_not.mpr hlen) (.guard ((outOfRange_eepSize s r.a r.l).trans decide_eq_true_iff.symm)
    (.ite (.ok _ _ _) (.ofCause _ _ (eepWriteBlocks_blames rfl rfl _ _ _ _ _))))

/-- A field `K` that names no kind fails check 4; the rows of the others send their command (R242). -/
theorem exec_flashCommandOf_obeys :
    Obeys s .flashCommand (exec (flashCommandOf r.k r.w) s)
      (ownCheck s.cfg s.eepSize s.gpioDir r .flashCommand) := by
  by_cases hk : 7 < r.k.toNat
  · rw [flashCommandOf_raw hk, exec_flashCommand_unassigned hk, ownCheck, if_pos hk]
    rfl
  · rw [ownCheck, if_neg hk, flashCommandOf]
    split
    · next hnone => exact absurd (List.getElem?_eq_none_iff.mp hnone) hk
    all_goals exact .ok _ _ _

theorem execFlashWaitReady_obeys :
    Obeys s .flashWaitReady (execFlashWaitReady s)
      (ownCheck s.cfg s.eepSize s.gpioDir r .flashWaitReady) := by
  show EndsWith _ _
  unfold execFlashWaitReady
  split
  · exact .ok _ _ _
  · exact .raise rfl

/-- A FlashRAM range fails check 7 past the chip's end or past 2^32 (R10; log 40). -/
theorem outOfRange_flash_iff :
    outOfRange s.cfg.flashSize r.a r.l = true ↔ rangeFails s.cfg s.eepSize r .readFlashramBytes = true := by
  simp [outOfRange, rangeFails]

theorem execReadFlashramBytes_obeys :
    Obeys s .readFlashramBytes (execReadFlashramBytes r.a r.l s)
      (ownCheck s.cfg s.eepSize s.gpioDir r .readFlashramBytes) :=
  .guard outOfRange_flash_iff (.ok _ _ _)

theorem execFlashEraseBlock_obeys :
    Obeys s .flashEraseBlock (execFlashEraseBlock r.a s)
      (ownCheck s.cfg s.eepSize s.gpioDir r .flashEraseBlock) :=
  .guard decide_eq_true_iff.symm (.ofCause _ _ (eraseBlock_blames rfl _ _))

theorem execFlashProgramPage_obeys (hlen : r.d.length = s.cfg.flashPage) :
    Obeys s .flashProgramPage (execFlashProgramPage r.a r.d s)
      (ownCheck s.cfg s.eepSize s.gpioDir r .flashProgramPage) :=
  .passed (not_not.mpr hlen)
    (.guard decide_eq_true_iff.symm (.ofCause _ _ (programPage_blames rfl rfl _ _ _)))

theorem execWriteFlashramBytes_obeys (hlen : r.d.length = r.l.toNat) :
    Obeys s .writeFlashramBytes (execWriteFlashramBytes r.a r.l r.d s)
      (ownCheck s.cfg s.eepSize s.gpioDir r .writeFlashramBytes) :=
  .passed (not_not.mpr hlen) (.guard outOfRange_flash_iff
    (.ite (.ok _ _ _) (.ofCause _ _ (flashWriteBlocks_blames rfl rfl _ _ _ _ _))))

theorem execWriteFlashramSector_obeys (hlen : r.d.length = s.cfg.flashSector) :
    Obeys s .writeFlashramSector (execWriteFlashramSector r.a r.d s)
      (ownCheck s.cfg s.eepSize s.gpioDir r .writeFlashramSector) :=
  .passed (not_not.mpr hlen) (.guard decide_eq_true_iff.symm
    (.ite (.ofCause _ _ (eraseAndProgram_blames rfl rfl _ _)) (.ok _ _ _)))

/-- The operation of a decoded record makes checks 4 to 8 of R287, and then ends with a status of its row. -/
theorem exec_build_obeys (hok : s.cfg.ok = true) : (op : Opcode) → r.d.length = op.dataLength s.cfg r.l →
    Obeys s op (exec (op.build r) s) (ownCheck s.cfg s.eepSize s.gpioDir r op)
  | .busInit, _ => .ok _ _ _
  | .setDirection, _ => .ok _ _ _
  | .latchAddress, _ => .ok _ _ _
  | .readWord, _ => execReadWord_obeys
  | .writeWord, _ => .ok _ _ _
  | .assertReset, _ => .ok _ _ _
  | .readRomBytes, _ => execReadRomBytes_obeys hok
  | .detectRomSize, _ => .ok _ _ _
  | .hasSram, _ => .ok _ _ _
  | .readSramBytes, _ => execReadSramBytes_obeys hok
  | .writeSramBytes, hlen => execWriteSramBytes_obeys hok hlen
  | .eepromSize, _ => .ok _ _ _
  | .readEepromBlock, _ => execReadEepromBlock_obeys
  | .writeEepromBlock, hlen => execWriteEepromBlock_obeys hlen
  | .readEepromBytes, _ => execReadEepromBytes_obeys
  | .writeAndVerifyEepromBytes, hlen => execWriteAndVerifyEepromBytes_obeys hlen
  | .flashCommand, _ => exec_flashCommandOf_obeys
  | .flashReadStatus, _ => .ok _ _ _
  | .flashWaitReady, _ => execFlashWaitReady_obeys
  | .hasFlashram, _ => .ok _ _ _
  | .readFlashramBytes, _ => execReadFlashramBytes_obeys
  | .flashEraseBlock, _ => execFlashEraseBlock_obeys
  | .flashProgramPage, hlen => execFlashProgramPage_obeys hlen
  | .writeFlashramBytes, hlen => execWriteFlashramBytes_obeys hlen
  | .writeFlashramSector, hlen => execWriteFlashramSector_obeys hlen

end

/-! ### The end of a record (R287, R289) -/

/-- How a record with a whole header ends when it is taken in the state `s`: rejected by the decoder, refused by its
operation's own check, or run. -/
inductive RecordEnds (s : State) (bytes : List Byte) (r : Record) : Prop where
  | rejected (e : Reject) (cause : Cause) (hdecode : decode s.cfg bytes = .error e)
      (hcause : rejectCause e = some cause) (hfails : firstFailingCheck s.cfg s.eepSize s.gpioDir r = some cause)
  | refused (i : Instr) (cause : Cause) (hdecode : decode s.cfg bytes = .ok i)
      (hfails : firstFailingCheck s.cfg s.eepSize s.gpioDir r = some cause) (hexec : exec i s = raise cause s)
  | ran (i : Instr) (op : Opcode) (hop : Opcode.ofByte r.op = some op) (hdecode : decode s.cfg bytes = .ok i)
      (hpasses : firstFailingCheck s.cfg s.eepSize s.gpioDir r = none) (hexec : EndsWith op (exec i s))

theorem recordEnds {s : State} {bytes : List Byte} {r : Record} (hok : s.cfg.ok = true)
    (hbytes : Record.ofBytes bytes = some r) : RecordEnds s bytes r := by
  have hdecode : decode s.cfg bytes = decodeRecord s.cfg r := by rw [decode, hbytes]
  cases hop : Opcode.ofByte r.op with
  | none => exact .rejected _ _ (decode_illegalOp s.cfg hbytes hop) rfl (firstFailingCheck_unassigned hop)
  | some op =>
    simp only [decodeRecord, hop] at hdecode
    by_cases hres : r.reserved = 0#3
    · rw [if_neg (not_not.mpr hres)] at hdecode
      by_cases hlen : r.d.length = op.dataLength s.cfg r.l
      · rw [if_neg (not_not.mpr hlen)] at hdecode
        have hobeys := exec_build_obeys hok op hlen
        rw [← firstFailingCheck_decoded hop hres hlen] at hobeys
        cases hcheck : firstFailingCheck s.cfg s.eepSize s.gpioDir r with
        | some cause =>
          rw [hcheck] at hobeys
          exact .refused _ _ hdecode hcheck hobeys
        | none =>
          rw [hcheck] at hobeys
          exact .ran _ op hop hdecode hcheck hobeys
      · rw [if_pos hlen] at hdecode
        exact .rejected _ _ hdecode rfl (firstFailingCheck_dataLength hop hres hlen)
    · rw [if_pos hres] at hdecode
      exact .rejected _ _ hdecode rfl (firstFailingCheck_reserved hop hres)

theorem runStatus_ne {op : Opcode} {st : Status} (h : runStatus op st) : st ≠ .misuse ∧ st ≠ .illegalOp := by
  constructor <;> rintro rfl <;> exact h

/-- Settles O7: the decoder makes checks 1 to 3, and the operation it decodes to its own. -/
theorem decodeChecksInOrder : Obligations.DecodeChecksInOrder := by
  intro s bytes rest r hc hok hidle hl hmove hbytes
  have hstep := step_issue hc hok hmove
  cases recordEnds (s := acceptRecord rest s) hok hbytes with
  | rejected e cause hdecode hcause hfails =>
    rw [acceptRecord_cfg, acceptRecord_eepSize, acceptRecord_gpioDir] at hfails
    rw [hfails, hstep, fetchRecord_rejected hidle hdecode hcause hl]
    exact ⟨_, raise_next (s := acceptRecord rest s) hc cause, rfl⟩
  | refused i cause hdecode hfails hexec =>
    rw [acceptRecord_cfg, acceptRecord_eepSize, acceptRecord_gpioDir] at hfails
    rw [hfails, hstep, fetchRecord_run hidle hdecode (.inl hl)]
    exact ⟨_, hexec.trans (raise_next (s := acceptRecord rest s) hc cause), rfl⟩
  | ran i op hop hdecode hpasses hexec =>
    rw [acceptRecord_cfg, acceptRecord_eepSize, acceptRecord_gpioDir] at hpasses
    rw [hpasses, hstep, fetchRecord_run hidle hdecode (.inl hl)]
    exact ⟨i, hdecode, rfl, fun t ht => runStatus_ne (hexec.result ht)⟩

/-- A step at a record that answers a next state has rejected the record, or run what it decodes to. -/
theorem step_issue_next {s t : State} {bytes : List Byte} {rest : List HostMove} (h : s.inputs = .issue bytes :: rest)
    (ht : step s = .next t) : s.cfg.ok = true ∧
      ((∃ e cause, decode s.cfg bytes = .error e ∧ rejectCause e = some cause ∧
          raise cause (acceptRecord rest s) = .next t) ∨
        ∃ i, decode s.cfg bytes = .ok i ∧ exec i (acceptRecord rest s) = .next t) := by
  cases hc : s.contention with
  | true => rw [step_faulted hc] at ht; cases ht
  | false =>
    cases hok : s.cfg.ok with
    | false => rw [step_illFormed hc hok] at ht; cases ht
    | true =>
      refine ⟨rfl, ?_⟩
      rw [step_issue hc hok h, fetchRecord] at ht
      split at ht
      · cases ht
      split at ht
      · next i hdecode =>
        split at ht
        · exact .inr ⟨i, hdecode, ht⟩
        · cases ht
      · next e hdecode =>
        split at ht
        · cases ht
        · next cause hcause =>
          split at ht
          · exact .inl ⟨e, cause, hdecode, hcause, ht⟩
          · cases ht

/-- A cause that a failing check reports is one of the opcode's row, and `ILLEGAL_OP` where there is none. -/
theorem failingCheck_allowed {c : Params} {eep : Word} {dir : Half} {r : Record} {cause : Cause}
    (h : firstFailingCheck c eep dir r = some cause) {res : Result}
    (hres : res = { status := cause.status, value := cause.value, data := [] }) :
    match Opcode.ofByte r.op with
    | none => res.status = .illegalOp
    | some op => statusAllowed op res := by
  subst hres
  cases hop : Opcode.ofByte r.op with
  | none =>
    rw [firstFailingCheck_unassigned hop] at h
    cases h
    rfl
  | some op =>
    obtain ⟨reason, hmem, rfl⟩ := reason_of_failingCheck hop h
    exact ⟨reason, hmem, rfl⟩

/-- Settles O8: a failing check is one of the opcode's row, and an operation that runs ends with a status of it. -/
theorem statusesOfEachOperation : Obligations.StatusesOfEachOperation := by
  intro s t bytes rest r hmove hbytes ht
  obtain ⟨hok, hend⟩ := step_issue_next hmove ht
  cases recordEnds (s := acceptRecord rest s) hok hbytes with
  | rejected e cause hdecode hcause hfails =>
    rcases hend with ⟨e', cause', hdecode', hcause', ho⟩ | ⟨i, hdecode', -⟩
    · cases hdecode.symm.trans hdecode'
      cases hcause.symm.trans hcause'
      exact failingCheck_allowed hfails (result_of_finish ho)
    · cases hdecode.symm.trans hdecode'
  | refused i cause hdecode hfails hexec =>
    rcases hend with ⟨e', cause', hdecode', -⟩ | ⟨i', hdecode', ho⟩
    · cases hdecode.symm.trans hdecode'
    · cases hdecode.symm.trans hdecode'
      exact failingCheck_allowed hfails (result_of_finish (hexec.symm.trans ho))
  | ran i op hop hdecode hpasses hexec =>
    rcases hend with ⟨e', cause', hdecode', -⟩ | ⟨i', hdecode', ho⟩
    · cases hdecode.symm.trans hdecode'
    · cases hdecode.symm.trans hdecode'
      rw [hop]
      exact statusAllowed_of_runStatus (hexec.result ho)

/-! ### What the bodies keep, whatever the state (R39, R40, R83) -/

theorem probeMirrors_keeps (fp : List Byte) (ks : List Nat) (s : State) : Keeps s (probeMirrors fp ks s).2 := by
  induction ks generalizing s with
  | nil => exact .refl s
  | cons k ks ih =>
    have h := romRead_keeps (k * s.cfg.romProbeStep) s.cfg.romFpLen s
    simp only [probeMirrors]
    split
    · exact h
    · exact h.trans (ih _)

theorem detectRom_keeps (s : State) : Keeps s (detectRom s).2 :=
  (romRead_keeps _ _ s).trans (probeMirrors_keeps _ _ _)

theorem sramReadWords_keeps (o n : Nat) (s : State) : Keeps s (sramReadWords o n s).2 := by
  unfold sramReadWords
  cases burstPieces s.cfg.sramBurst o n with
  | nil => exact .refl s
  | cons p ps => exact (sramReadPieces_cycle (p :: ps) (List.cons_ne_nil p ps) s).keeps

theorem sramWriteWords_keeps (o : Nat) (v : List Byte) (s : State) : Keeps s (sramWriteWords o v s) := by
  unfold sramWriteWords
  cases burstPieces s.cfg.sramBurst o v.length with
  | nil => exact .refl s
  | cons p ps => exact (sramWritePieces_cycle o v (p :: ps) (List.cons_ne_nil p ps) s).keeps

theorem sramRead_keeps (a l : Nat) (s : State) : Keeps s (sramRead a l s).2 := by
  unfold sramRead
  split
  · exact .refl s
  · exact sramReadWords_keeps _ _ s

theorem sramHead_keeps (a : Nat) (s : State) : Keeps s (sramHead a s).2 := by
  unfold sramHead
  split
  · exact sramReadWords_keeps _ _ s
  · exact .refl s

theorem sramTail_keeps (a l : Nat) (s : State) : Keeps s (sramTail a l s).2 := by
  unfold sramTail
  split
  · exact sramReadWords_keeps _ _ s
  · exact .refl s

theorem sramWrite_keeps (a l : Nat) (d : List Byte) (s : State) : Keeps s (sramWrite a l d s) := by
  unfold sramWrite
  split
  · exact .refl s
  · exact ((sramHead_keeps a s).trans (sramTail_keeps a l _)).trans (sramWriteWords_keeps _ _ _)

theorem pollReady_keeps (left n : Nat) (s : State) : Keeps s (pollReady left n s).2 := by
  cases left with
  | zero => exact .refl s
  | succ left => exact (pollReady_cycle left.succ_pos n s).keeps

theorem flashRead_keeps (a l : Nat) (s : State) : Keeps s (flashRead a l s).2 := by
  by_cases h : l = 0
  · subst h
    exact .refl s
  · exact (flashRead_cycle a l h s).keeps

/-! ### What an operation keeps, its own registers aside (R27, R32-R35, R43) -/

/-- The two operations that write the streamed write's state (R258, R262). -/
def WritesStream (i : Instr) : Prop :=
  (∃ a l d, i = .writeFlashramBytes a l d) ∨ ∃ n d, i = .writeFlashramSector n d

/-- What the body of an instruction keeps: each register but those that are its own. -/
structure Frame (i : Instr) (s t : State) : Prop where
  cfg : t.cfg = s.cfg
  inputs : t.inputs = s.inputs
  launched : t.launched = s.launched
  grows : ∃ es, t.events = es ++ s.events
  rom : t.env.rom = s.env.rom
  rstAsserted : (∀ active, i ≠ .assertReset active) → t.rstAsserted = s.rstAsserted
  eepSize : i ≠ .eepromSize → t.eepSize = s.eepSize
  stream : ¬ WritesStream i →
    t.fsActive = s.fsActive ∧ t.fsBlock = s.fsBlock ∧ t.fsBitmap = s.fsBitmap ∧ t.blkBuf = s.blkBuf

section
variable {i : Instr} {s t u : State}

theorem Keeps.frame (k : Keeps s t) : Frame i s t :=
  ⟨k.cfg, k.inputs, k.launched, k.grows, k.rom, fun _ => k.rstAsserted, fun _ => k.eepSize,
    fun _ => ⟨k.fsActive, k.fsBlock, k.fsBitmap, k.blkBuf⟩⟩

theorem Frame.trans (h : Frame i s t) (k : Frame i t u) : Frame i s u where
  cfg := k.cfg.trans h.cfg
  inputs := k.inputs.trans h.inputs
  launched := k.launched.trans h.launched
  grows := by
    obtain ⟨e1, h1⟩ := h.grows
    obtain ⟨e2, h2⟩ := k.grows
    exact ⟨e2 ++ e1, by rw [h2, h1, List.append_assoc]⟩
  rom := k.rom.trans h.rom
  rstAsserted := fun hi => (k.rstAsserted hi).trans (h.rstAsserted hi)
  eepSize := fun hi => (k.eepSize hi).trans (h.eepSize hi)
  stream := fun hi => by
    obtain ⟨ha, hb, hm, hbuf⟩ := h.stream hi
    obtain ⟨ka, kb, km, kbuf⟩ := k.stream hi
    exact ⟨ka.trans ha, kb.trans hb, km.trans hm, kbuf.trans hbuf⟩

theorem setReset_frame (active : Bool) (s : State) : Frame (.assertReset active) s (setReset active s) where
  cfg := rfl
  inputs := rfl
  launched := rfl
  grows := ⟨[], rfl⟩
  rom := by
    rw [setReset_env]
    split
    · exact Env.heldInReset_rom _ _
    · rfl
  rstAsserted := fun h => absurd rfl (h active)
  eepSize := fun _ => rfl
  stream := fun _ => ⟨rfl, rfl, rfl, rfl⟩

theorem recordSize_ownFrame (size : Word) (s : State) : Frame .eepromSize s (recordSize size s) :=
  ⟨rfl, rfl, rfl, ⟨[], rfl⟩, rfl, fun _ => rfl, fun h => absurd rfl h, fun _ => ⟨rfl, rfl, rfl, rfl⟩⟩

theorem dropStream_frame (hi : WritesStream i) (s : State) : Frame i s (dropStream s) :=
  ⟨rfl, rfl, rfl, ⟨[], rfl⟩, rfl, fun _ => rfl, fun _ => rfl, fun h => absurd hi h⟩

theorem receiveSector_frame (hi : WritesStream i) (n : Nat) (d : List Byte) (s : State) :
    Frame i s (receiveSector n d s) := by
  rw [receiveSector_eq]
  exact ⟨rfl, rfl, rfl, ⟨[], rfl⟩, rfl, fun _ => rfl, fun _ => rfl, fun h => absurd hi h⟩

theorem blkBuf_frame (hi : WritesStream i) (buf : Memory) (s : State) : Frame i s { s with blkBuf := buf } :=
  ⟨rfl, rfl, rfl, ⟨[], rfl⟩, rfl, fun _ => rfl, fun _ => rfl, fun h => absurd hi h⟩

theorem assembleBlock_frame (hi : WritesStream i) (a l : Nat) (d : List Byte) (b : Nat) (s : State) :
    Frame i s (assembleBlock a l d b s) :=
  (flashRead_keeps _ _ s).frame.trans (blkBuf_frame hi _ _)

theorem flashWriteBlocks_frame (hi : WritesStream i) (a l : Nat) (d : List Byte) (bs : List Nat) (s : State) :
    Frame i s (flashWriteBlocks a l d bs s).2 := by
  induction bs generalizing s with
  | nil => exact (Keeps.refl s).frame
  | cons b bs ih =>
    have h := (assembleBlock_frame hi a l d b s).trans (eraseAndProgram_cycle b _).keeps.frame
    simp only [flashWriteBlocks]
    split
    · next hr => rw [hr] at h; exact h
    · next hr => rw [hr] at h; exact h.trans (ih _)

end

/-! ### Every operation ends in its frame (R280) -/

section
variable (s : State)

theorem execReadWord_keeps : Ends (execReadWord s) (Keeps s) :=
  .ite (.raise _ (.refl s)) (.finish _ _ _ (readWord_keeps s))

theorem execAssertReset_frame (active : Bool) : Ends (execAssertReset active s) (Frame (.assertReset active) s) :=
  .finish _ _ _ ((setReset_frame active s).trans ((ctrl_keeps _ _ _).trans (delay_keeps _ _)).frame)

theorem execReadRomBytes_keeps (a l : Word) : Ends (execReadRomBytes a l s) (Keeps s) :=
  .ite (.raise _ (.refl s)) (.ite (.raise _ (.refl s)) (.ite (.raise _ (.refl s))
    (.finish _ _ _ (romRead_keeps _ _ s))))

theorem execReadSramBytes_keeps (a l : Word) : Ends (execReadSramBytes a l s) (Keeps s) :=
  .ite (.raise _ (.refl s)) (.finish _ _ _ (sramRead_keeps _ _ s))

theorem execWriteSramBytes_keeps (a l : Word) (d : List Byte) : Ends (execWriteSramBytes a l d s) (Keeps s) :=
  .ite (.raise _ (.refl s)) (.ite (.raise _ (.refl s)) (.finish _ _ _ (sramWrite_keeps _ _ _ s)))

theorem execEepromSize_frame : Ends (execEepromSize s) (Frame .eepromSize s) :=
  .finish _ _ _ ((joyXfer_keeps [s.cfg.joyCmdInfo] 3 s).frame.trans (recordSize_ownFrame _ _))

theorem execReadEepromBlock_keeps (b : Word) : Ends (execReadEepromBlock b s) (Keeps s) := by
  have h := (eepReadBlock_serial b.toNat s).keeps
  refine .ite (.raise _ (.refl s)) ?_
  split
  · next hr => rw [hr] at h; exact .raise _ h
  · next hr => rw [hr] at h; exact .finish _ _ _ h

theorem execWriteEepromBlock_keeps (b : Word) (d : List Byte) : Ends (execWriteEepromBlock b d s) (Keeps s) := by
  have h := (eepWriteBlock_serial b.toNat d s).keeps
  refine .ite (.raise _ (.refl s)) (.ite (.raise _ (.refl s)) ?_)
  split
  · next hr => rw [hr] at h; exact .raise _ h
  · next hr => rw [hr] at h; exact .finish _ _ _ h

theorem execReadEepromBytes_keeps (a l : Word) : Ends (execReadEepromBytes a l s) (Keeps s) := by
  have h := (eepReadBlocks_serial a.toNat l.toNat (unitsOf s.cfg.eepromBlock a.toNat l.toNat) s).keeps
  refine .ite (.raise _ (.refl s)) (.ite (.finish _ _ _ (.refl s)) ?_)
  split
  · next hr => rw [hr] at h; exact .raise _ h
  · next hr => rw [hr] at h; exact .finish _ _ _ h

theorem execWriteAndVerifyEepromBytes_keeps (a l : Word) (d : List Byte) :
    Ends (execWriteAndVerifyEepromBytes a l d s) (Keeps s) :=
  .ite (.raise _ (.refl s)) (.ite (.raise _ (.refl s)) (.ite (.finish _ _ _ (.refl s))
    (.ofCause _ _ (eepWriteBlocks_serial _ _ _ _ s).keeps)))

theorem execFlashCommand_keeps (k : BitVec 4) (p : Half) : Ends (execFlashCommand k p s) (Keeps s) := by
  unfold execFlashCommand
  split
  · exact .raise _ (.refl s)
  · exact .finish _ _ _ (sendCommand_cycle _ _ s).keeps

theorem execFlashWaitReady_keeps : Ends (execFlashWaitReady s) (Keeps s) := by
  have h : Keeps s (waitReady s).2 := pollReady_keeps _ _ s
  unfold execFlashWaitReady
  split
  · next hr => rw [hr] at h; exact .finish _ _ _ h
  · next hr => rw [hr] at h; exact .raise _ h

theorem execHasFlashram_keeps : Ends (execHasFlashram s) (Keeps s) :=
  .finish _ _ _ (((sendCommand_cycle _ _ s).trans (readStatus_cycle _)).trans (sendCommand_cycle _ _ _)).keeps

theorem execReadFlashramBytes_keeps (a l : Word) : Ends (execReadFlashramBytes a l s) (Keeps s) :=
  .ite (.raise _ (.refl s)) (.finish _ _ _ (flashRead_keeps _ _ s))

theorem execFlashEraseBlock_keeps (b : Word) : Ends (execFlashEraseBlock b s) (Keeps s) :=
  .ite (.raise _ (.refl s)) (.ofCause _ _ (eraseBlock_cycle _ s).keeps)

theorem execFlashProgramPage_keeps (p : Word) (d : List Byte) : Ends (execFlashProgramPage p d s) (Keeps s) :=
  .ite (.raise _ (.refl s)) (.ite (.raise _ (.refl s)) (.ofCause _ _ (programPage_cycle _ _ s).keeps))

theorem execWriteFlashramBytes_frame (a l : Word) (d : List Byte) :
    Ends (execWriteFlashramBytes a l d s) (Frame (.writeFlashramBytes a l d) s) :=
  have hi : WritesStream (.writeFlashramBytes a l d) := .inl ⟨a, l, d, rfl⟩
  have hrefl := (Keeps.refl s).frame
  .ite (.raise _ hrefl) (.ite (.raise _ hrefl) (.ite (.finish _ _ _ hrefl)
    (.ofCause _ _ ((dropStream_frame hi s).trans (flashWriteBlocks_frame hi _ _ _ _ _)))))

theorem execWriteFlashramSector_frame (n : Word) (d : List Byte) :
    Ends (execWriteFlashramSector n d s) (Frame (.writeFlashramSector n d) s) :=
  have hi : WritesStream (.writeFlashramSector n d) := .inr ⟨n, d, rfl⟩
  have hrefl := (Keeps.refl s).frame
  have hsector := receiveSector_frame hi n.toNat d s
  .ite (.raise _ hrefl) (.ite (.raise _ hrefl) (.ite
    (.ofCause _ _ ((hsector.trans (dropStream_frame hi _)).trans (eraseAndProgram_cycle _ _).keeps.frame))
    (.finish _ _ _ hsector)))

/-- Every operation ends with a body that keeps its frame. -/
theorem exec_frame : (i : Instr) → Ends (exec i s) (Frame i s)
  | .busInit => .finish _ _ _ (busInitBody_keeps s).frame
  | .setDirection out => .finish _ _ _ (setDir_keeps out s).frame
  | .latchAddress a => .finish _ _ _ (latchAddress_keeps a s).frame
  | .readWord => (execReadWord_keeps s).mono Keeps.frame
  | .writeWord w => .finish _ _ _ (writeWord_keeps w s).frame
  | .assertReset active => execAssertReset_frame s active
  | .readRomBytes a l => (execReadRomBytes_keeps s a l).mono Keeps.frame
  | .detectRomSize => .finish _ _ _ (detectRom_keeps s).frame
  | .hasSram => .finish _ _ _ (sramProbe_cycle s).keeps.frame
  | .readSramBytes a l => (execReadSramBytes_keeps s a l).mono Keeps.frame
  | .writeSramBytes a l d => (execWriteSramBytes_keeps s a l d).mono Keeps.frame
  | .eepromSize => execEepromSize_frame s
  | .readEepromBlock b => (execReadEepromBlock_keeps s b).mono Keeps.frame
  | .writeEepromBlock b d => (execWriteEepromBlock_keeps s b d).mono Keeps.frame
  | .readEepromBytes a l => (execReadEepromBytes_keeps s a l).mono Keeps.frame
  | .writeAndVerifyEepromBytes a l d => (execWriteAndVerifyEepromBytes_keeps s a l d).mono Keeps.frame
  | .flashCommand k p => (execFlashCommand_keeps s k p).mono Keeps.frame
  | .flashReadStatus => .finish _ _ _ (readStatus_cycle s).keeps.frame
  | .flashWaitReady => (execFlashWaitReady_keeps s).mono Keeps.frame
  | .hasFlashram => (execHasFlashram_keeps s).mono Keeps.frame
  | .readFlashramBytes a l => (execReadFlashramBytes_keeps s a l).mono Keeps.frame
  | .flashEraseBlock b => (execFlashEraseBlock_keeps s b).mono Keeps.frame
  | .flashProgramPage p d => (execFlashProgramPage_keeps s p d).mono Keeps.frame
  | .writeFlashramBytes a l d => execWriteFlashramBytes_frame s a l d
  | .writeFlashramSector n d => execWriteFlashramSector_frame s n d
  | .flashCommandReset => .finish _ _ _ (sendCommand_cycle _ _ s).keeps.frame
  | .flashCommandReadArray => .finish _ _ _ (sendCommand_cycle _ _ s).keeps.frame
  | .flashCommandStatusMode => .finish _ _ _ (sendCommand_cycle _ _ s).keeps.frame
  | .flashCommandEraseSelect p => .finish _ _ _ (sendCommand_cycle _ p s).keeps.frame
  | .flashCommandEraseMode => .finish _ _ _ (sendCommand_cycle _ _ s).keeps.frame
  | .flashCommandProgram => .finish _ _ _ (sendCommand_cycle _ _ s).keeps.frame
  | .flashCommandPageSelect p => .finish _ _ _ (sendCommand_cycle _ p s).keeps.frame
  | .flashCommandExecute => .finish _ _ _ (sendCommand_cycle _ _ s).keeps.frame

end

/-- An operation ends in the contention fault, or idle and without contention (R280, R300). -/
theorem Ends.fault_or_next {o : Outcome} {P : State → Prop} (h : Ends o P) :
    o = .fault .busContention ∨
      ∃ st v d u, o = .next (endState st v d u) ∧ u.contention = false ∧ P u := by
  obtain ⟨st, v, d, u, rfl, hu⟩ := h
  cases hc : u.contention with
  | true => exact .inl (finish_fault hc st v d)
  | false => exact .inr ⟨st, v, d, u, finish_next hc st v d, hc, hu⟩

theorem exec_ends (i : Instr) (s : State) : exec i s = .fault .busContention ∨
    ∃ t, exec i s = .next t ∧ t.opState = .idle ∧ t.contention = false ∧ Frame i s t := by
  rcases (exec_frame s i).fault_or_next with h | ⟨st, v, d, u, ho, hc, f⟩
  · exact .inl h
  · exact .inr ⟨endState st v d u, ho, rfl, hc, f.cfg, f.inputs, f.launched, f.grows, f.rom, f.rstAsserted,
      f.eepSize, f.stream⟩

/-! ### A run ends (R338) -/

/-- A state from which a run goes on: the configuration is legal, the sequencer is between operations, every record
has a whole header, and the first one of a run not yet launched is `BUS_INIT` (R9, R339; log 16). -/
structure Runnable (s : State) : Prop where
  ok : s.cfg.ok = true
  sequencer : sequencerInv s
  whole : ∀ record ∈ issuedRecords s.inputs, 12 ≤ record.length
  first : s.launched = true ∨ firstBusInit s

/-- What a run's next step answers: a state from which the run goes on, with one move less. -/
def RunsOn (rest : List HostMove) (s : State) : Prop := ∃ t, step s = .next t ∧ t.inputs = rest ∧ Runnable t

section
variable {s : State} {rest : List HostMove}

theorem issuedRecords_issue (bytes : List Byte) (rest : List HostMove) :
    issuedRecords (.issue bytes :: rest) = bytes :: issuedRecords rest := rfl

theorem issuedRecords_change (env : Env) (rest : List HostMove) :
    issuedRecords (.changeCartridge env :: rest) = issuedRecords rest := rfl

/-- A cartridge change leaves the run where it is (R297). -/
theorem Runnable.change {env : Env} (h : Runnable s) (hmove : s.inputs = .changeCartridge env :: rest) :
    RunsOn rest s := by
  obtain ⟨hidle, hcon, hpins⟩ := h.sequencer
  refine ⟨_, step_change hcon h.ok hmove, rfl, h.ok, ⟨hidle, hcon, hpins⟩, ?_, ?_⟩
  · have hwhole := h.whole
    rwa [hmove, issuedRecords_change] at hwhole
  · have hfirst := h.first
    rwa [firstBusInit, hmove, issuedRecords_change] at hfirst

/-- Its record is `BUS_INIT`, unless the run is launched (R339). -/
theorem Runnable.launched_or_busInit {bytes : List Byte} (h : Runnable s) (hmove : s.inputs = .issue bytes :: rest) :
    s.launched = true ∨ decode s.cfg bytes = .ok .busInit := by
  refine h.first.imp_right ?_
  rintro ⟨record, others, hrecords, hdecode⟩
  rw [hmove, issuedRecords_issue] at hrecords
  cases hrecords
  exact hdecode

/-- The step at a record answers a next state, launched, which has taken that move and no other. -/
theorem Runnable.answers {bytes : List Byte} (h : Runnable s) (hmove : s.inputs = .issue bytes :: rest) :
    ∃ t, step s = .next t ∧ t.inputs = rest ∧ t.cfg = s.cfg ∧ t.launched = true := by
  obtain ⟨hidle, hcon, -⟩ := h.sequencer
  have hwhole : 12 ≤ bytes.length := by
    have hall := h.whole
    rw [hmove, issuedRecords_issue] at hall
    exact hall bytes List.mem_cons_self
  have hstep := step_issue hcon h.ok hmove
  have hfirst := h.launched_or_busInit hmove
  cases hdecode : decode s.cfg bytes with
  | ok i =>
    have hl : s.launched = true ∨ i = .busInit := by
      refine hfirst.imp_right fun e => ?_
      cases hdecode.symm.trans e
      rfl
    rw [fetchRecord_run hidle hdecode hl] at hstep
    rcases exec_ends i (acceptRecord rest s) with hfault | ⟨t, ht, -, -, f⟩
    · exact absurd (hstep.trans hfault) (step_ne_fault h.sequencer _)
    · exact ⟨t, hstep.trans ht, f.inputs, f.cfg, f.launched⟩
  | error e =>
    obtain ⟨cause, hcause⟩ := rejectCause_of_whole hwhole hdecode
    have hl : s.launched = true := by
      refine hfirst.resolve_right fun e => ?_
      cases hdecode.symm.trans e
    rw [fetchRecord_rejected hidle hdecode hcause hl] at hstep
    exact ⟨_, hstep.trans (raise_next (s := acceptRecord rest s) hcon cause), rfl, rfl, rfl⟩

theorem Runnable.issue {bytes : List Byte} (h : Runnable s) (hmove : s.inputs = .issue bytes :: rest) :
    RunsOn rest s := by
  obtain ⟨t, ht, hinputs, hcfg, hl⟩ := h.answers hmove
  refine ⟨t, ht, hinputs, hcfg ▸ h.ok, sequencerInv_of_step h.sequencer ht, ?_, .inl hl⟩
  have hwhole := h.whole
  rw [hmove, issuedRecords_issue] at hwhole
  rw [hinputs]
  exact fun record hrecord => hwhole record (List.mem_cons_of_mem _ hrecord)

end

/-- A run of as many steps as there are moves ends, with one more result a record (R338). -/
theorem Runnable.runFrom_ended {s : State} (h : Runnable s) (rs : List Result) :
    ∃ seen, runFrom s.inputs.length s rs = .ended seen ∧
      seen.results.length = rs.length + (issuedRecords s.inputs).length := by
  generalize hmoves : s.inputs = moves
  induction moves generalizing s rs with
  | nil =>
    refine ⟨{ trace := s.trace, results := rs.reverse, final := s.block }, ?_, List.length_reverse⟩
    rw [List.length_nil, runFrom, hmoves, runEnd, if_pos h.sequencer.1]
  | cons move rest ih =>
    cases move with
    | issue bytes =>
      obtain ⟨t, ht, hinputs, hrun⟩ := h.issue hmoves
      obtain ⟨seen, hend, hcount⟩ := ih hrun (t.result :: rs) hinputs
      refine ⟨seen, ?_, ?_⟩
      · rw [List.length_cons, runFrom, hmoves, ht]
        exact hend
      · rw [hcount, issuedRecords_issue, List.length_cons, List.length_cons]
        omega
    | changeCartridge env =>
      obtain ⟨t, ht, hinputs, hrun⟩ := h.change hmoves
      obtain ⟨seen, hend, hcount⟩ := ih hrun rs hinputs
      refine ⟨seen, ?_, hcount⟩
      rw [List.length_cons, runFrom, hmoves, ht]
      exact hend

/-- Settles O54: every body keeps its frame and ends by `finish` or `raise`; and from reset each move leaves a state
from which the run goes on. -/
theorem everyOperationFinishes : Obligations.EveryOperationFinishes := by
  constructor
  · intro i s
    refine (exec_ends i s).imp_right ?_
    rintro ⟨t, ht, hidle, hcon, f⟩
    obtain ⟨es, hevents⟩ := f.grows
    refine ⟨t, ht, hidle, ⟨f.cfg, f.inputs, f.launched, hcon⟩, ⟨es.reverse, ?_⟩, f.rom, f.rstAsserted,
      f.eepSize, fun hbytes hsector => ?_⟩
    · exact trace_of_events (by rw [List.reverse_reverse, hevents])
    · have hi : ¬ WritesStream i := by
        rintro (⟨a, l, d, e⟩ | ⟨n, d, e⟩)
        · exact hbytes a l d e
        · exact hsector n d e
      obtain ⟨hactive, hblock, hbitmap, hbuf⟩ := f.stream hi
      exact ⟨hactive, hblock, hbitmap, fun a => by rw [hbuf]⟩
  · intro s hok hfirst hreset hcon hwhole
    have h : Runnable s := ⟨hok, fromReset.sequencerInv hreset hcon, hwhole, .inr hfirst⟩
    obtain ⟨seen, hend, hcount⟩ := h.runFrom_ended []
    exact ⟨seen, hend, hcount.trans (Nat.zero_add _)⟩

end Sys2Proof.Machine

/-! SUPPORT. The state after reset (spec/70_reset_and_hazards.md R310): what every start of a run has of the invariants,
then the values of the model's own reset. -/

namespace Sys2Proof.Machine

/-! ### The registers at the start of a run (R310) -/

/-- No stream is in flight, and a legal configuration has a sector whose bit is 0 (R9, R32-R34). -/
theorem fromReset.streamInv {s : State} (h : fromReset s) (hok : s.cfg.ok = true) : streamInv s := by
  obtain ⟨-, -, hactive, -, hbitmap, -⟩ := h
  refine ⟨?_, ?_, fun _ => hbitmap, fun e => absurd (hactive.symm.trans e) (by decide)⟩
  · rw [hbitmap, List.length_replicate]
  · rw [hbitmap]
    exact replicate_not_full hok

/-- No EEPROM's size is recorded yet (R43). -/
theorem fromReset.eepSizeInv {s : State} (h : fromReset s) : eepSizeInv s := by
  obtain ⟨-, -, -, -, -, heep, -⟩ := h
  exact .inl heep

/-! ### The model's own reset -/

/-- The parameters at reset satisfy the relations of R9 and the domains of the other rules (logs 2 to 5). -/
theorem reset_cfg_ok : State.reset.cfg.ok = true := by decide

theorem reset_cfg_domains : State.reset.cfg.domains = true := by decide

/-- A block of the chip has 256 sectors (R8), so R34's bitmap has as many bits. -/
theorem reset_sectorsPerBlock : State.reset.cfg.sectorsPerBlock = 256 := by decide

theorem reset_fromReset : fromReset State.reset := by
  refine ⟨rfl, rfl, rfl, rfl, ?_, rfl, rfl, rfl⟩
  rw [reset_sectorsPerBlock]
  rfl

/-- The environment at reset is an oracle, which has no ROM whose size R81 could ask for, and the host has no move yet
(logs 1 and 8). -/
theorem reset_memoryInv : memoryInv State.reset := by
  obtain ⟨hbuf, henv⟩ := reset_memory_wf
  exact ⟨hbuf, henv, rfl, fun _ hm => absurd hm List.not_mem_nil⟩

/-- Settles O59: the values are read off the reset state; it is a start of a run, and every start of a run has the
invariants of the registers. -/
theorem resetStateMeetsInvariants : Obligations.ResetStateMeetsInvariants :=
  ⟨rfl, rfl, rfl, rfl, rfl, rfl, reset_cfg_ok, reset_cfg_domains, reset_fromReset,
    reset_fromReset.sequencerInv rfl, reset_memoryInv, reset_fromReset.streamInv reset_cfg_ok,
    reset_fromReset.eepSizeInv⟩

end Sys2Proof.Machine
